-- ==== Sys2Proof/Word.lean ====
section
/-! DEFINITION. The word types of the Ireus (spec 00, Table 0-3: little-endian, bit 0 least significant). -/

namespace Sys2Proof

/-- A 32-bit register value. -/
abbrev Word := BitVec 32

/-- A 64-bit value: a register pair, an address, a counter. -/
abbrev DWord := BitVec 64

/-- One byte of memory. -/
abbrev Byte := BitVec 8

/-- One 96-bit instruction word (R28). -/
abbrev IWord := BitVec 96

end Sys2Proof
end

