-- ==== Sys2Proof/Syntax.lean ====
section
/-! DEFINITION. The steps of the Ireus as syntax: the 187 instruction forms of Table 4-1 with their operands, guard,
hints and modifiers; the Xsknm instructions of Table 8-9; and the events of the other agents (spec 95). -/

namespace Sys2Proof

/-- Special registers (Table 3-6). -/
inductive SReg where
  | lane | wave | group | quad | core | die | device | active
  | nameLo | nameHi | gnameLo | gnameHi | clockLo | clockHi | gsize | wsize | sig | fflags
  deriving DecidableEq, Repr

/-- Named resources of operand class 5 (Table 3-5). -/
inductive Res where
  | b (n : BitVec 3) | c (n : BitVec 4) | wp (n : BitVec 3) | tl (n : BitVec 4) | cc (n : BitVec 6)
  deriving DecidableEq, Repr

/-- An operand field (R36, Table 3-5). Class 6 carries the literal that X holds (R32). -/
inductive Opnd where
  | v (n : BitVec 8) | s (n : BitVec 6) | p (n : BitVec 6) | pT | sr (r : SReg)
  | imm (x : BitVec 8) | res (r : Res) | lit (x : Word) | null
  deriving DecidableEq, Repr

/-- Guard and scheduling hints of a word (Table 3-1). -/
structure Ctl where
  gn : Bool
  gp : BitVec 6
  stall : BitVec 4
  yld : Bool
  reuseB : Bool
  reuseC : Bool
  reuseD : Bool
  rgp : Bool
  deriving DecidableEq, Repr

/-- Agent scope and storage mask of format M (R31, Table 2-1). -/
structure Scope where
  agent : BitVec 3
  mask : BitVec 4
  deriving DecidableEq, Repr

/-- Integer compare conditions (Table 6-1). -/
inductive ICond where
  | eq | ne | lt | le | gt | ge
  deriving DecidableEq, Repr

/-- Floating-point compare conditions (Table 6-1). -/
inductive FCond where
  | eq | ne | lt | le | gt | ge | un | num
  deriving DecidableEq, Repr

/-- Rounding modes (R78). -/
inductive Rnd where
  | rn | rz | ru | rd
  deriving DecidableEq, Repr

/-- Value formats, in the order of the codes of Table 5-3. -/
inductive Fmt where
  | int8 | uint8 | e4m3 | e5m2 | mk8 | int4 | e2m1 | fp16 | bf16 | fp32 | int32 | fp64 | s8
  deriving DecidableEq, Repr

/-- VOTE modes (Table 6-1). -/
inductive VoteMode where
  | all | any | uni
  deriving DecidableEq, Repr

/-- REDUX operations (Table 6-1). -/
inductive RedOp where
  | add | min | max | and | or | xor
  deriving DecidableEq, Repr

/-- Access widths 1, 2, 4, 8 and 16 bytes (R33). -/
inductive Width where
  | b8 | b16 | b32 | b64 | b128
  deriving DecidableEq, Repr

/-- Atomic operations (Table 12-9). -/
inductive AtomOp where
  | add | and | or | xor | min | max | exch | inc | dec | fadd
  deriving DecidableEq, Repr

/-- Tile shapes (Table 7-1). -/
inductive Shape where
  | a | b | c
  deriving DecidableEq, Repr

/-- Domains of INV (Table 7-6). -/
inductive Dom where
  | u32 | s32 | f32
  deriving DecidableEq, Repr

/-- Bracket words read by BRGET (R127). -/
inductive BrField where
  | lo | hi | flo | fhi | st
  deriving DecidableEq, Repr

/-- Levels of CANCEL (Table 8-7). -/
inductive CancelLvl where
  | grp | launch | graph | phase | job
  deriving DecidableEq, Repr

/-- Levels of HBARARR (Table 9-5). -/
inductive HLvl where
  | team | die | package
  deriving DecidableEq, Repr

/-- A fabric destination: a cellar node or a peer device (R333). -/
inductive Dest where
  | node (n : BitVec 22) | peer (n : BitVec 22)
  deriving DecidableEq, Repr

/-- One grantee of a grant list (R334). -/
structure Grantee where
  dev : BitVec 22
  vf : BitVec 8
  gen : BitVec 16
  r : Bool
  w : Bool
  deriving DecidableEq, Repr

/-- A registration of the network engine (R353). -/
inductive Registration where
  | none
  | region (tag : BitVec 52) (base len : DWord) (r w : Bool) (cc : Option (BitVec 6))
  | ring (tag : BitVec 52) (base : DWord) (k : BitVec 4) (cc : BitVec 6) (count released : BitVec 32)
  deriving DecidableEq, Repr

/-- Writable registers with no behaviour of their own (R5; Tables 8-10, 8-11, 10-1, 12-6, 14-16, 15-1, 16-3, 16-5,
16-6). -/
inductive HostReg where
  | mailboxArg (i : BitVec 2) | mailboxRej
  | notifyValue (i : BitVec 12) | notifySig (i : BitVec 12) | notifyRoute (i : BitVec 12)
  | npRef (fn k : BitVec 8) | npVal (fn k : BitVec 8) | npRej (fn k : BitVec 8)
  | svcIdx (ctx : BitVec 16)
  | queueBase (ctx : BitVec 16) (q : BitVec 6) | queueLogsz (ctx : BitVec 16) (q : BitVec 6)
  | queuePrio (ctx : BitVec 16) (q : BitVec 6)
  | dlogBmap (ctx : BitVec 16) (second : Bool) | dlogBase (ctx : BitVec 16) (second : Bool)
  | dlogTail (ctx : BitVec 16) (second : Bool) | dlogOvf (ctx : BitVec 16) (second : Bool)
  | dlogSize (ctx : BitVec 16) (second : Bool)
  | linkMode (n : BitVec 5)
  | monThresholds (die : BitVec 2)
  | reserved
  deriving DecidableEq, Repr

/-- An incoming network packet (R353). -/
inductive NetPacket where
  | rmaWrite (key : DWord) (off : DWord) (data : List Byte) (last : Bool)
  | rmaRead (key : DWord) (off : DWord) (len : Nat)
  | send (ri : BitVec 12) (job : Word) (data : List Byte)
  | readReply (req : Nat) (off : Nat) (data : List Byte)
  | other
  deriving DecidableEq, Repr

/-- A name operation on a target (R149). -/
inductive NameAct where
  | wake | signal | deposit (slot : BitVec 5) (val : Word)
  deriving DecidableEq, Repr

/-- Every step of the machine: one constructor for each row of opcode_table.json. In the device forms `k` holds the
guard and hints, and `a b c d` the operands OPA, OPB, OPC and OPD. -/
inductive Instr where
  -- group 0x00, integer arithmetic (Table 6-3)
  | iadd (k : Ctl) (a b c : Opnd) | isub (k : Ctl) (a b c : Opnd) | imul (k : Ctl) (a b c : Opnd)
  | imulhi (k : Ctl) (a b c : Opnd) (u : Bool) | imad (k : Ctl) (a b c d : Opnd)
  | imin (k : Ctl) (a b c : Opnd) (u : Bool) | imax (k : Ctl) (a b c : Opnd) (u : Bool)
  | iabs (k : Ctl) (a b : Opnd) | ineg (k : Ctl) (a b : Opnd)
  | iaddc (k : Ctl) (a b c d : Opnd) | isubb (k : Ctl) (a b c d : Opnd)
  | iaddsat (k : Ctl) (a b c : Opnd) (u : Bool)
  | idot4 (k : Ctl) (a b c d : Opnd) (u sat : Bool) | isad (k : Ctl) (a b c d : Opnd) (u : Bool)
  | iadd64 (k : Ctl) (a b c : Opnd) | imad64 (k : Ctl) (a b c d : Opnd) (u : Bool)
  -- group 0x01, logic and bits (Table 6-4)
  | and (k : Ctl) (a b c : Opnd) | or (k : Ctl) (a b c : Opnd) | xor (k : Ctl) (a b c : Opnd)
  | not (k : Ctl) (a b : Opnd) | andn (k : Ctl) (a b c : Opnd)
  | shl (k : Ctl) (a b c : Opnd) | shr (k : Ctl) (a b c : Opnd) | sar (k : Ctl) (a b c : Opnd)
  | rot (k : Ctl) (a b c : Opnd) (right : Bool) | bfe (k : Ctl) (a b c : Opnd) (sx : Bool)
  | bfi (k : Ctl) (a b c d : Opnd) | popc (k : Ctl) (a b : Opnd) | clz (k : Ctl) (a b : Opnd)
  | brev (k : Ctl) (a b : Opnd) | tern (k : Ctl) (a b c d : Opnd) (tt : BitVec 8)
  | perm (k : Ctl) (a b c d : Opnd)
  -- group 0x02, compare, select and move (R94, R95)
  | icmp (k : Ctl) (a b c : Opnd) (cc : ICond) (u : Bool) | fcmp (k : Ctl) (a b c : Opnd) (cc : FCond)
  | sel (k : Ctl) (a b c d : Opnd) | ptern (k : Ctl) (a b c d : Opnd) (tt : BitVec 8)
  | p2v (k : Ctl) (a b : Opnd) (cnt : BitVec 5) | v2p (k : Ctl) (a b : Opnd) (cnt : BitVec 5)
  | mov (k : Ctl) (a b : Opnd) | movx (k : Ctl) (a b : Opnd) | fclass (k : Ctl) (a b : Opnd) (w : Bool)
  -- group 0x03, FP32 arithmetic (R96 to R99)
  | fadd (k : Ctl) (a b c : Opnd) (rm : Rnd) (sat : Bool) | fsub (k : Ctl) (a b c : Opnd) (rm : Rnd) (sat : Bool)
  | fmul (k : Ctl) (a b c : Opnd) (rm : Rnd) (sat : Bool) | ffma (k : Ctl) (a b c d : Opnd) (rm : Rnd) (sat : Bool)
  | fmin (k : Ctl) (a b c : Opnd) | fmax (k : Ctl) (a b c : Opnd)
  | frcp (k : Ctl) (a b : Opnd) (rm : Rnd) (sat : Bool) | frsq (k : Ctl) (a b : Opnd)
  | fsqrt (k : Ctl) (a b : Opnd) (rm : Rnd) (sat : Bool) | fdiv (k : Ctl) (a b c : Opnd) (rm : Rnd) (sat : Bool)
  | fexp2 (k : Ctl) (a b : Opnd) | flog2 (k : Ctl) (a b : Opnd) | fsin (k : Ctl) (a b : Opnd)
  | fcos (k : Ctl) (a b : Opnd) | ftanh (k : Ctl) (a b : Opnd) | ffrac (k : Ctl) (a b : Opnd) (rm : Rnd) (sat : Bool)
  -- group 0x04, packed FP16 and BF16
  | hadd2 (k : Ctl) (a b c : Opnd) (rm : Rnd) (sat : Bool) | hmul2 (k : Ctl) (a b c : Opnd) (rm : Rnd) (sat : Bool)
  | hfma2 (k : Ctl) (a b c d : Opnd) (rm : Rnd) (sat : Bool)
  | hmin2 (k : Ctl) (a b c : Opnd) | hmax2 (k : Ctl) (a b c : Opnd) | hcmp2 (k : Ctl) (a b c : Opnd) (cc : FCond)
  | badd2 (k : Ctl) (a b c : Opnd) (rm : Rnd) (sat : Bool) | bmul2 (k : Ctl) (a b c : Opnd) (rm : Rnd) (sat : Bool)
  | bfma2 (k : Ctl) (a b c d : Opnd) (rm : Rnd) (sat : Bool)
  | bmin2 (k : Ctl) (a b c : Opnd) | bmax2 (k : Ctl) (a b c : Opnd) | bcmp2 (k : Ctl) (a b c : Opnd) (cc : FCond)
  -- group 0x05, FP64
  | dadd (k : Ctl) (a b c : Opnd) (rm : Rnd) (sat : Bool) | dmul (k : Ctl) (a b c : Opnd) (rm : Rnd) (sat : Bool)
  | dfma (k : Ctl) (a b c d : Opnd) (rm : Rnd) (sat : Bool)
  | dmin (k : Ctl) (a b c : Opnd) | dmax (k : Ctl) (a b c : Opnd) | dcmp (k : Ctl) (a b c : Opnd) (cc : FCond)
  | drcp (k : Ctl) (a b : Opnd) (rm : Rnd) (sat : Bool)
  -- group 0x06, conversion (R100 to R102)
  | cvt (k : Ctl) (a b : Opnd) (dst src : Fmt) (rm : Rnd) (sat : Bool) (el : BitVec 3)
  | pack8 (k : Ctl) (a b c : Opnd) (fmt : Fmt) (rm : Rnd) (sat : Bool)
  | unpack8 (k : Ctl) (a b c : Opnd) (fmt : Fmt) (rm : Rnd)
  | pack4 (k : Ctl) (a b c : Opnd) (fmt : Fmt) (rm : Rnd) (sat : Bool)
  | unpack4 (k : Ctl) (a b c : Opnd) (fmt : Fmt) (rm : Rnd)
  | scaleq (k : Ctl) (a b : Opnd) (fmt : Fmt)
  -- group 0x07, lane instructions (Table 6-7)
  | shfl (k : Ctl) (a b c : Opnd) | shflup (k : Ctl) (a b c : Opnd) | shfldn (k : Ctl) (a b c : Opnd)
  | shflx (k : Ctl) (a b c : Opnd) | vote (k : Ctl) (a b : Opnd) (mode : VoteMode)
  | ballot (k : Ctl) (a b : Opnd) | rfl (k : Ctl) (a b : Opnd)
  | rlane (k : Ctl) (a b c : Opnd) | wlane (k : Ctl) (a b c : Opnd) | bcast (k : Ctl) (a b c : Opnd)
  | redux (k : Ctl) (a b : Opnd) (op : RedOp) (u : Bool) | matchLanes (k : Ctl) (a b : Opnd) (all : Bool)
  -- group 0x08, scalar memory (R107, R108)
  | sld (k : Ctl) (a b : Opnd) (w : Width) (off : BitVec 24) (sc : Scope)
  | sldarg (k : Ctl) (a : Opnd) (pair : Bool) (off4 : BitVec 10)
  -- group 0x10, control (Table 8-6)
  | bra (k : Ctl) (off : Word) | bru (k : Ctl) (off : Word) | call (k : Ctl) (a : Opnd) (off : Word)
  | ret (k : Ctl) (b : Opnd) | jtab (k : Ctl) (b : Opnd) (tab : Word)
  | land (k : Ctl) (a b c d : Opnd) (label : BitVec 16) (m dir : Bool)
  | rcvset (k : Ctl) (n : BitVec 5) | rcvwait (k : Ctl) (n : BitVec 5) | rcvdrop (k : Ctl) (n : BitVec 5)
  | exit (k : Ctl) | yield (k : Ctl) | nop (k : Ctl) | brk (k : Ctl) (code : Word)
  -- group 0x11, threads and names (Table 8-7)
  | spawn (k : Ctl) (a c : Opnd) (entry : Word) | take (k : Ctl) (a b : Opnd) (entry : Word)
  | park (k : Ctl) | wake (k : Ctl) (a b : Opnd) (grp trap : Bool) | signal (k : Ctl) (a b : Opnd) (grp trap : Bool)
  | deposit (k : Ctl) (a b c : Opnd) (grp trap : Bool) (slot : BitVec 5)
  | join (k : Ctl) (a b c : Opnd) (grp trap : Bool) | nameof (k : Ctl) (a b c : Opnd) (grp : Bool)
  | nprobe (k : Ctl) (a b : Opnd) (grp trap : Bool) | emit (k : Ctl) (a : Opnd) (entry : Word)
  | gdone (k : Ctl) | cancel (k : Ctl) (a b : Opnd) (lvl : CancelLvl)
  -- group 0x12, barriers (Table 9-5)
  | barinit (k : Ctl) (b d : Opnd) (bar : BitVec 10) | bararr (k : Ctl) (d : Opnd) (bar : BitVec 10)
  | barwait (k : Ctl) (d : Opnd) (bar : BitVec 10) | barsync (k : Ctl) (d : Opnd) (bar : BitVec 10)
  | barbyte (k : Ctl) (a b d : Opnd) (bar : BitVec 10) | bartry (k : Ctl) (a d : Opnd) (bar : BitVec 10)
  | cset (k : Ctl) (a : Opnd) | csign (k : Ctl) (a : Opnd) | cwait (k : Ctl) (a : Opnd)
  | hbararr (k : Ctl) (h : BitVec 4) (lvl : HLvl) | hbarwait (k : Ctl) (h : BitVec 4)
  -- group 0x14, memory (Table 12-8, R256, R258)
  | ld (k : Ctl) (a b : Opnd) (w : Width) (sx acq : Bool) (pol : BitVec 2) (off : BitVec 24) (sc : Scope)
  | st (k : Ctl) (a b : Opnd) (w : Width) (rel : Bool) (pol : BitVec 2) (flag : Bool) (off : BitVec 24) (sc : Scope)
  | lds (k : Ctl) (a b : Opnd) (w : Width) (sx : Bool) (off : BitVec 24) (sc : Scope)
  | sts (k : Ctl) (a b : Opnd) (w : Width) (off : BitVec 24) (sc : Scope)
  | atom (k : Ctl) (a b : Opnd) (w : Width) (sg : Bool) (op : AtomOp) (nc : Bool) (off : BitVec 24) (sc : Scope)
  | cas (k : Ctl) (a b : Opnd) (w : Width) (nc : Bool) (off : BitVec 24) (sc : Scope)
  | atoms (k : Ctl) (a b : Opnd) (w : Width) (sg : Bool) (op : AtomOp) (off : BitVec 24) (sc : Scope)
  | cass (k : Ctl) (a b : Opnd) (w : Width) (off : BitVec 24) (sc : Scope)
  | ldto (k : Ctl) (a b c d : Opnd) (ack : Bool) (tl : BitVec 4) (win : BitVec 3)
  | rxwin (k : Ctl) (a b c d : Opnd) (bb : Bool) (bar : BitVec 10) (win : BitVec 3)
  | rxclose (k : Ctl) (a : Opnd) (win : BitVec 3) | fence (k : Ctl) (sc : Scope)
  | pref (k : Ctl) (b : Opnd) (l2 : Bool) (off : BitVec 24) (sc : Scope)
  | cflush (k : Ctl) (b : Opnd) (inv : Bool) (off : BitVec 24) (sc : Scope)
  -- group 0x15, copies and waits (Tables 12-15, 12-16, R265)
  | cpy (k : Ctl) (a b c d : Opnd) (tle : Bool) (tl : BitVec 4)
  | cpy2 (k : Ctl) (a b c d : Opnd) (tle : Bool) (tl : BitVec 4)
  | cpyg (k : Ctl) (a b c d : Opnd) (tle : Bool) (tl : BitVec 4)
  | cpys (k : Ctl) (a b c d : Opnd) (tle : Bool) (tl : BitVec 4)
  | cpym (k : Ctl) (a b c : Opnd) (tle : Bool) (tl : BitVec 4) (recv : BitVec 6)
  | wpread (k : Ctl) (a b : Opnd) | wpwait (k : Ctl) (b c : Opnd)
  | tlread (k : Ctl) (a b : Opnd) (iss : Bool) | tlwait (k : Ctl) (b c : Opnd)
  | wait (k : Ctl) (ld st cp mx rm nm : BitVec 5)
  -- groups 0x18 and 0x19, matrix (R116, R120)
  | mma8a (k : Ctl) (a b c d : Opnd) | mma8b (k : Ctl) (a b c d : Opnd) | mma8c (k : Ctl) (a b c d : Opnd)
  | mma4a (k : Ctl) (a b c d : Opnd) | mma4b (k : Ctl) (a b c d : Opnd) | mma4c (k : Ctl) (a b c d : Opnd)
  | mmaz (k : Ctl) (a : Opnd) (sh : Shape)
  | mma16a (k : Ctl) (a b c d : Opnd) | mma16b (k : Ctl) (a b c d : Opnd) | mma16c (k : Ctl) (a b c d : Opnd)
  -- group 0x1A, latch and accumulator moves (Table 7-4)
  | latchl (k : Ctl) (b : Opnd) (rows64 sc : Bool) | latchg (k : Ctl) (b c d : Opnd) (rows64 sc : Bool)
  | latchclr (k : Ctl) | accst (k : Ctl) (a b : Opnd) (sh : Shape) | accld (k : Ctl) (a b : Opnd) (sh : Shape)
  -- group 0x1C, invert (R127, R128)
  | inv (k : Ctl) (a b c : Opnd) (fall : Bool) (dom : Dom) (pd : BitVec 6) (budget : BitVec 6) (tol : BitVec 12)
  | brset (k : Ctl) (a b c d : Opnd) (fv : Bool) | brget (k : Ctl) (a b : Opnd) (f : BrField)
  | callm (k : Ctl) (off : Word) | invRound (g i : Nat)
  -- group 0x1E, network (Table 15-7)
  | npost (k : Ctl) (b : Opnd) | nwait (k : Ctl) (b c : Opnd) | nread (k : Ctl) (a b c d : Opnd)
  | narm (k : Ctl) (a b c d : Opnd) (trap : Bool)
  -- group 0x3F, system (Table 14-11)
  | trap (k : Ctl) (code : Word) | rte (k : Ctl) | srd (k : Ctl) (a : Opnd) (reg : BitVec 10)
  | swr (k : Ctl) (b : Opnd) (reg : BitVec 10) | tlbinv (k : Ctl) (b c : Opnd) (va : Bool)
  | ntinv (k : Ctl) (b : Opnd) (one : Bool) | svc (k : Ctl) (a : Opnd) (code : Word) | dbghalt (k : Ctl)
  -- Xsknm (Table 8-9), executed by the hart that the step has chosen
  | nwake (trap grp : Bool) (rs1 rd : BitVec 5) | nsig (trap grp : Bool) (rs1 rd : BitVec 5)
  | ndep (trap grp : Bool) (slot rs2 rs1 rd : BitVec 5) | njoin (trap grp : Bool) (rs1 rd : BitVec 5)
  -- name port pages: function, page (R179)
  | namePortWake (fn k : BitVec 8) (grp : Bool) | namePortSignal (fn k : BitVec 8) (grp : Bool)
  | namePortDeposit (fn k : BitVec 8) (grp : Bool) (slot : BitVec 5) | namePortJoin (fn k : BitVec 8) (grp : Bool)
  | namePortProbe (fn k : BitVec 8) (grp : Bool) | namePortCancel (fn k : BitVec 8)
  | namePortBadOp (fn k : BitVec 8)
  | notifyWakeClear (i : BitVec 12) (v : BitVec 16)
  -- mailbox commands (Table 16-3); operands as typed arguments
  | loadContext (rec : DWord) | resume (ctx : BitVec 16) | killCtx (ctx : BitVec 16)
  | moveCores (cores : List (BitVec 8)) (part : BitVec 6) (margin : Bool)
  | lendList (part : BitVec 6) (list : List (BitVec 6)) | bindHart (h : BitVec 5) (ctx : BitVec 16)
  | grantList (owner : Option (BitVec 22)) (region : BitVec 20) (list : List Grantee)
  | registration (ctx : BitVec 16) (idx : BitVec 12) (r : Registration)
  | residenceAnswer (ctx : BitVec 16) (va : DWord) (supply : Option (BitVec 128 × DWord))
  | sealRegion (region : BitVec 19) (code : BitVec 2) (hostWritable : Bool)
  | attest (nonce : BitVec 256) | readCounters (ctx : BitVec 16) | assignFunction (fn : BitVec 8) (ctx : BitVec 16)
  | raiseSecurityFloor (min : Word) (sigOk : Bool) | mailboxBadCmd (cmd : BitVec 16)
  -- start (Tables 16-4, 16-8): the outcome of each step is the environment's
  | coldStart (fail : Option (BitVec 8)) (linksFailed : List (BitVec 5))
  | warmStart (fail : Option (BitVec 8)) (linksFailed : List (BitVec 5)) (retrained : BitVec 12)
  | stop
  -- queue and ring registers
  | doorbell (ctx : BitVec 16) (q : BitVec 6) (v : Word) | queueEnable (ctx : BitVec 16) (q : BitVec 6)
  | queueDisable (ctx : BitVec 16) (q : BitVec 6) | svcval (ctx : BitVec 16) (v : DWord)
  | svctail (ctx : BitVec 16) (v : Word) | errtail (ctx : BitVec 16) (v : Word)
  | linkEnable (n : BitVec 5) | linkDisable (n : BitVec 5) | registerWrite (r : HostReg) (v : DWord)
  | hostMemoryAccess (addr : DWord) (w : Width) (data : Option (BitVec 128))
  -- launch scheduler
  | queueHeadExamine (ctx : BitVec 16) (q : BitVec 6) | groupPlace (die : BitVec 2) | groupReside (core : BitVec 8)
  | groupSteal (core : BitVec 8) | binTimerExpiry (die : BitVec 2) (slot : BitVec 12)
  | binPushDeferred (id : Nat) | takeAnswer (id : Nat)
  -- name controller and completions
  | nameDelivery (id : Nat) | joinComplete (id : Nat) | completionEvent (g : Nat)
  | accessComplete (id : Nat) (lanes : Word) | lateLaneRecord (id : Nat)
  -- page service
  | faultResolved (g w e : Nat) | faultResolutionFail (g w e : Nat) | hostPageRequest (ctx : BitVec 16) (va : DWord)
  | migrationStart (id : Nat) | migrationComplete (id : Nat) | residencyExpiry (id : Nat)
  | groupMigration (g : Nat) (core : BitVec 8) | groupMigrationComplete (g : Nat)
  -- engines
  | copyDelivery (g : Nat) (wp : BitVec 3) (n : Nat) | copyComplete (g : Nat) (wp : BitVec 3)
  | copyStop (g : Nat) (wp : BitVec 3)
  | hbarArrivalMessage (id : Nat) | hbarReleaseMessage (id : Nat)
  | mmaComplete (id : Nat) | latchMoveComplete (id : Nat)
  | ownerRead (id : Nat) | deliveryArrival (id : Nat) | deliveryReport (id : Nat)
  -- fabric
  | remoteRequestArrival (id : Nat) | remoteAnswerArrival (id : Nat) | resendTimeout (id : Nat) (street : BitVec 2)
  | requestFail (id : Nat) | packetAgeDiscard (id : Nat)
  | linkTrained (n : BitVec 5) (node : BitVec 22) (port : BitVec 7) (limReq limRep : BitVec 16) (salt : Word)
  | linkTrainingTimeout (n : BitVec 5) | linkRetrain (n : BitVec 5) | retrainTimeout (n : BitVec 5)
  -- released: bytes that skid mode let through, as (0, line of memory) or (group + 1, scratchpad offset)
  | flitGroupReceive (n : BitVec 5) (tagOk : Bool) (released : List (Nat × Nat)) (ret : Option (Bool × BitVec 16))
  | allowanceLapse (id : Nat) | vfTeardown (fn : BitVec 8) | generationNotice (d : Dest) (fn : BitVec 8)
  | teardownComplete (fn : BitVec 8)
  -- network engine
  | workRequestAccept (id : Nat) | networkPacketArrival (ctx : BitVec 16) (p : NetPacket) | networkAck (id : Nat)
  | networkRetransmit (id : Nat) | networkRequestFail (id : Nat) (refused : Bool)
  -- control processor
  | contextSchedule (core : BitVec 8) (ctx : BitVec 16) | contextLoadComplete (core : BitVec 8)
  | bankSwap (core : BitVec 8) | spillRequest (core : BitVec 8) (ctx : BitVec 16) | spillComplete (core : BitVec 8)
  | groupRestoreComplete (g : Nat) | sliceEnd (core : BitVec 8) | graceExpiry (core : BitVec 8)
  | killTimerExpiry (core : BitVec 8) | coreLend (core : BitVec 8) (part : BitVec 6) | lendRevoke (core : BitVec 8)
  | partitionMoveEffect (core : BitVec 8)
  | debugHaltCommand (g w l : Nat) | debugResume (g w l : Nat) | debugStep (g w l : Nat)
  | monitorEvaluation | droopEvent (die : BitVec 2) | thermalTrip (die : BitVec 2) (sensor : BitVec 6)
  | unassignedEncoding (w : IWord) | powerOn
  | streetFailureReport (cls : BitVec 16) (street : BitVec 2)
  | debuggerAttach (ctx : BitVec 16) (attach allStop : Bool)
  | hartMemoryAccess (h : BitVec 5) (kind : BitVec 2) (addr : DWord) (w : Width) (data : DWord)
  | hartInterrupt (h : BitVec 5) | cxlCacheSnoop (addr : DWord) (invalidate : Bool)
  | scratchpadSplit (core : BitVec 8) (units : BitVec 3)
  deriving DecidableEq, Repr

end Sys2Proof
end

