-- ==== Sys2Proof/Machine/Numbers.lean ====
section
/-! DEFINITION. Value formats, exact values and rounding (spec 05). A value is exact until it is rounded once. -/

namespace Sys2Proof.Machine

/-- The sticky flags of sr.fflags (Table 3-7): NV, DZ, OF, UF, NX from bit 4 down to bit 0. -/
abbrev FFlags := BitVec 5

def flagNV : FFlags := 16
def flagDZ : FFlags := 8
def flagOF : FFlags := 4
def flagUF : FFlags := 2
def flagNX : FFlags := 1

/-- An exact value. `fin neg m e st` is ±(m + δ) × 2^e, with δ = 0 when `st` is false and 0 < δ < 1 when it is true
(a quotient, a root or a transcendental value, carried with far more bits than any format). -/
inductive Val where
  | nan
  | inf (neg : Bool)
  | fin (neg : Bool) (m : Nat) (e : Int) (st : Bool)
  deriving DecidableEq, Repr

namespace Val

def zero (neg : Bool) : Val := .fin neg 0 0 false
def ofInt (x : Int) : Val := .fin (x < 0) x.natAbs 0 false
def isNan : Val → Bool | .nan => true | _ => false
def isInf : Val → Bool | .inf _ => true | _ => false
def isZero : Val → Bool | .fin _ 0 _ false => true | _ => false
def sign : Val → Bool | .nan => false | .inf n => n | .fin n _ _ _ => n
def neg : Val → Val | .nan => .nan | .inf n => .inf (!n) | .fin n m e s => .fin (!n) m e s
def abs : Val → Val | .nan => .nan | .inf _ => .inf false | .fin _ m e s => .fin false m e s

end Val

/-- m × 2^e as an integer in units of 2^u, for u at most e. -/
def scaled (neg : Bool) (m : Nat) (e u : Int) : Int :=
  let x : Int := (m <<< (e - u).toNat : Nat)
  if neg then -x else x

/-- Compare two values that are neither NaN: −1, 0 or 1 (−0 equals +0). -/
def cmpVal (x y : Val) : Int :=
  match x, y with
  | .inf a, .inf b => if a == b then 0 else if a then -1 else 1
  | .inf a, _ => if a then -1 else 1
  | _, .inf b => if b then 1 else -1
  | .fin n m e _, .fin n' m' e' _ =>
    let u := min e e'
    let d := scaled n m e u - scaled n' m' e' u
    if d < 0 then -1 else if d = 0 then 0 else 1
  | _, _ => 0

/-- A floating-point format with IEEE-style fields (Tables 5-1 and 5-2): precision with the hidden bit, exponent of the
smallest normal, exponent bias, fraction bits, total bits, whether it has infinities, and its largest finite value
`maxM` × 2^`maxE`. -/
structure FFmt where
  p : Nat
  emin : Int
  bias : Int
  frac : Nat
  bits : Nat
  hasInf : Bool
  maxM : Nat
  maxE : Int
  deriving DecidableEq, Repr

def fp64 : FFmt := ⟨53, -1022, 1023, 52, 64, true, 2 ^ 53 - 1, 971⟩
def fp32 : FFmt := ⟨24, -126, 127, 23, 32, true, 2 ^ 24 - 1, 104⟩
def fp16 : FFmt := ⟨11, -14, 15, 10, 16, true, 2 ^ 11 - 1, 5⟩
def bf16 : FFmt := ⟨8, -126, 127, 7, 16, true, 2 ^ 8 - 1, 120⟩
def e5m2 : FFmt := ⟨3, -14, 15, 2, 8, true, 7, 13⟩
def e4m3 : FFmt := ⟨4, -6, 7, 3, 8, false, 14, 5⟩
def e2m1 : FFmt := ⟨2, 0, 1, 1, 4, false, 3, 1⟩

/-- Canonical NaN codes (Table 5-8). E2M1 has none. -/
def canonNan : Fmt → Nat
  | .fp64 => 0x7FF8000000000000
  | .fp32 => 0x7FC00000
  | .fp16 => 0x7E00
  | .bf16 => 0x7FC0
  | .e4m3 => 0x7F
  | .e5m2 => 0x7E
  | .mk8 => 0x80
  | .s8 => 0xFF
  | _ => 0

/-- Number of significant bits. -/
def bitLen (m : Nat) : Nat := if m = 0 then 0 else Nat.log2 m + 1

/-- Whether a remainder of 2^sh (with sticky) rounds the magnitude up (R78). -/
def roundsUp (rm : Rnd) (neg : Bool) (odd : Bool) (rem : Nat) (sh : Nat) (st : Bool) : Bool :=
  let exact := rem == 0 && !st
  match rm with
  | .rz => false
  | .ru => !exact && !neg
  | .rd => !exact && neg
  | .rn =>
    if sh = 0 then false
    else
      let half := 2 ^ (sh - 1)
      if rem < half then false else if rem > half || st then true else odd

/-- Round m × 2^e onto the multiples of 2^q: the multiple, and whether it is inexact. A value with `st` set always has
bits below q. -/
def roundAt (rm : Rnd) (neg : Bool) (m : Nat) (e : Int) (st : Bool) (q : Int) : Nat × Bool :=
  if q ≤ e then (m <<< (e - q).toNat, st)
  else
    let sh := (q - e).toNat
    let keep := m >>> sh
    let rem := m - (keep <<< sh)
    let up := roundsUp rm neg (keep % 2 == 1) rem sh st
    (if up then keep + 1 else keep, rem != 0 || st)

/-- Bits of a finite magnitude m × 2^q that the format holds exactly. -/
def encodeFin (f : FFmt) (neg : Bool) (m : Nat) (q : Int) : Nat :=
  let s := if neg then 2 ^ (f.bits - 1) else 0
  if m = 0 then s
  else
    let n := bitLen m
    let ex : Int := q + (n : Int) - 1
    if ex < f.emin then
      let sh := q - (f.emin - (f.p : Int) + 1)
      s + (if sh ≥ 0 then m <<< sh.toNat else m >>> (-sh).toNat)
    else
      let fr := if n ≥ f.p then m >>> (n - f.p) else m <<< (f.p - n)
      s + ((ex + f.bias).toNat <<< f.frac) + (fr - 2 ^ f.frac)

/-- All exponent bits set. -/
def expMax (f : FFmt) : Nat := 2 ^ (f.bits - 1 - f.frac) - 1

/-- Decode the bits of an IEEE-style format (R67, R69). -/
def decodeF (fm : Fmt) (f : FFmt) (b : Nat) : Val :=
  let neg := b >>> (f.bits - 1) % 2 == 1
  let ex := (b >>> f.frac) % 2 ^ (f.bits - 1 - f.frac)
  let fr := b % 2 ^ f.frac
  if f.hasInf && ex == expMax f then (if fr = 0 then .inf neg else .nan)
  else if fm == .e4m3 && b % 128 == 127 then .nan
  else if ex = 0 then .fin neg fr (f.emin - (f.frac : Int)) false
  else .fin neg (fr + 2 ^ f.frac) ((ex : Int) - f.bias - (f.frac : Int)) false

/-- Round a finite value into the format once (R78, R79): the bits and the flags. -/
def roundFin (f : FFmt) (rm : Rnd) (sat : Bool) (neg : Bool) (m : Nat) (e : Int) (st : Bool) : Nat × FFlags :=
  if m = 0 && !st then (encodeFin f neg 0 0, 0)
  else
    let ex : Int := e + (bitLen m : Int) - 1
    let qu := ex - (f.p : Int) + 1
    let q := max qu (f.emin - (f.p : Int) + 1)
    let (mu, _) := roundAt rm neg m e st qu
    let tiny := qu + (bitLen mu : Int) - 1 < f.emin
    let (mr, inexact) := roundAt rm neg m e st q
    let u := min q f.maxE
    let ovf := scaled false mr q u > scaled false f.maxM f.maxE u
    if ovf then
      let toInf := f.hasInf && !sat &&
        (match rm with | .rn => true | .rz => false | .ru => !neg | .rd => neg)
      let s := if neg then 2 ^ (f.bits - 1) else 0
      (if toInf then s + (expMax f <<< f.frac) else encodeFin f neg f.maxM f.maxE, flagOF ||| flagNX)
    else
      (encodeFin f neg mr q, (if tiny && inexact then flagUF else 0) ||| (if inexact then flagNX else 0))

/-- Round any value into an IEEE-style format that has a NaN; infinities go to the largest finite value where the format
has none, with OF and NX (Table 5-9). Where the format has them they stay, under SAT and a directed RM too (log 126). -/
def roundF (fm : Fmt) (f : FFmt) (rm : Rnd) (sat : Bool) (v : Val) : Nat × FFlags :=
  match v with
  | .nan => (canonNan fm, 0)
  | .inf neg =>
    let s := if neg then 2 ^ (f.bits - 1) else 0
    if f.hasInf then (s + (expMax f <<< f.frac), 0)
    else (encodeFin f neg f.maxM f.maxE, flagOF ||| flagNX)
  | .fin neg m e st => roundFin f rm sat neg m e st

/-! ## MK8 (R72 to R74) -/

/-- Fraction bits of an exponent (Table 5-4). -/
def mk8Frac (e : Int) : Nat :=
  if e = 0 ∨ e = -1 then 5
  else if e = 1 ∨ e = 2 ∨ e = -2 ∨ e = -3 then 3
  else if (3 ≤ e ∧ e ≤ 6) ∨ (-7 ≤ e ∧ e ≤ -4) then 1
  else 0

/-- Decode an MK8 code (R72). -/
def decodeMk8 (b : Nat) : Val :=
  let neg := b / 128 % 2 == 1
  let pay := b % 128
  if pay = 0 then (if neg then .nan else .zero false)
  else
    let n := Nat.log2 pay            -- bits below the marker
    let mm := 6 - n                  -- leading zeros
    let rest := pay - 2 ^ n
    let ew := min (mm + 1) n
    let f := n - ew
    let fr := rest % 2 ^ f
    let exf := rest / 2 ^ f
    let e : Int :=
      if n = 0 then 14
      else
        let s := exf / 2 ^ (ew - 1)
        let x := exf % 2 ^ (ew - 1)
        let pn : Nat × Nat :=
          match mm with
          | 0 => (0, 1) | 1 => (1, 2) | 2 => (3, 4) | 3 => (7, 8) | 4 => (11, 12) | _ => (13, 14)
        if s = 0 then ((pn.1 + x : Nat) : Int) else -((pn.2 + x : Nat) : Int)
    .fin neg (2 ^ f + fr) (e - (f : Int)) false

/-- The MK8 payload of (1 + fr ÷ 2^f) × 2^e, with f = mk8Frac e. -/
def mk8Payload (e : Int) (fr : Nat) : Nat :=
  if e = 14 then 1
  else
    let region : Nat × Nat × Nat :=   -- m, P, N
      if e = 0 ∨ e = -1 then (0, 0, 1)
      else if e = 1 ∨ e = 2 ∨ e = -2 ∨ e = -3 then (1, 1, 2)
      else if (3 ≤ e ∧ e ≤ 6) ∨ (-7 ≤ e ∧ e ≤ -4) then (2, 3, 4)
      else if (7 ≤ e ∧ e ≤ 10) ∨ (-11 ≤ e ∧ e ≤ -8) then (3, 7, 8)
      else if e = 11 ∨ e = 12 ∨ e = -12 ∨ e = -13 then (4, 11, 12)
      else (5, 13, 14)
    let n := 6 - region.1
    let ew := min (region.1 + 1) n
    let f := n - ew
    let s := if e < 0 then 1 else 0
    let x := if e < 0 then (-e).toNat - region.2.2 else e.toNat - region.2.1
    2 ^ n + ((s * 2 ^ (ew - 1) + x) <<< f) + fr

/-- Lattice number modulo 2 of (1 + fr ÷ 2^f) × 2^e (Table 5-6). -/
def mk8Odd (e : Int) (fr : Nat) : Bool :=
  if -14 ≤ e ∧ e ≤ -8 then (e + 15) % 2 == 1
  else if 7 ≤ e then (e - 7) % 2 == 1
  else fr % 2 == 1

/-- RoundMK8 (R74): the code and the flags. -/
def roundMk8 (v : Val) : Nat × FFlags :=
  match v with
  | .nan => (0x80, flagNV)
  | .inf neg => ((if neg then 128 else 0) + 1, flagOF ||| flagNX)
  | .fin neg m e st =>
    if m = 0 && !st then (0, 0)
    else
      let s := if neg then 128 else 0
      let ex : Int := e + (bitLen m : Int) - 1
      if ex ≥ 14 then
        if ex = 14 && m == 2 ^ (bitLen m - 1) && !st then (s + 1, 0) else (s + 1, flagOF ||| flagNX)
      else if ex < -14 then
        -- neighbours 0 (number 0) and 2^-14 (number 1)
        let half := ex = -15
        let above := half && (m != 2 ^ (bitLen m - 1) || st)
        if above then (s + mk8Payload (-14) 0, flagNX) else (0, flagUF ||| flagNX)
      else
        let f := mk8Frac ex
        let q := ex - (f : Int)
        if q ≤ e then (s + mk8Payload ex ((m <<< (e - q).toNat) - 2 ^ f), if st then flagNX else 0)
        else
          let sh := (q - e).toNat
          let lo := m >>> sh
          let rem := m - (lo <<< sh)
          let half := 2 ^ (sh - 1)
          let up := if rem < half then false else if rem > half || st then true else mk8Odd ex (lo - 2 ^ f)
          let inexact := rem != 0 || st
          let code :=
            if up then
              (if lo + 1 = 2 ^ (f + 1) then mk8Payload (ex + 1) 0 else mk8Payload ex (lo + 1 - 2 ^ f))
            else mk8Payload ex (lo - 2 ^ f)
          (s + code, if inexact then flagNX else 0)

/-! ## S8 block scales (R75, R76) -/

def decodeS8 (b : Nat) : Val :=
  if b % 256 = 255 then .nan else .fin false (8 + b % 8) ((b / 8 % 32 : Nat) - 18) false

/-- Round into S8 (R76). -/
def roundS8 (rm : Rnd) (v : Val) : Nat × FFlags :=
  match v with
  | .nan => (0xFF, flagNV)
  | .inf true => (0xFF, flagNV)
  | .inf false => (0xFE, flagOF ||| flagNX)
  | .fin neg m e st =>
    if m = 0 && !st then (0, 0)
    else if neg then (0xFF, flagNV)
    else
      let ex : Int := e + (bitLen m : Int) - 1
      if ex < -15 then (0, flagUF ||| flagNX)
      else
        let c := cmpVal (.fin false m e false) (.fin false 114688 0 false)
        if c > 0 || (c == 0 && st) then (0xFE, flagOF ||| flagNX)
        else
          let (mr, inexact) := roundAt rm false m e st (ex - 3)
          let fl : FFlags := if inexact then flagNX else 0
          if mr = 16 then ((((ex + 16).toNat) * 8) , fl)
          else ((((ex + 15).toNat) * 8) + (mr - 8), fl)

/-! ## Integers -/

/-- Width and signedness of an integer format. -/
def intFmt : Fmt → Option (Nat × Bool)
  | .int8 => some (8, true) | .uint8 => some (8, false) | .int4 => some (4, true) | .int32 => some (32, true)
  | _ => none

def intMin (w : Nat) (sg : Bool) : Int := if sg then -(2 ^ (w - 1) : Int) else 0
def intMax (w : Nat) (sg : Bool) : Int := if sg then 2 ^ (w - 1) - 1 else 2 ^ w - 1

/-- Clamp to a range. -/
def clampInt (lo hi x : Int) : Int := if x < lo then lo else if x > hi then hi else x

/-- Round a value to an integer in the mode; inexact or not. -/
def roundInt (rm : Rnd) (neg : Bool) (m : Nat) (e : Int) (st : Bool) : Int × Bool :=
  let (r, ix) := roundAt rm neg m e st 0
  (if neg then -(r : Int) else r, ix)

/-- Value to integer with clamping (Table 5-9). -/
def toIntFmt (w : Nat) (sg : Bool) (rm : Rnd) (v : Val) : Int × FFlags :=
  match v with
  | .nan => (0, flagNV)
  | .inf neg => (if neg then intMin w sg else intMax w sg, flagNV)
  | .fin neg m e st =>
    let (x, ix) := roundInt rm neg m e st
    if x < intMin w sg then (intMin w sg, flagNV)
    else if x > intMax w sg then (intMax w sg, flagNV)
    else (x, if ix then flagNX else 0)

/-! ## All formats -/

/-- Bits of a format. -/
def fmtBits : Fmt → Nat
  | .int8 | .uint8 | .e4m3 | .e5m2 | .mk8 | .s8 => 8
  | .int4 | .e2m1 => 4
  | .fp16 | .bf16 => 16
  | .fp32 | .int32 => 32
  | .fp64 => 64

/-- The IEEE-style description of a format. -/
def ffmt : Fmt → Option FFmt
  | .fp64 => some fp64 | .fp32 => some fp32 | .fp16 => some fp16 | .bf16 => some bf16
  | .e5m2 => some e5m2 | .e4m3 => some e4m3 | .e2m1 => some e2m1 | _ => none

/-- Two's-complement or unsigned integer of w bits. -/
def bitsToInt (w : Nat) (sg : Bool) (b : Nat) : Int :=
  let x := b % 2 ^ w
  if sg && x ≥ 2 ^ (w - 1) then (x : Int) - 2 ^ w else x

/-- w-bit two's complement of an integer. -/
def intToBits (w : Nat) (x : Int) : Nat := (x % (2 ^ w : Int)).toNat

/-- Decode a code of any format (R72, R75, R67, R69, R70). -/
def decodeFmt (f : Fmt) (b : Nat) : Val :=
  match f with
  | .mk8 => decodeMk8 b
  | .s8 => decodeS8 b
  | _ =>
    match intFmt f, ffmt f with
    | some (w, sg), _ => Val.ofInt (bitsToInt w sg b)
    | none, some ff => decodeF f ff (b % 2 ^ ff.bits)
    | none, none => .nan

/-- Round a value into any format by Table 5-9, for a source that is not of the same format: the code in the format's
width, and the flags. -/
def roundFmt (f : Fmt) (rm : Rnd) (sat : Bool) (v : Val) : Nat × FFlags :=
  match f with
  | .mk8 => roundMk8 v
  | .s8 => roundS8 rm v
  | .e2m1 => if v.isNan then (0, flagNV) else roundF f e2m1 rm sat v
  | _ =>
    match intFmt f, ffmt f with
    | some (w, sg), _ =>
      let (x, fl) := toIntFmt w sg rm v
      (intToBits w x, fl)
    | none, some ff => roundF f ff rm sat v
    | none, none => (0, 0)

/-- Convert a code between formats (R80, R100). An integer is extended to a wider one by its own signedness and clamped to any
other, without a flag; within one format a NaN becomes the canonical NaN, with the flag of its row. -/
def convert (dst src : Fmt) (rm : Rnd) (sat : Bool) (b : Nat) : Nat × FFlags :=
  if dst = src then
    (if (intFmt src).isNone && (decodeFmt src b).isNan then
       (canonNan dst, if dst = .mk8 ∨ dst = .s8 then (roundFmt dst rm sat .nan).2 else 0)
     else (b % 2 ^ fmtBits src, 0))
  else
    match intFmt dst, intFmt src with
    | some (w, sg), some (w', sg') =>
      let x := bitsToInt w' sg' b
      (intToBits w (if w' < w then x else clampInt (intMin w sg) (intMax w sg) x), 0)
    | _, _ => roundFmt dst rm sat (decodeFmt src b)

/-! ## Exact arithmetic (R96 to R99) -/

/-- Exact sum. An exact zero sum is +0, or −0 in mode .rd, unless both are zeros of one sign (R96). -/
def addV (rm : Rnd) (x y : Val) : Val × FFlags :=
  match x, y with
  | .nan, _ => (.nan, 0)
  | _, .nan => (.nan, 0)
  | .inf a, .inf b => if a == b then (.inf a, 0) else (.nan, flagNV)
  | .inf a, _ => (.inf a, 0)
  | _, .inf b => (.inf b, 0)
  | .fin n m e _, .fin n' m' e' _ =>
    let u := min e e'
    let t := scaled n m e u + scaled n' m' e' u
    if t = 0 then
      (if m = 0 && m' = 0 && n == n' then .zero n else .zero (rm == .rd), 0)
    else (.fin (t < 0) t.natAbs u false, 0)

/-- Exact product. -/
def mulV (x y : Val) : Val × FFlags :=
  match x, y with
  | .nan, _ => (.nan, 0)
  | _, .nan => (.nan, 0)
  | .inf a, .inf b => (.inf (a != b), 0)
  | .inf a, .fin n m _ _ => if m = 0 then (.nan, flagNV) else (.inf (a != n), 0)
  | .fin n m _ _, .inf b => if m = 0 then (.nan, flagNV) else (.inf (n != b), 0)
  | .fin n m e _, .fin n' m' e' _ => (.fin (n != n') (m * m') (e + e') false, 0)

/-- Exact product and sum. 0 × ∞ is invalid even with a NaN addend (R96). -/
def fmaV (rm : Rnd) (x y z : Val) : Val × FFlags :=
  let (p, fl) := mulV x y
  if fl ≠ 0 then (.nan, fl) else addV rm p z

/-- Quotient, to 160 bits with sticky (R98). -/
def divV (x y : Val) : Val × FFlags :=
  match x, y with
  | .nan, _ => (.nan, 0)
  | _, .nan => (.nan, 0)
  | .inf _, .inf _ => (.nan, flagNV)
  | .inf a, .fin n _ _ _ => (.inf (a != n), 0)
  | .fin n _ _ _, .inf b => (.zero (n != b), 0)
  | .fin n m e _, .fin n' m' e' _ =>
    if m' = 0 then (if m = 0 then (.nan, flagNV) else (.inf (n != n'), flagDZ))
    else if m = 0 then (.zero (n != n'), 0)
    else
      let k := 160 + bitLen m'
      let num := m <<< k
      (.fin (n != n') (num / m') (e - e' - (k : Int)) (num % m' != 0), 0)

/-- ⌊√n⌋ by bits from 2^fuel down. -/
def isqrtGo (n : Nat) : Nat → Nat → Nat
  | 0, r => r
  | k + 1, r =>
    let t := r + 2 ^ k
    isqrtGo n k (if t * t ≤ n then t else r)

def isqrt (n : Nat) : Nat := isqrtGo n (bitLen n / 2 + 1) 0

/-- Square root (R98). -/
def sqrtV (x : Val) : Val × FFlags :=
  match x with
  | .nan => (.nan, 0)
  | .inf true => (.nan, flagNV)
  | .inf false => (.inf false, 0)
  | .fin n m e _ =>
    if m = 0 then (.zero n, 0)
    else if n then (.nan, flagNV)
    else
      let e1 := if e % 2 = 0 then e else e - 1
      let m1 := if e % 2 = 0 then m else 2 * m
      let r := isqrt (m1 <<< 320)
      (.fin false r (e1 / 2 - 160) (r * r != m1 <<< 320), 0)

/-- Reciprocal square root (R98). -/
def rsqrtV (x : Val) : Val × FFlags :=
  match x with
  | .nan => (.nan, 0)
  | .inf true => (.nan, flagNV)
  | .inf false => (.zero false, 0)
  | .fin n m e _ =>
    if m = 0 then (.inf n, flagDZ)
    else if n then (.nan, flagNV)
    else
      let e1 := if e % 2 = 0 then e else e - 1
      let m1 := if e % 2 = 0 then m else 2 * m
      let top := 2 ^ (2 * (160 + bitLen m1))
      let r := isqrt (top / m1)
      (.fin false r (-(e1 / 2) - ((160 + bitLen m1 : Nat) : Int)) (r * r * m1 != top), 0)

/-! ### Transcendental functions

Fixed-point values with `fixBits` bits below the point. The error of each series is below 2^-300, and no FP32 argument
of these functions has a value that close to a rounding boundary (log 5). -/

def fixBits : Nat := 320
def fixOne : Nat := 2 ^ fixBits

/-- Σ over k < fuel of z^(2k+1) ÷ (2k+1), with `t` the power z^(2k+1). -/
def atanhGo (z2 : Nat) : Nat → Nat → Nat → Nat → Nat
  | 0, _, _, acc => acc
  | n + 1, k, t, acc => atanhGo z2 n (k + 1) (t * z2 / fixOne) (acc + t / (2 * k + 1))

/-- 2 × artanh z, for z at most 1/3. -/
def atanh2 (z : Nat) : Nat := 2 * atanhGo (z * z / fixOne) 110 0 z 0

/-- ln 2. -/
def fixLn2 : Nat := atanh2 (fixOne / 3)

/-- Σ (−1)^k ÷ ((2k+1) n^(2k+1)) with `w` bits below the point. -/
def arctanGo (n2 : Nat) : Nat → Nat → Nat → Int → Int
  | 0, _, _, acc => acc
  | f + 1, k, t, acc => arctanGo n2 f (k + 1) (t / n2) (if k % 2 = 0 then acc + t / (2 * k + 1) else acc - t / (2 * k + 1))

/-- π with 560 bits below the point, by Machin's formula 16 arctan(1/5) − 4 arctan(1/239). -/
def piFix : Nat :=
  let one := 2 ^ 580
  ((16 * arctanGo 25 130 0 (one / 5) 0 - 4 * arctanGo 57121 40 0 (one / 239) 0).toNat) >>> 20

/-- exp x for 0 ≤ x < 1 in fixed point. -/
def expGo (x : Nat) : Nat → Nat → Nat → Nat → Nat
  | 0, _, _, acc => acc
  | n + 1, k, t, acc => expGo x n (k + 1) (t * x / fixOne / k) (acc + t)

def expFix (x : Nat) : Nat := expGo x 90 1 fixOne 0

/-- Alternating series for sin (from x) and cos (from 1). -/
def trigGo (x2 : Nat) : Nat → Nat → Nat → Int → Int
  | 0, _, _, acc => acc
  | n + 1, k, t, acc =>
    trigGo x2 n (k + 2) (t * x2 / fixOne / ((k + 1) * (k + 2))) (if (k / 2) % 2 = 0 then acc + t else acc - t)

def sinFix (x : Nat) : Nat := (trigGo (x * x / fixOne) 45 1 x 0).toNat
def cosFix (x : Nat) : Nat := (trigGo (x * x / fixOne) 45 0 fixOne 0).toNat

/-- A magnitude in fixed point as a value that is never exact. -/
def irr (neg : Bool) (m : Nat) (e : Int) : Val := .fin neg m e true

/-- A finite value in fixed point. -/
def toFix (m : Nat) (e : Int) : Nat :=
  let s := e + (fixBits : Int)
  if s ≥ 0 then m <<< s.toNat else m >>> (-s).toNat

/-- 2^b (Table 6-6). -/
def exp2V (x : Val) : Val × FFlags :=
  match x with
  | .nan => (.nan, 0)
  | .inf true => (.zero false, 0)
  | .inf false => (.inf false, 0)
  | .fin n m e _ =>
    if m = 0 then (.fin false 1 0 false, 0)
    else if e + (bitLen m : Int) > 10 then
      (if n then irr false 1 (-2000) else irr false 1 2000, 0)
    else
      let fx := toFix m e
      let t : Int := if n then -(fx : Int) else fx
      let fl := t / (fixOne : Int)
      let fr := (t % (fixOne : Int)).toNat
      if fr = 0 then (.fin false 1 fl false, 0)
      else (irr false (expFix (fr * fixLn2 / fixOne)) (fl - (fixBits : Int)), 0)

/-- log2 b (Table 6-6). -/
def log2V (x : Val) : Val × FFlags :=
  match x with
  | .nan => (.nan, 0)
  | .inf true => (.nan, flagNV)
  | .inf false => (.inf false, 0)
  | .fin n m e _ =>
    if m = 0 then (.inf true, flagDZ)
    else if n then (.nan, flagNV)
    else
      let l := bitLen m - 1
      let ex : Int := e + (l : Int)
      let y := (m <<< fixBits) >>> l
      if y = fixOne then (Val.ofInt ex, 0)
      else
        let ln := atanh2 ((y - fixOne) * fixOne / (y + fixOne))
        let t : Int := ex * (fixOne : Int) + ((ln * fixOne / fixLn2 : Nat) : Int)
        (irr (t < 0) t.natAbs (-(fixBits : Int)), 0)

/-- Reduce |x| modulo π/2 exactly: the quadrant modulo 4 and the remainder in fixed point. -/
def reducePi (m : Nat) (e : Int) : Nat × Nat :=
  let half := piFix / 2                    -- π/2 with 560 bits
  let s := e + 560
  let x := if s ≥ 0 then m <<< s.toNat else m >>> (-s).toNat
  let q := x / half
  (q % 4, (x % half) >>> 240)

/-- sin or cos of b in radians (Table 6-6). -/
def trigV (cosine : Bool) (x : Val) : Val × FFlags :=
  match x with
  | .nan => (.nan, 0)
  | .inf _ => (.nan, flagNV)
  | .fin n m e _ =>
    if m = 0 then (if cosine then .fin false 1 0 false else .zero n, 0)
    else
      let (q, r) := reducePi m e
      let q' := if cosine then (q + 1) % 4 else q
      let mag := if q' % 2 = 0 then sinFix r else cosFix r
      let sg := (q' / 2 % 2 == 1) != (n && !cosine)
      -- below 2^-100 the sine of x is x less a part far below every format
      if !cosine && e + (bitLen m : Int) < -100 then (irr n (m <<< 200 - 1) (e - 200), 0)
      else (irr sg mag (-(fixBits : Int)), 0)

/-- tanh b (Table 6-6). -/
def tanhV (x : Val) : Val × FFlags :=
  match x with
  | .nan => (.nan, 0)
  | .inf n => (.fin n 1 0 false, 0)
  | .fin n m e _ =>
    if m = 0 then (.zero n, 0)
    else if e + (bitLen m : Int) > 7 then (irr n (2 ^ 200 - 1) (-200), 0)
    else if e + (bitLen m : Int) < -100 then (irr n (m <<< 200 - 1) (e - 200), 0)
    else
      let y := 2 * toFix m e
      let k := y / fixLn2
      let ex := (fixOne * fixOne / expFix (y - k * fixLn2)) >>> k      -- exp(−2|x|)
      (irr n ((fixOne - ex) * fixOne / (fixOne + ex)) (-(fixBits : Int)), 0)

/-- b − ⌊b⌋ (R99). -/
def fracV (x : Val) : Val × FFlags :=
  match x with
  | .nan => (.nan, 0)
  | .inf _ => (.nan, flagNV)
  | .fin n m e _ =>
    if e ≥ 0 || m = 0 then (.zero false, 0)
    else
      let u := 2 ^ (-e).toNat
      let t : Int := (if n then -(m : Int) else m) % (u : Int)
      (if t = 0 then .zero false else .fin false t.toNat e false, 0)

/-- Smaller or larger of two values with the NaN and zero rules of R97: true when the first is returned. -/
def minMaxFirst (mx : Bool) (x y : Val) : Bool :=
  if x.isNan then false
  else if y.isNan then true
  else
    let c := cmpVal x y
    if c = 0 then (if mx then !x.sign || y.sign else x.sign || !y.sign)
    else if mx then c > 0 else c < 0

end Sys2Proof.Machine
end

