-- ==== Sys2Proof/Machine/Flags.lean ====
section
/-! DEFINITION. Every operation that can set sr.fflags, as a function from codes to a code and the flags it raises
(R78, R79, R96 to R102). -/

namespace Sys2Proof.Machine

/-- Round an exact result into a format and merge its flags. An invalid operation or a division by zero sets its own
flag and no other (R79). -/
def fpOut (fm : Fmt) (f : FFmt) (rm : Rnd) (sat : Bool) (r : Val × FFlags) : Nat × FFlags :=
  let (b, fl) := roundF fm f rm sat r.1
  (b, if r.2 = 0 then fl else r.2)

/-- A full-width format with its fields; FP32 for any other. -/
def ieee (fm : Fmt) : FFmt :=
  match fm with
  | .fp64 => fp64 | .fp16 => fp16 | .bf16 => bf16 | _ => fp32

def fpAdd (fm : Fmt) (rm : Rnd) (sat : Bool) (x y : Nat) : Nat × FFlags :=
  fpOut fm (ieee fm) rm sat (addV rm (decodeF fm (ieee fm) x) (decodeF fm (ieee fm) y))

def fpSub (fm : Fmt) (rm : Rnd) (sat : Bool) (x y : Nat) : Nat × FFlags :=
  fpOut fm (ieee fm) rm sat (addV rm (decodeF fm (ieee fm) x) (decodeF fm (ieee fm) y).neg)

def fpMul (fm : Fmt) (rm : Rnd) (sat : Bool) (x y : Nat) : Nat × FFlags :=
  fpOut fm (ieee fm) rm sat (mulV (decodeF fm (ieee fm) x) (decodeF fm (ieee fm) y))

def fpFma (fm : Fmt) (rm : Rnd) (sat : Bool) (x y z : Nat) : Nat × FFlags :=
  fpOut fm (ieee fm) rm sat (fmaV rm (decodeF fm (ieee fm) x) (decodeF fm (ieee fm) y) (decodeF fm (ieee fm) z))

/-- FMIN and its kin (R97): the chosen operand's code, or the canonical NaN; no flag. -/
def fpMinMax (fm : Fmt) (mx : Bool) (x y : Nat) : Nat :=
  let vx := decodeF fm (ieee fm) x
  let vy := decodeF fm (ieee fm) y
  if vx.isNan && vy.isNan then canonNan fm else if minMaxFirst mx vx vy then x else y

def fpDiv (fm : Fmt) (rm : Rnd) (sat : Bool) (x y : Nat) : Nat × FFlags :=
  fpOut fm (ieee fm) rm sat (divV (decodeF fm (ieee fm) x) (decodeF fm (ieee fm) y))

/-- 1 ÷ b (R98). -/
def fpRcp (fm : Fmt) (rm : Rnd) (sat : Bool) (x : Nat) : Nat × FFlags :=
  fpOut fm (ieee fm) rm sat (divV (.fin false 1 0 false) (decodeF fm (ieee fm) x))

def fpSqrt (rm : Rnd) (sat : Bool) (x : Nat) : Nat × FFlags :=
  fpOut .fp32 fp32 rm sat (sqrtV (decodeF .fp32 fp32 x))

/-- FFRAC (R99): a rounded result of 1.0 becomes the largest value below it, with NX. -/
def fpFrac (rm : Rnd) (sat : Bool) (x : Nat) : Nat × FFlags :=
  let r := fpOut .fp32 fp32 rm sat (fracV (decodeF .fp32 fp32 x))
  if r.1 = 0x3F800000 then (0x3F7FFFFF, flagNX) else r

/-- The six correctly rounded functions of Table 6-6, always in .rn. -/
def fpRsq (x : Nat) : Nat × FFlags := fpOut .fp32 fp32 .rn false (rsqrtV (decodeF .fp32 fp32 x))
def fpExp2 (x : Nat) : Nat × FFlags := fpOut .fp32 fp32 .rn false (exp2V (decodeF .fp32 fp32 x))
def fpLog2 (x : Nat) : Nat × FFlags := fpOut .fp32 fp32 .rn false (log2V (decodeF .fp32 fp32 x))
def fpSin (x : Nat) : Nat × FFlags := fpOut .fp32 fp32 .rn false (trigV false (decodeF .fp32 fp32 x))
def fpCos (x : Nat) : Nat × FFlags := fpOut .fp32 fp32 .rn false (trigV true (decodeF .fp32 fp32 x))
def fpTanh (x : Nat) : Nat × FFlags := fpOut .fp32 fp32 .rn false (tanhV (decodeF .fp32 fp32 x))

/-- A floating-point compare (Table 6-5); it sets no flag. -/
def fpCmp (fm : Fmt) (cc : FCond) (x y : Nat) : Bool :=
  let vx := decodeF fm (ieee fm) x
  let vy := decodeF fm (ieee fm) y
  let un := vx.isNan || vy.isNan
  let c := cmpVal vx vy
  match cc with
  | .eq => !un && c == 0
  | .ne => un || c != 0
  | .lt => !un && c < 0
  | .le => !un && c ≤ 0
  | .gt => !un && c > 0
  | .ge => !un && c ≥ 0
  | .un => un
  | .num => !un

/-- FCLASS (R95): the one-hot class. -/
def fpClass (fm : Fmt) (x : Nat) : Nat :=
  let f := ieee fm
  match decodeF fm f x with
  | .nan => 0x100
  | .inf neg => if neg then 0x01 else 0x80
  | .fin neg m e _ =>
    if m = 0 then (if neg then 0x08 else 0x10)
    else if e + (bitLen m : Int) - 1 < f.emin then (if neg then 0x04 else 0x20)
    else if neg then 0x02 else 0x40

/-- One packed element scaled by an FP32 multiplier, rounded once (R101): PACK8 and PACK4. -/
def packElem (fmt : Fmt) (rm : Rnd) (sat : Bool) (x c : Nat) : Nat × FFlags :=
  let r := mulV (decodeF .fp32 fp32 x) (decodeF .fp32 fp32 c)
  let o := roundFmt fmt rm sat r.1
  (o.1, if r.2 = 0 then o.2 else r.2)

/-- One unpacked element scaled by an FP32 multiplier (R101): UNPACK8 and UNPACK4. -/
def unpackElem (fmt : Fmt) (rm : Rnd) (x c : Nat) : Nat × FFlags :=
  fpOut .fp32 fp32 rm false (mulV (decodeFmt fmt x) (decodeF .fp32 fp32 c))

/-- Largest finite magnitude of a SCALEQ format (R102). -/
def scaleqMax : Fmt → Nat
  | .int8 => 127 | .e4m3 => 448 | .e5m2 => 57344 | .mk8 => 16384 | .int4 => 7 | _ => 6

/-- Least S8 code whose value is at least num ÷ den × 2^e; codes from 0 to 0xFE, searched upward. -/
def leastS8 (num den : Nat) (e : Int) : Nat → Nat → Nat
  | 0, code => code
  | n + 1, code =>
    let m := 8 + code % 8
    let ee : Int := ((code / 8 : Nat) : Int) - 18
    let u := min e ee
    if scaled false (m * den) ee u ≥ scaled false num e u then code else leastS8 num den e n (code + 1)

/-- SCALEQ (R102): the code, the FP32 reciprocal and the flags. -/
def scaleq (fmt : Fmt) (x : Nat) : Nat × Nat × FFlags :=
  match (decodeF .fp32 fp32 x).abs with
  | .nan => (0xFF, canonNan .fp32, flagNV)
  | .inf _ =>
    let r := fpOut .fp32 fp32 .rn false (divV (.fin false 1 0 false) (decodeS8 0xFE))
    (0xFE, r.1, flagOF ||| flagNX)
  | .fin _ m e _ =>
    let d := scaleqMax fmt
    let u := min e 0
    let ovf := scaled false m e u > scaled false (114688 * d) 0 u
    let code := if ovf then 0xFE else leastS8 m d e 0xFE 0
    let v := decodeS8 code
    let r := fpOut .fp32 fp32 .rn false (divV (.fin false 1 0 false) v)
    let exact :=
      match v with
      | .fin _ vm ve _ =>
        let w := min e ve
        scaled false (vm * d) ve w == scaled false m e w
      | _ => false
    (code, r.1, (if ovf then flagOF ||| flagNX else 0) ||| (if exact then 0 else flagNX) ||| (r.2 &&& flagNX))

end Sys2Proof.Machine
end

