-- ==== Sys2Proof/Machine/Encoding.lean ====
section
/-! DEFINITION. The encodings of the 187 forms: their fields (Tables 3-1, 3-2, 4-1), what each operand position accepts
(Table 3-5), and the limits that a kernel header sets. -/

set_option linter.unusedVariables false

namespace Sys2Proof

/-! ### Codes of the modifier values -/

def ICond.code : ICond → Nat | .eq => 0 | .ne => 1 | .lt => 2 | .le => 3 | .gt => 4 | .ge => 5
def ICond.ofCode : Nat → Option ICond
  | 0 => some .eq | 1 => some .ne | 2 => some .lt | 3 => some .le | 4 => some .gt | 5 => some .ge | _ => none
def FCond.code : FCond → Nat
  | .eq => 0 | .ne => 1 | .lt => 2 | .le => 3 | .gt => 4 | .ge => 5 | .un => 6 | .num => 7
def FCond.ofCode : Nat → Option FCond
  | 0 => some .eq | 1 => some .ne | 2 => some .lt | 3 => some .le | 4 => some .gt | 5 => some .ge | 6 => some .un
  | 7 => some .num | _ => none
def Rnd.code : Rnd → Nat | .rn => 0 | .rz => 1 | .ru => 2 | .rd => 3
def Rnd.ofCode : Nat → Option Rnd | 0 => some .rn | 1 => some .rz | 2 => some .ru | 3 => some .rd | _ => none
def Fmt.code : Fmt → Nat
  | .int8 => 0 | .uint8 => 1 | .e4m3 => 2 | .e5m2 => 3 | .mk8 => 4 | .int4 => 5 | .e2m1 => 6 | .fp16 => 7 | .bf16 => 8
  | .fp32 => 9 | .int32 => 10 | .fp64 => 11 | .s8 => 12
def Fmt.ofCode : Nat → Option Fmt
  | 0 => some .int8 | 1 => some .uint8 | 2 => some .e4m3 | 3 => some .e5m2 | 4 => some .mk8 | 5 => some .int4
  | 6 => some .e2m1 | 7 => some .fp16 | 8 => some .bf16 | 9 => some .fp32 | 10 => some .int32 | 11 => some .fp64
  | 12 => some .s8 | _ => none
def VoteMode.code : VoteMode → Nat | .all => 0 | .any => 1 | .uni => 2
def VoteMode.ofCode : Nat → Option VoteMode | 0 => some .all | 1 => some .any | 2 => some .uni | _ => none
def RedOp.code : RedOp → Nat | .add => 0 | .min => 1 | .max => 2 | .and => 3 | .or => 4 | .xor => 5
def RedOp.ofCode : Nat → Option RedOp
  | 0 => some .add | 1 => some .min | 2 => some .max | 3 => some .and | 4 => some .or | 5 => some .xor | _ => none
def Width.code : Width → Nat | .b8 => 0 | .b16 => 1 | .b32 => 2 | .b64 => 3 | .b128 => 4
def Width.ofCode : Nat → Option Width
  | 0 => some .b8 | 1 => some .b16 | 2 => some .b32 | 3 => some .b64 | 4 => some .b128 | _ => none
def Width.bytes : Width → Nat | .b8 => 1 | .b16 => 2 | .b32 => 4 | .b64 => 8 | .b128 => 16
def Width.regs : Width → Nat | .b8 => 1 | .b16 => 1 | .b32 => 1 | .b64 => 2 | .b128 => 4
def AtomOp.code : AtomOp → Nat
  | .add => 0 | .and => 1 | .or => 2 | .xor => 3 | .min => 4 | .max => 5 | .exch => 6 | .inc => 7 | .dec => 8 | .fadd => 9
def AtomOp.ofCode : Nat → Option AtomOp
  | 0 => some .add | 1 => some .and | 2 => some .or | 3 => some .xor | 4 => some .min | 5 => some .max | 6 => some .exch
  | 7 => some .inc | 8 => some .dec | 9 => some .fadd | _ => none
def Shape.code : Shape → Nat | .a => 0 | .b => 1 | .c => 2
def Shape.ofCode : Nat → Option Shape | 0 => some .a | 1 => some .b | 2 => some .c | _ => none
/-- Accumulator registers per lane (Table 7-1). -/
def Shape.accRegs : Shape → Nat | .a => 32 | .b => 64 | .c => 128
def Dom.code : Dom → Nat | .u32 => 0 | .s32 => 1 | .f32 => 2
def Dom.ofCode : Nat → Option Dom | 0 => some .u32 | 1 => some .s32 | 2 => some .f32 | _ => none
def BrField.code : BrField → Nat | .lo => 0 | .hi => 1 | .flo => 2 | .fhi => 3 | .st => 4
def BrField.ofCode : Nat → Option BrField
  | 0 => some .lo | 1 => some .hi | 2 => some .flo | 3 => some .fhi | 4 => some .st | _ => none
def CancelLvl.code : CancelLvl → Nat | .grp => 0 | .launch => 1 | .graph => 2 | .phase => 3 | .job => 4
def CancelLvl.ofCode : Nat → Option CancelLvl
  | 0 => some .grp | 1 => some .launch | 2 => some .graph | 3 => some .phase | 4 => some .job | _ => none
def HLvl.code : HLvl → Nat | .team => 0 | .die => 1 | .package => 2
def HLvl.ofCode : Nat → Option HLvl | 0 => some .team | 1 => some .die | 2 => some .package | _ => none

/-! ### Special registers (Table 3-6) -/

def SReg.index : SReg → Nat
  | .lane => 0 | .wave => 1 | .group => 2 | .quad => 3 | .core => 4 | .die => 5 | .device => 6 | .active => 7
  | .nameLo => 8 | .nameHi => 9 | .gnameLo => 10 | .gnameHi => 11 | .clockLo => 12 | .clockHi => 13 | .gsize => 14
  | .wsize => 15 | .sig => 16 | .fflags => 17

def SReg.ofIndex : Nat → Option SReg
  | 0 => some .lane | 1 => some .wave | 2 => some .group | 3 => some .quad | 4 => some .core | 5 => some .die
  | 6 => some .device | 7 => some .active | 8 => some .nameLo | 9 => some .nameHi | 10 => some .gnameLo
  | 11 => some .gnameHi | 12 => some .clockLo | 13 => some .clockHi | 14 => some .gsize | 15 => some .wsize
  | 16 => some .sig | 17 => some .fflags | _ => none

/-- Registers that read the same in every thread of a home wave. -/
def SReg.uniform : SReg → Bool
  | .lane => false | .nameLo => false | .nameHi => false | .sig => false | .fflags => false | _ => true

/-! ### Operand fields (Table 3-5) -/

/-- The 11-bit field of an operand. -/
def opndCode : Opnd → BitVec 11
  | .v n => BitVec.ofNat 11 n.toNat
  | .s n => BitVec.ofNat 11 (0x100 + n.toNat)
  | .p n => BitVec.ofNat 11 (0x200 + n.toNat)
  | .pT => 0x23F
  | .sr r => BitVec.ofNat 11 (0x300 + r.index)
  | .imm x => BitVec.ofNat 11 (0x400 + x.toNat)
  | .res (.b n) => BitVec.ofNat 11 (0x500 + n.toNat)
  | .res (.c n) => BitVec.ofNat 11 (0x510 + n.toNat)
  | .res (.wp n) => BitVec.ofNat 11 (0x520 + n.toNat)
  | .res (.tl n) => BitVec.ofNat 11 (0x530 + n.toNat)
  | .res (.cc n) => BitVec.ofNat 11 (0x540 + n.toNat)
  | .lit _ => 0x600
  | .null => 0x700

/-- The operand that a field names, with `x` the literal of class 6; none where Table 3-5 has no such index. -/
def opndOf (f : BitVec 11) (x : Word) : Option Opnd :=
  let i := f.toNat % 256
  match f.toNat / 256 with
  | 0 => some (.v (BitVec.ofNat 8 i))
  | 1 => if i < 64 then some (.s (BitVec.ofNat 6 i)) else none
  | 2 => if i < 48 then some (.p (BitVec.ofNat 6 i)) else if i = 63 then some .pT else none
  | 3 => (SReg.ofIndex i).map .sr
  | 4 => some (.imm (BitVec.ofNat 8 i))
  | 5 =>
    if i < 8 then some (.res (.b (BitVec.ofNat 3 i)))
    else if i < 16 then none
    else if i < 32 then some (.res (.c (BitVec.ofNat 4 i)))
    else if i < 40 then some (.res (.wp (BitVec.ofNat 3 i)))
    else if i < 48 then none
    else if i < 64 then some (.res (.tl (BitVec.ofNat 4 i)))
    else if i < 128 then some (.res (.cc (BitVec.ofNat 6 i)))
    else none
  | 6 => if i = 0 then some (.lit x) else none
  | _ => if i = 0 then some .null else none

/-! ### What an operand position accepts -/

/-- One operand position: the classes it accepts, the registers the operand spans and their alignment. -/
structure Kd where
  v : Bool := false
  s : Bool := false
  p : Bool := false
  pT : Bool := false
  sr : Bool := false
  usr : Bool := false
  sr64 : Bool := false
  name : Bool := false
  gname : Bool := false
  fl : Bool := false
  imm : Bool := false
  immMax : Nat := 255
  lit : Bool := false
  null : Bool := false
  res : Nat := 0
  n : Nat := 1
  al : Nat := 1
  scal : Bool := false
  deriving DecidableEq, Repr

namespace Kd
def S : Kd := { v := true, s := true, sr := true, imm := true, lit := true, null := true }
def S64 : Kd := { v := true, s := true, sr64 := true, imm := true, lit := true, null := true, n := 2, al := 2 }
def D : Kd := { v := true, s := true, null := true, scal := true }
def DMov : Kd := { v := true, s := true, null := true, fl := true, scal := true }
def D64 : Kd := { v := true, s := true, null := true, n := 2, al := 2, scal := true }
def DV : Kd := { v := true, null := true }
def DV64 : Kd := { v := true, null := true, n := 2, al := 2 }
def DL : Kd := { v := true, s := true, null := true }
def DVote : Kd := { v := true, s := true, p := true, null := true }
def P : Kd := { p := true, pT := true }
def PD : Kd := { p := true }
def PD2 : Kd := { p := true, n := 2 }
def PSpan (n : Nat) : Kd := { p := true, n := n }
def VSpan (n : Nat) : Kd := { v := true, n := n }
def DSpan (n : Nat) : Kd := { v := true, null := true, n := n }
def VPair : Kd := { v := true, n := 2, al := 2 }
def SSpan (n al : Nat) : Kd := { s := true, n := n, al := al }
def U : Kd := { s := true, usr := true, imm := true, lit := true }
def UD : Kd := { s := true, usr := true, imm := true }
def UN : Kd := { s := true, usr := true, imm := true, null := true }
def UNL : Kd := { s := true, usr := true, imm := true, lit := true, null := true }
def Idx : Kd := { v := true, s := true, imm := true }
def Imm : Kd := { imm := true }
def Opt (n : Nat) : Kd := { imm := true, immMax := n, null := true }
def Null : Kd := { null := true }
def St : Kd := { v := true, p := true, null := true }
def Ref : Kd := { v := true, s := true, name := true, gname := true, n := 2, al := 2 }
def RefG : Kd := { v := true, s := true, gname := true, n := 2, al := 2 }
def Pair : Kd := { v := true, s := true, n := 2, al := 2 }
def SPairN : Kd := { s := true, null := true, n := 2, al := 2 }
def SwrS : Kd := { s := true, imm := true, null := true, n := 2, al := 2 }
def TlbN : Kd := { s := true, imm := true, null := true }
def Val : Kd := { v := true, s := true, sr := true, imm := true, lit := true }
def ValN : Kd := { v := true, s := true, sr := true, imm := true, null := true }
def Len : Kd := { v := true, s := true, imm := true, lit := true }
def LenD : Kd := { v := true, s := true, imm := true }
def Off : Kd := { v := true, s := true, imm := true, null := true }
def NWr : Kd := { v := true, s := true, usr := true, imm := true, lit := true }
def InvT : Kd := { v := true, s := true, sr := true, imm := true }
def DClose : Kd := { v := true, s := true, null := true }
def OffB : Kd := { v := true, s := true, null := true }
def LdD (n : Nat) : Kd := { v := true, null := true, n := n, al := n }
def StS (n : Nat) : Kd := { v := true, s := true, imm := n < 4, null := true, n := n, al := n }
def CasS (n : Nat) : Kd := { v := true, n := 2 * n, al := n }
def Fol (n : Nat) : Kd := { v := true, s := true, n := n, al := n }
def RB : Kd := { res := 1 }
def RC : Kd := { res := 2 }
def RWp : Kd := { res := 3 }
def RTl : Kd := { res := 4 }
def RCc : Kd := { res := 5 }
end Kd

/-- Whether a position accepts an operand, whatever the header's limits. -/
def Kd.accepts (k : Kd) : Opnd → Bool
  | .v n => k.v && n.toNat % k.al == 0 && n.toNat + k.n ≤ 256
  | .s n => k.s && n.toNat % k.al == 0 && n.toNat + k.n ≤ 64
  | .p n => k.p && n.toNat + k.n ≤ 48
  | .pT => k.pT
  | .sr r =>
    k.sr || (k.usr && r.uniform) || (k.fl && r == .fflags) || (k.name && r == .nameLo) || (k.gname && r == .gnameLo) ||
      (k.sr64 && (r == .nameLo || r == .gnameLo || r == .clockLo))
  | .imm x => k.imm && x.toNat ≤ k.immMax
  | .lit _ => k.lit
  | .null => k.null
  | .res r => k.res == (match r with | .b _ => 1 | .c _ => 2 | .wp _ => 3 | .tl _ => 4 | .cc _ => 5)

/-- A source that the scalar datapath can read (R38). -/
def uniformSrc : Opnd → Bool
  | .v _ => false
  | .p _ => false
  | .sr r => r.uniform
  | _ => true

/-- The positions of a form accept its operands, and a uniform destination has only uniform sources (R38). -/
def sigOk : List (Kd × Opnd) → Bool
  | [] => true
  | (k, o) :: rest =>
    k.accepts o && rest.all (fun x => x.1.accepts x.2) &&
      (match o with
       | .s _ => !k.scal || rest.all (fun x => uniformSrc x.2)
       | _ => true)

/-! ### Fields of a word -/

/-- The fields below the opcode, by format: `i` serves formats I, B and N. -/
inductive Body where
  | d (a b c d : Opnd) (m : BitVec 21)
  | i (a b c : Opnd) (x : Word)
  | m (a b : Opnd) (acc : BitVec 11) (off : BitVec 24) (sc : Scope) (bit : Bool)
  deriving DecidableEq, Repr

structure Form where
  maj : BitVec 6
  mn : BitVec 4
  k : Ctl
  body : Body
  deriving DecidableEq, Repr

inductive Format where
  | d | i | m
  deriving DecidableEq, Repr

/-- The access control field of format M (R33). -/
def ac (w : Nat) (sg : Bool) (op pol : Nat) : BitVec 11 :=
  BitVec.ofNat 11 (w * 256 + sg.toNat * 128 + op * 8 + pol)

/-- Bit `lo` of a field, and the n-bit field that starts at `lo`. -/
def flag (m lo : Nat) : Bool := m / 2 ^ lo % 2 == 1
def fld {n : Nat} (m lo : Nat) : BitVec n := BitVec.ofNat n (m / 2 ^ lo)

/-- The register that directly follows a base register (R252); no register follows a class-7 base. -/
def follows (b : Opnd) (k : Nat) : Opnd :=
  match b with
  | .v n => if n.toNat + k < 256 then .v (BitVec.ofNat 8 (n.toNat + k)) else .null
  | .s n => if n.toNat + k < 64 then .s (BitVec.ofNat 6 (n.toNat + k)) else .null
  | _ => .null

/-- The encoding of each device form: group, minor code, guard and hints, and fields (Table 4-1 and the field table of
each chapter). The words of other rows are none. -/
def formOf : Instr → Option Form
  | .iadd k a b c => some ⟨0, 0, k, .d a b c .null 0⟩
  | .isub k a b c => some ⟨0, 1, k, .d a b c .null 0⟩
  | .imul k a b c => some ⟨0, 2, k, .d a b c .null 0⟩
  | .imulhi k a b c u => some ⟨0, 3, k, .d a b c .null (BitVec.ofNat 21 (u.toNat))⟩
  | .imad k a b c d => some ⟨0, 4, k, .d a b c d 0⟩
  | .imin k a b c u => some ⟨0, 5, k, .d a b c .null (BitVec.ofNat 21 (u.toNat))⟩
  | .imax k a b c u => some ⟨0, 6, k, .d a b c .null (BitVec.ofNat 21 (u.toNat))⟩
  | .iabs k a b => some ⟨0, 7, k, .d a b .null .null 0⟩
  | .ineg k a b => some ⟨0, 8, k, .d a b .null .null 0⟩
  | .iaddc k a b c d => some ⟨0, 9, k, .d a b c d 0⟩
  | .isubb k a b c d => some ⟨0, 10, k, .d a b c d 0⟩
  | .iaddsat k a b c u => some ⟨0, 11, k, .d a b c .null (BitVec.ofNat 21 (u.toNat))⟩
  | .idot4 k a b c d u sat => some ⟨0, 12, k, .d a b c d (BitVec.ofNat 21 (u.toNat + sat.toNat * 2 ^ 1))⟩
  | .isad k a b c d u => some ⟨0, 13, k, .d a b c d (BitVec.ofNat 21 (u.toNat))⟩
  | .iadd64 k a b c => some ⟨0, 14, k, .d a b c .null 0⟩
  | .imad64 k a b c d u => some ⟨0, 15, k, .d a b c d (BitVec.ofNat 21 (u.toNat))⟩
  | .and k a b c => some ⟨1, 0, k, .d a b c .null 0⟩
  | .or k a b c => some ⟨1, 1, k, .d a b c .null 0⟩
  | .xor k a b c => some ⟨1, 2, k, .d a b c .null 0⟩
  | .not k a b => some ⟨1, 3, k, .d a b .null .null 0⟩
  | .andn k a b c => some ⟨1, 4, k, .d a b c .null 0⟩
  | .shl k a b c => some ⟨1, 5, k, .d a b c .null 0⟩
  | .shr k a b c => some ⟨1, 6, k, .d a b c .null 0⟩
  | .sar k a b c => some ⟨1, 7, k, .d a b c .null 0⟩
  | .rot k a b c right => some ⟨1, 8, k, .d a b c .null (BitVec.ofNat 21 (right.toNat))⟩
  | .bfe k a b c sx => some ⟨1, 9, k, .d a b c .null (BitVec.ofNat 21 (sx.toNat))⟩
  | .bfi k a b c d => some ⟨1, 10, k, .d a b c d 0⟩
  | .popc k a b => some ⟨1, 11, k, .d a b .null .null 0⟩
  | .clz k a b => some ⟨1, 12, k, .d a b .null .null 0⟩
  | .brev k a b => some ⟨1, 13, k, .d a b .null .null 0⟩
  | .tern k a b c d tt => some ⟨1, 14, k, .d a b c d (BitVec.ofNat 21 (tt.toNat))⟩
  | .perm k a b c d => some ⟨1, 15, k, .d a b c d 0⟩
  | .icmp k a b c cc u => some ⟨2, 0, k, .d a b c .null (BitVec.ofNat 21 (cc.code + u.toNat * 2 ^ 3))⟩
  | .fcmp k a b c cc => some ⟨2, 1, k, .d a b c .null (BitVec.ofNat 21 (cc.code))⟩
  | .sel k a b c d => some ⟨2, 2, k, .d a b c d 0⟩
  | .ptern k a b c d tt => some ⟨2, 3, k, .d a b c d (BitVec.ofNat 21 (tt.toNat))⟩
  | .p2v k a b cnt => some ⟨2, 4, k, .d a b .null .null (BitVec.ofNat 21 (cnt.toNat))⟩
  | .v2p k a b cnt => some ⟨2, 5, k, .d a b .null .null (BitVec.ofNat 21 (cnt.toNat))⟩
  | .mov k a b => some ⟨2, 6, k, .d a b .null .null 0⟩
  | .movx k a b => some ⟨2, 7, k, .d a b .null .null 0⟩
  | .fclass k a b w => some ⟨2, 8, k, .d a b .null .null (BitVec.ofNat 21 (w.toNat))⟩
  | .fadd k a b c rm sat => some ⟨3, 0, k, .d a b c .null (BitVec.ofNat 21 (rm.code + sat.toNat * 2 ^ 2))⟩
  | .fsub k a b c rm sat => some ⟨3, 1, k, .d a b c .null (BitVec.ofNat 21 (rm.code + sat.toNat * 2 ^ 2))⟩
  | .fmul k a b c rm sat => some ⟨3, 2, k, .d a b c .null (BitVec.ofNat 21 (rm.code + sat.toNat * 2 ^ 2))⟩
  | .ffma k a b c d rm sat => some ⟨3, 3, k, .d a b c d (BitVec.ofNat 21 (rm.code + sat.toNat * 2 ^ 2))⟩
  | .fmin k a b c => some ⟨3, 4, k, .d a b c .null 0⟩
  | .fmax k a b c => some ⟨3, 5, k, .d a b c .null 0⟩
  | .frcp k a b rm sat => some ⟨3, 6, k, .d a b .null .null (BitVec.ofNat 21 (rm.code + sat.toNat * 2 ^ 2))⟩
  | .frsq k a b => some ⟨3, 7, k, .d a b .null .null 0⟩
  | .fsqrt k a b rm sat => some ⟨3, 8, k, .d a b .null .null (BitVec.ofNat 21 (rm.code + sat.toNat * 2 ^ 2))⟩
  | .fdiv k a b c rm sat => some ⟨3, 9, k, .d a b c .null (BitVec.ofNat 21 (rm.code + sat.toNat * 2 ^ 2))⟩
  | .fexp2 k a b => some ⟨3, 10, k, .d a b .null .null 0⟩
  | .flog2 k a b => some ⟨3, 11, k, .d a b .null .null 0⟩
  | .fsin k a b => some ⟨3, 12, k, .d a b .null .null 0⟩
  | .fcos k a b => some ⟨3, 13, k, .d a b .null .null 0⟩
  | .ftanh k a b => some ⟨3, 14, k, .d a b .null .null 0⟩
  | .ffrac k a b rm sat => some ⟨3, 15, k, .d a b .null .null (BitVec.ofNat 21 (rm.code + sat.toNat * 2 ^ 2))⟩
  | .hadd2 k a b c rm sat => some ⟨4, 0, k, .d a b c .null (BitVec.ofNat 21 (rm.code + sat.toNat * 2 ^ 2))⟩
  | .hmul2 k a b c rm sat => some ⟨4, 1, k, .d a b c .null (BitVec.ofNat 21 (rm.code + sat.toNat * 2 ^ 2))⟩
  | .hfma2 k a b c d rm sat => some ⟨4, 2, k, .d a b c d (BitVec.ofNat 21 (rm.code + sat.toNat * 2 ^ 2))⟩
  | .hmin2 k a b c => some ⟨4, 3, k, .d a b c .null 0⟩
  | .hmax2 k a b c => some ⟨4, 4, k, .d a b c .null 0⟩
  | .hcmp2 k a b c cc => some ⟨4, 5, k, .d a b c .null (BitVec.ofNat 21 (cc.code))⟩
  | .badd2 k a b c rm sat => some ⟨4, 6, k, .d a b c .null (BitVec.ofNat 21 (rm.code + sat.toNat * 2 ^ 2))⟩
  | .bmul2 k a b c rm sat => some ⟨4, 7, k, .d a b c .null (BitVec.ofNat 21 (rm.code + sat.toNat * 2 ^ 2))⟩
  | .bfma2 k a b c d rm sat => some ⟨4, 8, k, .d a b c d (BitVec.ofNat 21 (rm.code + sat.toNat * 2 ^ 2))⟩
  | .bmin2 k a b c => some ⟨4, 9, k, .d a b c .null 0⟩
  | .bmax2 k a b c => some ⟨4, 10, k, .d a b c .null 0⟩
  | .bcmp2 k a b c cc => some ⟨4, 11, k, .d a b c .null (BitVec.ofNat 21 (cc.code))⟩
  | .dadd k a b c rm sat => some ⟨5, 0, k, .d a b c .null (BitVec.ofNat 21 (rm.code + sat.toNat * 2 ^ 2))⟩
  | .dmul k a b c rm sat => some ⟨5, 1, k, .d a b c .null (BitVec.ofNat 21 (rm.code + sat.toNat * 2 ^ 2))⟩
  | .dfma k a b c d rm sat => some ⟨5, 2, k, .d a b c d (BitVec.ofNat 21 (rm.code + sat.toNat * 2 ^ 2))⟩
  | .dmin k a b c => some ⟨5, 3, k, .d a b c .null 0⟩
  | .dmax k a b c => some ⟨5, 4, k, .d a b c .null 0⟩
  | .dcmp k a b c cc => some ⟨5, 5, k, .d a b c .null (BitVec.ofNat 21 (cc.code))⟩
  | .drcp k a b rm sat => some ⟨5, 6, k, .d a b .null .null (BitVec.ofNat 21 (rm.code + sat.toNat * 2 ^ 2))⟩
  | .cvt k a b dst src rm sat el => some ⟨6, 0, k, .d a b .null .null (BitVec.ofNat 21 (dst.code + src.code * 2 ^ 4 + rm.code * 2 ^ 8 + sat.toNat * 2 ^ 10 + el.toNat * 2 ^ 11))⟩
  | .pack8 k a b c fmt rm sat => some ⟨6, 1, k, .d a b c .null (BitVec.ofNat 21 (fmt.code + rm.code * 2 ^ 4 + sat.toNat * 2 ^ 6))⟩
  | .unpack8 k a b c fmt rm => some ⟨6, 2, k, .d a b c .null (BitVec.ofNat 21 (fmt.code + rm.code * 2 ^ 4))⟩
  | .pack4 k a b c fmt rm sat => some ⟨6, 3, k, .d a b c .null (BitVec.ofNat 21 (fmt.code + rm.code * 2 ^ 4 + sat.toNat * 2 ^ 6))⟩
  | .unpack4 k a b c fmt rm => some ⟨6, 4, k, .d a b c .null (BitVec.ofNat 21 (fmt.code + rm.code * 2 ^ 4))⟩
  | .scaleq k a b fmt => some ⟨6, 5, k, .d a b .null .null (BitVec.ofNat 21 (fmt.code))⟩
  | .shfl k a b c => some ⟨7, 0, k, .d a b c .null 0⟩
  | .shflup k a b c => some ⟨7, 1, k, .d a b c .null 0⟩
  | .shfldn k a b c => some ⟨7, 2, k, .d a b c .null 0⟩
  | .shflx k a b c => some ⟨7, 3, k, .d a b c .null 0⟩
  | .vote k a b mode => some ⟨7, 4, k, .d a b .null .null (BitVec.ofNat 21 (mode.code))⟩
  | .ballot k a b => some ⟨7, 5, k, .d a b .null .null 0⟩
  | .rfl k a b => some ⟨7, 6, k, .d a b .null .null 0⟩
  | .rlane k a b c => some ⟨7, 7, k, .d a b c .null 0⟩
  | .wlane k a b c => some ⟨7, 8, k, .d a b c .null 0⟩
  | .bcast k a b c => some ⟨7, 9, k, .d a b c .null 0⟩
  | .redux k a b op u => some ⟨7, 10, k, .d a b .null .null (BitVec.ofNat 21 (op.code + u.toNat * 2 ^ 3))⟩
  | .matchLanes k a b all => some ⟨7, 11, k, .d a b .null .null (BitVec.ofNat 21 (all.toNat))⟩
  | .sld k a b w off sc => some ⟨8, 0, k, .m a b (ac w.code false 0 0) off sc false⟩
  | .sldarg k a pair off4 => some ⟨8, 1, k, .i a .null (.imm (if pair then 1 else 0)) (BitVec.ofNat 32 (off4.toNat * 4))⟩
  | .bra k off => some ⟨16, 0, k, .i .null .null .null off⟩
  | .bru k off => some ⟨16, 1, k, .i .null .null .null off⟩
  | .call k a off => some ⟨16, 2, k, .i a .null .null off⟩
  | .ret k b => some ⟨16, 3, k, .i .null b .null 0⟩
  | .jtab k b tab => some ⟨16, 4, k, .i .null b .null tab⟩
  | .land k a b c d label m dir => some ⟨16, 5, k, .d a b c d (BitVec.ofNat 21 (label.toNat + m.toNat * 2 ^ 16 + dir.toNat * 2 ^ 17))⟩
  | .rcvset k n => some ⟨16, 6, k, .d .null .null .null .null (BitVec.ofNat 21 (n.toNat))⟩
  | .rcvwait k n => some ⟨16, 7, k, .d .null .null .null .null (BitVec.ofNat 21 (n.toNat))⟩
  | .rcvdrop k n => some ⟨16, 8, k, .d .null .null .null .null (BitVec.ofNat 21 (n.toNat))⟩
  | .exit k => some ⟨16, 9, k, .i .null .null .null 0⟩
  | .yield k => some ⟨16, 10, k, .i .null .null .null 0⟩
  | .nop k => some ⟨16, 11, k, .i .null .null .null 0⟩
  | .brk k code => some ⟨16, 12, k, .i .null .null .null code⟩
  | .spawn k a c entry => some ⟨17, 0, k, .i a .null c entry⟩
  | .take k a b entry => some ⟨17, 1, k, .i a b .null entry⟩
  | .park k => some ⟨17, 2, k, .i .null .null .null 0⟩
  | .wake k a b grp trap => some ⟨17, 3, k, .d a b .null .null (BitVec.ofNat 21 (grp.toNat + trap.toNat * 2 ^ 1))⟩
  | .signal k a b grp trap => some ⟨17, 4, k, .d a b .null .null (BitVec.ofNat 21 (grp.toNat + trap.toNat * 2 ^ 1))⟩
  | .deposit k a b c grp trap slot => some ⟨17, 5, k, .d a b c .null (BitVec.ofNat 21 (grp.toNat + trap.toNat * 2 ^ 1 + slot.toNat * 2 ^ 2))⟩
  | .join k a b c grp trap => some ⟨17, 6, k, .d a b c .null (BitVec.ofNat 21 (grp.toNat + trap.toNat * 2 ^ 1))⟩
  | .nameof k a b c grp => some ⟨17, 7, k, .d a b c .null (BitVec.ofNat 21 (grp.toNat))⟩
  | .nprobe k a b grp trap => some ⟨17, 8, k, .d a b .null .null (BitVec.ofNat 21 (grp.toNat + trap.toNat * 2 ^ 1))⟩
  | .emit k a entry => some ⟨17, 9, k, .i a .null .null entry⟩
  | .gdone k => some ⟨17, 10, k, .i .null .null .null 0⟩
  | .cancel k a b lvl => some ⟨17, 11, k, .d a b .null .null (BitVec.ofNat 21 (lvl.code))⟩
  | .barinit k b d bar => some ⟨18, 0, k, .d .null b .null d (BitVec.ofNat 21 (bar.toNat))⟩
  | .bararr k d bar => some ⟨18, 1, k, .d .null .null .null d (BitVec.ofNat 21 (bar.toNat))⟩
  | .barwait k d bar => some ⟨18, 2, k, .d .null .null .null d (BitVec.ofNat 21 (bar.toNat))⟩
  | .barsync k d bar => some ⟨18, 3, k, .d .null .null .null d (BitVec.ofNat 21 (bar.toNat))⟩
  | .barbyte k a b d bar => some ⟨18, 4, k, .d a b .null d (BitVec.ofNat 21 (bar.toNat))⟩
  | .bartry k a d bar => some ⟨18, 5, k, .d a .null .null d (BitVec.ofNat 21 (bar.toNat))⟩
  | .cset k a => some ⟨18, 6, k, .d a .null .null .null 0⟩
  | .csign k a => some ⟨18, 7, k, .d a .null .null .null 0⟩
  | .cwait k a => some ⟨18, 8, k, .d a .null .null .null 0⟩
  | .hbararr k h lvl => some ⟨18, 9, k, .d .null .null .null .null (BitVec.ofNat 21 (h.toNat + lvl.code * 2 ^ 4))⟩
  | .hbarwait k h => some ⟨18, 10, k, .d .null .null .null .null (BitVec.ofNat 21 (h.toNat))⟩
  | .ld k a b w sx acq pol off sc => some ⟨20, 0, k, .m a b (ac w.code sx acq.toNat pol.toNat) off sc false⟩
  | .st k a b w rel pol flag off sc => some ⟨20, 1, k, .m a b (ac w.code false rel.toNat pol.toNat) off sc flag⟩
  | .lds k a b w sx off sc => some ⟨20, 2, k, .m a b (ac w.code sx 0 0) off sc false⟩
  | .sts k a b w off sc => some ⟨20, 3, k, .m a b (ac w.code false 0 0) off sc false⟩
  | .atom k a b w sg op nc off sc => some ⟨20, 4, k, .m a b (ac w.code sg op.code (if nc then 2 else 0)) off sc false⟩
  | .cas k a b w nc off sc => some ⟨20, 5, k, .m a b (ac w.code false 0 (if nc then 2 else 0)) off sc false⟩
  | .atoms k a b w sg op off sc => some ⟨20, 6, k, .m a b (ac w.code sg op.code 0) off sc false⟩
  | .cass k a b w off sc => some ⟨20, 7, k, .m a b (ac w.code false 0 0) off sc false⟩
  | .ldto k a b c d ack tl win => some ⟨20, 8, k, .d a b c d (BitVec.ofNat 21 (ack.toNat + tl.toNat * 2 ^ 1 + win.toNat * 2 ^ 5))⟩
  | .rxwin k a b c d bb bar win => some ⟨20, 9, k, .d a b c d (BitVec.ofNat 21 (bb.toNat + bar.toNat * 2 ^ 1 + win.toNat * 2 ^ 11))⟩
  | .rxclose k a win => some ⟨20, 10, k, .d a .null .null .null (BitVec.ofNat 21 (win.toNat * 2 ^ 11))⟩
  | .fence k sc => some ⟨20, 11, k, .m .null .null 0 0 sc false⟩
  | .pref k b l2 off sc => some ⟨20, 12, k, .m .null b (ac 0 false 0 l2.toNat) off sc false⟩
  | .cflush k b inv off sc => some ⟨20, 13, k, .m .null b (ac 0 false inv.toNat 0) off sc false⟩
  | .cpy k a b c d tle tl => some ⟨21, 0, k, .d a b c d (BitVec.ofNat 21 (tle.toNat + tl.toNat * 2 ^ 1))⟩
  | .cpy2 k a b c d tle tl => some ⟨21, 1, k, .d a b c d (BitVec.ofNat 21 (tle.toNat + tl.toNat * 2 ^ 1))⟩
  | .cpyg k a b c d tle tl => some ⟨21, 2, k, .d a b c d (BitVec.ofNat 21 (tle.toNat + tl.toNat * 2 ^ 1))⟩
  | .cpys k a b c d tle tl => some ⟨21, 3, k, .d a b c d (BitVec.ofNat 21 (tle.toNat + tl.toNat * 2 ^ 1))⟩
  | .cpym k a b c tle tl recv => some ⟨21, 4, k, .d a b c .null (BitVec.ofNat 21 (tle.toNat + tl.toNat * 2 ^ 1 + recv.toNat * 2 ^ 5))⟩
  | .wpread k a b => some ⟨21, 5, k, .d a b .null .null 0⟩
  | .wpwait k b c => some ⟨21, 6, k, .d .null b c .null 0⟩
  | .tlread k a b iss => some ⟨21, 7, k, .d a b .null .null (BitVec.ofNat 21 (iss.toNat))⟩
  | .tlwait k b c => some ⟨21, 8, k, .d .null b c .null 0⟩
  | .wait k ld st cp mx rm nm => some ⟨21, 9, k, .i .null .null .null (BitVec.ofNat 32 (ld.toNat + st.toNat * 2 ^ 5 + cp.toNat * 2 ^ 10 + mx.toNat * 2 ^ 15 + rm.toNat * 2 ^ 20 + nm.toNat * 2 ^ 25))⟩
  | .mma8a k a b c d => some ⟨24, 0, k, .d a b c d 0⟩
  | .mma8b k a b c d => some ⟨24, 1, k, .d a b c d 0⟩
  | .mma8c k a b c d => some ⟨24, 2, k, .d a b c d 0⟩
  | .mma4a k a b c d => some ⟨24, 3, k, .d a b c d 0⟩
  | .mma4b k a b c d => some ⟨24, 4, k, .d a b c d 0⟩
  | .mma4c k a b c d => some ⟨24, 5, k, .d a b c d 0⟩
  | .mmaz k a sh => some ⟨24, 6, k, .d a .null .null .null (BitVec.ofNat 21 (sh.code))⟩
  | .mma16a k a b c d => some ⟨25, 0, k, .d a b c d 0⟩
  | .mma16b k a b c d => some ⟨25, 1, k, .d a b c d 0⟩
  | .mma16c k a b c d => some ⟨25, 2, k, .d a b c d 0⟩
  | .latchl k b rows64 sc => some ⟨26, 0, k, .d .null b .null .null (BitVec.ofNat 21 (rows64.toNat + sc.toNat * 2 ^ 1))⟩
  | .latchg k b c d rows64 sc => some ⟨26, 1, k, .d .null b c d (BitVec.ofNat 21 (rows64.toNat + sc.toNat * 2 ^ 1))⟩
  | .latchclr k => some ⟨26, 2, k, .i .null .null .null 0⟩
  | .accst k a b sh => some ⟨26, 3, k, .d a b .null .null (BitVec.ofNat 21 (sh.code))⟩
  | .accld k a b sh => some ⟨26, 4, k, .d a b .null .null (BitVec.ofNat 21 (sh.code))⟩
  | .inv k a b c fall dom pd budget tol => some ⟨28, 0, k, .i a b c (BitVec.ofNat 32 (tol.toNat + budget.toNat * 2 ^ 12 + pd.toNat * 2 ^ 18 + dom.code * 2 ^ 24 + fall.toNat * 2 ^ 26))⟩
  | .brset k a b c d fv => some ⟨28, 1, k, .d a b c d (BitVec.ofNat 21 (fv.toNat))⟩
  | .brget k a b f => some ⟨28, 2, k, .d a b .null .null (BitVec.ofNat 21 (f.code))⟩
  | .callm k off => some ⟨28, 3, k, .i .null .null .null off⟩
  | .npost k b => some ⟨30, 0, k, .d .null b .null .null 0⟩
  | .nwait k b c => some ⟨30, 1, k, .d .null b c .null 0⟩
  | .nread k a b c d => some ⟨30, 2, k, .d a b c d 0⟩
  | .narm k a b c d trap => some ⟨30, 3, k, .d a b c d (BitVec.ofNat 21 (trap.toNat * 2 ^ 1))⟩
  | .trap k code => some ⟨63, 0, k, .i .null .null .null code⟩
  | .rte k => some ⟨63, 1, k, .i .null .null .null 0⟩
  | .srd k a reg => some ⟨63, 2, k, .d a .null .null .null (BitVec.ofNat 21 (reg.toNat))⟩
  | .swr k b reg => some ⟨63, 3, k, .d .null b .null .null (BitVec.ofNat 21 (reg.toNat))⟩
  | .tlbinv k b c va => some ⟨63, 4, k, .d .null b c .null (BitVec.ofNat 21 va.toNat)⟩
  | .ntinv k b one => some ⟨63, 5, k, .d .null b .null .null (BitVec.ofNat 21 (one.toNat))⟩
  | .svc k a code => some ⟨63, 6, k, .i a .null .null code⟩
  | .dbghalt k => some ⟨63, 7, k, .i .null .null .null 0⟩
  | _ => none

/-- Format D forms of group 0x0. -/
def ofD0 (mn : Nat) (k : Ctl) (a b c d : Opnd) (m : Nat) : Option Instr :=
  match mn with
  | 0 => some (.iadd k a b c)
  | 1 => some (.isub k a b c)
  | 2 => some (.imul k a b c)
  | 3 => some (.imulhi k a b c (flag m 0))
  | 4 => some (.imad k a b c d)
  | 5 => some (.imin k a b c (flag m 0))
  | 6 => some (.imax k a b c (flag m 0))
  | 7 => some (.iabs k a b)
  | 8 => some (.ineg k a b)
  | 9 => some (.iaddc k a b c d)
  | 10 => some (.isubb k a b c d)
  | 11 => some (.iaddsat k a b c (flag m 0))
  | 12 => some (.idot4 k a b c d (flag m 0) (flag m 1))
  | 13 => some (.isad k a b c d (flag m 0))
  | 14 => some (.iadd64 k a b c)
  | 15 => some (.imad64 k a b c d (flag m 0))
  | _ => none

/-- Format D forms of group 0x1. -/
def ofD1 (mn : Nat) (k : Ctl) (a b c d : Opnd) (m : Nat) : Option Instr :=
  match mn with
  | 0 => some (.and k a b c)
  | 1 => some (.or k a b c)
  | 2 => some (.xor k a b c)
  | 3 => some (.not k a b)
  | 4 => some (.andn k a b c)
  | 5 => some (.shl k a b c)
  | 6 => some (.shr k a b c)
  | 7 => some (.sar k a b c)
  | 8 => some (.rot k a b c (flag m 0))
  | 9 => some (.bfe k a b c (flag m 0))
  | 10 => some (.bfi k a b c d)
  | 11 => some (.popc k a b)
  | 12 => some (.clz k a b)
  | 13 => some (.brev k a b)
  | 14 => some (.tern k a b c d (fld m 0))
  | 15 => some (.perm k a b c d)
  | _ => none

/-- Format D forms of group 0x2. -/
def ofD2 (mn : Nat) (k : Ctl) (a b c d : Opnd) (m : Nat) : Option Instr :=
  match mn with
  | 0 => (ICond.ofCode (m / 2 ^ 0 % 8)).map fun cc => .icmp k a b c cc (flag m 3)
  | 1 => (FCond.ofCode (m / 2 ^ 0 % 8)).map fun cc => .fcmp k a b c cc
  | 2 => some (.sel k a b c d)
  | 3 => some (.ptern k a b c d (fld m 0))
  | 4 => some (.p2v k a b (fld m 0))
  | 5 => some (.v2p k a b (fld m 0))
  | 6 => some (.mov k a b)
  | 7 => some (.movx k a b)
  | 8 => some (.fclass k a b (flag m 0))
  | _ => none

/-- Format D forms of group 0x3. -/
def ofD3 (mn : Nat) (k : Ctl) (a b c d : Opnd) (m : Nat) : Option Instr :=
  match mn with
  | 0 => (Rnd.ofCode (m / 2 ^ 0 % 4)).map fun rm => .fadd k a b c rm (flag m 2)
  | 1 => (Rnd.ofCode (m / 2 ^ 0 % 4)).map fun rm => .fsub k a b c rm (flag m 2)
  | 2 => (Rnd.ofCode (m / 2 ^ 0 % 4)).map fun rm => .fmul k a b c rm (flag m 2)
  | 3 => (Rnd.ofCode (m / 2 ^ 0 % 4)).map fun rm => .ffma k a b c d rm (flag m 2)
  | 4 => some (.fmin k a b c)
  | 5 => some (.fmax k a b c)
  | 6 => (Rnd.ofCode (m / 2 ^ 0 % 4)).map fun rm => .frcp k a b rm (flag m 2)
  | 7 => some (.frsq k a b)
  | 8 => (Rnd.ofCode (m / 2 ^ 0 % 4)).map fun rm => .fsqrt k a b rm (flag m 2)
  | 9 => (Rnd.ofCode (m / 2 ^ 0 % 4)).map fun rm => .fdiv k a b c rm (flag m 2)
  | 10 => some (.fexp2 k a b)
  | 11 => some (.flog2 k a b)
  | 12 => some (.fsin k a b)
  | 13 => some (.fcos k a b)
  | 14 => some (.ftanh k a b)
  | 15 => (Rnd.ofCode (m / 2 ^ 0 % 4)).map fun rm => .ffrac k a b rm (flag m 2)
  | _ => none

/-- Format D forms of group 0x4. -/
def ofD4 (mn : Nat) (k : Ctl) (a b c d : Opnd) (m : Nat) : Option Instr :=
  match mn with
  | 0 => (Rnd.ofCode (m / 2 ^ 0 % 4)).map fun rm => .hadd2 k a b c rm (flag m 2)
  | 1 => (Rnd.ofCode (m / 2 ^ 0 % 4)).map fun rm => .hmul2 k a b c rm (flag m 2)
  | 2 => (Rnd.ofCode (m / 2 ^ 0 % 4)).map fun rm => .hfma2 k a b c d rm (flag m 2)
  | 3 => some (.hmin2 k a b c)
  | 4 => some (.hmax2 k a b c)
  | 5 => (FCond.ofCode (m / 2 ^ 0 % 8)).map fun cc => .hcmp2 k a b c cc
  | 6 => (Rnd.ofCode (m / 2 ^ 0 % 4)).map fun rm => .badd2 k a b c rm (flag m 2)
  | 7 => (Rnd.ofCode (m / 2 ^ 0 % 4)).map fun rm => .bmul2 k a b c rm (flag m 2)
  | 8 => (Rnd.ofCode (m / 2 ^ 0 % 4)).map fun rm => .bfma2 k a b c d rm (flag m 2)
  | 9 => some (.bmin2 k a b c)
  | 10 => some (.bmax2 k a b c)
  | 11 => (FCond.ofCode (m / 2 ^ 0 % 8)).map fun cc => .bcmp2 k a b c cc
  | _ => none

/-- Format D forms of group 0x5. -/
def ofD5 (mn : Nat) (k : Ctl) (a b c d : Opnd) (m : Nat) : Option Instr :=
  match mn with
  | 0 => (Rnd.ofCode (m / 2 ^ 0 % 4)).map fun rm => .dadd k a b c rm (flag m 2)
  | 1 => (Rnd.ofCode (m / 2 ^ 0 % 4)).map fun rm => .dmul k a b c rm (flag m 2)
  | 2 => (Rnd.ofCode (m / 2 ^ 0 % 4)).map fun rm => .dfma k a b c d rm (flag m 2)
  | 3 => some (.dmin k a b c)
  | 4 => some (.dmax k a b c)
  | 5 => (FCond.ofCode (m / 2 ^ 0 % 8)).map fun cc => .dcmp k a b c cc
  | 6 => (Rnd.ofCode (m / 2 ^ 0 % 4)).map fun rm => .drcp k a b rm (flag m 2)
  | _ => none

/-- Format D forms of group 0x6. -/
def ofD6 (mn : Nat) (k : Ctl) (a b c d : Opnd) (m : Nat) : Option Instr :=
  match mn with
  | 0 => (Fmt.ofCode (m / 2 ^ 0 % 16)).bind fun dst => (Fmt.ofCode (m / 2 ^ 4 % 16)).bind fun src => (Rnd.ofCode (m / 2 ^ 8 % 4)).map fun rm => .cvt k a b dst src rm (flag m 10) (fld m 11)
  | 1 => (Fmt.ofCode (m / 2 ^ 0 % 16)).bind fun fmt => (Rnd.ofCode (m / 2 ^ 4 % 4)).map fun rm => .pack8 k a b c fmt rm (flag m 6)
  | 2 => (Fmt.ofCode (m / 2 ^ 0 % 16)).bind fun fmt => (Rnd.ofCode (m / 2 ^ 4 % 4)).map fun rm => .unpack8 k a b c fmt rm
  | 3 => (Fmt.ofCode (m / 2 ^ 0 % 16)).bind fun fmt => (Rnd.ofCode (m / 2 ^ 4 % 4)).map fun rm => .pack4 k a b c fmt rm (flag m 6)
  | 4 => (Fmt.ofCode (m / 2 ^ 0 % 16)).bind fun fmt => (Rnd.ofCode (m / 2 ^ 4 % 4)).map fun rm => .unpack4 k a b c fmt rm
  | 5 => (Fmt.ofCode (m / 2 ^ 0 % 16)).map fun fmt => .scaleq k a b fmt
  | _ => none

/-- Format D forms of group 0x7. -/
def ofD7 (mn : Nat) (k : Ctl) (a b c d : Opnd) (m : Nat) : Option Instr :=
  match mn with
  | 0 => some (.shfl k a b c)
  | 1 => some (.shflup k a b c)
  | 2 => some (.shfldn k a b c)
  | 3 => some (.shflx k a b c)
  | 4 => (VoteMode.ofCode (m / 2 ^ 0 % 4)).map fun mode => .vote k a b mode
  | 5 => some (.ballot k a b)
  | 6 => some (.rfl k a b)
  | 7 => some (.rlane k a b c)
  | 8 => some (.wlane k a b c)
  | 9 => some (.bcast k a b c)
  | 10 => (RedOp.ofCode (m / 2 ^ 0 % 8)).map fun op => .redux k a b op (flag m 3)
  | 11 => some (.matchLanes k a b (flag m 0))
  | _ => none

/-- Format D forms of group 0x10. -/
def ofD16 (mn : Nat) (k : Ctl) (a b c d : Opnd) (m : Nat) : Option Instr :=
  match mn with
  | 5 => some (.land k a b c d (fld m 0) (flag m 16) (flag m 17))
  | 6 => some (.rcvset k (fld m 0))
  | 7 => some (.rcvwait k (fld m 0))
  | 8 => some (.rcvdrop k (fld m 0))
  | _ => none

/-- Format D forms of group 0x11. -/
def ofD17 (mn : Nat) (k : Ctl) (a b c d : Opnd) (m : Nat) : Option Instr :=
  match mn with
  | 3 => some (.wake k a b (flag m 0) (flag m 1))
  | 4 => some (.signal k a b (flag m 0) (flag m 1))
  | 5 => some (.deposit k a b c (flag m 0) (flag m 1) (fld m 2))
  | 6 => some (.join k a b c (flag m 0) (flag m 1))
  | 7 => some (.nameof k a b c (flag m 0))
  | 8 => some (.nprobe k a b (flag m 0) (flag m 1))
  | 11 => (CancelLvl.ofCode (m / 2 ^ 0 % 8)).map fun lvl => .cancel k a b lvl
  | _ => none

/-- Format D forms of group 0x12. -/
def ofD18 (mn : Nat) (k : Ctl) (a b c d : Opnd) (m : Nat) : Option Instr :=
  match mn with
  | 0 => some (.barinit k b d (fld m 0))
  | 1 => some (.bararr k d (fld m 0))
  | 2 => some (.barwait k d (fld m 0))
  | 3 => some (.barsync k d (fld m 0))
  | 4 => some (.barbyte k a b d (fld m 0))
  | 5 => some (.bartry k a d (fld m 0))
  | 6 => some (.cset k a)
  | 7 => some (.csign k a)
  | 8 => some (.cwait k a)
  | 9 => (HLvl.ofCode (m / 2 ^ 4 % 4)).map fun lvl => .hbararr k (fld m 0) lvl
  | 10 => some (.hbarwait k (fld m 0))
  | _ => none

/-- Format D forms of group 0x14. -/
def ofD20 (mn : Nat) (k : Ctl) (a b c d : Opnd) (m : Nat) : Option Instr :=
  match mn with
  | 8 => some (.ldto k a b c d (flag m 0) (fld m 1) (fld m 5))
  | 9 => some (.rxwin k a b c d (flag m 0) (fld m 1) (fld m 11))
  | 10 => some (.rxclose k a (fld m 11))
  | _ => none

/-- Format D forms of group 0x15. -/
def ofD21 (mn : Nat) (k : Ctl) (a b c d : Opnd) (m : Nat) : Option Instr :=
  match mn with
  | 0 => some (.cpy k a b c d (flag m 0) (fld m 1))
  | 1 => some (.cpy2 k a b c d (flag m 0) (fld m 1))
  | 2 => some (.cpyg k a b c d (flag m 0) (fld m 1))
  | 3 => some (.cpys k a b c d (flag m 0) (fld m 1))
  | 4 => some (.cpym k a b c (flag m 0) (fld m 1) (fld m 5))
  | 5 => some (.wpread k a b)
  | 6 => some (.wpwait k b c)
  | 7 => some (.tlread k a b (flag m 0))
  | 8 => some (.tlwait k b c)
  | _ => none

/-- Format D forms of group 0x18. -/
def ofD24 (mn : Nat) (k : Ctl) (a b c d : Opnd) (m : Nat) : Option Instr :=
  match mn with
  | 0 => some (.mma8a k a b c d)
  | 1 => some (.mma8b k a b c d)
  | 2 => some (.mma8c k a b c d)
  | 3 => some (.mma4a k a b c d)
  | 4 => some (.mma4b k a b c d)
  | 5 => some (.mma4c k a b c d)
  | 6 => (Shape.ofCode (m / 2 ^ 0 % 4)).map fun sh => .mmaz k a sh
  | _ => none

/-- Format D forms of group 0x19. -/
def ofD25 (mn : Nat) (k : Ctl) (a b c d : Opnd) (m : Nat) : Option Instr :=
  match mn with
  | 0 => some (.mma16a k a b c d)
  | 1 => some (.mma16b k a b c d)
  | 2 => some (.mma16c k a b c d)
  | _ => none

/-- Format D forms of group 0x1a. -/
def ofD26 (mn : Nat) (k : Ctl) (a b c d : Opnd) (m : Nat) : Option Instr :=
  match mn with
  | 0 => some (.latchl k b (flag m 0) (flag m 1))
  | 1 => some (.latchg k b c d (flag m 0) (flag m 1))
  | 3 => (Shape.ofCode (m / 2 ^ 0 % 4)).map fun sh => .accst k a b sh
  | 4 => (Shape.ofCode (m / 2 ^ 0 % 4)).map fun sh => .accld k a b sh
  | _ => none

/-- Format D forms of group 0x1c. -/
def ofD28 (mn : Nat) (k : Ctl) (a b c d : Opnd) (m : Nat) : Option Instr :=
  match mn with
  | 1 => some (.brset k a b c d (flag m 0))
  | 2 => (BrField.ofCode (m / 2 ^ 0 % 8)).map fun f => .brget k a b f
  | _ => none

/-- Format D forms of group 0x1e. -/
def ofD30 (mn : Nat) (k : Ctl) (a b c d : Opnd) (m : Nat) : Option Instr :=
  match mn with
  | 0 => some (.npost k b)
  | 1 => some (.nwait k b c)
  | 2 => some (.nread k a b c d)
  | 3 => some (.narm k a b c d (flag m 1))
  | _ => none

/-- Format D forms of group 0x3f. -/
def ofD63 (mn : Nat) (k : Ctl) (a b c d : Opnd) (m : Nat) : Option Instr :=
  match mn with
  | 2 => some (.srd k a (fld m 0))
  | 3 => some (.swr k b (fld m 0))
  | 4 => some (.tlbinv k b c (flag m 0))
  | 5 => some (.ntinv k b (flag m 0))
  | _ => none

/-- Format I forms of group 0x8. -/
def ofI8 (mn : Nat) (k : Ctl) (a b c : Opnd) (x : Word) : Option Instr :=
  match mn with
  | 1 => some (.sldarg k a (c == .imm 1) (BitVec.ofNat 10 (x.toNat / 4)))
  | _ => none

/-- Format I forms of group 0x10. -/
def ofI16 (mn : Nat) (k : Ctl) (a b c : Opnd) (x : Word) : Option Instr :=
  match mn with
  | 0 => some (.bra k x)
  | 1 => some (.bru k x)
  | 2 => some (.call k a x)
  | 3 => some (.ret k b)
  | 4 => some (.jtab k b x)
  | 9 => some (.exit k)
  | 10 => some (.yield k)
  | 11 => some (.nop k)
  | 12 => some (.brk k x)
  | _ => none

/-- Format I forms of group 0x11. -/
def ofI17 (mn : Nat) (k : Ctl) (a b c : Opnd) (x : Word) : Option Instr :=
  match mn with
  | 0 => some (.spawn k a c x)
  | 1 => some (.take k a b x)
  | 2 => some (.park k)
  | 9 => some (.emit k a x)
  | 10 => some (.gdone k)
  | _ => none

/-- Format I forms of group 0x15. -/
def ofI21 (mn : Nat) (k : Ctl) (a b c : Opnd) (x : Word) : Option Instr :=
  match mn with
  | 9 => some (.wait k (fld x.toNat 0) (fld x.toNat 5) (fld x.toNat 10) (fld x.toNat 15) (fld x.toNat 20) (fld x.toNat 25))
  | _ => none

/-- Format I forms of group 0x1a. -/
def ofI26 (mn : Nat) (k : Ctl) (a b c : Opnd) (x : Word) : Option Instr :=
  match mn with
  | 2 => some (.latchclr k)
  | _ => none

/-- Format I forms of group 0x1c. -/
def ofI28 (mn : Nat) (k : Ctl) (a b c : Opnd) (x : Word) : Option Instr :=
  match mn with
  | 0 => (Dom.ofCode (x.toNat / 2 ^ 24 % 4)).map fun dom => .inv k a b c (flag x.toNat 26) dom (fld x.toNat 18) (fld x.toNat 12) (fld x.toNat 0)
  | 3 => some (.callm k x)
  | _ => none

/-- Format I forms of group 0x3f. -/
def ofI63 (mn : Nat) (k : Ctl) (a b c : Opnd) (x : Word) : Option Instr :=
  match mn with
  | 0 => some (.trap k x)
  | 1 => some (.rte k)
  | 6 => some (.svc k a x)
  | 7 => some (.dbghalt k)
  | _ => none

/-- Format M forms of group 0x8. -/
def ofM8 (mn : Nat) (k : Ctl) (a b : Opnd) (w : Width) (sg : Bool) (op pol : Nat) (off : BitVec 24) (sc : Scope) (bit : Bool) : Option Instr :=
  match mn with
  | 0 => some (.sld k a b w off sc)
  | _ => none

/-- Format M forms of group 0x14. -/
def ofM20 (mn : Nat) (k : Ctl) (a b : Opnd) (w : Width) (sg : Bool) (op pol : Nat) (off : BitVec 24) (sc : Scope) (bit : Bool) : Option Instr :=
  match mn with
  | 0 => some (.ld k a b w sg (op == 1) (BitVec.ofNat 2 pol) off sc)
  | 1 => some (.st k a b w (op == 1) (BitVec.ofNat 2 pol) bit off sc)
  | 2 => some (.lds k a b w sg off sc)
  | 3 => some (.sts k a b w off sc)
  | 4 => (AtomOp.ofCode op).map fun o => .atom k a b w sg o (pol == 2) off sc
  | 5 => some (.cas k a b w (pol == 2) off sc)
  | 6 => (AtomOp.ofCode op).map fun o => .atoms k a b w sg o off sc
  | 7 => some (.cass k a b w off sc)
  | 11 => some (.fence k sc)
  | 12 => some (.pref k b (pol == 1) off sc)
  | 13 => some (.cflush k b (op == 1) off sc)
  | _ => none

def ofD (maj mn : Nat) (k : Ctl) (a b c d : Opnd) (m : Nat) : Option Instr :=
  match maj with
  | 0 => ofD0 mn k a b c d m
  | 1 => ofD1 mn k a b c d m
  | 2 => ofD2 mn k a b c d m
  | 3 => ofD3 mn k a b c d m
  | 4 => ofD4 mn k a b c d m
  | 5 => ofD5 mn k a b c d m
  | 6 => ofD6 mn k a b c d m
  | 7 => ofD7 mn k a b c d m
  | 16 => ofD16 mn k a b c d m
  | 17 => ofD17 mn k a b c d m
  | 18 => ofD18 mn k a b c d m
  | 20 => ofD20 mn k a b c d m
  | 21 => ofD21 mn k a b c d m
  | 24 => ofD24 mn k a b c d m
  | 25 => ofD25 mn k a b c d m
  | 26 => ofD26 mn k a b c d m
  | 28 => ofD28 mn k a b c d m
  | 30 => ofD30 mn k a b c d m
  | 63 => ofD63 mn k a b c d m
  | _ => none

def ofI (maj mn : Nat) (k : Ctl) (a b c : Opnd) (x : Word) : Option Instr :=
  match maj with
  | 8 => ofI8 mn k a b c x
  | 16 => ofI16 mn k a b c x
  | 17 => ofI17 mn k a b c x
  | 21 => ofI21 mn k a b c x
  | 26 => ofI26 mn k a b c x
  | 28 => ofI28 mn k a b c x
  | 63 => ofI63 mn k a b c x
  | _ => none

def ofM (maj mn : Nat) (k : Ctl) (a b : Opnd) (w : Width) (sg : Bool) (op pol : Nat) (off : BitVec 24) (sc : Scope) (bit : Bool) : Option Instr :=
  match maj with
  | 8 => ofM8 mn k a b w sg op pol off sc bit
  | 20 => ofM20 mn k a b w sg op pol off sc bit
  | _ => none

/-- The format of an assigned form (Table 4-2); formats I, B and N share one layout of fields. -/
def formatOf (maj mn : Nat) : Option Format :=
  match maj with
  | 0 => if mn < 16 then some .d else none
  | 1 => if mn < 16 then some .d else none
  | 2 => if mn < 9 then some .d else none
  | 3 => if mn < 16 then some .d else none
  | 4 => if mn < 12 then some .d else none
  | 5 => if mn < 7 then some .d else none
  | 6 => if mn < 6 then some .d else none
  | 7 => if mn < 12 then some .d else none
  | 8 => if mn == 0 then some .m else if mn < 2 then some .i else none
  | 16 => if mn == 5 || mn == 6 || mn == 7 || mn == 8 then some .d else if mn < 13 then some .i else none
  | 17 => if mn == 0 || mn == 1 || mn == 2 || mn == 9 || mn == 10 then some .i else if mn < 12 then some .d else none
  | 18 => if mn < 11 then some .d else none
  | 20 => if mn == 8 || mn == 9 || mn == 10 then some .d else if mn < 14 then some .m else none
  | 21 => if mn == 9 then some .i else if mn < 10 then some .d else none
  | 24 => if mn < 7 then some .d else none
  | 25 => if mn < 3 then some .d else none
  | 26 => if mn == 2 then some .i else if mn < 5 then some .d else none
  | 28 => if mn == 0 || mn == 3 then some .i else if mn < 4 then some .d else none
  | 30 => if mn < 4 then some .d else none
  | 63 => if mn == 0 || mn == 1 || mn == 6 || mn == 7 then some .i else if mn < 8 then some .d else none
  | _ => none

/-- What each operand position of a form accepts (R36, R87 and the field table of each chapter). A destination that
may execute on the scalar datapath stands first (R38, R89). -/
def sig : Instr → List (Kd × Opnd)
  | .iadd _ a b c => [(Kd.D, a), (Kd.S, b), (Kd.S, c)]
  | .isub _ a b c => [(Kd.D, a), (Kd.S, b), (Kd.S, c)]
  | .imul _ a b c => [(Kd.D, a), (Kd.S, b), (Kd.S, c)]
  | .imulhi _ a b c _ => [(Kd.D, a), (Kd.S, b), (Kd.S, c)]
  | .imad _ a b c d => [(Kd.D, a), (Kd.S, b), (Kd.S, c), (Kd.S, d)]
  | .imin _ a b c _ => [(Kd.D, a), (Kd.S, b), (Kd.S, c)]
  | .imax _ a b c _ => [(Kd.D, a), (Kd.S, b), (Kd.S, c)]
  | .iabs _ a b => [(Kd.D, a), (Kd.S, b)]
  | .ineg _ a b => [(Kd.D, a), (Kd.S, b)]
  | .iaddc _ a b c d => [(Kd.DV, a), (Kd.S, b), (Kd.S, c), (Kd.PD, d)]
  | .isubb _ a b c d => [(Kd.DV, a), (Kd.S, b), (Kd.S, c), (Kd.PD, d)]
  | .iaddsat _ a b c _ => [(Kd.D, a), (Kd.S, b), (Kd.S, c)]
  | .idot4 _ a b c d _ _ => [(Kd.D, a), (Kd.S, b), (Kd.S, c), (Kd.S, d)]
  | .isad _ a b c d _ => [(Kd.D, a), (Kd.S, b), (Kd.S, c), (Kd.S, d)]
  | .iadd64 _ a b c => [(Kd.D64, a), (Kd.S64, b), (Kd.S64, c)]
  | .imad64 _ a b c d _ => [(Kd.D64, a), (Kd.S, b), (Kd.S, c), (Kd.S64, d)]
  | .and _ a b c => [(Kd.D, a), (Kd.S, b), (Kd.S, c)]
  | .or _ a b c => [(Kd.D, a), (Kd.S, b), (Kd.S, c)]
  | .xor _ a b c => [(Kd.D, a), (Kd.S, b), (Kd.S, c)]
  | .not _ a b => [(Kd.D, a), (Kd.S, b)]
  | .andn _ a b c => [(Kd.D, a), (Kd.S, b), (Kd.S, c)]
  | .shl _ a b c => [(Kd.D, a), (Kd.S, b), (Kd.S, c)]
  | .shr _ a b c => [(Kd.D, a), (Kd.S, b), (Kd.S, c)]
  | .sar _ a b c => [(Kd.D, a), (Kd.S, b), (Kd.S, c)]
  | .rot _ a b c _ => [(Kd.D, a), (Kd.S, b), (Kd.S, c)]
  | .bfe _ a b c _ => [(Kd.D, a), (Kd.S, b), (Kd.S, c)]
  | .bfi _ a b c d => [(Kd.D, a), (Kd.S, b), (Kd.S, c), (Kd.S, d)]
  | .popc _ a b => [(Kd.D, a), (Kd.S, b)]
  | .clz _ a b => [(Kd.D, a), (Kd.S, b)]
  | .brev _ a b => [(Kd.D, a), (Kd.S, b)]
  | .tern _ a b c d _ => [(Kd.D, a), (Kd.S, b), (Kd.S, c), (Kd.S, d)]
  | .perm _ a b c d => [(Kd.D, a), (Kd.S, b), (Kd.S, c), (Kd.S, d)]
  | .icmp _ a b c _ _ => [(Kd.PD, a), (Kd.S, b), (Kd.S, c)]
  | .fcmp _ a b c _ => [(Kd.PD, a), (Kd.S, b), (Kd.S, c)]
  | .sel _ a b c d => [(Kd.D, a), (Kd.S, b), (Kd.S, c), (Kd.P, d)]
  | .ptern _ a b c d _ => [(Kd.PD, a), (Kd.P, b), (Kd.P, c), (Kd.P, d)]
  | .p2v _ a b cnt => [(Kd.DV, a), (Kd.PSpan (cnt.toNat+1), b)]
  | .v2p _ a b cnt => [(Kd.PSpan (cnt.toNat+1), a), (Kd.S, b)]
  | .mov _ a b => [(Kd.DMov, a), (Kd.S, b)]
  | .movx _ a b => [(Kd.D64, a), (Kd.S64, b)]
  | .fclass _ a b w => [(Kd.D, a), (if w then Kd.S64 else Kd.S, b)]
  | .fadd _ a b c _ _ => [(Kd.DV, a), (Kd.S, b), (Kd.S, c)]
  | .fsub _ a b c _ _ => [(Kd.DV, a), (Kd.S, b), (Kd.S, c)]
  | .fmul _ a b c _ _ => [(Kd.DV, a), (Kd.S, b), (Kd.S, c)]
  | .ffma _ a b c d _ _ => [(Kd.DV, a), (Kd.S, b), (Kd.S, c), (Kd.S, d)]
  | .fmin _ a b c => [(Kd.DV, a), (Kd.S, b), (Kd.S, c)]
  | .fmax _ a b c => [(Kd.DV, a), (Kd.S, b), (Kd.S, c)]
  | .frcp _ a b _ _ => [(Kd.DV, a), (Kd.S, b)]
  | .frsq _ a b => [(Kd.DV, a), (Kd.S, b)]
  | .fsqrt _ a b _ _ => [(Kd.DV, a), (Kd.S, b)]
  | .fdiv _ a b c _ _ => [(Kd.DV, a), (Kd.S, b), (Kd.S, c)]
  | .fexp2 _ a b => [(Kd.DV, a), (Kd.S, b)]
  | .flog2 _ a b => [(Kd.DV, a), (Kd.S, b)]
  | .fsin _ a b => [(Kd.DV, a), (Kd.S, b)]
  | .fcos _ a b => [(Kd.DV, a), (Kd.S, b)]
  | .ftanh _ a b => [(Kd.DV, a), (Kd.S, b)]
  | .ffrac _ a b _ _ => [(Kd.DV, a), (Kd.S, b)]
  | .hadd2 _ a b c _ _ => [(Kd.DV, a), (Kd.S, b), (Kd.S, c)]
  | .hmul2 _ a b c _ _ => [(Kd.DV, a), (Kd.S, b), (Kd.S, c)]
  | .hfma2 _ a b c d _ _ => [(Kd.DV, a), (Kd.S, b), (Kd.S, c), (Kd.S, d)]
  | .hmin2 _ a b c => [(Kd.DV, a), (Kd.S, b), (Kd.S, c)]
  | .hmax2 _ a b c => [(Kd.DV, a), (Kd.S, b), (Kd.S, c)]
  | .hcmp2 _ a b c _ => [(Kd.PD2, a), (Kd.S, b), (Kd.S, c)]
  | .badd2 _ a b c _ _ => [(Kd.DV, a), (Kd.S, b), (Kd.S, c)]
  | .bmul2 _ a b c _ _ => [(Kd.DV, a), (Kd.S, b), (Kd.S, c)]
  | .bfma2 _ a b c d _ _ => [(Kd.DV, a), (Kd.S, b), (Kd.S, c), (Kd.S, d)]
  | .bmin2 _ a b c => [(Kd.DV, a), (Kd.S, b), (Kd.S, c)]
  | .bmax2 _ a b c => [(Kd.DV, a), (Kd.S, b), (Kd.S, c)]
  | .bcmp2 _ a b c _ => [(Kd.PD2, a), (Kd.S, b), (Kd.S, c)]
  | .dadd _ a b c _ _ => [(Kd.DV64, a), (Kd.S64, b), (Kd.S64, c)]
  | .dmul _ a b c _ _ => [(Kd.DV64, a), (Kd.S64, b), (Kd.S64, c)]
  | .dfma _ a b c d _ _ => [(Kd.DV64, a), (Kd.S64, b), (Kd.S64, c), (Kd.S64, d)]
  | .dmin _ a b c => [(Kd.DV64, a), (Kd.S64, b), (Kd.S64, c)]
  | .dmax _ a b c => [(Kd.DV64, a), (Kd.S64, b), (Kd.S64, c)]
  | .dcmp _ a b c _ => [(Kd.PD, a), (Kd.S64, b), (Kd.S64, c)]
  | .drcp _ a b _ _ => [(Kd.DV64, a), (Kd.S64, b)]
  | .cvt _ a b dst src _ _ _ => [(if dst = .fp64 then Kd.DV64 else Kd.DV, a), (if src = .fp64 then Kd.S64 else Kd.S, b)]
  | .pack8 _ a b c _ _ _ => [(Kd.DV, a), (Kd.VSpan 4, b), (Kd.S, c)]
  | .unpack8 _ a b c _ _ => [(Kd.DSpan 4, a), (Kd.S, b), (Kd.S, c)]
  | .pack4 _ a b c _ _ _ => [(Kd.DV, a), (Kd.VSpan 8, b), (Kd.S, c)]
  | .unpack4 _ a b c _ _ => [(Kd.DSpan 8, a), (Kd.S, b), (Kd.S, c)]
  | .scaleq _ a b _ => [(Kd.DV64, a), (Kd.S, b)]
  | .shfl _ a b c => [(Kd.DV, a), (Kd.S, b), (Kd.S, c)]
  | .shflup _ a b c => [(Kd.DV, a), (Kd.S, b), (Kd.S, c)]
  | .shfldn _ a b c => [(Kd.DV, a), (Kd.S, b), (Kd.S, c)]
  | .shflx _ a b c => [(Kd.DV, a), (Kd.S, b), (Kd.S, c)]
  | .vote _ a b _ => [(Kd.DVote, a), (Kd.P, b)]
  | .ballot _ a b => [(Kd.DL, a), (Kd.P, b)]
  | .rfl _ a b => [(Kd.DL, a), (Kd.S, b)]
  | .rlane _ a b c => [(Kd.DV, a), (Kd.S, b), (Kd.S, c)]
  | .wlane _ a b c => [(Kd.VSpan 1, a), (Kd.S, b), (Kd.S, c)]
  | .bcast _ a b c => [(Kd.DV, a), (Kd.S, b), (Kd.U, c)]
  | .redux _ a b _ _ => [(Kd.DL, a), (Kd.S, b)]
  | .matchLanes _ a b all => [(if all then Kd.DL else Kd.DV, a), (Kd.S, b)]
  | .sld _ a b w _ _ => [(Kd.SSpan w.regs w.regs, a), (Kd.SSpan 2 2, b)]
  | .sldarg _ a pair _ => [(if pair then Kd.SSpan 2 2 else Kd.SSpan 1 1, a)]
  | .bra _ _ => []
  | .bru _ _ => []
  | .call _ a _ => [(Kd.VPair, a)]
  | .ret _ b => [(Kd.VPair, b)]
  | .jtab _ b _ => [(Kd.Idx, b)]
  | .land _ a b c d _ m _ => if m then [(Kd.VSpan 1, a), (Kd.VSpan 1, b), (Kd.Imm, c), (Kd.VPair, d)] else [(Kd.Null, a), (Kd.Null, b), (Kd.Null, c), (Kd.Null, d)]
  | .rcvset _ _ => []
  | .rcvwait _ _ => []
  | .rcvdrop _ _ => []
  | .exit _ => []
  | .yield _ => []
  | .nop _ => []
  | .brk _ _ => []
  | .spawn _ a c _ => [(Kd.VSpan 8, a), (Kd.Opt 1, c)]
  | .take _ a b _ => [(Kd.PD, a), (Kd.VSpan 8, b)]
  | .park _ => []
  | .wake _ a b _ _ => [(Kd.St, a), (Kd.Ref, b)]
  | .signal _ a b _ _ => [(Kd.St, a), (Kd.Ref, b)]
  | .deposit _ a b c _ _ _ => [(Kd.St, a), (Kd.Ref, b), (Kd.Val, c)]
  | .join _ a b c _ _ => [(Kd.DV, a), (Kd.Ref, b), (Kd.St, c)]
  | .nameof _ a b c _ => [(Kd.VPair, a), (Kd.Val, b), (Kd.ValN, c)]
  | .nprobe _ a b _ _ => [(Kd.VSpan 1, a), (Kd.Ref, b)]
  | .emit _ a _ => [(Kd.VSpan 8, a)]
  | .gdone _ => []
  | .cancel _ a b _ => [(Kd.DV, a), (Kd.Pair, b)]
  | .barinit _ b d _ => [(Kd.U, b), (Kd.UN, d)]
  | .bararr _ d _ => [(Kd.UN, d)]
  | .barwait _ d _ => [(Kd.UN, d)]
  | .barsync _ d _ => [(Kd.UN, d)]
  | .barbyte _ a b d _ => [(Kd.RWp, a), (Kd.U, b), (Kd.UN, d)]
  | .bartry _ a d _ => [(Kd.PD, a), (Kd.UN, d)]
  | .cset _ a => [(Kd.RC, a)]
  | .csign _ a => [(Kd.RC, a)]
  | .cwait _ a => [(Kd.RC, a)]
  | .hbararr _ _ _ => []
  | .hbarwait _ _ => []
  | .ld _ a b w _ _ _ _ _ => [(Kd.LdD w.regs, a), (Kd.Pair, b)]
  | .st _ a b w _ _ _ _ _ => [(Kd.StS w.regs, a), (Kd.Pair, b)]
  | .lds _ a b w _ _ _ => [(Kd.LdD w.regs, a), (Kd.OffB, b)]
  | .sts _ a b w _ _ => [(Kd.StS w.regs, a), (Kd.OffB, b)]
  | .atom _ a b w _ _ _ _ _ => if a == .null then [(Kd.Pair, b), (Kd.Fol w.regs, follows b 2)] else [(Kd.LdD w.regs, a), (Kd.Pair, b)]
  | .cas _ a b w _ _ _ => [(Kd.CasS w.regs, a), (Kd.Pair, b)]
  | .atoms _ a b w _ _ _ _ => if a == .null then [(Kd.OffB, b), (Kd.Fol w.regs, follows b 1)] else [(Kd.LdD w.regs, a), (Kd.OffB, b)]
  | .cass _ a b w _ _ => [(Kd.CasS w.regs, a), (Kd.OffB, b)]
  | .ldto _ a b c d _ _ _ => [(Kd.RefG, a), (Kd.Pair, b), (Kd.Len, c), (Kd.Off, d)]
  | .rxwin _ a b c d _ _ _ => [(Kd.RTl, a), (Kd.U, b), (Kd.U, c), (Kd.UN, d)]
  | .rxclose _ a _ => [(Kd.DClose, a)]
  | .fence _ _ => []
  | .pref _ b _ _ _ => [(Kd.Pair, b)]
  | .cflush _ b _ _ _ => [(Kd.Pair, b)]
  | .cpy _ a b c d _ _ => [(Kd.RWp, a), (Kd.Len, b), (Kd.Pair, c), (Kd.LenD, d)]
  | .cpy2 _ a b c d _ _ => [(Kd.RWp, a), (Kd.Len, b), (Kd.Pair, c), (Kd.SSpan 4 4, d)]
  | .cpyg _ a b c d _ _ => [(Kd.RWp, a), (Kd.U, b), (Kd.VPair, c), (Kd.UD, d)]
  | .cpys _ a b c d _ _ => [(Kd.RWp, a), (Kd.Len, b), (Kd.Pair, c), (Kd.LenD, d)]
  | .cpym _ a b c _ _ _ => [(Kd.RWp, a), (Kd.SSpan 4 4, b), (Kd.Pair, c)]
  | .wpread _ a b => [(Kd.VSpan 1, a), (Kd.RWp, b)]
  | .wpwait _ b c => [(Kd.RWp, b), (Kd.Len, c)]
  | .tlread _ a b _ => [(Kd.VPair, a), (Kd.RTl, b)]
  | .tlwait _ b c => [(Kd.RTl, b), (Kd.S64, c)]
  | .wait _ _ _ _ _ _ _ => []
  | .mma8a _ a b c d => [(Kd.VSpan 32, a), (Kd.VSpan 16, b), (Kd.RC, c), (Kd.VSpan 1, d)]
  | .mma8b _ a b c d => [(Kd.VSpan 64, a), (Kd.VSpan 16, b), (Kd.RC, c), (Kd.VSpan 1, d)]
  | .mma8c _ a b c d => [(Kd.VSpan 128, a), (Kd.VSpan 32, b), (Kd.RC, c), (Kd.VSpan 1, d)]
  | .mma4a _ a b c d => [(Kd.VSpan 32, a), (Kd.VSpan 16, b), (Kd.RC, c), (Kd.VSpan 1, d)]
  | .mma4b _ a b c d => [(Kd.VSpan 64, a), (Kd.VSpan 16, b), (Kd.RC, c), (Kd.VSpan 1, d)]
  | .mma4c _ a b c d => [(Kd.VSpan 128, a), (Kd.VSpan 32, b), (Kd.RC, c), (Kd.VSpan 1, d)]
  | .mmaz _ a sh => [(Kd.VSpan sh.accRegs, a)]
  | .mma16a _ a b c d => [(Kd.VSpan 32, a), (Kd.VSpan 16, b), (Kd.RC, c), (Kd.VSpan 1, d)]
  | .mma16b _ a b c d => [(Kd.VSpan 64, a), (Kd.VSpan 16, b), (Kd.RC, c), (Kd.VSpan 1, d)]
  | .mma16c _ a b c d => [(Kd.VSpan 128, a), (Kd.VSpan 32, b), (Kd.RC, c), (Kd.VSpan 1, d)]
  | .latchl _ b _ _ => [(Kd.UNL, b)]
  | .latchg _ b c d rows64 _ => [(Kd.VSpan (if rows64 then 2 else 1), b), (Kd.UNL, c), (Kd.UN, d)]
  | .latchclr _ => []
  | .accst _ a b sh => [(Kd.VSpan sh.accRegs, a), (Kd.UN, b)]
  | .accld _ a b sh => [(Kd.VSpan sh.accRegs, a), (Kd.UN, b)]
  | .inv _ a b c _ _ _ _ _ => [(Kd.VSpan 1, a), (Kd.InvT, b), (Kd.RB, c)]
  | .brset _ a b c d fv => [(Kd.RB, a), (Kd.Val, b), (Kd.Val, c), (if fv then Kd.VPair else Kd.Null, d)]
  | .brget _ a b _ => [(Kd.VSpan 1, a), (Kd.RB, b)]
  | .callm _ _ => []
  | .npost _ b => [(Kd.NWr, b)]
  | .nwait _ b c => [(Kd.RCc, b), (Kd.S64, c)]
  | .nread _ a b c d => [(Kd.Len, a), (Kd.U, b), (Kd.S64, c), (Kd.Off, d)]
  | .narm _ a b c d _ => [(Kd.St, a), (Kd.RCc, b), (Kd.S64, c), (Kd.Pair, d)]
  | .trap _ _ => []
  | .rte _ => []
  | .srd _ a _ => [(Kd.SSpan 2 2, a)]
  | .swr _ b _ => [(Kd.SwrS, b)]
  | .tlbinv _ b c _ => [(Kd.SPairN, b), (Kd.TlbN, c)]
  | .ntinv _ b _ => [(Kd.SPairN, b)]
  | .svc _ a _ => [(Kd.SSpan 2 2, a)]
  | .dbghalt _ => []
  | _ => []

/-- Modifier and access control values that a form accepts beyond the width of their field (Tables 6-1, 7-6, 8-6, 8-7,
12-8, 14-11); a breach is ILLEGAL_OP. -/
def modsOk : Instr → Bool
  | .cvt _ _ _ _ src _ _ el =>
    match src with
    | .int4 => true
    | .e2m1 => true
    | .fp16 => el.toNat < 2
    | .bf16 => el.toNat < 2
    | .fp32 => el.toNat < 1
    | .int32 => el.toNat < 1
    | .fp64 => el.toNat < 1
    | _ => el.toNat < 4
  | .pack8 _ _ _ _ fmt _ _ => fmt.code < 5
  | .unpack8 _ _ _ _ fmt _ => fmt.code < 5
  | .pack4 _ _ _ _ fmt _ _ => fmt.code == 5 || fmt.code == 6
  | .unpack4 _ _ _ _ fmt _ => fmt.code == 5 || fmt.code == 6
  | .scaleq _ _ _ fmt => fmt.code < 7 && fmt.code != 1
  | .sld _ _ _ w _ _ => w.code ≥ 2
  | .land _ _ _ _ _ _ m dir => m || !dir
  | .jtab _ _ tab => tab.toNat % 4 == 0
  | .spawn _ _ _ entry => entry.toNat % 12 == 0
  | .take _ _ _ entry => entry.toNat % 12 == 0
  | .emit _ _ entry => entry.toNat % 12 == 0
  | .deposit _ _ _ _ _ _ slot => slot.toNat < 24
  | .ld _ _ _ w sx _ _ _ _ => !sx || w.code < 2
  | .lds _ _ _ w sx _ _ => !sx || w.code < 2
  | .atom _ _ _ w sg op _ _ _ => (w.code == 2 || w.code == 3) && (!sg || op == .min || op == .max)
  | .atoms _ _ _ w sg op _ _ => (w.code == 2 || w.code == 3) && (!sg || op == .min || op == .max)
  | .cas _ _ _ w _ _ _ => w.code == 2 || w.code == 3
  | .cass _ _ _ w _ _ => w.code == 2 || w.code == 3
  | .inv _ _ _ _ _ _ _ budget _ => budget.toNat != 0
  | .srd _ _ reg => reg.toNat < 10
  | .swr _ _ reg => reg.toNat < 10
  | _ => true

/-- Whether the spans of a multiplying form are disjoint and the format word lies in neither (R116). -/
def spansApart (a b f : Opnd) (na nb : Nat) : Bool :=
  match a, b, f with
  | .v x, .v y, .v z =>
    (x.toNat + na ≤ y.toNat || y.toNat + nb ≤ x.toNat) && (z.toNat < x.toNat || x.toNat + na ≤ z.toNat) &&
      (z.toNat < y.toNat || y.toNat + nb ≤ z.toNat)
  | _, _, _ => false

/-- Conditions on operands that no single position states; a breach is ILLEGAL_OPERAND. -/
def operandsOk : Instr → Bool
  | .mma8a _ a b _ d => spansApart a b d 32 16
  | .mma8b _ a b _ d => spansApart a b d 64 16
  | .mma8c _ a b _ d => spansApart a b d 128 32
  | .mma4a _ a b _ d => spansApart a b d 32 16
  | .mma4b _ a b _ d => spansApart a b d 64 16
  | .mma4c _ a b _ d => spansApart a b d 128 32
  | .mma16a _ a b _ d => spansApart a b d 32 16
  | .mma16b _ a b _ d => spansApart a b d 64 16
  | .mma16c _ a b _ d => spansApart a b d 128 32
  | .inv _ _ _ _ _ _ pd _ _ => pd.toNat < 48
  | _ => true

/-! ### The limits of a kernel header (R36, Tables 3-3 and 3-5) -/

/-- What the header and the level declare. -/
structure Limits where
  vregs : Nat
  sregs : Nat
  preds : Nat
  brackets : Nat
  depth : Nat
  conv : Nat
  names : Bool
  invert : Bool
  handler : Bool
  deriving DecidableEq, Repr

/-- Vector registers an operand may name: v(V − 1) is excluded when D ≥ 1. -/
def Limits.vtop (l : Limits) : Nat := if l.depth = 0 then l.vregs else l.vregs - 1
/-- s0 to s15 and p0 to p7 are legal at handler level whatever the header declares (R314). -/
def Limits.stop (l : Limits) : Nat := if l.handler then max 16 l.sregs else l.sregs
def Limits.ptop (l : Limits) : Nat := if l.handler then max 8 l.preds else l.preds

/-- Whether an operand stands within the header's counts. -/
def Kd.within (l : Limits) (k : Kd) : Opnd → Bool
  | .v n => n.toNat + k.n ≤ l.vtop
  | .s n => n.toNat + k.n ≤ l.stop
  | .p n => n.toNat + k.n ≤ l.ptop
  | .res (.b n) => n.toNat < l.brackets
  | .res (.c n) => n.toNat < l.conv
  | _ => true

/-- The guard and hints of a device form. -/
def ctlOf (i : Instr) : Ctl :=
  match formOf i with
  | some f => f.k
  | none => ⟨false, 63, 0, false, false, false, false, false⟩

/-- A guard that can be named: p0 to p47 or pT. -/
def guardOk (k : Ctl) : Bool := k.gp.toNat < 48 || k.gp.toNat == 63

/-- Forms that require the header flag "uses names" (R56). -/
def needsNames : Instr → Bool
  | .park _ => true
  | .wake .. => true
  | .signal .. => true
  | .deposit .. => true
  | .join .. => true
  | .nameof .. => true
  | .nprobe .. => true
  | _ => false

/-- INV requires the header flag "uses invert" (R56). -/
def needsInvert : Instr → Bool
  | .inv .. => true
  | _ => false

/-- The destination predicate of INV, which X holds (Table 7-6). -/
def invPred : Instr → Nat
  | .inv _ _ _ _ _ _ pd _ _ => pd.toNat
  | _ => 0

/-- Forms whose privilege is checked at decode (R64). -/
def needsHandler : Instr → Bool
  | .swr .. => true
  | .tlbinv .. => true
  | .ntinv .. => true
  | .dbghalt _ => true
  | _ => false

/-- Why a word is refused by the decoder (Table 3-3). -/
inductive DecErr where
  | illegalOp | illegalOperand | privilege
  deriving DecidableEq, Repr

/-- Decoding faults that the header and the level decide, the lowest cause code first (R35). -/
def limitErr (l : Limits) (i : Instr) : Option DecErr :=
  let k := ctlOf i
  if needsNames i && !l.names then some .illegalOp
  else if needsInvert i && !l.invert then some .illegalOp
  else if k.gp.toNat < 48 && l.ptop ≤ k.gp.toNat then some .illegalOperand
  else if !((sig i).all fun x => x.1.within l x.2) then some .illegalOperand
  else if needsInvert i && l.ptop ≤ invPred i then some .illegalOperand
  else if needsHandler i && !l.handler then some .privilege
  else none

end Sys2Proof
end

