-- ==== Sys2Proof/WellFormed.lean ====
section
/-! DEFINITION. Which instructions can be written as a word (Tables 3-3 and 3-5), whatever header they run under. -/

namespace Sys2Proof

/-- Literals agree with the literal form of format D (R32): one literal, no OPD and no modifier. -/
def litOk : Body → Bool
  | .d a b c d m =>
    let lits := [a, b, c].filterMap fun o => match o with | .lit x => some x | _ => none
    (match d with | .lit _ => false | _ => true) &&
      (match lits with
       | [] => true
       | x :: rest => rest.all (· == x) && d == .null && m == 0)
  | _ => true

/-- A word of a hart: NDEP names a slot from 0 to 23 (Table 8-9). -/
def hartOk : Instr → Bool
  | .nwake .. => true
  | .nsig .. => true
  | .ndep _ _ slot _ _ _ => slot.toNat < 24
  | .njoin .. => true
  | _ => false

/-- The instruction is one that a word can hold. Events of other agents are no words. -/
def Instr.wellFormed (i : Instr) : Bool :=
  match formOf i with
  | some f => guardOk f.k && modsOk i && litOk f.body && sigOk (sig i) && operandsOk i
  | none => hartOk i

end Sys2Proof
end

