-- ==== Sys2Proof/Decode.lean ====
section
/-! DEFINITION. The decoder of device words and of the Xsknm words, total on any bits, and the encoder. -/

namespace Sys2Proof

/-! ### Device words (R28, R29) -/

/-- The guard and hints of a word (Table 3-1). -/
def ctlBits (n : Nat) : Ctl :=
  { gn := flag n 85, gp := fld n 79, stall := fld n 10, yld := flag n 9, reuseB := flag n 8, reuseC := flag n 7,
    reuseD := flag n 6, rgp := flag n 5 }

/-- The operand of a field, and class 7 in the place of a field that names nothing. -/
def opndOr (o : Option Opnd) : Opnd := o.getD .null

/-- The form that a word's fields give, with its operands and fields as read; none for an unassigned modifier value. -/
def candidate (fmt : Format) (n : Nat) : Option (Instr × Body × Bool) :=
  let maj := n / 2 ^ 90 % 64
  let mn := n / 2 ^ 86 % 16
  let k := ctlBits n
  let fa : BitVec 11 := fld n 68
  let fb : BitVec 11 := fld n 57
  let fc : BitVec 11 := fld n 46
  let x : Word := fld n 14
  let a := opndOf fa x
  let b := opndOf fb x
  let c := opndOf fc x
  match fmt with
  | .d =>
    let lit := fa.toNat / 256 == 6 || fb.toNat / 256 == 6 || fc.toNat / 256 == 6
    let fd : BitVec 11 := fld x.toNat 21
    let d := if lit then some .null else if fd.toNat / 256 == 6 then none else opndOf fd 0
    let m : BitVec 21 := if lit then 0 else fld x.toNat 0
    (ofD maj mn k (opndOr a) (opndOr b) (opndOr c) (opndOr d) m.toNat).map fun i =>
      (i, .d (opndOr a) (opndOr b) (opndOr c) (opndOr d) m, a.isSome && b.isSome && c.isSome && d.isSome)
  | .i =>
    (ofI maj mn k (opndOr a) (opndOr b) (opndOr c) x).map fun i =>
      (i, .i (opndOr a) (opndOr b) (opndOr c) x, a.isSome && b.isSome && c.isSome)
  | .m =>
    let off : BitVec 24 := fld x.toNat 8
    let sc : Scope := ⟨fld x.toNat 5, fld x.toNat 1⟩
    let bit := flag x.toNat 0
    (Width.ofCode (fc.toNat / 256)).bind fun w =>
      (ofM maj mn k (opndOr a) (opndOr b) w (flag fc.toNat 7) (fc.toNat / 8 % 16) (fc.toNat % 8) off sc bit).map fun i =>
        (i, .m (opndOr a) (opndOr b) fc off sc bit, a.isSome && b.isSome)

/-- Bits of a word that the form does not assign are zero: the word's own fields are those the form encodes. -/
def bitsAgree : Body → Body → Bool
  | .d _ _ _ _ m, .d _ _ _ _ m' => m == m'
  | .i _ _ _ x, .i _ _ _ x' => x == x'
  | .m _ _ acc off _ bit, .m _ _ acc' off' _ bit' => acc == acc' && off == off' && bit == bit'
  | _, _ => false

/-- Decode a device word under the rules that need no header (Table 3-3); of several faults the lowest code. -/
def decode (w : IWord) : Except DecErr Instr :=
  let n := w.toNat
  match formatOf (n / 2 ^ 90 % 64) (n / 2 ^ 86 % 16) with
  | none => .error .illegalOp
  | some fmt =>
    match candidate fmt n with
    | none => .error .illegalOp
    | some (i, read, named) =>
      match formOf i with
      | none => .error .illegalOp
      | some f =>
        if n % 32 != 0 || !modsOk i || !bitsAgree read f.body then .error .illegalOp
        else if !named || read != f.body || !guardOk f.k || !sigOk (sig i) || !operandsOk i then .error .illegalOperand
        else .ok i

/-- The 12 bytes of a word in memory, lowest address first (R29). -/
def wordOfBytes : List Byte → Nat
  | [] => 0
  | b :: rest => b.toNat + 256 * wordOfBytes rest

def decodeBytes (bs : List Byte) : Except DecErr Instr := decode (BitVec.ofNat 96 (wordOfBytes bs))

/-! ### Words of a hart (Table 8-9) -/

/-- The Xsknm instruction of a 32-bit word; none where it is not one (an illegal instruction). -/
def decodeHart (w : BitVec 32) : Option Instr :=
  let n := w.toNat
  let trap := flag n 31
  let grp := flag n 30
  let slot : BitVec 5 := fld n 25
  let rs2 : BitVec 5 := fld n 20
  let rs1 : BitVec 5 := fld n 15
  let rd : BitVec 5 := fld n 7
  if n % 128 != 0x0B then none
  else
    match n / 2 ^ 12 % 8 with
    | 0 => if slot == 0 && rs2 == 0 then some (.nwake trap grp rs1 rd) else none
    | 1 => if slot == 0 && rs2 == 0 then some (.nsig trap grp rs1 rd) else none
    | 2 => if slot.toNat < 24 then some (.ndep trap grp slot rs2 rs1 rd) else none
    | 3 => if slot == 0 && rs2 == 0 then some (.njoin trap grp rs1 rd) else none
    | _ => none

/-- The word that the host numbers by spec/opcode_table.json: 32 bits for a hart's word, 96 for a device word. -/
def decodeTableWord (nbits w : Nat) : Option Instr :=
  if nbits = 32 then decodeHart (BitVec.ofNat 32 w)
  else
    match decode (BitVec.ofNat 96 w) with
    | .ok i => some i
    | .error _ => none

/-! ### The encoder -/

/-- The X field of a body (Table 3-2). -/
def bodyX : Body → Nat
  | .d a b c d m =>
    match [a, b, c].findSome? fun o => match o with | .lit x => some x | _ => none with
    | some x => x.toNat
    | none => (opndCode d).toNat * 2 ^ 21 + m.toNat
  | .i _ _ _ x => x.toNat
  | .m _ _ _ off sc bit => off.toNat * 2 ^ 8 + sc.agent.toNat * 2 ^ 5 + sc.mask.toNat * 2 + bit.toNat

/-- OPA, OPB and OPC of a body. -/
def bodyOps : Body → Nat
  | .d a b c _ _ => (opndCode a).toNat * 2 ^ 68 + (opndCode b).toNat * 2 ^ 57 + (opndCode c).toNat * 2 ^ 46
  | .i a b c _ => (opndCode a).toNat * 2 ^ 68 + (opndCode b).toNat * 2 ^ 57 + (opndCode c).toNat * 2 ^ 46
  | .m a b acc _ _ _ => (opndCode a).toNat * 2 ^ 68 + (opndCode b).toNat * 2 ^ 57 + acc.toNat * 2 ^ 46

/-- The 96-bit word of a form (R28). -/
def formWord (f : Form) : IWord :=
  BitVec.ofNat 96
    (f.maj.toNat * 2 ^ 90 + f.mn.toNat * 2 ^ 86 + f.k.gn.toNat * 2 ^ 85 + f.k.gp.toNat * 2 ^ 79 + bodyOps f.body +
      bodyX f.body * 2 ^ 14 + f.k.stall.toNat * 2 ^ 10 + f.k.yld.toNat * 2 ^ 9 + f.k.reuseB.toNat * 2 ^ 8 +
      f.k.reuseC.toNat * 2 ^ 7 + f.k.reuseD.toNat * 2 ^ 6 + f.k.rgp.toNat * 2 ^ 5)

/-- The word of a hart's instruction. -/
def hartWord (f3 : Nat) (trap grp : Bool) (slot rs2 rs1 rd : BitVec 5) : BitVec 32 :=
  BitVec.ofNat 32
    (trap.toNat * 2 ^ 31 + grp.toNat * 2 ^ 30 + slot.toNat * 2 ^ 25 + rs2.toNat * 2 ^ 20 + rs1.toNat * 2 ^ 15 +
      f3 * 2 ^ 12 + rd.toNat * 2 ^ 7 + 0x0B)

def encodeHart : Instr → Option (BitVec 32)
  | .nwake t g rs1 rd => some (hartWord 0 t g 0 0 rs1 rd)
  | .nsig t g rs1 rd => some (hartWord 1 t g 0 0 rs1 rd)
  | .ndep t g sl rs2 rs1 rd => some (hartWord 2 t g sl rs2 rs1 rd)
  | .njoin t g rs1 rd => some (hartWord 3 t g 0 0 rs1 rd)
  | _ => none

/-- The word of a device instruction; none for an instruction of another agent. -/
def encode (i : Instr) : Option IWord := (formOf i).map formWord

end Sys2Proof
end

