-- ==== Sys2Proof/Config.lean ====
section
/-! DEFINITION. What the spec leaves open, as constants without a body (log 1): nothing in Lean can evaluate one, so a
theorem about the model holds whatever they are. -/

namespace Sys2Proof.Config

/-- Whether a read made before a result's latency has passed sees the new value (R42): first argument the free index,
second the register and lane read. -/
opaque seesNew : Nat → Nat → Bool

/-- A 64-bit value that the spec leaves open, drawn with the free index. -/
opaque freeWord : Nat → BitVec 64

/-- A choice between two outcomes that the spec leaves open, drawn with the free index. -/
opaque freeBool : Nat → Bool

/-- The Ed448 signature over a byte string under the part's identity key (R376). -/
opaque identitySignature : List (BitVec 8) → List (BitVec 8)

/-- Digests named by the attestation report (R376): 0 the identity public key, 1 the control-processor firmware,
2 the cluster firmware. -/
opaque digest : Nat → List (BitVec 8)

/-- The SHAKE256 digest of the seal map and host-writable marks (R376). -/
opaque sealDigest : List (Nat × Nat) → List Nat → List (BitVec 8)

end Sys2Proof.Config
end

