-- ==== Sys2Proof/Machine/Map.lean ====
section
/-! DEFINITION. Finite maps from Nat as lists of pairs, sorted by key and without repeats: registers, memory, tables. -/

namespace Sys2Proof.Machine

variable {α : Type}

/-- The value at a key. -/
def mget : List (Nat × α) → Nat → Option α
  | [], _ => none
  | (k, v) :: rest, i => if k = i then some v else mget rest i

/-- The value at a key, or what an absent key reads as. -/
def mgetD (m : List (Nat × α)) (i : Nat) (d : α) : α := (mget m i).getD d

/-- Write a key, keeping the order. -/
def mput : List (Nat × α) → Nat → α → List (Nat × α)
  | [], i, x => [(i, x)]
  | (k, v) :: rest, i, x =>
    if i < k then (i, x) :: (k, v) :: rest
    else if k = i then (i, x) :: rest
    else (k, v) :: mput rest i x

/-- Remove a key. -/
def mdel : List (Nat × α) → Nat → List (Nat × α)
  | [], _ => []
  | (k, v) :: rest, i => if k = i then mdel rest i else (k, v) :: mdel rest i

/-- Write a key whose absence reads as `d`: writing `d` removes the entry. -/
def msetD [DecidableEq α] (m : List (Nat × α)) (i : Nat) (x d : α) : List (Nat × α) :=
  if x = d then mdel m i else mput m i x

/-- Change the value at a key that is present. -/
def mmod (m : List (Nat × α)) (i : Nat) (f : α → α) : List (Nat × α) :=
  match mget m i with
  | some v => mput m i (f v)
  | none => m

/-- Keys strictly rise and no entry equals what an absent key reads as. -/
def mwf [DecidableEq α] (d : α) : List (Nat × α) → Bool
  | [] => true
  | [(_, v)] => v != d
  | (k, v) :: (k', v') :: rest => v != d && k < k' && mwf d ((k', v') :: rest)

/-- Change one element of a list. -/
def lmod (l : List α) (i : Nat) (f : α → α) : List α :=
  match l, i with
  | [], _ => []
  | x :: rest, 0 => f x :: rest
  | x :: rest, n + 1 => x :: lmod rest n f

/-- A list without repeats: the last of equal elements stays. -/
def uniq {κ : Type} [DecidableEq κ] : List κ → List κ
  | [] => []
  | x :: rest => if x ∈ rest then uniq rest else x :: uniq rest

/-! ### Association lists keyed by a type with decidable equality -/

variable {κ : Type} [DecidableEq κ]

def aget : List (κ × α) → κ → Option α
  | [], _ => none
  | (k, v) :: rest, i => if k = i then some v else aget rest i

def aput : List (κ × α) → κ → α → List (κ × α)
  | [], i, x => [(i, x)]
  | (k, v) :: rest, i, x => if k = i then (i, x) :: rest else (k, v) :: aput rest i x

def adel : List (κ × α) → κ → List (κ × α)
  | [], _ => []
  | (k, v) :: rest, i => if k = i then adel rest i else (k, v) :: adel rest i

end Sys2Proof.Machine
end

