-- ==== Sys2Proof/Machine/State.lean ====
section
/-! DEFINITION. The state of one Ireus package with its fabric neighbours, host memory and harts, as plain data, and its
value at power-on (16 R374). -/

namespace Sys2Proof.Machine

/-! ### Threads (08 R133) -/

/-- States of a thread (Table 8-1, Table 14-6). -/
inductive TState where
  | ready | held | parked | parkedJoin | faultParked | halted | exited
  deriving DecidableEq, Repr

/-- What a Held thread waits for (Table 8-1). A `trapped` one has been trapped by a later event and takes that trap once its home
wave can: one frame names one PC, and a wave at handler level has its frame in use (14 R313). -/
inductive Hold where
  | none
  | rcv (k : Nat)
  | bar (x : Nat) (par : Bool)
  | cwait (c : Nat)
  | sign (c : Nat)
  | hbar (h : Nat) (par : Bool)
  | counters (f : List Nat)
  | timeline (t n : Nat)
  | pointer (c n : Nat)
  | net (cc n : Nat)
  | svcRoom
  | svc (index : Nat)
  | bin (id : Nat)
  | ops (ids : List Nat)
  | fence (pool : Bool) (ids : List Nat) (ms : List (Nat × Nat))
  | allOps (ids : List Nat)
  | trapped (cause sub : Nat)
  deriving DecidableEq, Repr

/-- One arrival slot of a thread (09 R182). -/
structure ArrSlot where
  bar : Nat
  par : Bool
  deriving DecidableEq, Repr

/-- A bracket register (07 R126, Table 7-5). -/
structure Bracket where
  lo : Word := 0
  hi : Word := 0
  flo : Word := 0
  fhi : Word := 0
  st : Word := 0
  deriving DecidableEq, Repr

/-- A result within its fixed latency (03 R42): the value it replaced and the clock from which only the new one is read. In the
clock `at_` of its write the row still reads as before, which only the other path can see (06 R103). -/
structure Hazard where
  key : Nat
  old : Word
  until_ : Nat
  at_ : Option Nat
  deriving DecidableEq, Repr

/-- One thread: its program counter and its row (01 R14). An absent vector register or bracket is zero. `laneW` keeps what WLANE
writes into the row, as (register, value, clock), for the clock of the write (06 R106). -/
structure Thread where
  pc : Nat := 0
  st : TState := .ready
  hold : Hold := .none
  vr : List (Nat × Word) := []
  pr : BitVec 48 := 0
  fflags : BitVec 5 := 0
  br : List (Nat × Bracket) := []
  slots : List ArrSlot := []
  pend : BitVec 16 := 0
  sig : Word := 0
  mark : Word := 0
  join : Word := 0
  hf : Bool := false
  savedPc : Nat := 0
  savedSt : TState := .ready
  savedHold : Hold := .none
  gdone : Bool := false
  joinOp : Option Nat := none
  hbarArr : List (Nat × Option HLvl) := []
  hazards : List Hazard := []
  laneW : List (Nat × Word × Nat) := []
  dbgStep : Bool := false
  deriving DecidableEq, Repr

/-! ### Home waves -/

/-- The six outstanding-operation counters (03 R47). -/
structure Counters where
  ld : Nat := 0
  st : Nat := 0
  cp : Nat := 0
  mx : Nat := 0
  rm : Nat := 0
  nm : Nat := 0
  deriving DecidableEq, Repr

/-- A convergence register instance (09 R187): kind 0 not fixed, 1 CWAIT, 2 signing point. An empty set is idle. -/
structure Conv where
  set : Word := 0
  sgn : Word := 0
  kind : Nat := 0
  deriving DecidableEq, Repr

/-- A row of the operand latch (07 R110). -/
structure LatchRow where
  data : BitVec 512 := 0
  scales : BitVec 32 := 0x78787878
  deriving DecidableEq, Repr

/-- An operand-log entry (12 R241, Table 14-18), with the operation that its lanes belong to; `ops` names it for lanes that RTE has
issued again while others of the entry are still parked (14 R316). `clock` is that of the fault (R228). -/
structure LogEntry where
  word : IWord
  pc : Nat
  mask : Word
  late : Bool
  op : Nat
  addrs : List (Nat × DWord)
  vals : List (Nat × List Word)
  issued : Nat
  ops : List (Nat × Nat) := []
  clock : Nat := 0
  deriving DecidableEq, Repr

/-- An ordering stream of a home wave to one destination (13 R288, R289; 15 R337). -/
structure Stream where
  counts : List Nat := [0, 0, 0, 0]
  seq : BitVec 16 := 0
  flags : Nat := 0
  poison : Option Nat := none
  restart : Bool := false
  deriving DecidableEq, Repr

/-- Deferral of a wave's selection after YIELD (08 R161): the other waves that were ready and have neither issued nor stopped
being ready since, each as (group, home wave, or 64 + the number of a formed wave), and the clock at which it ends. -/
inductive Defer where
  | none
  | yield (others : List (Nat × Nat)) (until_ : Nat)
  deriving DecidableEq, Repr

/-- What the issue stage keeps of a wave (08 R136, R137): its age, the clock of its next issue, the deferral of YIELD, the
clock of an issue with YLD = 1 (03 R44), the count of its issues, the issue at which each of its ready PCs last issued or
became ready, the clock since which it is ready and unselected, and a second path of this clock, as (PC, clock, its threads),
that still has to issue. -/
structure IssueRec where
  age : Nat := 0
  next : Nat := 0
  defer : Defer := .none
  hint : Option Nat := none
  issues : Nat := 0
  pcSeen : List (Nat × Nat) := []
  readySince : Option Nat := none
  pair : Option (Nat × Nat × List (Nat × Nat)) := none
  deriving DecidableEq, Repr

/-- One home wave. Lane L of `threads` is the thread of home lane L; absent registers are zero. `counted` counts its
instruction issues (12 R242), and `owed` holds those that left all their threads held, as (PC, threads). `fetchWait` holds the
threads that are parked because the page of their next instruction cannot be used yet (12 R240), as (PC, threads). -/
structure Wave where
  threads : List Thread := []
  sr : List (Nat × Word) := []
  ctrs : Counters := {}
  conv : List (Nat × Conv) := []
  latch : List (Nat × LatchRow) := []
  log : List (Nat × LogEntry) := []
  rcv : List (Nat × Word) := []
  handler : Bool := false
  frMask : Word := 0
  frLog : Option Nat := none
  hstep : Word := 0
  quad : Nat := 0
  slot : Nat := 0
  sel : IssueRec := {}
  counted : Nat := 0
  owed : List (Nat × Word) := []
  fetchWait : List (Nat × Word) := []
  sHazards : List Hazard := []
  sPending : List (Nat × Nat) := []
  accPending : List (Nat × Nat) := []
  streams : List (Dest × Stream) := []
  deriving DecidableEq, Repr

/-! ### Groups -/

/-- A kernel header (03 R55). -/
structure Header where
  entry : Nat := 0
  vregs : Nat := 8
  sregs : Nat := 64
  preds : Nat := 8
  brackets : Nat := 0
  depth : Nat := 0
  maxgroup : Nat := 1024
  scratch : Nat := 0
  depV : Nat := 0
  depVn : Nat := 0
  depS : Nat := 0
  depSn : Nat := 0
  barriers : Nat := 0
  conv : Nat := 0
  args : Nat := 0
  codesize : Nat := 0
  names : Bool := false
  invert : Bool := false
  regroup : Bool := false
  persistent : Bool := false
  gaps : List Nat := []
  deriving DecidableEq, Repr

/-- Where a group stands (08 Table 8-2, 14 Table 14-3). -/
inductive Place where
  | waiting | queued | active | shadow | spilling | swapped | loading | migrating | dead
  deriving DecidableEq, Repr

/-- A named barrier (09 Table 9-1): state 0 free, 1 armed, 2 arriving, 3 released, 4 faulted. `order` keeps the last event
of a clock, as (clock + 1, place in the order of R183), and `exits` the slot parities of threads that exited in it; `epoch`
numbers the phases for the copies that are bound in them (R185). -/
structure Bar where
  state : Nat := 0
  exp : Nat := 0
  arr : Nat := 0
  gt : Bool := false
  bexp : Nat := 0
  bcred : Nat := 0
  chan : BitVec 8 := 0
  ph : Bool := false
  fsub : Nat := 0
  order : Nat × Nat := (0, 0)
  epoch : Nat := 0
  exits : List (Option Bool) := []
  deriving DecidableEq, Repr

/-- A timeline counter (12 R263). `done` holds completed sequence numbers above VALUE. -/
structure Timeline where
  issued : Nat := 0
  value : Nat := 0
  done : List Nat := []
  deriving DecidableEq, Repr

/-- Kinds of copy (12 Table 12-15). -/
inductive CopyKind where
  | cpy | cpy2 | cpyg | cpys | cpym
  deriving DecidableEq, Repr

/-- One queued copy (12 R260): `segs` lists (memory address, scratchpad offset, bytes) still to deliver, in order; `recv` the
references that a CPYM serves; `bar` its barrier with the number of the phase that it is bound in. A copy without `ops` is a
receiver's place in the order of its channel (R261). -/
structure Copy where
  kind : CopyKind
  first : Nat
  stop : Nat
  segs : List (DWord × Nat × Nat)
  recv : List (Nat × DWord)
  bar : Option (Nat × Nat)
  tl : Option (Nat × Nat)
  wave : Nat
  lane : Nat
  pc : Nat
  ops : List Nat
  deriving DecidableEq, Repr

/-- A copy channel (12 R260, R262); `asked` is the time at which the memory accesses of its next bytes were sent (15 R347). -/
structure Chan where
  ptr : Nat := 0
  qend : Nat := 0
  cause : Option (Nat × Nat × DWord) := none
  queue : List Copy := []
  asked : Nat := 0
  deriving DecidableEq, Repr

/-- A receive window (12 R256, Table 14-17). -/
structure Win where
  opened : Bool := false
  base : Nat := 0
  len : Nat := 0
  acc : Word := 0
  bar : Option Nat := none
  tl : Nat := 0
  drop : Nat := 0
  deriving DecidableEq, Repr

/-- A group's part in a hierarchical barrier (09 R188); `phase` counts its releases. -/
structure HBar where
  par : Bool := false
  level : Option HLvl := none
  sent : Bool := false
  phase : Nat := 0
  deriving DecidableEq, Repr

/-- A formed wave (08 R138): members as (lane, home wave). One that is `ending` has dissolved once its second path has issued in this
clock (R136, R139). -/
structure Formed where
  id : Nat
  quad : Nat
  members : List (Nat × Nat)
  sel : IssueRec
  ending : Bool := false
  deriving DecidableEq, Repr

/-- An INV pair in progress (07 R130): the home or formed wave that it occupies, the issuing members, the routine's body
and registers, the lanes that still search, as (lane, home wave, target), and the clock of its next round (R132). -/
structure InvRun where
  id : Nat
  w : Nat
  fid : Option Nat
  pc : Nat
  word : IWord
  body : Nat
  len : Nat
  inReg : Nat
  outReg : Nat
  vd : Nat
  brk : Nat
  pd : Nat
  budget : Nat
  tol : Nat
  fall : Bool
  dom : Dom
  issue : List (Nat × Nat)
  active : List (Nat × Nat)
  lanes : List (Nat × Nat × Word)
  next : Nat := 0
  deriving DecidableEq, Repr

/-- A spawn-bin key (10 R200): context or graph instance, and entry offset. -/
structure BinKey where
  node : Bool
  owner : Nat
  entry : Nat
  deriving DecidableEq, Repr

/-- One group (01 R14, 08 R135): `scratchPoison` lists poisoned bytes of its scratchpad with the subcode of DATA_POISON that a
read of them raises. -/
structure Group where
  ctx : Nat := 0
  num : Nat := 0
  launch : Nat := 0
  index : Nat := 0
  gbase : Nat := 0
  binKey : Option BinKey := none
  gsize : Nat := 1
  hdr : Header := {}
  entry : Nat := 0
  code : DWord := 0
  cnst : DWord := 0
  args : List Byte := []
  rights : BitVec 6 := 0
  scope : Nat := 5
  prio : Nat := 0
  counter : DWord := 0
  records : List (Word × DWord) := []
  recVals : List (List Word) := []
  graph : Option Nat := none
  node : Option (Nat × Nat) := none
  bins : List (Nat × Nat × Nat × Nat × DWord) := []
  born : Nat := 0
  die : Nat := 0
  core : Nat := 0
  place : Place := .waiting
  waves : List Wave := []
  scratch : List Host.Cell := []
  scratchPoison : List (Nat × Nat) := []
  bars : List (Nat × Bar) := []
  tls : List (Nat × Timeline) := []
  wps : List (Nat × Chan) := []
  wins : List (Nat × Win) := []
  hbars : List (Nat × HBar) := []
  saveIdx : Option Nat := none
  published : Bool := false
  due : Bool := false
  covers : List Nat := []
  cancelled : Bool := false
  haltReq : Bool := false
  wantSwapIn : Bool := false
  queued : List Nat := []
  formed : List Formed := []
  invs : List InvRun := []
  moveTo : Option Nat := none
  deriving DecidableEq, Repr

/-! ### Operations in flight -/

/-- What one lane of an access still has to do. -/
inductive LaneStage where
  | pending | parked (entry : Nat) | sent (pkt : Nat) | late (entry : Nat)
  deriving DecidableEq, Repr

/-- Which access a lane makes. -/
inductive AccKind where
  | load (sx : Bool) | store | atom (op : AtomOp) (sg : Bool) | cas | flush (inv : Bool) | sload | jtab
  deriving DecidableEq, Repr

/-- One lane of a memory instruction in flight: its address, destination registers and source values; the place that its
translation gave (KIND 4 is the group's scratchpad); the value captured once the access has performed. `priv` marks an access of a
private page that goes to the page's node or peer (12 Table 12-4), `entry` the log entry that a lane issued again keeps until it
completes (12 R242), `seq` its number in its stream (15 R337), and `size` the page size of its translation. -/
structure LaneOp where
  lane : Nat
  addr : DWord
  dst : List Nat
  vals : List Word
  kind : Nat := 0
  dev : Nat := 0
  cls : Nat := 0
  pa : Nat := 0
  got : Option (List Word) := none
  stage : LaneStage := .pending
  size : Nat := 0
  priv : Bool := false
  entry : Option Nat := none
  seq : Option (BitVec 16) := none
  deriving DecidableEq, Repr

/-- One memory instruction of one home wave in flight (12 R251; 13 R267). `ctr` 6 counts nowhere; under `uni` its one lane
stands for every issuing thread of the home wave. The parts of one JTAB, which is decided for all of its lanes (02 R25), share
`joint`. -/
structure Access where
  id : Nat
  g : Nat
  w : Nat
  kind : AccKind
  width : Nat
  ctr : Nat
  scope : Scope
  flag : Bool
  acq : Bool
  uni : Bool
  mask : Word
  pc : Nat
  word : IWord
  clock : Nat
  issued : Nat
  lanes : List LaneOp
  joint : Nat := 0
  deriving DecidableEq, Repr

/-- Who issued a name operation; of an armed wake also the lane, the PC and the reference of its NARM. -/
inductive Sender where
  | thread (g w lane : Nat)
  | hart (h : Nat)
  | port (fn k : Nat)
  | arm (g lane pc : Nat) (ref : DWord)
  deriving DecidableEq, Repr

/-- The target of a name operation after its lookup (08 R149): a group of the machine with the thread, or a notify
register. -/
inductive Target where
  | group (ctx num thread : Nat) (grp : Bool)
  | notify (i : Nat)
  deriving DecidableEq, Repr

/-- A name operation sent and not yet finished (08 R149, R150): `op` is the nm instruction it belongs to, `dst` its status
destination, and `status` a status or probe word that the lookup has already decided; `written` once its status is written
and only its application is outstanding. `remote` is another device that applies it (15 R340). `vfirst` and `sfirst` begin the
deposit window of the entry, `inst` numbers the instruction, `born` is the clock of its issue, `probe` marks a probe and `cancel` a
CANCEL.grp (11 R223); `ref` is its reference (14 R331) and `asked` the time of its issue (15 R347). -/
structure NameOp where
  id : Nat
  sender : Sender
  op : Nat
  act : NameAct
  target : Option Target
  remote : Option Nat
  dst : Opnd
  status : Option Word
  trap : Bool
  pc : Nat
  word : IWord
  written : Bool := false
  vfirst : Nat := 0
  sfirst : Nat := 0
  inst : Nat := 0
  born : Nat := 0
  probe : Bool := false
  cancel : Bool := false
  ref : DWord := 0
  asked : Nat := 0
  deriving DecidableEq, Repr

/-- A join (08 R172): `dst` and `sdst` are the value and status destinations; `result` what the lookup has already decided,
as (value, status); without one it waits for its target. `parked` where its sender waits, `notify` the notify register of
a host thread, and `remote` another device that holds the target (15 R340); `born` and `asked` are the clock and the time of its issue
and `ref` its reference. -/
structure JoinOp where
  id : Nat
  sender : Sender
  op : Nat
  target : Target
  dst : Opnd
  sdst : Opnd
  rd : Nat
  result : Option (Option Word × Nat)
  parked : Bool
  notify : Option Nat
  remote : Option Nat := none
  trap : Bool := false
  pc : Nat := 0
  word : IWord := 0
  born : Nat := 0
  ref : DWord := 0
  asked : Nat := 0
  deriving DecidableEq, Repr

/-- An nm, rm or mx instruction in flight whose counter falls when `left` operations have ended. -/
structure OpCount where
  id : Nat
  g : Nat
  w : Nat
  ctr : Nat
  left : Nat
  deriving DecidableEq, Repr

/-- A record of a bin (10 R202): its counter, the launch of the group that pushed it, and the graph node that this group runs, as
(graph, entry). -/
structure BinRec where
  held : Bool
  vals : List Word
  counter : DWord
  pusher : Nat
  node : Option (Nat × Nat) := none
  deriving DecidableEq, Repr

/-- A bin slot (10 R200 to R202); `fire` says that its timer expires in this clock. -/
structure BinSlot where
  key : BinKey
  buf : DWord
  coal : Nat
  timer : Nat
  caplog : Nat
  recs : List BinRec
  timerEnd : Option Nat
  fire : Bool := false
  deriving DecidableEq, Repr

/-- A push that waits for room or for a slot (10 R202, R205). -/
structure Push where
  id : Nat
  op : Nat
  g : Nat
  die : Nat
  key : BinKey
  item : BinRec
  deriving DecidableEq, Repr

/-- A TAKE that waits for the bin's answer (08 R168); its lanes as (lane, home wave) in ascending lane order, the clock
of its issue, and the rows that WLANE has written in that clock, as (lane, home wave, register) (06 R106). -/
structure TakeOp where
  id : Nat
  g : Nat
  lanes : List (Nat × Nat)
  die : Nat
  key : BinKey
  pd : Nat
  base : Nat
  entry : Nat
  born : Nat := 0
  spared : List (Nat × Nat × Nat) := []
  deriving DecidableEq, Repr

/-- A matrix, latch or accumulator operation in flight: registers to write as (lane, register, value), those that a later
instruction has written as (lane, register), whether it is a latch or accumulator move, and the clock and lanes of its issue. -/
structure MatrixOp where
  id : Nat
  g : Nat
  w : Nat
  writes : List (Nat × Nat × Word)
  touched : List (Nat × Nat)
  move : Bool
  fresh : Option (Nat × List Nat) := none
  deriving DecidableEq, Repr

/-- Stages of a third-party read (12 R259, 15 R351): its request on the way to another owner, at the owner, its data on the way, its
data accepted with the packets that have still to arrive (21 R401), its report on the way. -/
inductive LdtoStage where
  | request | owner | delivery (data : List Byte) | placing (data : List Byte) (left : List Nat) | report (code : Nat)
  deriving DecidableEq, Repr

/-- One lane of an LDTO in flight: `tl` is the counter that it names, also without ACK, `far` another device that holds the
recipient (15 R351), and `sent` the time at which its data were sent. -/
structure LdtoOp where
  id : Nat
  g : Nat
  w : Nat
  lane : Nat
  op : Nat
  pc : Nat
  n : Nat
  off : Nat
  src : DWord
  ctx : Nat
  ref : DWord
  target : Target
  win : Nat
  tl : Nat
  ack : Option (Nat × Nat)
  far : Option Nat := none
  sent : Nat := 0
  stage : LdtoStage
  deriving DecidableEq, Repr

/-- A message of a hierarchical barrier (09 R188): arrivals of groups on the way to a square, or a release on the way to
a group, in the phase that its groups have counted. -/
structure HbarMsg where
  id : Nat
  launch : Nat
  h : Nat
  lvl : HLvl
  place : Nat
  groups : List Nat
  level : Option HLvl
  release : Bool
  phase : Nat := 0
  deriving DecidableEq, Repr

/-- A square of a hierarchical barrier: the groups whose arrivals have reached it in the phase (09 R188). -/
structure HSquare where
  launch : Nat
  h : Nat
  lvl : HLvl
  place : Nat
  groups : List Nat
  level : Option HLvl
  sent : Bool
  deriving DecidableEq, Repr

/-- What one lane of a fabric packet asks of its destination (15 R338), or the name operation (R340) or third-party read (R351) that it
carries. -/
inductive PktAct where
  | load (bytes : Nat) | store (data : List Byte) | atom (op : AtomOp) (sg wide : Bool) (v : DWord)
  | cas (wide : Bool) (cmp swp : DWord) | name (op : Nat) | third (id : Nat)
  deriving DecidableEq, Repr

/-- The answer to a packet: the bytes each lane gets, a refusal (R334), or a name operation's status. -/
inductive PktAns where
  | data (ls : List (Nat × List Byte)) | refused | status (n : Nat)
  deriving DecidableEq, Repr

/-- A fabric request in flight with its resend state (15 R337, R347, R348): one for each instruction, destination and
128-byte line (20 R392). `parts` lists (lane, address, act); `epoch` counts the flags of its stream before it, `ord` orders the
sends, and `reached` says that the last send has arrived (R336). `doneAt` is the clock in which its answer was made (20 R393), and
`replied` the time at which the answer was sent (R348). -/
structure Packet where
  id : Nat
  g : Nat
  w : Nat
  acc : Nat
  dest : Dest
  line : Nat
  parts : List (Nat × Nat × PktAct)
  write : Bool
  flag : Option (Nat × List Nat)
  seq : BitVec 16
  after : Option (BitVec 16)
  restart : Bool
  street : Nat
  firstStreet : Nat
  first : Nat
  sent : Nat
  lost : Bool
  va : DWord
  pc : Nat
  fn : Nat
  gen : Nat
  answer : Option PktAns
  epoch : Nat := 0
  ord : Nat := 0
  reached : Bool := false
  doneAt : Option Nat := none
  replied : Nat := 0
  deriving DecidableEq, Repr

/-- A network work request in flight (15 R354 to R356): the time of its acceptance, for each packet that was sent again how often and
when last, the packet that now lacks its acknowledgement with whether a negative one or a trimmed packet has said so, and of a read the
bytes placed so far, as (offset, length). -/
structure NetReq where
  id : Nat
  ctx : Nat
  g : Nat
  w : Nat
  lane : Nat
  op : Nat
  pc : Nat
  wr : List Byte
  accepted : Option Nat
  packets : List (Nat × Nat × Nat) := []
  lacks : Nat × Bool := (0, false)
  placed : List (Nat × Nat)
  deriving DecidableEq, Repr

/-- A page move or residence request (12 R243, R244): `asked` is the clock at which it reached the page lock, `entry` the
entry that the host driver supplied for a page that comes in and `src` the page's host-physical address, `old` the entry
that the move replaces, and `refused` a page that the host driver refused. -/
structure PageMove where
  id : Nat
  ctx : Nat
  va : Nat
  size : Nat := 4096
  toHost : Bool
  started : Bool := false
  ended : Option Nat := none
  asked : Nat := 0
  entry : Option (BitVec 128) := none
  src : Nat := 0
  old : Nat := 0
  refused : Bool := false
  deriving DecidableEq, Repr

/-! ### Dies, cores, contexts -/

/-- A cached translation (12 R236). -/
structure TlbEntry where
  ctx : Nat
  va : Nat
  size : Nat
  pa : Nat
  kind : Nat
  dev : Nat
  flags : BitVec 32
  deriving DecidableEq, Repr

/-- A request to the banks of a core (14 R308, Table 14-3): a swap, a spill of a context, or a context to load next. -/
inductive BankReq where
  | swap
  | spill (ctx : Nat)
  | load (ctx : Nat)
  deriving DecidableEq, Repr

/-- One core (14 R308): `slices` holds the ends of its contexts' slices, `ladder` the step of the escalation, `ladderAt` the
time at which it started and `ladderOf` the context that it is for (R320). `waits` holds the bank requests that wait, in the order made, each with its clock; `switchEnd` is
the clock at which the last bank switch ends. -/
structure Core where
  active : Option Nat := none
  shadow : Option Nat := none
  loading : Option Nat := none
  spilling : Option Nat := none
  waits : List (Nat × BankReq) := []
  switchEnd : Nat := 0
  localq : List Nat := []
  tlb : List TlbEntry := []
  dirty : List (Nat × Nat × Byte) := []
  split : Nat := 7
  lentTo : Option Nat := none
  revoke : Bool := false
  slices : List (Nat × Nat) := []
  ladder : Nat := 0
  ladderAt : Nat := 0
  ladderOf : Nat := 0
  deriving DecidableEq, Repr

/-- One compute die; `served` holds the keys whose bins have answered a TAKE in a clock, with that clock + 1 (10 R202). -/
structure Die where
  tlb : List TlbEntry := []
  nested : List TlbEntry := []
  names : List (Nat × Nat) := []
  s2seq : Nat := 0
  ready : List Nat := []
  bins : List (Nat × BinSlot) := []
  served : Nat × List BinKey := (0, [])
  twarn : Nat := 95
  ttrip : Nat := 110
  floor : Nat := 12
  pmin : Nat := 0
  droops : Nat := 0
  temps : List (Nat × Nat) := []
  procs : List (Nat × Nat) := []
  deriving DecidableEq, Repr

/-- A queue of a context (10 R195). `bell` is a doorbell value of this clock that is out of range, with the WRIDX written since. -/
structure Queue where
  base : DWord := 0
  wridx : BitVec 32 := 0
  rdidx : BitVec 32 := 0
  err : Nat := 0
  logsz : Nat := 0
  prio : Nat := 0
  en : Bool := false
  state : Nat := 0
  pending : List (Nat × Bool × DWord) := []
  bell : Option (BitVec 32 × Option (BitVec 32)) := none
  deriving DecidableEq, Repr

/-- A dirty-log descriptor (12 Table 12-6). -/
structure Dlog where
  bmap : DWord := 0
  base : DWord := 0
  head : BitVec 32 := 0
  tail : BitVec 32 := 0
  ovf : Bool := false
  size : Nat := 0
  deriving DecidableEq, Repr

/-- States of a context (14 R307). -/
inductive CtxState where
  | runnable | halted | killing
  deriving DecidableEq, Repr

/-- An armed wake (15 R362). -/
structure Arm where
  g : Nat
  lane : Nat
  pc : Nat
  cc : Nat
  n : Nat
  target : Target
  ref : DWord
  deriving DecidableEq, Repr

/-- A loaded context: the record of Table 14-1 and what runs under it. -/
structure Ctx where
  state : CtxState := .runnable
  nest : Bool := false
  sandbox : Bool := false
  guaranteed : Bool := false
  debug : Bool := false
  allStop : Bool := false
  tripped : Bool := false
  ptroot : DWord := 0
  s2root : DWord := 0
  ntroot : DWord := 0
  hcode : DWord := 0
  hentry : Nat := 0
  hsize : Nat := 0
  ctrtab : DWord := 0
  spawnA : DWord := 0
  savePool : DWord := 0
  saveStride : Nat := 0
  saveCnt : Nat := 0
  saveUsed : List (Nat × Nat) := []
  errBase : DWord := 0
  errSize : Nat := 4
  errHead : BitVec 32 := 0
  errTail : BitVec 32 := 0
  errHeld : List (List Byte × Option (Nat × Nat)) := []
  machineChecks : List (Nat × Nat × Nat × Dest) := []
  svcBase : DWord := 0
  svcSize : Nat := 0
  svcHead : BitVec 32 := 0
  svcTail : BitVec 32 := 0
  svcIdx : BitVec 32 := 0
  svcWait : List (Nat × Nat × Nat × Nat) := []
  notify : BitVec 64 := 0
  grace : Nat := 0
  killt : Nat := 0
  quantum : Nat := 0
  part : Nat := 0
  spawnG : Nat := 0
  spawnN : Nat := 0
  dlog1 : Dlog := {}
  dlog2 : Dlog := {}
  queues : List (Nat × Queue) := []
  cc : List (Nat × Nat) := []
  arms : List Arm := []
  regs : List (Nat × Registration) := []
  fn : Option Nat := none
  torn : Bool := false
  deriving DecidableEq, Repr

/-- A launch accepted (11 R212, R213): state 0 placing, 1 running, 2 complete, 3 cancelling, 4 cancelled. `next` counts its
groups placed, `dies` are the dies it deals to (10 R206) and `dealt` the groups placed of each of them. -/
structure Launch where
  ctx : Nat
  handle : DWord
  parent : DWord
  next : Nat
  ngrp : Nat
  proto : Group
  state : Nat
  dies : List Nat
  dealt : List (Nat × Nat)
  deriving DecidableEq, Repr

/-- A graph accepted (11 R218): its nodes as (entry, header, code, const, args, buffer, coal, timer, caplog). -/
structure GraphNode where
  entry : Nat
  hdr : Header
  code : DWord
  cnst : DWord
  args : List Byte
  buf : DWord
  coal : Nat
  timer : Nat
  caplog : Nat
  deriving DecidableEq, Repr

structure Graph where
  ctx : Nat
  handle : DWord
  nodes : List GraphNode
  deriving DecidableEq, Repr

/-! ### Fabric, harts, hub -/

/-- A link (15 Table 15-1, R342, R343, R346): state 0 Down, 1 Training, 2 Up, 3 Retrain, 4 Failed. `keys` numbers the keys installed at
its trainings, `salt` belongs to them, and `txSlot` and `rxSlot` count the flit slots since then; `freedReq` and `freedRep` are the
cumulative counts of slots that this end has freed as a receiver, which its slot headers and checkpoints carry. -/
structure Link where
  en : Bool := false
  mode : Bool := false
  state : Nat := 0
  node : Nat := 0
  port : Nat := 0
  rtrn : Nat := 0
  rply : Nat := 0
  tagf : Nat := 0
  since : Nat := 0
  retrains : List Nat := []
  replays : Nat := 0
  limReq : Nat := 0
  limRep : Nat := 0
  sentReq : BitVec 16 := 0
  retReq : BitVec 16 := 0
  sentRep : BitVec 16 := 0
  retRep : BitVec 16 := 0
  salt : Word := 0
  keys : Nat := 0
  txSlot : DWord := 0
  rxSlot : DWord := 0
  freedReq : BitVec 16 := 0
  freedRep : BitVec 16 := 0
  deriving DecidableEq, Repr

/-- What a destination keeps of one stream (13 R288, R393; 15 R338): committed counts, answers by sequence, the flags
committed and the flags held. -/
structure RStream where
  g : Nat
  w : Nat
  committed : List Nat := [0, 0, 0, 0]
  performed : List (Nat × PktAns) := []
  flagsDone : Nat := 0
  held : List Nat := []
  deriving DecidableEq, Repr

/-- A cellar node or peer device: its memory, grant lists by 256 MiB region, streams and generations held. -/
structure Remote where
  mem : List Host.Cell := []
  poison : List Nat := []
  grants : List (Nat × List Grantee) := []
  streams : List RStream := []
  gens : List (Nat × Nat) := []
  deriving DecidableEq, Repr

/-- A send allowance that a destination holds for a stream of a virtual function's generation, or with `reply` the
reservation at the source for its replies, and the time of its last use (15 R349). -/
structure Allowance where
  id : Nat
  dest : Dest
  fn : Nat
  gen : Nat
  g : Nat
  w : Nat
  reply : Bool
  used : Nat
  deriving DecidableEq, Repr

/-- A virtual function (15 R349, R350). -/
structure VFn where
  ctx : Option Nat := none
  gen : BitVec 16 := 0
  tearing : Option Nat := none
  noticed : List Dest := []
  deriving DecidableEq, Repr

/-- Privilege modes of a hart (16 R367). -/
inductive HMode where
  | m | hs | u | vs | vu
  deriving DecidableEq, Repr

/-- One application hart (16 R367, 08 R177): its registers, with the control and status registers by their RISC-V number, and the
reservation of LR with the line as LR found it (logs 21, 22). -/
structure Hart where
  x : List (Nat × DWord) := []
  f : List (Nat × DWord) := []
  fcsr : Nat := 0
  pc : DWord := 0
  mode : HMode := .m
  bound : Option Nat := none
  csr : List (Nat × DWord) := []
  resv : Option (Nat × Nat × List Byte) := none
  stall : Option Nat := none
  deriving DecidableEq, Repr

/-- A notify register and its route (08 Table 8-10, 16 Table 16-5). `fresh` holds the clock of its last WAKEs, what WAKE held before
them and their number: a clear of that clock applies first (16 R370). -/
structure Notify where
  value : BitVec 32 := 0
  sig : BitVec 16 := 0
  wake : BitVec 16 := 0
  route : BitVec 32 := 0
  fresh : Option (Nat × BitVec 16 × Nat) := none
  deriving DecidableEq, Repr

/-- A name port page (08 Table 8-11). -/
structure Port where
  npref : DWord := 0
  npval : Word := 0
  busy : Bool := false
  rej : Bool := false
  status : Nat := 0
  result : Word := 0
  joining : Bool := false
  deriving DecidableEq, Repr

/-- A partition (14 R321). -/
structure Part where
  cores : List Nat := []
  margin : List Nat := []
  lend : List Nat := []
  deriving DecidableEq, Repr

/-- A firmware image (16 R375): the body by a number that stands for its digest, whether digest and signature verify, and its
security version. -/
structure Firmware where
  image : Nat
  valid : Bool := true
  version : Nat := 0
  deriving DecidableEq, Repr

/-! ### The schedule -/

/-- Which agent acts next: the model's own field `inbox` lists them (log 4). -/
inductive Item where
  /-- a quadrant of a core issues -/
  | issue (core quad : Nat)
  /-- a hart issues the word at its pc -/
  | hart (h : Nat)
  /-- an event of another agent -/
  | event (i : Instr)
  /-- the arithmetic clock and the reference timer advance -/
  | tick (clocks ns : Nat)
  /-- the issue stage forms a wave at a regroup point (08 R138) -/
  | regroup (g : Nat) (pc : Nat) (members : List (Nat × Nat))
  /-- a private line is evicted (12 R229) -/
  | evict (core line : Nat)
  /-- an uncorrectable error poisons a line of local memory (12 R233) -/
  | lineError (line : Nat)
  /-- errors in two words of one row of a parity set of a scratchpad, that of byte offset o of the group (12 R235) -/
  | rowError (g o : Nat)
  /-- a sensor or process monitor takes a new reading (16 R377) -/
  | sense (die sensor value : Nat) (proc : Bool)
  /-- a host thread writes host memory (13 R291) -/
  | hostStore (pa : Nat) (bs : List Byte)
  /-- the host writes or reads a register of the host port through a base address register (16 Table 16-1) -/
  | hostWrite (fn bar off : Nat) (v : DWord)
  | hostRead (fn bar off : Nat)
  /-- a start command that a register write began ends (16 R373) -/
  | startEnd (fail : Option (BitVec 8)) (linksFailed : List (BitVec 5)) (retrained : BitVec 12)
  /-- the storage of firmware takes an image (16 R375) -/
  | firmware (which image : Nat) (valid : Bool) (version : Nat)
  /-- the driver designates a 256 MiB unit of HBM as host-managed, or takes it back (16 R364) -/
  | designate (unit : Nat) (on : Bool)
  /-- a packet of a network request lacks its acknowledgement, or has a negative one or came trimmed (15 R352, R356) -/
  | netLacks (id pkt : Nat) (nack : Bool)
  deriving DecidableEq, Repr

/-- The instruction being issued: its group, home wave or formed wave, the members that issue as (lane, home wave), its
PC and word; or the hart that executes. `ahead` counts the clocks that the body of an INV pair has run (07 R132). -/
structure Issue where
  g : Nat := 0
  w : Nat := 0
  formed : Bool := false
  fid : Nat := 0
  members : List (Nat × Nat) := []
  positions : List (Nat × Nat) := []
  pc : Nat := 0
  word : IWord := 0
  hart : Nat := 0
  ahead : Nat := 0
  deriving DecidableEq, Repr

/-! ### The machine -/

structure State where
  inbox : List Item := []
  cur : Issue := {}
  quadNext : List (Nat × Nat) := []
  unitBusy : List (Nat × Nat) := []
  freeIdx : Nat := 0
  nextId : Nat := 1
  clock : Nat := 0
  ns : Nat := 0
  hbm : List Host.Cell := []
  hostMem : List Host.Cell := []
  poison : List (Nat × Nat) := []
  sealMap : List (Nat × Nat) := []
  hostWritable : List Nat := []
  cores : List (Nat × Core) := []
  dies : List (Nat × Die) := []
  ctxs : List (Nat × Ctx) := []
  groups : List (Nat × Group) := []
  launches : List (Nat × Launch) := []
  graphs : List (Nat × Graph) := []
  accesses : List Access := []
  nameOps : List NameOp := []
  joins : List JoinOp := []
  counts : List OpCount := []
  pushes : List Push := []
  takes : List TakeOp := []
  matrix : List MatrixOp := []
  ldtos : List LdtoOp := []
  hbarMsgs : List HbarMsg := []
  hsquares : List HSquare := []
  packets : List Packet := []
  netReqs : List NetReq := []
  migrating : List (Nat × Nat) := []
  moves : List PageMove := []
  remotes : List (Dest × Remote) := []
  allowances : List Allowance := []
  peerGrants : List (Nat × List Grantee) := []
  streets : List (Nat × List (Nat × Nat)) := []
  deadStreets : List (Nat × Nat) := []
  links : List (Nat × Link) := []
  vfs : List (Nat × VFn) := []
  device : Nat := 0
  stepping : List (Nat × Nat × Nat) := []
  harts : List (Nat × Hart) := []
  notifies : List (Nat × Notify) := []
  msis : List (Nat × Nat × Nat) := []
  ports : List (Nat × Port) := []
  mbArgs : List DWord := [0, 0, 0, 0]
  mbBusy : Bool := false
  mbCmd : Nat := 0
  mbRej : Bool := false
  mbStatus : Nat := 0
  mbReply : List Byte := []
  phase : Nat := 0
  result : Nat := 0
  linksBad : BitVec 16 := 0
  retrain : BitVec 12 := 0
  startLog : List (Nat × Nat × Nat × Nat) := []
  coldDone : Bool := false
  starting : Option Bool := none
  logAt : Nat := 0
  firmware : List Firmware := [{ image := 1 }, { image := 2 }]
  fusedMin : Nat := 0
  clk : Nat := 27
  noUp : Nat := 0
  evalAt : Nat := 0
  netDropped : Nat := 0
  parts : List (Nat × Part) := []
  partMoves : List (Nat × Nat × Bool × Nat) := []
  doorbells : List (Nat × Nat) := []
  mgmtLog : List DWord := []
  hdm : List Nat := []
  hostData : List Byte := []
  hostPoison : Bool := false
  deriving DecidableEq, Repr

/-- Why the machine stops. -/
inductive Fault where
  /-- Raised by an access to local physical memory at or beyond 768 GiB (01 Table 1-2: there is no such memory). Safe. -/
  | absentMemory (addr : Nat)
  deriving DecidableEq, Repr

/-- Why an instruction has no meaning. -/
inductive Refusal where
  /-- Raised by an arm of `exec` for an instruction that has no meaning yet. Safe. -/
  | notModelled (mnemonic : String)
  /-- Raised by step for a hart's word of V, of the hypervisor's loads and stores, or that names a control and status register which
  the model does not hold: the base is not in the spec (16 R367, log 22). Safe. -/
  | riscvBase (word : BitVec 32)
  deriving DecidableEq, Repr

/-- The machine right after power-on (16 R374): not started, nothing loaded, memory with nothing listed. -/
def State.reset : State := {}

end Sys2Proof.Machine
end

