-- ==== Sys2Proof/Machine/Ops.lean ====
section
/-! DEFINITION. The named operations over the state: records, memory, translation, error records, taking a trap and the
return from one. -/

namespace Sys2Proof.Machine

/-- What a meaning answers. -/
abbrev Out := Host.Outcome State Fault Refusal

/-! ### Records -/

def State.group (s : State) (g : Nat) : Group := mgetD s.groups g {}
def State.modGroup (s : State) (g : Nat) (f : Group → Group) : State := { s with groups := mmod s.groups g f }
def State.wave (s : State) (g w : Nat) : Wave := (s.group g).waves.getD w {}
def State.modWave (s : State) (g w : Nat) (f : Wave → Wave) : State :=
  s.modGroup g fun x => { x with waves := lmod x.waves w f }
def State.thread (s : State) (g w l : Nat) : Thread := (s.wave g w).threads.getD l {}
def State.modThread (s : State) (g w l : Nat) (f : Thread → Thread) : State :=
  s.modWave g w fun x => { x with threads := lmod x.threads l f }
def State.core (s : State) (c : Nat) : Core := mgetD s.cores c {}
def State.modCore (s : State) (c : Nat) (f : Core → Core) : State :=
  { s with cores := mput s.cores c (f (s.core c)) }
def State.die (s : State) (d : Nat) : Die := mgetD s.dies d {}
def State.modDie (s : State) (d : Nat) (f : Die → Die) : State := { s with dies := mput s.dies d (f (s.die d)) }
def State.ctx (s : State) (c : Nat) : Ctx := mgetD s.ctxs c {}
def State.modCtx (s : State) (c : Nat) (f : Ctx → Ctx) : State := { s with ctxs := mmod s.ctxs c f }
def State.remote (s : State) (d : Dest) : Remote := (aget s.remotes d).getD {}
def State.modRemote (s : State) (d : Dest) (f : Remote → Remote) : State :=
  { s with remotes := aput s.remotes d (f (s.remote d)) }

/-- Keys of registers within their latency (03 R42): vector and uniform registers as they are, predicates from 300, sr.fflags 400,
the five words of bracket n from 500 + 5 n. -/
def predKey (n : Nat) : Nat := 300 + n
def flagsKey : Nat := 400
def bracketKey (n i : Nat) : Nat := 500 + 5 * n + i

def setPBit (p : BitVec 48) (n : Nat) (b : Bool) : BitVec 48 :=
  if b then p ||| (1#48 <<< n) else p &&& ~~~(1#48 <<< n)

/-- Writes of registers that no latency hides: an operation that completes later, a deposit, an interlocked result. -/
def putV (n : Nat) (x : Word) (t : Thread) : Thread :=
  { t with vr := msetD t.vr n x 0, hazards := t.hazards.filter fun h => h.key != n }
def putP (n : Nat) (b : Bool) (t : Thread) : Thread :=
  { t with pr := setPBit t.pr n b, hazards := t.hazards.filter fun h => h.key != predKey n }
def putS (n : Nat) (x : Word) (v : Wave) : Wave :=
  { v with sr := msetD v.sr n x 0, sHazards := v.sHazards.filter fun h => h.key != n }

/-- A deposit into a register that an instruction in its latency still writes is read until that write completes, which then stands
(08 R151). -/
def depositHaz (clock n : Nat) (x : Word) (hs : List Hazard) : Option (List Hazard) :=
  (hs.reverse.find? fun h => h.key == n).bind fun h =>
    if clock < h.until_ then some ((hs.filter fun y => y.key != n) ++ [{ h with old := x, at_ := none }]) else none
def depositV (clock n : Nat) (x : Word) (t : Thread) : Thread :=
  match depositHaz clock n x t.hazards with
  | some hs => { t with hazards := hs }
  | none => putV n x t
def depositS (clock n : Nat) (x : Word) (v : Wave) : Wave :=
  match depositHaz clock n x v.sHazards with
  | some hs => { v with sHazards := hs }
  | none => putS n x v

/-- The registers that a lane of an access still writes, without one that WLANE writes in the clock of the access (06 R106). -/
def dropRow (n : Nat) (dst : List Nat) : List Nat := dst.map fun r => if r = n then 256 else r

/-- The same for a destination operand. -/
def dropDst (n : Nat) (a : Opnd) : Opnd :=
  match a with
  | .v i => if i.toNat = n then .null else a
  | _ => a

/-- A number that nothing in flight has. -/
def State.fresh (s : State) : Nat × State := (s.nextId, { s with nextId := s.nextId + 1 })

/-- A value that the spec leaves open (log 1). -/
def State.freeWord (s : State) : DWord × State := (Config.freeWord s.freeIdx, { s with freeIdx := s.freeIdx + 1 })
def State.freeBool (s : State) : Bool × State := (Config.freeBool s.freeIdx, { s with freeIdx := s.freeIdx + 1 })

/-- The group that issues, and what its kernel declares. -/
def State.cg (s : State) : Group := s.group s.cur.g

def Header.limits (h : Header) (handler : Bool) : Limits :=
  { vregs := h.vregs, sregs := h.sregs, preds := h.preds, brackets := h.brackets, depth := h.depth, conv := h.conv,
    names := h.names, invert := h.invert, handler := handler }

/-! ### Bytes and masks -/

/-- The little-endian bytes of a number, and the number they hold. -/
def toBytes : Nat → Nat → List Byte
  | 0, _ => []
  | n + 1, x => BitVec.ofNat 8 x :: toBytes n (x / 256)
def ofBytes (bs : List Byte) : Nat := wordOfBytes bs

def bit (m : Nat) (i : Nat) : Bool := m / 2 ^ i % 2 == 1
/-- The mask of a list of lanes. -/
def maskOf (ls : List Nat) : Word := ls.foldl (fun m l => m ||| (1#32 <<< l)) 0
def lanesOf (m : Word) : List Nat := (List.range 32).filter fun l => m.getLsbD l

/-! ### Memory -/

/-- Where a physical address lies (12 Table 12-1, KIND). -/
inductive Space where
  | hbm | host | far (d : Dest)
  deriving DecidableEq, Repr

/-- What an unlisted byte of memory reads as (log 2). -/
def unlisted : Byte := 0

/-- Memory in canonical form. -/
def Memory.wf (m : List Host.Cell) : Bool := mwf unlisted m

def memRead (m : List Host.Cell) (a : Nat) : Byte := mgetD m a unlisted
def memWrite (m : List Host.Cell) (a : Nat) (b : Byte) : List Host.Cell := msetD m a b unlisted

def readN (m : List Host.Cell) (a : Nat) : Nat → List Byte
  | 0 => []
  | n + 1 => memRead m a :: readN m (a + 1) n
def writeL (m : List Host.Cell) (a : Nat) : List Byte → List Host.Cell
  | [] => m
  | b :: bs => writeL (memWrite m a b) (a + 1) bs

def State.mem (s : State) : Space → List Host.Cell
  | .hbm => s.hbm
  | .host => s.hostMem
  | .far d => (s.remote d).mem

def State.setMem (s : State) (sp : Space) (m : List Host.Cell) : State :=
  match sp with
  | .hbm => { s with hbm := m }
  | .host => { s with hostMem := m }
  | .far d => s.modRemote d fun r => { r with mem := m }

def State.read (s : State) (sp : Space) (a n : Nat) : List Byte := readN (s.mem sp) a n
def State.write (s : State) (sp : Space) (a : Nat) (bs : List Byte) : State := s.setMem sp (writeL (s.mem sp) a bs)

/-- Bytes of local memory (01 Table 1-2). -/
def hbmSize : Nat := 768 * 2 ^ 30
/-- Pool bytes of a cellar node (15 R334). -/
def poolSize : Nat := 6 * 2 ^ 40

/-! ### The page table (12 R224 to R239) -/

/-- A page table entry's fields (12 Table 12-1). -/
structure Pte where
  raw : Nat
  deriving DecidableEq, Repr
namespace Pte
def v (e : Pte) : Bool := bit e.raw 0
def leaf (e : Pte) : Bool := bit e.raw 1
def npk (e : Pte) : Nat := e.raw / 2 % 8
def size (e : Pte) : Nat := e.raw / 4 % 4
def cls (e : Pte) : Nat := e.raw / 16 % 4
def kind (e : Pte) : Nat := e.raw / 64 % 4
def sealed (e : Pte) : Nat := e.raw / 256 % 4
def ins (e : Pte) : Nat := e.raw / 1024 % 4
def r (e : Pte) : Bool := bit e.raw 12
def w (e : Pte) : Bool := bit e.raw 13
def x (e : Pte) : Bool := bit e.raw 14
def dl (e : Pte) : Bool := bit e.raw 15
def owner (e : Pte) : Nat := e.raw / 2 ^ 16 % 256
def page (e : Pte) : Nat := e.raw / 2 ^ 64 % 2 ^ 42 * 4096
def dev (e : Pte) : Nat := e.raw / 2 ^ 106 % 2 ^ 22
end Pte

def pageBytes : Nat → Nat | 0 => 4096 | 1 => 65536 | 2 => 2 ^ 21 | _ => 2 ^ 28

/-- No reserved bit of a valid entry is set and no field holds an invalid value (12 R226). -/
def Pte.fieldsOk (e : Pte) : Bool :=
  e.raw / 2 ^ 24 % 2 ^ 40 == 0 && (e.kind == 1 || e.kind == 2 || e.dev == 0) && e.ins != 3 && e.sealed != 3 && e.cls != 3 &&
    (e.cls != 0 || e.owner < 192 || e.owner == 255)

/-- Validity of a leaf at a level (12 R226). -/
def Pte.leafOk (e : Pte) (level : Nat) : Bool :=
  e.fieldsOk && (if level == 3 then e.size ≥ 2 else e.size < 2) && (e.size != 0 || e.kind == 3) && e.page % pageBytes e.size == 0

/-- Validity of a pointer entry (12 R226). -/
def Pte.ptrOk (e : Pte) : Bool := e.fieldsOk && e.page % 8192 == 0

/-- How a walk fails. -/
inductive WalkErr where
  | invalid (sub : Nat)
  | npk (migrating : Bool) (second : Bool)
  deriving DecidableEq, Repr

/-- A number for each physical byte, over all spaces. -/
def spaceKey : Space → Nat
  | .hbm => 0
  | .host => 1
  | .far (.node n) => 2 + 2 * n.toNat
  | .far (.peer n) => 3 + 2 * n.toNat
def placeKey (sp : Space) (pa : Nat) : Nat := spaceKey sp * 2 ^ 60 + pa
def keySpace (k : Nat) : Space :=
  match k / 2 ^ 60 with
  | 0 => .hbm
  | 1 => .host
  | n + 2 => if n % 2 = 0 then .far (.node (BitVec.ofNat 22 (n / 2))) else .far (.peer (BitVec.ofNat 22 (n / 2)))

/-- A translation (12 R227): the physical place and the page's attributes; `leaf` is the physical address of the
first-stage leaf entry, `leaf2` that of the second stage. -/
structure Trans where
  pa : Nat
  kind : Nat
  dev : Nat
  cls : Nat
  owner : Nat
  r : Bool
  w : Bool
  x : Bool
  dl : Bool
  dl2 : Bool
  sealed : Nat
  ins : Nat
  size : Nat
  leaf : Nat
  leaf2 : Nat
  gpa : Nat
  deriving DecidableEq, Repr

/-- The entry at a place (`placeKey`): a table page lies in local memory, or where the second stage puts it. -/
def pteAt (s : State) (at_ : Nat) : Pte := ⟨ofBytes (readN (s.mem (keySpace at_)) (at_ % 2 ^ 60) 16)⟩

/-- Walk one table from its root: the leaf entry and its place. `tr` translates the addresses of entries. -/
def walkGo (s : State) (tr : Nat → Except WalkErr Nat) (sub : Nat) (va : Nat) :
    Nat → Nat → Nat → Except WalkErr (Pte × Nat)
  | 0, _, _ => .error (.invalid sub)
  | n + 1, level, page =>
    match tr (page + 16 * (va / 2 ^ (12 + 9 * (4 - level)) % 512)) with
    | .error e => .error e
    | .ok at_ =>
      let e := pteAt s at_
      if !e.v then
        (if e.npk == 1 then .error (.npk false (sub == 6)) else if e.npk == 2 then .error (.npk true (sub == 6))
         else .error (.invalid sub))
      else if e.leaf then
        (if level ≥ 3 && e.leafOk level then .ok (e, at_) else .error (.invalid sub))
      else if level ≥ 4 || !e.ptrOk then .error (.invalid sub)
      else walkGo s tr sub va n (level + 1) e.page

/-- What the second stage gives for a guest-physical address: the page's attributes, the place of the byte, and the place of the
leaf entry. -/
structure Stage2 where
  kind : Nat
  dev : Nat
  pa : Nat
  r : Bool
  w : Bool
  x : Bool
  dl : Bool
  size : Nat
  leaf : Nat
  deriving DecidableEq, Repr

/-- The second stage (12 R238): a guest-physical address to its page. -/
def walk2 (s : State) (c : Ctx) (gpa : Nat) : Except WalkErr Stage2 :=
  (walkGo s (fun p => .ok (p % 2 ^ 60)) 6 gpa 4 1 c.s2root.toNat).map fun x =>
    { kind := x.1.kind, dev := x.1.dev, pa := x.1.page + gpa % pageBytes x.1.size, r := x.1.r, w := x.1.w, x := x.1.x, dl := x.1.dl,
      size := pageBytes x.1.size, leaf := x.2 }

/-- The memory that a KIND and a device name. -/
def spaceOf (kind dev : Nat) : Space :=
  match kind with
  | 0 => .hbm
  | 1 => .far (.node (BitVec.ofNat 22 dev))
  | 2 => .far (.peer (BitVec.ofNat 22 dev))
  | _ => .host

/-- The place of a guest-physical address, by a second stage `w2`. -/
def gpaPlace (c : Ctx) (w2 : Nat → Except WalkErr Stage2) (gpa : Nat) : Except WalkErr Nat :=
  if c.nest then (w2 gpa).map fun x => placeKey (spaceOf x.kind x.dev) x.pa else .ok (gpa % 2 ^ 60)

def gpaToPa (s : State) (c : Ctx) (gpa : Nat) : Except WalkErr Nat := gpaPlace c (walk2 s c) gpa

/-- Walk both stages for a canonical address (12 R225, R238), with a second stage `w2`. -/
def walkBy (s : State) (c : Ctx) (w2 : Nat → Except WalkErr Stage2) (va : Nat) : Except WalkErr Trans :=
  match walkGo s (gpaPlace c w2) 2 va 4 1 c.ptroot.toNat with
  | .error e => .error e
  | .ok (e, at_) =>
    let gpa := e.page + va % pageBytes e.size
    let one : Trans :=
      { pa := gpa, kind := e.kind, dev := e.dev, cls := e.cls, owner := e.owner, r := e.r, w := e.w, x := e.x, dl := e.dl,
        dl2 := false, sealed := e.sealed, ins := e.ins, size := pageBytes e.size, leaf := at_, leaf2 := 0, gpa := gpa }
    if !c.nest then .ok one
    else
      match w2 gpa with
      | .error x => .error x
      | .ok e2 =>
        .ok { one with pa := e2.pa, kind := e2.kind, dev := e2.dev, r := e.r && e2.r, w := e.w && e2.w, x := e.x && e2.x,
                       dl2 := e2.dl, size := min (pageBytes e.size) e2.size, leaf2 := e2.leaf }

/-- The walk of the tables as they stand. -/
def walk (s : State) (c : Ctx) (va : Nat) : Except WalkErr Trans := walkBy s c (walk2 s c) va

/-- The guest-physical addresses that a walk of the first stage translates: its entries and its leaf. -/
def walkGpas (s : State) (tr : Nat → Except WalkErr Nat) (va : Nat) : Nat → Nat → Nat → List Nat
  | 0, _, _ => []
  | n + 1, level, page =>
    let gpa := page + 16 * (va / 2 ^ (12 + 9 * (4 - level)) % 512)
    match tr gpa with
    | .error _ => []
    | .ok at_ =>
      let e := pteAt s at_
      gpa :: (if e.leaf then [e.page + va % pageBytes e.size] else walkGpas s tr va n (level + 1) e.page)

def canonical (va : Nat) : Bool := va / 2 ^ 47 == 0 || va / 2 ^ 47 == 2 ^ 17 - 1

def Trans.space (t : Trans) : Space := spaceOf t.kind t.dev

/-- A byte as an engine of the package reads it: the owner's private line, or the home (12 R229). -/
def viewByte (s : State) (sp : Space) (pa : Nat) : Byte :=
  match s.cores.findSome? fun c => mget c.2.dirty (placeKey sp pa) with
  | some x => x.2
  | none => memRead (s.mem sp) pa

/-- An engine's write reaches the home, and private copies of the bytes are gone. -/
def State.engineWrite (s : State) (sp : Space) (pa : Nat) (bs : List Byte) : State :=
  let k := placeKey sp pa
  { s.write sp pa bs with
    cores := s.cores.map fun (c : Nat × Core) => (c.1, { c.2 with dirty := c.2.dirty.filter fun d => !(k ≤ d.1 && d.1 < k + bs.length) }) }

/-- The runs of bytes of [va, va + n) that each lie in one 4 KiB page. -/
def spans : Nat → Nat → Nat → List (Nat × Nat)
  | 0, _, _ => []
  | f + 1, va, n => if n = 0 then [] else let k := min n (4096 - va % 4096); (va, k) :: spans f (va + k) (n - k)
def spansOf (va n : Nat) : List (Nat × Nat) := spans (n / 4096 + 2) va n

/-- A system access to a context's virtual memory (rings, save areas, counters): no permission applies. None where the
address is not mapped; such a write is dropped (log 9). -/
def sysTrans (s : State) (ctx : Nat) (va : Nat) : Option (Space × Nat) :=
  match walk s (s.ctx ctx) (va % 2 ^ 64) with
  | .ok t => some (t.space, t.pa)
  | .error _ => none

/-- Bytes of several pages; none where one of them is not mapped. -/
def sysReadRuns (s : State) (ctx : Nat) : List (Nat × Nat) → Option (List Byte)
  | [] => some []
  | (va, n) :: rest =>
    (sysTrans s ctx va).bind fun x => (sysReadRuns s ctx rest).map fun bs =>
      (List.range n).map (fun i => viewByte s x.1 (x.2 + i)) ++ bs

def State.sysRead (s : State) (ctx va n : Nat) : Option (List Byte) := sysReadRuns s ctx (spansOf va n)

/-- The page service's own writes, which no dirty log holds. -/
def rawRuns (ctx : Nat) : List (Nat × Nat) → List Byte → State → State
  | [], _, s => s
  | (va, n) :: rest, bs, s =>
    rawRuns ctx rest (bs.drop n) (match sysTrans s ctx va with
      | some x => s.engineWrite x.1 x.2 (bs.take n)
      | none => s)

def State.rawWrite (s : State) (ctx va : Nat) (bs : List Byte) : State := rawRuns ctx (spansOf va bs.length) bs s

/-! ### Page service writes (12 R226, R228, R246) -/

def setBits (x lo n v : Nat) : Nat := x - (x / 2 ^ lo % 2 ^ n) * 2 ^ lo + (v % 2 ^ n) * 2 ^ lo

/-- The entries that a leaf of a size code occupies (R225). -/
def leafCount (size : Nat) : Nat := if size = 1 then 16 else if size = 3 then 128 else 1

/-- Write every entry of a leaf: `at_` is the place of one of its `n` entries. -/
def writeLeaf (s : State) (at_ n : Nat) (f : Nat → Nat) : State :=
  let base := at_ - at_ % (16 * n)
  (List.range n).foldl (fun s i =>
    s.write (keySpace (base + 16 * i)) ((base + 16 * i) % 2 ^ 60) (toBytes 16 (f (pteAt s (base + 16 * i)).raw))) s

/-- Drop a context's translations that cover any byte of [va, va + len) on every die, all of them when `len` is none, and its
cached second-stage translations. Lanes parked on a migrating page there may walk again (12 R226). -/
def dropTlb (s : State) (ctx va : Nat) (len : Option Nat) : State :=
  let keep (e : TlbEntry) : Bool :=
    e.ctx != ctx || (match len with | none => false | some n => e.va + e.size ≤ va || va + n ≤ e.va)
  { s with
    cores := s.cores.map fun x => (x.1, { x.2 with tlb := x.2.tlb.filter keep })
    dies := s.dies.map fun x => (x.1, { x.2 with tlb := x.2.tlb.filter keep, nested := x.2.nested.filter fun e => e.ctx != ctx })
    migrating := s.migrating.filter fun m => m.1 != ctx || (match len with | none => false | some n => m.2 + 4096 ≤ va || va + n ≤ m.2) }

/-- A second-stage invalidation: the number of every die rises (12 R239). -/
def bumpS2 (s : State) : State := [0, 1, 2, 3].foldl (fun s d => s.modDie d fun d => { d with s2seq := d.s2seq + 1 }) s

/-- Rewrite fields of the first-stage leaf that maps an address, and drop the translations it changes on every die. -/
def editLeaf (s : State) (ctx va : Nat) (f : Nat → Nat) : State :=
  match walk s (s.ctx ctx) va with
  | .ok t =>
    let e := pteAt s t.leaf
    dropTlb (writeLeaf s t.leaf (leafCount e.size) f) ctx (va - va % pageBytes e.size) (some (pageBytes e.size))
  | .error _ => s

/-- Append a record of a page to a dirty log, or mark the 2 MiB of the write's address in its bitmap (12 R246, R247). -/
def dlogWrite (s : State) (ctx : Nat) (second : Bool) (addr szc : Nat) : State :=
  let c := s.ctx ctx
  let d := if second then c.dlog2 else c.dlog1
  let put (d : Dlog) (s : State) : State :=
    s.modCtx ctx fun c => if second then { c with dlog2 := d } else { c with dlog1 := d }
  if !d.ovf && (d.head - d.tail).toNat < 2 ^ d.size then
    let a := d.base.toNat + 16 * (d.head.toNat % 2 ^ d.size)
    put { d with head := d.head + 1 } (s.rawWrite ctx a (toBytes 8 (addr - addr % pageBytes szc + szc) ++ toBytes 8 s.clock))
  else
    let b := addr % 2 ^ 48 / 2 ^ 21
    let a := d.bmap.toNat + b / 8
    let old := ofBytes ((s.sysRead ctx a 1).getD [0])
    put { d with ovf := true } (s.rawWrite ctx a (toBytes 1 (old ||| 2 ^ (b % 8))))

/-- Log a write to a page whose DL is set, each stage's page by its own size, and clear DL. -/
def logPage (s : State) (ctx va : Nat) : State :=
  match walk s (s.ctx ctx) va with
  | .ok t =>
    let s1 := if t.dl then editLeaf (dlogWrite s ctx false va (pteAt s t.leaf).size) ctx va (fun e => setBits e 15 1 0) else s
    if t.dl2 then
      let s2 := dlogWrite s1 ctx true t.gpa (pteAt s1 t.leaf2).size
      let s3 := writeLeaf s2 t.leaf2 (leafCount (pteAt s2 t.leaf2).size) fun e => setBits e 15 1 0
      dropTlb (bumpS2 s3) ctx 0 none
    else s1
  | .error _ => s

/-- A system write: one to a page with DL = 1 is logged first (12 R246, R247). -/
def sysWriteRuns (ctx : Nat) : List (Nat × Nat) → List Byte → State → State
  | [], _, s => s
  | (va, n) :: rest, bs, s =>
    let s1 := logPage s ctx (va % 2 ^ 64)
    sysWriteRuns ctx rest (bs.drop n) (match sysTrans s1 ctx va with
      | some x => s1.engineWrite x.1 x.2 (bs.take n)
      | none => s1)

def State.sysWrite (s : State) (ctx va : Nat) (bs : List Byte) : State := sysWriteRuns ctx (spansOf va bs.length) bs s

/-! ### Save areas (14 R310, Tables 14-4, 14-5) -/

def saveVa (s : State) (g : Nat) : Nat :=
  let x := s.group g
  let c := s.ctx x.ctx
  c.savePool.toNat + c.saveStride * x.saveIdx.getD 0

def slotVa (s : State) (g w : Nat) : Nat := saveVa s g + 0x80000 + 0x10000 * w

/-- A group's reference (08 R143). -/
def groupRef (x : Group) : Nat := x.num * 1024

/-! ### Context error records (14 R317, R405) -/

/-- Write a 64-byte record at the head of the context's error ring, then its group's completion word: `rep` is the group and the
sequence that a report record leaves there. -/
def putErr (s : State) (ctx : Nat) (rcd : List Byte) (rep : Option (Nat × Nat)) : State :=
  let c := s.ctx ctx
  let s1 := s.sysWrite ctx (c.errBase.toNat + 64 * (c.errHead.toNat % 2 ^ c.errSize)) rcd
  let s2 := s1.modCtx ctx fun c => { c with errHead := c.errHead + 1 }
  match rep with
  | some (g, seq) =>
    let a := saveVa s2 g + 8
    let old := (ofBytes ((s2.sysRead ctx a 4).getD [0, 0, 0, 0])) + 1
    s2.sysWrite ctx a (toBytes 4 old ++ toBytes 4 seq)
  | none => s2

/-- Append a record to the context's error ring, or hold it and halt the context when the ring is full. -/
def pushErr (s : State) (ctx : Nat) (head : List Byte) (gref : Nat) (rep : Option (Nat × Nat)) : State :=
  let c := s.ctx ctx
  let rcd := head ++ List.replicate (32 - head.length) 0#8 ++ toBytes 8 gref ++ List.replicate 24 0#8
  if (c.errHead - c.errTail).toNat ≥ 2 ^ c.errSize then
    s.modCtx ctx fun c => { c with errHeld := c.errHeld ++ [(rcd, rep)], state := if c.state = .killing then .killing else .halted }
  else putErr s ctx rcd rep

/-- A context error record (14 Table 14-19). -/
def ctxErr (s : State) (ctx kind b2 b3 w4 d8 d16 gref : Nat) : State :=
  pushErr s ctx (toBytes 2 kind ++ toBytes 1 b2 ++ toBytes 1 b3 ++ toBytes 4 w4 ++ toBytes 8 d8 ++ toBytes 8 d16 ++
    toBytes 8 s.clock) gref none

/-- A report record of a group (12 R259, R262). -/
def report (s : State) (g code lane b3 pc d8 seq d24 : Nat) : State :=
  let x := s.group g
  pushErr s x.ctx (toBytes 2 code ++ toBytes 1 lane ++ toBytes 1 b3 ++ toBytes 4 pc ++ toBytes 8 d8 ++ toBytes 8 seq ++
    toBytes 8 d24) (groupRef x) (some (g, seq))

/-- The readings of a die's 64 sensors and 16 process monitors; one that has taken no reading reads 0 (16 Table 16-6, log 121). -/
def dieTemps (d : Die) : List Nat := (List.range 64).map fun i => mgetD d.temps i 0
def dieProcs (d : Die) : List Nat := (List.range 16).map fun i => mgetD d.procs i 0
def fourDies (s : State) : List Die := (List.range 4).map fun d => s.die d

/-- Halt a context (14 R307): no group of it issues until it is resumed. -/
def haltCtx (s : State) (ctx : Nat) : State :=
  s.modCtx ctx fun c => { c with state := if c.state = .runnable then .halted else c.state }

/-! ### Code -/

/-- The extent of the code a wave runs: offsets from its code base (14 R314, 03 R57). -/
def codeBase (s : State) (g w : Nat) : Nat :=
  if (s.wave g w).handler then (s.ctx (s.group g).ctx).hcode.toNat else (s.group g).code.toNat

def inCode (s : State) (g w : Nat) (off : Int) : Bool :=
  let x := s.group g
  if (s.wave g w).handler then 0 ≤ off && off < (s.ctx x.ctx).hsize
  else (x.hdr.entry : Int) ≤ off && off < (x.hdr.entry + x.hdr.codesize : Nat)

/-! ### Taking a trap (14 R312 to R315) -/

/-- A trap: its cause, the lanes of the cause mask and of the other-causes mask as (lane, home wave), and the addresses
of its lanes. -/
structure Trp where
  cause : Nat
  sub : Nat := 0
  lanes : List (Nat × Nat)
  others : List (Nat × Nat) := []
  addrs : List ((Nat × Nat) × DWord) := []
  rsm : Bool := false
  inv : Bool := false
  log : Option Nat := none
  count : Nat := 0
  pc : Nat
  word : IWord
  frm : Bool := false
  deriving DecidableEq, Repr

def waveLanes (ls : List (Nat × Nat)) (w : Nat) : List Nat := (ls.filter fun x => x.2 == w).map (·.1)

/-- The waves that occur in a list of members, each once, ascending. -/
def wavesOf (ls : List (Nat × Nat)) : List Nat := (List.range 32).filter fun w => ls.any fun x => x.2 == w

/-- The frame word of a home wave (14 Table 14-8). -/
def frameWord (t : Trp) (w : Nat) : Nat :=
  t.cause + t.sub * 2 ^ 8 + (!(waveLanes t.others w).isEmpty).toNat * 2 ^ 16 + t.rsm.toNat * 2 ^ 17 + t.inv.toNat * 2 ^ 18 +
    t.frm.toNat * 2 ^ 19 + t.log.isSome.toNat * 2 ^ 20

def trapAddr (t : Trp) (w l : Nat) : DWord := (aget t.addrs (l, w)).getD 0

/-- The lowest lane of a list, and the address that the frame of a home wave names for it. -/
def lowLane (ls : List Nat) : Nat := ls.foldl min (ls.headD 0)
def lowAddr (t : Trp) (w : Nat) : DWord := trapAddr t w (lowLane (waveLanes t.lanes w))

/-- The 512 bytes of the frame (14 Table 14-7). -/
def frameBytes (s : State) (g w : Nat) (t : Trp) : List Byte :=
  let ls := waveLanes t.lanes w
  toBytes 8 (frameWord t w) ++ toBytes 8 (codeBase s g w + t.pc) ++ toBytes 12 t.word.toNat ++ toBytes 4 0 ++
    toBytes 4 (maskOf ls).toNat ++ toBytes 4 (maskOf (waveLanes t.others w)).toNat ++
    toBytes 8 (lowAddr t w).toNat ++ toBytes 8 (t.log.getD 0xFF) ++ toBytes 8 t.count ++
    (List.range 32).flatMap (fun l => toBytes 8 (trapAddr t w l).toNat) ++ List.replicate 192 0#8

/-- The handler save (14 Table 14-5): s0 to s15, p0 to p7 and sr.fflags of each lane. -/
def handlerSave (wv : Wave) : List Byte :=
  (List.range 16).flatMap (fun n => toBytes 4 (mgetD wv.sr n 0).toNat) ++
    (List.range 32).flatMap (fun l => toBytes 1 ((wv.threads.getD l {}).pr.toNat)) ++
    (List.range 32).flatMap (fun l => toBytes 1 ((wv.threads.getD l {}).fflags.toNat))

/-- Handler entry of a thread: Ready and Held threads go to the handler, the others stay (14 R314). -/
def enterThread (hentry : Nat) (t : Thread) : Thread :=
  if t.st = .ready ∨ t.st = .held then
    { t with savedPc := t.pc, savedSt := t.st, savedHold := t.hold, hf := true, st := .ready, hold := .none, pc := hentry }
  else t

/-- Formed waves dissolve, and with each the INV pair that it runs, which resumes from its brackets (08 R139, 07 R132). -/
def Group.dropFormed (x : Group) (p : Formed → Bool) : Group :=
  { x with formed := x.formed.filter fun f => !p f
           invs := x.invs.filter fun r => !(x.formed.any fun f => r.fid == some f.id && p f) }

/-- A second path of this clock still has to issue (08 R136). -/
def Formed.pairDue (clock : Nat) (f : Formed) : Bool := f.sel.pair.any fun p => p.2.1 == clock

/-- Formed waves dissolve after the issue of a clock: one whose second path has still to issue in it, once that has. -/
def Group.endFormed (x : Group) (clock : Nat) (p : Formed → Bool) : Group :=
  let y := x.dropFormed fun f => (p f || f.ending) && !f.pairDue clock
  { y with formed := y.formed.map fun f => if p f then { f with ending := true } else f }

/-- Drop the formed waves that hold a member of a home wave (08 R139), and the INV pairs that its threads run, which
resume from their brackets (07 R132). -/
def dissolve (x : Group) (w : Nat) : Group :=
  let y := x.dropFormed fun f => f.members.any fun m => m.2 == w
  { y with invs := y.invs.filter fun r => !(r.issue.any fun m => m.2 == w) }

/-- Entry of one home wave into the handler, or the halt of its context (14 R314, R315). -/
def enterWave (s : State) (g w : Nat) (t : Trp) : State :=
  let x := s.group g
  let c := s.ctx x.ctx
  let wv := s.wave g w
  let slot := slotVa s g w
  if wv.handler then
    let first := ofBytes ((s.sysRead x.ctx slot 8).getD [])
    ctxErr (haltCtx s x.ctx) x.ctx 0x0103 t.cause t.sub t.pc (lowAddr t w).toNat first (groupRef x)
  else
    let s1 := s.sysWrite x.ctx slot (frameBytes s g w t)
    if c.hentry = 0 then
      ctxErr (haltCtx s1 x.ctx) x.ctx 0x0104 t.cause t.sub t.pc (lowAddr t w).toNat 0 (groupRef x)
    else
      let s2 := s1.sysWrite x.ctx (slot + 0x200) (handlerSave wv)
      s2.modWave g w fun v =>
        putS 0 (BitVec.ofNat 32 slot) (putS 1 (BitVec.ofNat 32 (slot / 2 ^ 32))
          { v with threads := v.threads.map (enterThread c.hentry), handler := true, sel := { v.sel with pair := none },
                   frMask := maskOf (waveLanes t.lanes w) ||| maskOf (waveLanes t.others w), frLog := t.log })

/-- Take a trap: every home wave with a lane in the cause mask enters its handler (14 R312). -/
def takeTrap (s : State) (g : Nat) (t : Trp) : State :=
  (wavesOf t.lanes).foldl (fun s w => enterWave (s.modGroup g fun x => dissolve x w) g w t) s

/-- A trap of the instruction being issued, for some of its lanes. -/
def trapNow (s : State) (cause sub : Nat) (lanes : List (Nat × Nat)) : State :=
  takeTrap s s.cur.g { cause := cause, sub := sub, lanes := lanes, pc := s.cur.pc, word := s.cur.word, frm := s.cur.formed }

/-- A lane's failing check: cause, subcode and address. -/
structure LaneFail where
  at_ : Nat × Nat
  cause : Nat
  sub : Nat
  addr : DWord
  deriving DecidableEq, Repr

/-- The trap that several failing lanes report (14 R313): the lowest code, and within it the subcode of the lowest lane;
every other trapping lane goes to the other-causes mask. `parks` are lanes that would have parked (12 R227). -/
def failTrap (s : State) (fs : List LaneFail) (parks : List (Nat × Nat)) : Trp :=
  let code := (fs.map (·.cause)).foldl min 255
  let ofCode := fs.filter fun f => f.cause == code
  let low := lowLane (ofCode.map (·.at_.1))
  let sub := ((ofCode.find? fun f => f.at_.1 == low).map (·.sub)).getD 0
  let inC := fs.filter fun f => f.cause == code && f.sub == sub
  let out := fs.filter fun f => !(f.cause == code && f.sub == sub)
  { cause := code, sub := sub, lanes := inC.map (·.at_), others := out.map (·.at_) ++ parks,
    addrs := fs.map (fun f => (f.at_, f.addr)), pc := s.cur.pc, word := s.cur.word, frm := s.cur.formed }

def trapFails (s : State) (fs : List LaneFail) (parks : List (Nat × Nat)) : State := takeTrap s s.cur.g (failTrap s fs parks)

/-! ### The return from a trap (14 R316) -/

/-- Restore one thread. `late` keeps the recorded PC of a late entry's threads. -/
def returnThread (hit late : Bool) (target : Nat) (t : Thread) : Thread :=
  if t.hf then
    { t with pc := if hit && !late then target else t.savedPc, st := t.savedSt, hold := t.savedHold, hf := false }
  else t

/-- Restore the registers that the handler save holds. -/
def unsave (bs : List Byte) (v : Wave) : Wave :=
  let word (i : Nat) : Word := BitVec.ofNat 32 (ofBytes ((bs.drop (4 * i)).take 4))
  { v with
    sr := (List.range 16).foldl (fun m n => msetD m n (word n) 0) v.sr
    sHazards := v.sHazards.filter fun h => 16 ≤ h.key
    threads := (List.range v.threads.length).zip v.threads |>.map fun (l, t) =>
      { t with pr := (t.pr &&& ~~~(0xFF#48)) ||| BitVec.ofNat 48 (bs.getD (64 + l) 0).toNat,
               fflags := BitVec.ofNat 5 (bs.getD (96 + l) 0).toNat,
               hazards := t.hazards.filter fun h => h.key != flagsKey && !(predKey 0 ≤ h.key && h.key < predKey 8) } }

/-- RTE for one home wave: the frame in memory gives the PC and the resume mode. A target outside the code halts the
context. -/
def returnWave (s : State) (g w : Nat) (invAt : Nat → Bool) : State × Option (Nat × Bool) :=
  let x := s.group g
  let wv := s.wave g w
  let slot := slotVa s g w
  let f := (s.sysRead x.ctx slot 16).getD (List.replicate 16 0)
  let rsm := bit (ofBytes (f.take 8)) 17
  let off : Int := (ofBytes (f.drop 8) : Int) - (x.code.toNat : Int)
  let ok := off % 12 == 0 && (x.hdr.entry : Int) ≤ off && off < (x.hdr.entry + x.hdr.codesize : Nat)
  let late := (wv.frLog.bind fun e => (mget wv.log e).map (·.late)).getD false
  if !ok then (haltCtx s x.ctx, none)
  else
    let pcn := off.toNat
    let target := if rsm then pcn + (if invAt pcn then 24 else 12) else pcn
    let bs := (s.sysRead x.ctx (slot + 0x200) 128).getD (handlerSave wv)
    (s.modWave g w fun v =>
      let v1 := unsave bs v
      { v1 with handler := false, frLog := none, frMask := 0,
                threads := (List.range v1.threads.length).zip v1.threads |>.map fun (l, t) =>
                  returnThread (v.frMask.getLsbD l) late target t },
     wv.frLog.map fun e => (e, rsm))

end Sys2Proof.Machine
end

