-- ==== Sys2Proof/Machine/Operands.lean ====
section
/-! DEFINITION. Reading and writing operands (03 R36 to R43), guards (02 R17), and the shared shapes of instructions that
compute in registers. A member of the issue is (lane, home wave) of the issuing group. -/

namespace Sys2Proof.Machine

/-! ### Registers within their latency (03 R42) -/

/-- The clock of the issue: in the body of an INV pair, that of the body's instruction (07 R132). -/
def State.now (s : State) : Nat := s.clock + s.cur.ahead

/-- A write that every read sees: its latency has passed, and it is of an earlier clock. -/
def Hazard.past (clock : Nat) (h : Hazard) : Bool := h.until_ ≤ clock && h.at_ != some clock

/-- What a read finds under the writes of one register, newest first: a write that is past, or that the hardware happens to see,
gives its value; else the read goes on to the write before it. In the clock of a write the value before it is read (06 R103). Each
write and each `salt` has a choice of its own; `pick` names the register, whose words choose together. -/
def seeThrough (pick clock free salt : Nat) : List Hazard → Word → Word
  | [], v => v
  | h :: hs, v =>
    if h.past clock then v
    else if h.at_ = some clock then seeThrough pick clock free salt hs h.old
    else if Config.seesNew free ((hs.length * 2048 + pick) * 1024 + salt) then v
    else seeThrough pick clock free salt hs h.old

/-- What a read of a register returns (03 R42). -/
def readHazAs (pick : Nat) (hs : List Hazard) (clock free salt key : Nat) (v : Word) : Word :=
  seeThrough pick clock free salt (hs.reverse.filter fun h => h.key == key) v
def readHaz (hs : List Hazard) (clock free salt key : Nat) (v : Word) : Word := readHazAs key hs clock free salt key v

/-- The writes that a later read may still miss: none that is past, nor one before it to the same register. -/
def liveHaz (clock : Nat) : List Hazard → List Hazard
  | [] => []
  | h :: hs => if h.past clock || hs.any (fun x => x.key == h.key && x.past clock) then liveHaz clock hs else h :: liveHaz clock hs

/-- Record a write and the value that it replaces. -/
def addHaz (hs : List Hazard) (clock lat key : Nat) (old : Word) : List Hazard :=
  liveHaz clock hs ++ [⟨key, old, clock + lat, some clock⟩]

/-- A thread's choices are its own (03 R42: for each register and lane), and so are those of a home wave's uniform registers. -/
def saltOf (m : Nat × Nat) : Nat := 32 * m.2 + m.1
def uniPick (n : Nat) : Nat := 1024 + n

def vraw (t : Thread) (n : Nat) : Word := mgetD t.vr n 0
def praw (t : Thread) (n : Nat) : Bool := t.pr.getLsbD n
def wordOfBool (b : Bool) : Word := if b then 1 else 0

/-- V(L, n) (03 Table 3-13). -/
def rdV (s : State) (m : Nat × Nat) (n : Nat) : Word :=
  let t := s.thread s.cur.g m.2 m.1
  readHaz t.hazards s.now s.freeIdx (saltOf m) n (vraw t n)

/-- S(n) of a home wave. -/
def rdS (s : State) (w n : Nat) : Word :=
  let v := s.wave s.cur.g w
  readHazAs (uniPick n) v.sHazards s.now s.freeIdx w n (mgetD v.sr n 0)

/-- P(L, n); index 63 reads 1. -/
def rdP (s : State) (m : Nat × Nat) (n : Nat) : Bool :=
  if n = 63 then true
  else
    let t := s.thread s.cur.g m.2 m.1
    (readHaz t.hazards s.now s.freeIdx (saltOf m) (predKey n) (wordOfBool (praw t n))) != 0

def setVThread (clock lat n : Nat) (x : Word) (t : Thread) : Thread :=
  { t with vr := msetD t.vr n x 0, hazards := addHaz t.hazards clock lat n (vraw t n) }

def setPThread (clock lat n : Nat) (b : Bool) (t : Thread) : Thread :=
  { t with pr := setPBit t.pr n b, hazards := addHaz t.hazards clock lat (predKey n) (wordOfBool (praw t n)) }

/-- Write a vector register, a predicate, a uniform register; raise flags. -/
def wrV (s : State) (lat : Nat) (m : Nat × Nat) (n : Nat) (x : Word) : State :=
  s.modThread s.cur.g m.2 m.1 (setVThread s.now lat n x)

def wrP (s : State) (lat : Nat) (m : Nat × Nat) (n : Nat) (b : Bool) : State :=
  s.modThread s.cur.g m.2 m.1 (setPThread s.now lat n b)

def wrS (s : State) (lat : Nat) (w n : Nat) (x : Word) : State :=
  s.modWave s.cur.g w fun v =>
    { v with sr := msetD v.sr n x 0, sHazards := addHaz v.sHazards s.now lat n (mgetD v.sr n 0) }

def orFlags (s : State) (m : Nat × Nat) (f : FFlags) : State :=
  s.modThread s.cur.g m.2 m.1 fun t =>
    { t with fflags := t.fflags ||| f, hazards := addHaz t.hazards s.now 0 flagsKey (BitVec.zeroExtend 32 t.fflags) }

def setFlags (s : State) (lat : Nat) (m : Nat × Nat) (f : FFlags) : State :=
  s.modThread s.cur.g m.2 m.1 fun t =>
    { t with fflags := f, hazards := addHaz t.hazards s.now lat flagsKey (BitVec.zeroExtend 32 t.fflags) }

/-! ### Special registers (03 Table 3-6) -/

def threadName (x : Group) (m : Nat × Nat) : Nat := x.num * 1024 + m.2 * 32 + m.1

/-- Lanes of a home wave that issue, guards not applied. -/
def activeMask (s : State) (w : Nat) : Word := maskOf (waveLanes s.cur.members w)

def rdSr (s : State) (m : Nat × Nat) (r : SReg) : Word :=
  let x := s.cg
  let t := s.thread s.cur.g m.2 m.1
  let v := s.wave s.cur.g m.2
  match r with
  | .lane => BitVec.ofNat 32 m.1
  | .wave => BitVec.ofNat 32 m.2
  | .group => BitVec.ofNat 32 x.index
  | .quad => BitVec.ofNat 32 v.quad
  | .core => BitVec.ofNat 32 x.core
  | .die => BitVec.ofNat 32 (x.core / 48)
  | .device => BitVec.ofNat 32 (s.device % 2 ^ 22)
  | .active => activeMask s m.2
  | .nameLo => BitVec.ofNat 32 (threadName x m)
  | .nameHi => BitVec.ofNat 32 (threadName x m / 2 ^ 32)
  | .gnameLo => BitVec.ofNat 32 (groupRef x)
  | .gnameHi => BitVec.ofNat 32 (groupRef x / 2 ^ 32)
  | .clockLo => BitVec.ofNat 32 s.now
  | .clockHi => BitVec.ofNat 32 (s.now / 2 ^ 32)
  | .gsize => BitVec.ofNat 32 x.gsize
  | .wsize => BitVec.ofNat 32 v.threads.length
  | .sig => t.sig
  | .fflags => readHaz t.hazards s.now s.freeIdx (saltOf m) flagsKey (BitVec.zeroExtend 32 t.fflags)

/-! ### Sources (03 R36, R37) -/

def sx8 (x : BitVec 8) (n : Nat) : BitVec n := x.signExtend n

/-- Src(L, x) as a 32-bit value. -/
def src (s : State) (m : Nat × Nat) : Opnd → Word
  | .v n => rdV s m n.toNat
  | .s n => rdS s m.2 n.toNat
  | .p n => wordOfBool (rdP s m n.toNat)
  | .pT => 1
  | .sr r => rdSr s m r
  | .imm x => sx8 x 32
  | .lit x => x
  | .res _ => 0
  | .null => 0

def pairOf (lo hi : Word) : DWord := hi ++ lo

/-- A 64-bit source. -/
def src64 (s : State) (m : Nat × Nat) : Opnd → DWord
  | .v n => pairOf (rdV s m n.toNat) (rdV s m (n.toNat + 1))
  | .s n => pairOf (rdS s m.2 n.toNat) (rdS s m.2 (n.toNat + 1))
  | .sr .nameLo => BitVec.ofNat 64 (threadName s.cg m)
  | .sr .gnameLo => BitVec.ofNat 64 (groupRef s.cg)
  | .sr .clockLo => BitVec.ofNat 64 s.now
  | .imm x => sx8 x 64
  | .lit x => x.signExtend 64
  | _ => 0

/-- The code of a small integer in a floating-point format, exact for −128 to 127. -/
def immCode (fm : Fmt) (x : BitVec 8) : Nat := (roundF fm (ieee fm) .rn false (Val.ofInt x.toInt)).1

/-- An FP32 source, and a packed FP16 or BF16 source (R37). -/
def srcF (s : State) (m : Nat × Nat) (o : Opnd) : Nat :=
  match o with
  | .imm x => immCode .fp32 x
  | o => (src s m o).toNat

def srcH (fm : Fmt) (s : State) (m : Nat × Nat) (o : Opnd) : Nat :=
  match o with
  | .imm x => immCode fm x * 65537
  | o => (src s m o).toNat

/-- An FP64 source: a literal is an FP32 value converted exactly. -/
def srcD (s : State) (m : Nat × Nat) (o : Opnd) : Nat :=
  match o with
  | .imm x => immCode .fp64 x
  | .lit x => (convert .fp64 .fp32 .rn false x.toNat).1
  | o => (src64 s m o).toNat

/-- A predicate source. -/
def srcP (s : State) (m : Nat × Nat) : Opnd → Bool
  | .p n => rdP s m n.toNat
  | _ => true

/-! ### Guards and the members that act (02 R17) -/

/-- Whether a member's guard is true. -/
def guardOn (k : Ctl) (s : State) (m : Nat × Nat) : Bool := rdP s m k.gp.toNat != k.gn

/-- ActiveMask(): the members whose guard is true, in ascending lane. -/
def actives (k : Ctl) (s : State) : List (Nat × Nat) := s.cur.members.filter (guardOn k s)

/-- Every issuing thread continues at the next instruction. -/
def advance (s : State) : State :=
  s.cur.members.foldl (fun s m => s.modThread s.cur.g m.2 m.1 fun t => { t with pc := s.cur.pc + 12 }) s

/-- Threads continue elsewhere, or are held at the instruction. -/
def setPc (s : State) (m : Nat × Nat) (pc : Nat) : State := s.modThread s.cur.g m.2 m.1 fun t => { t with pc := pc }

def holdAt (s : State) (m : Nat × Nat) (h : Hold) : State :=
  s.modThread s.cur.g m.2 m.1 fun t => { t with pc := s.cur.pc, st := .held, hold := h }

/-! ### Destinations -/

/-- Write one member's destination; class 7 discards. -/
def wrDst (s : State) (lat : Nat) (m : Nat × Nat) (a : Opnd) (x : Word) : State :=
  match a with
  | .v n => wrV s lat m n.toNat x
  | .s n => wrS s lat m.2 n.toNat x
  | .p n => wrP s lat m n.toNat (x != 0)
  | .sr _ => setFlags s lat m (x.truncate 5)
  | _ => s

def wrDst64 (s : State) (lat : Nat) (m : Nat × Nat) (a : Opnd) (x : DWord) : State :=
  match a with
  | .v n => wrV (wrV s lat m n.toNat (x.truncate 32)) lat m (n.toNat + 1) ((x >>> 32).truncate 32)
  | .s n => wrS (wrS s lat m.2 n.toNat (x.truncate 32)) lat m.2 (n.toNat + 1) ((x >>> 32).truncate 32)
  | _ => s

/-! ### Shapes of instructions (03 R38, 06 R88, R89) -/

/-- The first member of a home wave: uniform sources read the same in each. -/
def leadOf (ms : List (Nat × Nat)) (w : Nat) : Nat × Nat := (ms.find? fun m => m.2 == w).getD (0, w)

def isUniform : Opnd → Bool
  | .s _ => true
  | _ => false
def isVector : Opnd → Bool
  | .v _ => true
  | _ => false

/-- Compute a 32-bit result from the old registers and write it: once per home wave on the scalar datapath when the
destination is uniform (latency 2), else in every active lane. -/
def compute (k : Ctl) (lat : Nat) (a : Opnd) (f : State → Nat × Nat → Word) (s : State) : State :=
  let act := actives k s
  if isUniform a then (wavesOf act).foldl (fun t w => wrDst t 2 (0, w) a (f s (leadOf act w))) (advance s)
  else act.foldl (fun t m => wrDst t lat m a (f s m)) (advance s)

/-- The same for a 64-bit result. -/
def compute64 (k : Ctl) (lat : Nat) (a : Opnd) (f : State → Nat × Nat → DWord) (s : State) : State :=
  let act := actives k s
  if isUniform a then (wavesOf act).foldl (fun t w => wrDst64 t 2 (0, w) a (f s (leadOf act w))) (advance s)
  else act.foldl (fun t m => wrDst64 t lat m a (f s m)) (advance s)

/-- A result that raises floating-point flags in its lane (05 R79). -/
def computeF (k : Ctl) (lat : Nat) (a : Opnd) (f : State → Nat × Nat → Nat × FFlags) (s : State) : State :=
  (actives k s).foldl
    (fun t m => orFlags (wrDst t lat m a (BitVec.ofNat 32 (f s m).1)) m (f s m).2) (advance s)

def computeF64 (k : Ctl) (lat : Nat) (a : Opnd) (f : State → Nat × Nat → Nat × FFlags) (s : State) : State :=
  (actives k s).foldl
    (fun t m => orFlags (wrDst64 t lat m a (BitVec.ofNat 64 (f s m).1)) m (f s m).2) (advance s)

/-- Predicates written in every active lane: consecutive ones from the destination's index. -/
def computeP (k : Ctl) (lat : Nat) (a : Opnd) (f : State → Nat × Nat → List Bool) (s : State) : State :=
  match a with
  | .p n =>
    (actives k s).foldl
      (fun t m => ((List.range (f s m).length).zip (f s m)).foldl (fun t x => wrP t lat m (n.toNat + x.1) x.2) t) (advance s)
  | _ => advance s

/-- Consecutive vector registers written in every active lane, with flags; class 7 discards the registers. -/
def computeSpan (k : Ctl) (lat : Nat) (a : Opnd) (f : State → Nat × Nat → List Nat × FFlags) (s : State) : State :=
  match a with
  | .v n =>
    (actives k s).foldl
      (fun t m =>
        orFlags (((List.range (f s m).1.length).zip (f s m).1).foldl
          (fun t x => wrV t lat m (n.toNat + x.1) (BitVec.ofNat 32 x.2)) t) m (f s m).2) (advance s)
  | _ => (actives k s).foldl (fun t m => orFlags t m (f s m).2) (advance s)

end Sys2Proof.Machine
end

