-- ==== Sys2Proof/Machine/Translate.lean ====
section
/-! DEFINITION. The page service as an access meets it: cached translations, the checks of Table 12-2, private lines, and
the actions that resolve a recoverable fault (12 R227 to R248). -/

namespace Sys2Proof.Machine

/-! ### Cached translations (12 R236) -/

def b2n (b : Bool) : Nat := b.toNat

/-- The attributes of a translation as a cached entry holds them. -/
def packFlags (t : Trans) : BitVec 32 :=
  BitVec.ofNat 32 (b2n t.r + b2n t.w * 2 + b2n t.x * 4 + b2n t.dl * 8 + b2n t.dl2 * 16 + t.cls * 32 + t.sealed * 128 +
    t.ins * 512 + t.owner * 2048)

def toTlb (ctx va : Nat) (t : Trans) : TlbEntry :=
  { ctx := ctx, va := va - va % t.size, size := t.size, pa := t.pa - va % t.size, kind := t.kind, dev := t.dev,
    flags := packFlags t }

def ofTlb (e : TlbEntry) (va : Nat) : Trans :=
  let f := e.flags.toNat
  { pa := e.pa + (va - e.va), kind := e.kind, dev := e.dev, cls := f / 32 % 4, owner := f / 2048 % 256, r := bit f 0,
    w := bit f 1, x := bit f 2, dl := bit f 3, dl2 := bit f 4, sealed := f / 128 % 4, ins := f / 512 % 4, size := e.size,
    leaf := 0, leaf2 := 0, gpa := 0 }

def TlbEntry.hits (e : TlbEntry) (ctx va : Nat) : Bool := e.ctx == ctx && e.va ≤ va && va < e.va + e.size

/-- The second stage as a die's nested TLB caches it. -/
def ofNested (e : TlbEntry) (gpa : Nat) : Stage2 :=
  let f := e.flags.toNat
  { kind := e.kind, dev := e.dev, pa := e.pa + (gpa - e.va), r := bit f 0, w := bit f 1, x := bit f 2, dl := bit f 3, size := e.size,
    leaf := 0 }

def toNested (ctx gpa : Nat) (x : Stage2) : TlbEntry :=
  { ctx := ctx, va := gpa - gpa % x.size, size := x.size, pa := x.pa - gpa % x.size, kind := x.kind, dev := x.dev,
    flags := BitVec.ofNat 32 (b2n x.r + b2n x.w * 2 + b2n x.x * 4 + b2n x.dl * 8) }

/-- The second stage as a walk of a die meets it: a cached translation, or the table. -/
def nested (s : State) (die ctx gpa : Nat) : Except WalkErr Stage2 :=
  match (s.die die).nested.find? fun e => e.hits ctx gpa with
  | some e => .ok (ofNested e gpa)
  | none => walk2 s (s.ctx ctx) gpa

/-- The translation that an access uses: a cached one of its core or die, or the walk's (12 R237). -/
def lookup (s : State) (ctx core va : Nat) : Except WalkErr Trans :=
  match (s.core core).tlb.find? fun e => e.hits ctx va with
  | some e => .ok (ofTlb e va)
  | none =>
    match (s.die (core / 48)).tlb.find? fun e => e.hits ctx va with
    | some e => .ok (ofTlb e va)
    | none => walkBy s (s.ctx ctx) (nested s (core / 48) ctx) va

/-- Keep the second-stage translations that a walk has used in the die's nested TLB (4,096 entries). -/
def fillNested (s : State) (die ctx va : Nat) : State :=
  let c := s.ctx ctx
  if !c.nest then s
  else
    let gpas := walkGpas s (gpaPlace c (nested s die ctx)) va 4 1 c.ptroot.toNat
    gpas.foldl (fun s gpa =>
      if (s.die die).nested.any fun e => e.hits ctx gpa then s
      else
        match walk2 s c gpa with
        | .ok x => s.modDie die fun d => { d with nested := (toNested ctx gpa x :: d.nested).take 4096 }
        | .error _ => s) s

/-- Cache a translation in the core's L1 TLB (64 entries) and the die's last-level TLB (8,192). -/
def fill (s : State) (ctx core va : Nat) (t : Trans) : State :=
  let e := toTlb ctx va t
  if (s.core core).tlb.any fun x => x.hits ctx va then s
  else
    let s1 := s.modCore core fun c => { c with tlb := (e :: c.tlb).take 64 }
    if (s.die (core / 48)).tlb.any fun x => x.hits ctx va then s1
    else (fillNested s1 (core / 48) ctx va).modDie (core / 48) fun d => { d with tlb := (e :: d.tlb).take 8192 }

/-! ### The checks of Table 12-2 -/

inductive Acc where
  | r | w | rw | x
  deriving DecidableEq, Repr

/-- Why a lane parks (12 R240). -/
inductive ParkWhy where
  | notPresent | migrating | upgrade | log | ownership
  deriving DecidableEq, Repr

inductive Check where
  | ok (t : Trans)
  | fail (cause sub : Nat)
  | park (why : ParkWhy)
  | absent (pa : Nat)
  deriving DecidableEq, Repr

def Acc.reads : Acc → Bool | .r => true | .rw => true | _ => false
def Acc.writes : Acc → Bool | .w => true | .rw => true | _ => false

/-- The seal code of a 2 MiB region of local memory (12 R248). -/
def sealCode (s : State) (pa : Nat) : Nat := mgetD s.sealMap (pa / 2 ^ 21) 0

/-- The seal check: the subcode of SEALED, or none. -/
def sealFail (s : State) (c : Ctx) (t : Trans) : Option Nat :=
  if t.kind = 0 then
    (if t.sealed ≠ sealCode s t.pa then some 1 else if sealCode s t.pa = 2 ∧ !c.sandbox then some 2 else none)
  else if t.sealed ≠ 0 then some 3 else none

/-- Checks 4 to 9 on a translation. -/
def checkTrans (s : State) (ctx core : Nat) (acc : Acc) (t : Trans) : Check :=
  if (acc.reads && !t.r) || (acc.writes && !t.w) || (acc == .x && !t.x) then .fail 0x12 1
  else if acc == .rw && t.kind == 3 && t.cls == 0 then .fail 0x12 2
  else
    match sealFail s (s.ctx ctx) t with
    | some sub => .fail 0x13 sub
    | none =>
      if acc.writes && t.cls == 1 then .park .upgrade
      else if acc.writes && (t.dl || t.dl2) then .park .log
      else if t.cls == 0 && t.owner != 255 && t.owner != core then .park .ownership
      else if t.kind == 0 && t.pa ≥ hbmSize then .absent t.pa
      else .ok t

/-- Table 12-2 for one lane, `width` 1 where no alignment applies. -/
def check (s : State) (ctx core va width : Nat) (acc : Acc) : Check :=
  if va % width ≠ 0 then .fail 0x10 0
  else if !canonical va then .fail 0x11 1
  else
    match lookup s ctx core va with
    | .error (.invalid sub) => .fail 0x11 sub
    | .error (.npk false _) => .park .notPresent
    | .error (.npk true _) => .park .migrating
    | .ok t => checkTrans s ctx core acc t

/-! ### Data: private lines and plain memory (12 R229) -/

/-- A byte as a core reads it through a page: its own dirty private line, or the home. -/
def loadByte (s : State) (core : Nat) (t : Trans) (i : Nat) : Byte :=
  if t.cls = 0 then
    match mget (s.core core).dirty (placeKey t.space (t.pa + i)) with
    | some x => x.2
    | none => memRead (s.mem t.space) (t.pa + i)
  else memRead (s.mem t.space) (t.pa + i)

def loadBytes (s : State) (core : Nat) (t : Trans) (n : Nat) : List Byte := (List.range n).map (loadByte s core t)

/-- Write bytes through a page: into the core's private lines, or to the home. -/
def storeBytes (s : State) (ctx core : Nat) (t : Trans) (bs : List Byte) : State :=
  if t.cls = 0 then
    s.modCore core fun c =>
      { c with dirty := ((List.range bs.length).zip bs).foldl (fun m x => mput m (placeKey t.space (t.pa + x.1)) (ctx, x.2)) c.dirty }
  else s.write t.space t.pa bs

/-- Write back the dirty bytes of a core that a test selects. -/
def writeBack (s : State) (core : Nat) (sel : Nat → Bool) : State :=
  let d := (s.core core).dirty
  let out := d.filter fun x => sel x.1
  let s1 := out.foldl (fun s x => s.write (keySpace x.1) (x.1 % 2 ^ 60) [x.2.2]) s
  if out.isEmpty then s else s1.modCore core fun c => { c with dirty := c.dirty.filter fun x => !sel x.1 }

/-- Poison of a 128-byte line by its place: the subcode of DATA_POISON, 1 for a line error and 3 for a link's (12 R233,
15 R345). -/
def poisoned (s : State) (sp : Space) (pa n : Nat) : Option Nat :=
  (s.poison.find? fun l => l.1 ≤ placeKey sp (pa + n - 1) / 128 && placeKey sp pa / 128 ≤ l.1).map (·.2)

/-- Lines that a run of bytes overwrites whole lose their poison. -/
def unpoison (s : State) (sp : Space) (pa n : Nat) : State :=
  { s with poison := s.poison.filter fun l => !(placeKey sp pa ≤ 128 * l.1 && 128 * l.1 + 128 ≤ placeKey sp pa + n) }

/-! ### Ownership and upgrade (12 R226, R228) -/

/-- CLASS of the page becomes coherent (Table 12-3). -/
def upgradePage (s : State) (ctx va : Nat) : State := editLeaf s ctx va fun e => setBits e 4 2 2

/-- The dirty lines of a context on a core go home. -/
def writeBackCtx (s : State) (core ctx : Nat) : State :=
  writeBack s core fun k => match mget (s.core core).dirty k with | some x => x.1 == ctx | none => false

/-- OWNER becomes a core, after the old owner's lines of the page are written back; under a second stage, where the leaf's bytes may
lie on several pages, with every line of the context (an eviction, which may happen at any time). -/
def movePage (s : State) (ctx va core : Nat) : State :=
  match walk s (s.ctx ctx) va with
  | .ok t =>
    let base := placeKey t.space (t.pa - t.pa % t.size)
    let s1 := if t.owner < 192 then
        (if (s.ctx ctx).nest then writeBackCtx s t.owner ctx else writeBack s t.owner (fun k => base ≤ k && k < base + t.size))
      else s
    editLeaf s1 ctx va fun e => setBits e 16 8 core
  | .error _ => s

/-- A private page without an owner takes the accessing core. -/
def takeOwner (s : State) (ctx va core : Nat) (t : Trans) : State :=
  if t.cls = 0 ∧ t.owner = 255 then movePage s ctx va core else s

/-- What the page service does for a lane that parked: upgrade, log, ownership in this order (Table 12-3). A page that is
not present or migrating is resolved by a move. -/
def resolve (s : State) (ctx core va : Nat) (acc : Acc) : State :=
  match check s ctx core va 1 acc with
  | .park .upgrade => upgradePage s ctx va
  | .park .log => logPage s ctx va
  | .park .ownership => movePage s ctx va core
  | _ => s

end Sys2Proof.Machine
end

