-- ==== Sys2Proof/Machine/Life.lean ====
section
/-! DEFINITION. The life of threads, waves, groups and levels: counters, the name table, completion counters, exit, death,
cancel, barriers, reconvergence and the end of a clock (08, 09, 11). -/

namespace Sys2Proof.Machine

/-! ### Outstanding-operation counters (03 R47) -/

/-- Counter i of a wave: 0 ld, 1 st, 2 cp, 3 mx, 4 rm, 5 nm. -/
def Counters.get (c : Counters) : Nat → Nat
  | 0 => c.ld | 1 => c.st | 2 => c.cp | 3 => c.mx | 4 => c.rm | _ => c.nm

def Counters.set (c : Counters) (i v : Nat) : Counters :=
  match i with
  | 0 => { c with ld := v } | 1 => { c with st := v } | 2 => { c with cp := v } | 3 => { c with mx := v }
  | 4 => { c with rm := v } | _ => { c with nm := v }

def ctrInc (s : State) (g w i : Nat) : State :=
  s.modWave g w fun v => { v with ctrs := v.ctrs.set i (v.ctrs.get i + 1) }
def ctrDec (s : State) (g w i : Nat) : State :=
  s.modWave g w fun v => { v with ctrs := v.ctrs.set i (v.ctrs.get i - 1) }

def Counters.idle (c : Counters) : Bool := c.ld + c.st + c.cp + c.mx + c.rm + c.nm == 0

/-- One instruction of several operations: its counter rises now and falls when `left` of them have ended. -/
def opStart (s : State) (g w ctr left : Nat) : Nat × State :=
  let s1 := ctrInc s g w ctr
  (s1.nextId, { s1 with nextId := s1.nextId + 1, counts := s1.counts ++ [⟨s1.nextId, g, w, ctr, left⟩] })

def opEnd (s : State) (id : Nat) : State :=
  match s.counts.find? fun o => o.id == id with
  | none => s
  | some o =>
    if o.left ≤ 1 then
      ctrDec { s with counts := s.counts.filter fun x => x.id != id } o.g o.w o.ctr
    else { s with counts := s.counts.map fun x => if x.id = id then { x with left := x.left - 1 } else x }

/-! ### The name table (08 R144, R145) -/

/-- The physical address of the entry that a group number has in a table; none where the walk ends in status 3. -/
def ntWalk (s : State) (root num : Nat) : Option Nat :=
  let ptr (page idx : Nat) (leaf : Bool) : Option Nat :=
    let pe := ofBytes (readN s.hbm (page + 8 * idx) 8)
    if bit pe 0 && bit pe 1 == leaf && pe / 4 % 1024 == 0 && pe / 2 ^ 52 == 0 then some (pe / 4096 % 2 ^ 40 * 4096) else none
  (ptr root (num / 2 ^ 27 % 512) false).bind fun p1 =>
    (ptr p1 (num / 2 ^ 18 % 512) false).bind fun p2 =>
      (ptr p2 (num / 2 ^ 9 % 512) true).map fun leaf => leaf + 32 * (num % 512)

def nteOf (s : State) (ctx num : Nat) : Option Nat := ntWalk s (s.ctx ctx).ntroot.toNat num
def nteRead (s : State) (at_ : Nat) : Nat := ofBytes (readN s.hbm at_ 32)
def nteState (e : Nat) : Nat := let x := e % 16; if x < 8 then x else 0
def nteGen (e : Nat) : Nat := e / 2 ^ 16 % 65536
def nteRights (e : Nat) : BitVec 6 := BitVec.ofNat 6 (e / 16)

/-- The key of a group's entry in the name TLBs. -/
def nteKey (ctx num : Nat) : Nat := ctx * 2 ^ 36 + num

/-- The name controller changes an entry of a group, where it is mapped, and the name TLBs' copies of it (R144, R145). -/
def nteEdit (s : State) (ctx num : Nat) (f : Nat → Nat) : State :=
  match nteOf s ctx num with
  | some a =>
    { s with
      hbm := writeL s.hbm a (toBytes 32 (f (nteRead s a)))
      dies := s.dies.map fun (x : Nat × Die) => (x.1, { x.2 with names := mmod x.2.names (nteKey ctx num) f }) }
  | none => s

def nteSetState (st : Nat) (e : Nat) : Nat := setBits e 0 4 st

/-- Table 8-4's code of a place. -/
def placeCode : Place → Nat
  | .active => 1 | .shadow => 2 | .spilling => 2 | .loading => 4 | .swapped => 4 | .migrating => 3 | .dead => 5
  | .waiting => 0 | .queued => 0

/-- A group moves, and its entry with it (08 R135). -/
def setPlace (s : State) (g : Nat) (p : Place) : State :=
  let x := s.group g
  let s1 := s.modGroup g fun x => { x with place := p }
  match p with
  | .waiting => s1
  | .queued => s1
  | p => nteEdit s1 x.ctx x.num (nteSetState (placeCode p))

/-! ### Completion counters (11 R214 to R217) -/

def ctrVa (s : State) (ctx slot : Nat) : Nat := (s.ctx ctx).ctrtab.toNat + 32 * slot
def ctrRead (s : State) (ctx slot : Nat) : Nat := ofBytes ((s.sysRead ctx (ctrVa s ctx slot) 32).getD [])
def ctrEdit (s : State) (ctx slot : Nat) (f : Nat → Nat) : State :=
  s.sysWrite ctx (ctrVa s ctx slot) (toBytes 32 (f (ctrRead s ctx slot)))
def cState (e : Nat) : Nat := e % 8
def cLvl (e : Nat) : Nat := e / 32 % 8
def cGen (e : Nat) : Nat := e / 2 ^ 16 % 65536
def cOut (e : Nat) : Nat := e / 2 ^ 32 % 2 ^ 32
def cVal (e : Nat) : Nat := e / 2 ^ 64 % 2 ^ 64
def cFin (e : Nat) : Nat := e / 2 ^ 128 % 2 ^ 64
def cPar (e : Nat) : Nat := e / 2 ^ 192 % 2 ^ 64

def hSlot (h : Nat) : Nat := h % 65536
def hLvl (h : Nat) : Nat := h / 2 ^ 45 % 8
def hGen (h : Nat) : Nat := h / 2 ^ 48 % 65536

/-- A handle that names a counter in use (R214). -/
def handleOk (s : State) (ctx h : Nat) : Bool :=
  let e := ctrRead s ctx (hSlot h)
  1 ≤ hLvl h && hLvl h ≤ 4 && h / 2 ^ 16 % 2 ^ 29 == 0 && cState e != 0 && cGen e == hGen h && cLvl e == hLvl h

/-- The launch of a counter that completes is complete (R213). -/
def closeLaunch (s : State) (ctx h : Nat) : State :=
  { s with launches := s.launches.map fun (l : Nat × Launch) =>
      if l.2.ctx = ctx ∧ l.2.handle.toNat = h ∧ l.2.state < 2 then (l.1, { l.2 with state := 2 }) else l }

/-- An open level whose VALUE is FINAL and OUT is 0 completes; its parent is credited (R217). -/
def levelCheck : Nat → State → Nat → Nat → State
  | 0, s, _, _ => s
  | n + 1, s, ctx, h =>
    let e := ctrRead s ctx (hSlot h)
    if h ≠ 0 ∧ cState e = 1 ∧ cVal e = cFin e ∧ cOut e = 0 then
      let s1 := closeLaunch (ctrEdit s ctx (hSlot h) fun e => setBits e 0 3 2) ctx h
      let p := cPar e
      if handleOk s1 ctx p then
        let pe := ctrRead s1 ctx (hSlot p)
        let s2 := if cState pe = 1 ∨ cState pe = 2 then ctrEdit s1 ctx (hSlot p) fun e => setBits e 64 64 (cVal e + 1) else s1
        levelCheck n s2 ctx p
      else s1
    else s

/-- Change a counter and see whether its level completes. -/
def levelEdit (s : State) (ctx h : Nat) (f : Nat → Nat) : State :=
  if handleOk s ctx h then levelCheck 5 (ctrEdit s ctx (hSlot h) f) ctx h else s

def outAdd (s : State) (ctx h : Nat) (d : Int) : State :=
  levelEdit s ctx h fun e => setBits e 32 32 ((cOut e : Int) + d).toNat
def valAdd (s : State) (ctx h : Nat) : State := levelEdit s ctx h fun e => setBits e 64 64 (cVal e + 1)

/-! ### Joins and the save area's thread records (08 R146, R164, R172) -/

/-- Keep a thread's join value and exit in its save area. -/
def keepJoin (s : State) (g t : Nat) (v : Word) : State :=
  let x := s.group g
  s.sysWrite x.ctx (saveVa s g + 0x400 + 8 * t) (toBytes 4 v.toNat ++ toBytes 4 1)

def groupThreads (x : Group) : List Thread := x.waves.flatMap (·.threads)
def allExited (x : Group) : Bool := (groupThreads x).all fun t => t.st == .exited
def liveCount (x : Group) : Nat := ((groupThreads x).filter fun t => t.st != .exited).length

/-! ### Levels that are cancelled (11 R213, R219) -/

/-- The level a handle names and every open level beneath it (R219): slots whose chain of parents reaches the handle. -/
def under (s : State) (ctx : Nat) : Nat → Nat → Nat → Bool
  | 0, _, _ => false
  | n + 1, top, h => h == top || (h != 0 && under s ctx n top (cPar (ctrRead s ctx (hSlot h))))

/-- A cancelling level whose groups are all dead becomes cancelled, and its parent is credited (R213, R217). -/
def cancelDone (s : State) (ctx h : Nat) : State :=
  let e := ctrRead s ctx (hSlot h)
  if cState e = 3 ∧ (s.groups.all fun x => x.2.ctx != ctx || x.2.place == .dead || !under s ctx 5 h x.2.counter.toNat) then
    let s1 := ctrEdit s ctx (hSlot h) fun e => setBits (setBits (setBits e 0 3 4) 64 64 (cFin e)) 32 32 0
    let s2 := { s1 with launches := s1.launches.map fun (l : Nat × Launch) =>
      if l.2.ctx = ctx ∧ l.2.handle.toNat = h then (l.1, { l.2 with state := 4 }) else l }
    let p := cPar e
    let st := cState (ctrRead s2 ctx (hSlot p))
    if handleOk s2 ctx p ∧ (st = 1 ∨ st = 2) then valAdd s2 ctx p else s2
  else s

/-- The levels above a counter, itself first. -/
def chainOf (s : State) (ctx : Nat) : Nat → Nat → List Nat
  | 0, _ => []
  | n + 1, h => if handleOk s ctx h then h :: chainOf s ctx n (cPar (ctrRead s ctx (hSlot h))) else []

/-- Joins on a thread that has exited, or with `grp` on a group that is dead, have their value (08 R172). -/
def resolveJoins (s : State) (ctx num : Nat) (grp : Bool) (t : Nat) (v : Word) : State :=
  let hit (j : JoinOp) : Bool := j.result.isNone && j.notify.isNone &&
    (match j.target with
     | .group c n th gr => c == ctx && n == num && gr == grp && (grp || th == t)
     | .notify _ => false)
  { s with joins := s.joins.map fun j => if hit j then { j with result := some (some v, 0) } else j }

/-! ### Death (08 R135, 11 R217, R220) -/

/-- Whether an access writes memory. -/
def isWrite (k : AccKind) : Bool :=
  match k with
  | .store => true
  | .atom _ _ => true
  | .cas => true
  | _ => false

/-- Accesses of a thread that write and have not performed. -/
def pendingWrites (s : State) (g : Nat) (m : Nat × Nat) : List Nat :=
  (s.accesses.filter fun a => a.g == g && a.w == m.2 && isWrite a.kind && a.lanes.any fun o => o.lane == m.1 && o.got.isNone).map (·.id)

/-- Accesses of a thread to memory that have not performed. -/
def pendingMem (s : State) (g : Nat) (m : Nat × Nat) : List Nat :=
  let reads (a : Access) : Bool := match a.kind with | .flush _ => false | _ => true
  let mine (a : Access) (o : LaneOp) : Bool := (o.lane == m.1 || a.uni) && o.kind != 4 && o.got.isNone
  (s.accesses.filter fun a => a.g == g && a.w == m.2 && reads a && a.lanes.any (mine a)).map (·.id)

/-- The accesses of a thread that its group's completion event covers: those before its GDONE or exit (R220, 13 R273). -/
def coverThread (s : State) (g : Nat) (m : Nat × Nat) : State :=
  let ids := pendingMem s g m
  if ids.isEmpty then s else s.modGroup g fun x => { x with covers := x.covers ++ ids.filter fun i => !x.covers.contains i }

/-- The completion event falls due when every live thread has executed GDONE or exited. -/
def eventDue (s : State) (g : Nat) : State :=
  let x := s.group g
  if !x.published && (groupThreads x).all (fun t => t.st == .exited || t.gdone) then
    s.modGroup g fun x => { x with due := true }
  else s

/-- Whether accesses that a group's completion event covers are still to perform. -/
def coversOpen (s : State) (x : Group) : Bool := s.accesses.any fun a => x.covers.contains a.id && a.lanes.any fun o => o.got.isNone

/-- A group's completion event is published once, when it is due and what it covers has performed and is acknowledged (R217, R220). -/
def publish (s : State) (g : Nat) : State :=
  let x := s.group g
  if !x.due ∨ x.published ∨ coversOpen s x then s
  else
    let s1 := s.modGroup g fun x => { x with published := true }
    let h := x.counter.toNat
    let st := cState (ctrRead s1 x.ctx (hSlot h))
    if handleOk s1 x.ctx h ∧ (st = 1 ∨ st = 3) then valAdd s1 x.ctx h else s1

/-- The completion events of a context that can be published. -/
def publishDue (s : State) (ctx : Nat) : State :=
  ((s.groups.filter fun x => x.2.ctx == ctx).map (·.1)).foldl publish s

/-- A group becomes dead: its entry and join value, the records it took, the arrivals it owed. -/
def die (s : State) (g : Nat) : State :=
  let x := s.group g
  let j := ((groupThreads x).headD {}).join
  let s1 := setPlace s g .dead
  let s2 := nteEdit s1 x.ctx x.num fun e => setBits e 96 32 j.toNat
  let s3 := x.records.foldl (fun s r => outAdd s x.ctx r.2.toNat (-1)) s2
  let s4 := (resolveJoins s3 x.ctx x.num true 0 j).modGroup g fun x => { x with due := true, wantSwapIn := false }
  (chainOf s4 x.ctx 5 x.counter.toNat).foldl (fun s h => cancelDone s x.ctx h) s4

/-- Dead once the last thread has exited and every counter of every wave is 0. -/
def checkDead (s : State) (g : Nat) : State :=
  let x := s.group g
  if x.place ≠ .dead ∧ x.place ≠ .waiting ∧ x.place ≠ .queued ∧ allExited x ∧ x.waves.all (fun v => v.ctrs.idle) then die s g else s

/-- A counter falls, and the group may be dead by it. -/
def counterFalls (s : State) (g w i : Nat) : State := checkDead (ctrDec s g w i) g

def opEnds (s : State) (id : Nat) : State :=
  match s.counts.find? fun o => o.id == id with
  | none => s
  | some o => checkDead (opEnd s id) o.g

/-! ### Named barriers (09 R181 to R186) -/

def State.bar (s : State) (g b : Nat) : Bar := mgetD (s.group g).bars b {}
def modBar (s : State) (g b : Nat) (f : Bar → Bar) : State :=
  s.modGroup g fun x => { x with bars := msetD x.bars b (f (mgetD x.bars b {})) {} }

/-- Threads held on barrier b, as (lane, home wave). -/
def heldOn (x : Group) (p : Hold → Bool) : List (Nat × Nat) :=
  ((List.range x.waves.length).zip x.waves).flatMap fun (w, v) =>
    (((List.range v.threads.length).zip v.threads).filter fun (_, t) => t.st == .held && p t.hold).map fun (l, _) => (l, w)

def holdsBar (b : Nat) : Hold → Bool
  | .bar x _ => x == b
  | _ => false

/-- The instruction word at a thread's PC. -/
def wordAt (s : State) (g w pc : Nat) : IWord :=
  BitVec.ofNat 96 (ofBytes ((s.sysRead (s.group g).ctx (codeBase s g w + pc) 12).getD []))

/-- Held threads that an event sends back to their instruction. -/
def unhold (s : State) (g : Nat) (ls : List (Nat × Nat)) : State :=
  ls.foldl (fun s m => s.modThread g m.2 m.1 fun t => if t.st = .held then { t with st := .ready, hold := .none } else t) s

/-- A thread that a test selects by what holds it is to trap, also where a handler has entered it. -/
def markTrap (cause sub : Nat) (p : Hold → Bool) (t : Thread) : Thread :=
  { t with hold := if t.st = .held ∧ p t.hold then .trapped cause sub else t.hold
           savedHold := if t.hf ∧ t.savedSt = .held ∧ p t.savedHold then .trapped cause sub else t.savedHold }

/-- The threads of the selected home waves of a group that are to trap. -/
def markHeld (s : State) (g cause sub : Nat) (inWave : Nat → Bool) (p : Hold → Bool) : State :=
  let one (v : Wave × Nat) : Wave := if inWave v.2 then { v.1 with threads := v.1.threads.map (markTrap cause sub p) } else v.1
  s.modGroup g fun x => { x with waves := x.waves.zipIdx.map one }

def isTrapped (h : Hold) : Option (Nat × Nat) :=
  match h with
  | .trapped c sub => some (c, sub)
  | _ => none

/-- The trap that the held threads of a home wave are to take: that of the lowest PC; the others take theirs after RTE. -/
def heldTrap (s : State) (g w : Nat) : Option Trp :=
  let ls := heldOn (s.group g) (fun h => (isTrapped h).isSome) |>.filter fun m => m.2 == w
  let at_ (m : Nat × Nat) : Nat := (s.thread g m.2 m.1).pc
  match ls with
  | [] => none
  | m0 :: _ =>
    let pc := (ls.map at_).foldl min (at_ m0)
    let fs := (ls.filter fun m => at_ m == pc).map fun m =>
      let c := (isTrapped (s.thread g m.2 m.1).hold).getD (0, 0)
      (⟨m, c.1, c.2, 0⟩ : LaneFail)
    some { failTrap s fs [] with pc := pc, word := wordAt s g w pc, frm := false }

/-- Held threads take the traps that they are to take (14 R313); a step trap of the same instruction gives way (R325). -/
def takeHeldTraps (s : State) (g : Nat) : State :=
  (List.range (s.group g).waves.length).foldl (fun s w =>
    match heldTrap s g w with
    | some t =>
      let s1 := unhold s g (t.lanes ++ t.others)
      takeTrap { s1 with stepping := s1.stepping.filter fun x => !(x.1 == g && (t.lanes ++ t.others).contains (x.2.2, x.2.1)) } g t
    | none => s) s

/-- Threads that a later event traps at the instruction that holds them (14 R313). -/
def trapHeld (s : State) (g cause sub : Nat) (inWave : Nat → Bool) (p : Hold → Bool) : State :=
  takeHeldTraps (markHeld s g cause sub inWave p) g

/-- The end of a clock: held threads whose wave has returned from its handler take the traps that waited for it. -/
def settleTraps (s : State) : State := (s.groups.map (·.1)).foldl takeHeldTraps s

/-- A barrier becomes faulted (R186, Table 9-2). -/
def setFault (s : State) (g b sub : Nat) : State := modBar s g b fun x => { x with state := 4, fsub := sub % 16 }

/-- A barrier faults: every thread held on it traps. -/
def faultBar (s : State) (g b sub : Nat) : State := trapHeld (setFault s g b sub) g 0x0C sub (fun _ => true) (holdsBar b)

/-! The order of one clock (R183): BARINIT, BARBYTE, credits, arrivals; within one, ascending home wave or channel. -/

def placeOf (rank w : Nat) : Nat := rank * 64 + w

/-- Whether an event may still apply to a barrier in this clock: nothing that comes after it has applied. -/
def inOrder (s : State) (g b key : Nat) : Bool :=
  let o := (s.bar g b).order
  o.1 != s.clock + 1 || o.2 ≤ key

def stamp (s : State) (g b key : Nat) : State := modBar s g b fun x => { x with order := (s.clock + 1, key) }

/-- Credit bytes to a barrier: discarded when it is free or faulted, excess faults it (R183, R186). -/
def creditBar (s : State) (g b n : Nat) : State :=
  let x := s.bar g b
  if x.state = 0 ∨ x.state = 4 then s
  else if x.bcred + n > x.bexp then faultBar (modBar s g b fun x => { x with bcred := x.bexp }) g b 7
  else modBar s g b fun x => { x with bcred := x.bcred + n, state := 2 }

/-- The channels bound to barriers: the barrier of channel k, if one is. -/
def chanBar (x : Group) (k : Nat) : Option Nat := (x.bars.find? fun b => b.2.chan.getLsbD k).map (·.1)

def barReady (b : Bar) : Bool := (b.state == 1 || b.state == 2) && b.exp != 0 && b.arr == b.exp && b.bcred == b.bexp

/-- PH turns and the counts of the phase clear. -/
def flipBar (b : Bar) : Bar := { b with state := 1, ph := !b.ph, arr := 0, bcred := 0, bexp := 0, chan := 0, epoch := b.epoch + 1 }

/-- A thread that has exited leaves a barrier that counts live threads, unless its arrival stands (Table 9-2). -/
def leaveBar (b : Bar) (slot : Option Bool) : Bar :=
  if b.gt && (b.state == 1 || b.state == 2) && slot != some b.ph then
    (if b.exp ≤ 1 then { b with exp := 0, state := 0 } else { b with exp := b.exp - 1 })
  else b

/-- The end of a clock: the release condition is evaluated once; exits of the clock count in the phase that follows. -/
def turnBar (b : Bar) : Bar :=
  let b1 := if barReady b then flipBar b else b
  if b1.exits.isEmpty then b1
  else
    let b2 := { b1.exits.foldl leaveBar b1 with exits := [] }
    if barReady b2 then flipBar b2 else b2

/-- An exit is noted at every barrier of the group, with the thread's slot there. -/
def exitBar (t : Thread) (i : Nat) (b : Bar) : Bar :=
  if b.state = 0 then b
  else { b with exits := b.exits ++ [(t.slots.find? fun x => x.bar == i).map (·.par)] }

/-! ### Convergence registers (09 R187) -/

def State.conv (s : State) (g w c : Nat) : Conv := mgetD (s.wave g w).conv c {}
def modConv (s : State) (g w c : Nat) (f : Conv → Conv) : State :=
  s.modWave g w fun v => { v with conv := msetD v.conv c (f (mgetD v.conv c {})) {} }

def holdsCwait (c : Nat) : Hold → Bool
  | .cwait x => x == c
  | _ => false
def holdsSign (c : Nat) : Hold → Bool
  | .sign x => x == c
  | _ => false

/-- A thread that an event releases at the next instruction, also where a handler has entered it. -/
def freeWaiter (p : Hold → Bool) (t : Thread) : Thread :=
  let t1 := if t.st = .held ∧ p t.hold then { t with st := .ready, hold := .none, pc := t.pc + 12 } else t
  if t1.hf ∧ t1.savedSt = .held ∧ p t1.savedHold then
    { t1 with savedSt := .ready, savedHold := .none, savedPc := t1.savedPc + 12 }
  else t1

/-- The waiting threads of a home wave go on. -/
def freeWaiters (s : State) (g w : Nat) (p : Hold → Bool) : State :=
  s.modWave g w fun v => { v with threads := v.threads.map (freeWaiter p) }

/-- Release threads at the next instruction. -/
def freeThreads (s : State) (g : Nat) (ls : List (Nat × Nat)) : State :=
  ls.foldl (fun s m => s.modThread g m.2 m.1 fun t => { t with st := .ready, hold := .none, pc := t.pc + 12 }) s

/-- A member leaves a set unsigned: the set of a signing point traps its held signers, another is re-evaluated
(02 R22, Table 9-3). -/
def leaveConv (s : State) (g : Nat) (m : Nat × Nat) (c : Nat) : State :=
  let x := s.conv g m.2 c
  if !x.set.getLsbD m.1 || x.sgn.getLsbD m.1 then s
  else
    let set' := x.set &&& ~~~(1#32 <<< m.1)
    if x.kind = 2 then trapHeld (modConv s g m.2 c fun _ => { set := set' }) g 0x06 0 (· == m.2) (holdsSign c)
    else if set' ≠ 0 ∧ x.sgn = set' then freeWaiters (modConv s g m.2 c fun _ => { set := set' }) g m.2 (holdsCwait c)
    else modConv s g m.2 c fun x => if set' = 0 then {} else { x with set := set' }

def leaveAllConv (s : State) (g : Nat) (m : Nat × Nat) : State :=
  ((s.wave g m.2).conv.map (·.1)).foldl (fun s c => leaveConv s g m c) s

/-! ### Reconvergence (08 R140, R141) -/

def leaveRcv (s : State) (g : Nat) (m : Nat × Nat) (k : Nat) : State :=
  s.modWave g m.2 fun v => { v with rcv := msetD v.rcv k (mgetD v.rcv k 0 &&& ~~~(1#32 <<< m.1)) 0 }

def leaveAllRcv (s : State) (g : Nat) (m : Nat × Nat) : State :=
  ((s.wave g m.2).rcv.map (·.1)).foldl (fun s k => leaveRcv s g m k) s

/-! ### Exit (08 R162 to R164) -/

/-- End one thread with a join value: it leaves every mask, set and barrier, and its group may be dead. -/
def exitThread (s : State) (g : Nat) (m : Nat × Nat) (join : Word) : State :=
  let t := s.thread g m.2 m.1
  if t.st = .exited then s
  else
    let s1 := s.modThread g m.2 m.1 fun t => { t with st := .exited, hold := .none, join := join, joinOp := none, hf := false }
    let s2 := s1.modGroup g fun x => { x with bars := x.bars.map fun b => (b.1, exitBar t b.1 b.2) }
    let s3 := leaveAllConv (leaveAllRcv (if t.gdone then s2 else coverThread s2 g m) g m) g m
    let x := s3.group g
    let t := m.2 * 32 + m.1
    eventDue (resolveJoins (keepJoin s3 g t join) x.ctx x.num false t join) g

/-- Exit at EXIT: the join value is what EXIT reads in v0. -/
def exitNow (s : State) (g : Nat) (m : Nat × Nat) (v0 : Word) : State := checkDead (exitThread s g m v0) g

/-! ### Cancel (11 R219) -/

def allMembers (x : Group) : List (Nat × Nat) :=
  ((List.range x.waves.length).zip x.waves).flatMap fun (w, v) => (List.range v.threads.length).map fun l => (l, w)

/-- Remove a group from every queue of the scheduler. -/
def unqueue (s : State) (g : Nat) : State :=
  { s with
    cores := s.cores.map fun (x : Nat × Core) => (x.1, { x.2 with localq := x.2.localq.filter (· != g) })
    dies := s.dies.map fun (x : Nat × Die) => (x.1, { x.2 with ready := x.2.ready.filter (· != g) }) }

/-- End a group: threads exit with join value 0, parked lanes' entries are discarded, a restore is abandoned (08 R135), a group not
yet placed is dead at once (Table 11-5). -/
def cancelGroup (s : State) (g : Nat) : State :=
  let x := s.group g
  let gone (_ : Unit) : State :=
    x.records.foldl (fun s r => outAdd s x.ctx r.2.toNat (-1))
      ((unqueue s g).modGroup g fun x => { x with place := .dead, cancelled := true, due := true })
  match x.place with
  | .dead => s
  | .waiting => gone ()
  | .queued => gone ()
  | _ =>
    let s0 := if x.place = .loading then setPlace s g .swapped else s
    let s1 := (allMembers x).foldl (fun s m => exitThread s g m 0) s0
    let s2 := s1.modGroup g fun x =>
      { x with cancelled := true, wantSwapIn := false, invs := [], formed := [], waves := x.waves.map fun v => { v with log := [] } }
    let parked (o : LaneOp) : Bool := match o.stage with | .parked _ => true | _ => false
    let gone := s2.accesses.filter fun a => a.g == g && a.lanes.all parked
    let s3 := { s2 with
      accesses := (s2.accesses.filter fun a => !(a.g == g && a.lanes.all parked)).map fun a =>
        if a.g = g then { a with lanes := a.lanes.filter fun o => !parked o } else a
      joins := s2.joins.filter fun j => match j.sender with | .thread g' _ _ => g' != g | _ => true }
    let s4 := gone.foldl (fun s a => ctrDec s g a.w a.ctr) s3
    let s5 := (s2.joins.filter fun j => match j.sender with | .thread g' _ _ => g' == g | _ => false).foldl
      (fun s j => opEnd s j.op) s4
    checkDead s5 g

/-- Handles with the innermost levels first. -/
def sortLvl (hs : List Nat) : List Nat := (List.range 5).flatMap fun l => hs.filter fun h => hLvl h == l

/-- The context of a bin's key: its own, or that of its graph instance (10 R200). -/
def keyOwner (s : State) (k : BinKey) : Nat := if k.node then ((mget s.graphs k.owner).map (·.ctx)).getD 0 else k.owner

/-- Cancel a level: mark it and what lies beneath, end the groups and discard the records, also those that wait for room. Levels become cancelled when
their last group is dead. -/
def cancelLevel (s : State) (ctx top : Nat) : State :=
  let handle (slot : Nat) : Nat := let e := ctrRead s ctx slot; cGen e * 2 ^ 48 + cLvl e * 2 ^ 45 + slot
  let all := ((List.range 65536).filter fun slot => cState (ctrRead s ctx slot) == 1 && under s ctx 5 top (handle slot)).map handle
  let s1 := all.foldl (fun s h => ctrEdit s ctx (hSlot h) fun e => setBits e 0 3 3) s
  let gone (p : Push) : Bool := (s1.group p.g).ctx == ctx && all.contains p.item.counter.toNat
  let s2 := { s1 with
    pushes := s1.pushes.filter fun p => !gone p
    launches := s1.launches.map fun (l : Nat × Launch) =>
      if l.2.ctx = ctx ∧ all.contains l.2.handle.toNat ∧ l.2.state < 2 then (l.1, { l.2 with state := 3, next := l.2.ngrp }) else l
    dies := s1.dies.map fun (d : Nat × Die) => (d.1, { d.2 with bins := d.2.bins.map fun (b : Nat × BinSlot) =>
      (b.1, if keyOwner s1 b.2.key = ctx then { b.2 with recs := b.2.recs.filter fun r => !all.contains r.counter.toNat } else b.2) }) }
  let mine := s2.groups.filter fun (x : Nat × Group) => x.2.ctx == ctx && all.contains x.2.counter.toNat
  let s3 := (s1.pushes.filter gone).foldl (fun s p => opEnds s p.op) (mine.foldl (fun s x => cancelGroup s x.1) s2)
  (sortLvl all).foldl (fun s h => cancelDone s ctx h) s3

/-! ### Software's writes to the counter table (R215, R216) -/

def handleOf (slot e : Nat) : Nat := cGen e * 2 ^ 48 + cLvl e * 2 ^ 45 + slot

/-- Software frees a launch's counter: entries of its dead groups become unbound and their save areas are free. -/
def retire (s : State) (ctx h : Nat) : State :=
  let mine := (s.groups.filter fun (x : Nat × Group) => x.2.ctx == ctx && x.2.counter.toNat == h && x.2.place == .dead).map (·.1)
  mine.foldl (fun s g =>
    let x := s.group g
    let s1 := if x.waves.isEmpty ∨ 2 ^ 36 ≤ x.num then s else nteEdit s ctx x.num fun e => if nteState e = 5 then nteSetState 0 e else e
    { s1.modCtx ctx fun c => { c with saveUsed := c.saveUsed.filter fun u => u.2 != g } with groups := mdel s1.groups g }) s

/-- What software's bytes at an offset of an entry make of it: VALUE and OUT are read only, reserved bits read 0; an entry
in use ignores the write, one that has ended takes no STATE but 0, and a free one none but 1 (log 132). -/
def ctrWritten (e off : Nat) (bs : List Byte) : Nat :=
  let old := toBytes 32 e
  let new := ofBytes (old.take off ++ bs ++ old.drop (off + bs.length))
  let keep := setBits (setBits (setBits (setBits new 32 96 (e / 2 ^ 32)) 8 8 0) 3 2 0) 0 3 (cState e)
  match cState e with
  | 0 => if cState new = 1 then setBits (setBits keep 32 96 0) 0 3 1 else keep
  | 1 => e
  | 3 => e
  | _ => if cState new = 0 then setBits keep 0 3 0 else keep

/-- A write to one counter entry: it opens a phase or job, or frees a level. -/
def ctrStore (s : State) (ctx slot off : Nat) (bs : List Byte) : State :=
  let e := ctrRead s ctx slot
  let n := ctrWritten e off bs
  let s1 := ctrEdit s ctx slot fun _ => n
  if cState e = 0 ∧ cState n = 1 then levelCheck 5 s1 ctx (handleOf slot n)
  else if cState e ≠ 0 ∧ cState n = 0 then retire s1 ctx (handleOf slot e)
  else s1

/-- The counter entry that a virtual address lies in, as (slot, offset). -/
def ctrSlot (s : State) (ctx va : Nat) : Option (Nat × Nat) :=
  let base := (s.ctx ctx).ctrtab.toNat
  if base ≤ va ∧ va < base + 2 ^ 21 then some ((va - base) / 32, (va - base) % 32) else none

/-- The bytes around a virtual address that one entry of the tables decides. -/
def spanGo (s : State) (va : Nat) : Nat → Nat → Nat → Nat
  | 0, _, _ => 4096
  | n + 1, level, page =>
    let size := 2 ^ (12 + 9 * (4 - level))
    let e := pteAt s ((page + 16 * (va / size % 512)) % 2 ^ 60)
    if e.v && e.leaf then pageBytes e.size else if e.v && level < 4 then spanGo s va n (level + 1) e.page else size

/-- The pieces of a counter table that are each mapped as one, as (address, bytes). -/
def ctrPieces (s : State) (c : Ctx) : Nat → Nat → Nat → List (Nat × Nat)
  | 0, _, _ => []
  | f + 1, va, top =>
    if top ≤ va then []
    else
      let size := if c.nest then 4096 else spanGo s va 4 1 c.ptroot.toNat
      let n := min (size - va % size) (top - va)
      (va, n) :: ctrPieces s c f (va + n) top

/-- The counter entry that holds a physical byte, in whatever mapping software or an engine writes it: the context, the slot and the
offset in it. -/
def ctrPhys (s : State) (sp : Space) (pa : Nat) : Option (Nat × Nat × Nat) :=
  s.ctxs.findSome? fun c =>
    (ctrPieces s c.2 514 c.2.ctrtab.toNat (c.2.ctrtab.toNat + 2 ^ 21)).findSome? fun v =>
      (sysTrans s c.1 v.1).bind fun x =>
        if x.1 = sp ∧ x.2 ≤ pa ∧ pa < x.2 + v.2 then (ctrSlot s c.1 (v.1 + (pa - x.2))).map fun y => (c.1, y.1, y.2) else none

/-! ### The end of a clock -/

/-- Whether the condition that holds a thread is met (Table 8-1). RCVWAIT is decided by its wave's mask. -/
def condMet (s : State) (g w l : Nat) : Hold → Bool
  | .bar b par => (s.bar g b).ph != par
  | .hbar h par => (mgetD (s.group g).hbars h {}).par != par
  | .counters f =>
    let c := (s.wave g w).ctrs
    (List.range 6).all fun i => f.getD i 31 == 31 || c.get i ≤ f.getD i 31
  | .timeline t n => n ≤ (mgetD (s.group g).tls t {}).value
  | .pointer c n => n ≤ (mgetD (s.group g).wps c {}).ptr
  | .net c n => n ≤ mgetD (s.ctx (s.group g).ctx).cc c 0
  | .ops ids => opsDone ids
  | .fence _ ids ms =>
    !(s.accesses.any fun a => ids.contains a.id && a.g == g && a.lanes.any fun o =>
      o.got.isNone && ms.any fun m => m.2 == a.w && (a.uni || m.1 == o.lane))
  | .allOps ids =>
    !(s.accesses.any fun a => ids.contains a.id && a.lanes.any fun o => o.got.isNone) &&
      !(s.nameOps.any fun o => ids.contains o.id && !o.written)
  | _ => false
where
  opsDone (ids : List Nat) : Bool :=
    !(s.accesses.any fun a =>
      ids.contains a.id && a.g == g && a.w == w && a.lanes.any fun o => (o.got.isNone || a.kind == .sload || a.kind == .jtab) && (o.lane == l || a.uni))

def dropSlot (t : Thread) (b : Nat) : Thread := { t with slots := t.slots.filter fun x => x.bar != b }

/-- Release a thread: it continues at the next instruction, and a barrier wait frees its slot. -/
def releaseThread (t : Thread) : Thread :=
  let t1 := match t.hold with | .bar b _ => dropSlot t b | _ => t
  { t1 with st := .ready, hold := .none, pc := t.pc + 12 }

/-- Entries whose every remaining member is held at RCVWAIT: all are released in one clock and the entry disarmed. -/
def rcvDone (v : Wave) (k : Nat) : Bool :=
  let m := mgetD v.rcv k 0
  m != 0 && (lanesOf m).all fun l => (v.threads.getD l {}).st == .held && (v.threads.getD l {}).hold == .rcv k

def settleRcv (v : Wave) : Wave :=
  let ks := (v.rcv.map (·.1)).filter (rcvDone v)
  let hit (t : Thread) : Bool := match t.hold with | .rcv k => t.st == .held && ks.contains k | _ => false
  { v with rcv := ks.foldl (fun m k => mdel m k) v.rcv
           threads := v.threads.map fun t => if hit t then releaseThread t else t }

/-- Whether a thread's SVC may write its record: the ring has room, and the thread's earlier accesses have performed
(14 R329). -/
def svcReady (s : State) (g w l : Nat) : Bool :=
  let c := s.ctx (s.group g).ctx
  (c.svcHead - c.svcTail).toNat < 2 ^ c.svcSize &&
    !(s.accesses.any fun a => a.g == g && a.w == w && a.lanes.any fun o => o.got.isNone && (o.lane == l || a.uni))

/-- The threads of a home wave that wait at one SVC may write its record. -/
def svcJoint (s : State) (g w pc : Nat) : Bool :=
  ((s.wave g w).threads.zipIdx).all fun p => !(p.1.st == .held && p.1.hold == .svcRoom && p.1.pc == pc) || svcReady s g w p.2

/-- A held thread whose condition is met goes on; those that wait to write one service record execute SVC again together. -/
def settleThread (s : State) (g w l : Nat) (t : Thread) : Thread :=
  if t.st ≠ .held then t
  else if t.hold = .svcRoom then (if svcJoint s g w t.pc then { t with st := .ready, hold := .none } else t)
  else if condMet s g w l t.hold then releaseThread t else t

def settleWave (s : State) (g w : Nat) (v : Wave) : Wave :=
  let v1 := settleRcv v
  { v1 with threads := ((List.range v1.threads.length).zip v1.threads).map fun (l, t) => settleThread s g w l t }

/-- In a group that halts, the threads that stand at an instruction boundary halt (14 R324); a single step goes on. -/
def haltWave (req : Bool) (v : Wave) : Wave :=
  if req then { v with threads := v.threads.map fun t => if t.st = .ready ∧ !t.dbgStep then { t with st := .halted } else t } else v

/-- The end of a clock: barriers turn, then every held thread re-evaluates its condition. -/
def settle (s : State) : State :=
  let s1 := { s with groups := s.groups.map fun (x : Nat × Group) => (x.1, { x.2 with bars := x.2.bars.map fun (b : Nat × Bar) => (b.1, turnBar b.2) }) }
  { s1 with groups := s1.groups.map fun (x : Nat × Group) =>
      (x.1, { x.2 with waves := ((List.range x.2.waves.length).zip x.2.waves).map fun (w, v) =>
                haltWave x.2.haltReq (settleWave s1 x.1 w v) }) }

end Sys2Proof.Machine
end

