-- ==== Sys2Proof/Machine/Bins.lean ====
section
/-! DEFINITION. Spawn bins: pushes, coalescing, launches and timers (10 R200 to R205, 11 R217). -/

namespace Sys2Proof.Machine

/-! ### Slots and bindings (R200, R201) -/

def binFind (d : Die) (k : BinKey) : Option (Nat × BinSlot) := d.bins.find? fun x => x.2.key == k
def binFree (d : Die) : Option Nat := (List.range 4096).find? fun i => (mget d.bins i).isNone

/-- The context of a key. -/
def keyCtx (s : State) (k : BinKey) : Nat := keyOwner s k

def graphNode (s : State) (graph entry : Nat) : Option GraphNode :=
  (mget s.graphs graph).bind fun gr => gr.nodes.find? fun n => n.entry == entry

/-- The binding of a key at its allocation by a group: the launch's list, the graph's node, or the context's default. -/
def bindSlot (s : State) (g die slot : Nat) (k : BinKey) : BinSlot :=
  let x := s.group g
  let dflt : BinSlot :=
    { key := k, buf := (s.ctx (keyCtx s k)).spawnA + BitVec.ofNat 64 (8192 * (4096 * die + slot)), coal := x.hdr.maxgroup,
      timer := 16, caplog := 8, recs := [], timerEnd := none }
  if k.node then
    match graphNode s k.owner k.entry with
    | some n => { dflt with buf := n.buf, coal := min n.coal n.hdr.maxgroup, timer := n.timer, caplog := n.caplog }
    | none => dflt
  else
    match x.bins.find? fun b => b.1 == k.entry with
    | some (_, coal, timer, caplog, buf) =>
      { dflt with buf := buf, coal := min coal x.hdr.maxgroup, timer := timer, caplog := caplog }
    | none => dflt

def setBin (s : State) (die slot : Nat) (b : BinSlot) : State := s.modDie die fun d => { d with bins := mput d.bins slot b }

/-- The buffer holds the records, oldest first. -/
def storeBin (s : State) (b : BinSlot) : State :=
  s.sysWrite (keyCtx s b.key) b.buf.toNat (b.recs.flatMap fun r => (r.vals.flatMap fun v => toBytes 4 v.toNat))

def freeCount (b : BinSlot) : Nat := (b.recs.filter fun r => !r.held).length

/-- A slot is free once it holds no record, no push waits for its key and no launch from it waits for placement. -/
def sweepBins (s : State) : State :=
  let idle (die : Nat) (b : BinSlot) : Bool :=
    b.recs.isEmpty && !(s.pushes.any fun p => p.die == die && p.key == b.key) &&
      !(s.groups.any fun x => x.2.place == .waiting && x.2.die == die && x.2.binKey == some b.key)
  { s with dies := s.dies.map fun (d : Nat × Die) =>
      (d.1, { d.2 with bins := d.2.bins.filter fun (b : Nat × BinSlot) => !idle d.1 b.2 }) }

/-! ### Launches from a bin (R202, R203) -/

/-- The group that a launch from a bin forms: the key's kernel, which for a spawn bin is that of the group that pushed the oldest
record, the records, and the rest from the oldest record's launch. -/
def binGroup (s : State) (die : Nat) (k : BinKey) (rs : List BinRec) : Group :=
  let r0 := rs.headD { held := false, vals := [], counter := 0, pusher := 0 }
  let x := ((mget s.launches r0.pusher).map (·.proto)).getD {}
  let node := if k.node then some (k.owner, k.entry) else r0.node
  let y : Group :=
    { x with ctx := keyCtx s k, num := 0, launch := r0.pusher, index := 0, binKey := some k, node := node, gsize := rs.length, entry := k.entry,
             counter := r0.counter, records := rs.map fun r => (0, r.counter), recVals := rs.map (·.vals), born := s.clock, die := die,
             place := .waiting, waves := [] }
  match node.bind fun n => (graphNode s n.1 n.2).map fun x => (n.1, x) with
  | some (gr, n) => { y with hdr := n.hdr, code := n.code, cnst := n.cnst, args := n.args, graph := some gr }
  | none => y

/-- Remove the oldest `n` free records. -/
def dropFree : Nat → List BinRec → List BinRec
  | 0, rs => rs
  | _, [] => []
  | n + 1, r :: rs => if r.held then r :: dropFree (n + 1) rs else dropFree n rs

/-- Launch the `n` oldest free records of a slot: the group enters placement and the counter of its oldest record owes one
more group; the timer restarts or stops. -/
def launchBin (s : State) (die slot n : Nat) : State :=
  match mget (s.die die).bins slot with
  | none => s
  | some b =>
    let free := b.recs.filter fun r => !r.held
    let out := free.take n
    if out.isEmpty then s
    else
      let b1 := { b with recs := dropFree n b.recs, timerEnd := if (free.drop n).isEmpty then none else some (s.clock + 64 * b.timer) }
      let x := binGroup s die b.key out
      let id := s.nextId
      let s1 := storeBin (setBin s die slot b1) b1
      let s2 := { s1 with nextId := id + 1, groups := mput s1.groups id x }
      let s3 := s2.modDie die fun d => { d with ready := d.ready ++ [id] }
      if handleOk s3 x.ctx x.counter.toNat then
        ctrEdit s3 x.ctx (hSlot x.counter.toNat) fun e => setBits e 128 64 (cFin e + 1)
      else s3

/-- The coalescing test: launches while the free records reach COAL. -/
def coalesce : Nat → State → Nat → Nat → State
  | 0, s, _, _ => s
  | n + 1, s, die, slot =>
    match mget (s.die die).bins slot with
    | some b => if b.coal ≤ freeCount b ∧ 0 < b.coal then coalesce n (launchBin s die slot b.coal) die slot else s
    | none => s

/-! ### Pushes (R166, R202, R205) -/

/-- One push, where the slot and its buffer have room: the record arrives, and a full buffer launches its free records. -/
def pushOne (s : State) (g die : Nat) (k : BinKey) (r : BinRec) : Option State :=
  let at_ : Option (Nat × BinSlot) :=
    match binFind (s.die die) k with
    | some x => some x
    | none => (binFree (s.die die)).map fun i => (i, bindSlot s g die i k)
  at_.bind fun (i, b) =>
    if 2 ^ b.caplog ≤ b.recs.length then none
    else
      let b1 := { b with recs := b.recs ++ [r]
                         timerEnd := if !r.held && freeCount b == 0 then some (s.clock + 64 * b.timer) else b.timerEnd }
      let s1 := storeBin (setBin s die i b1) b1
      some (if 2 ^ b.caplog ≤ b1.recs.length ∧ 0 < freeCount b1 then launchBin s1 die i b1.coal else s1)

/-- A bin has answered a TAKE in this clock: pushes come before, so one that is made now arrives in a later clock (R202). -/
def served (s : State) (die : Nat) (k : BinKey) : Bool :=
  let x := (s.die die).served
  x.1 == s.clock + 1 && x.2.contains k
def serve (s : State) (die : Nat) (k : BinKey) : State :=
  s.modDie die fun d => { d with served := (s.clock + 1, k :: (if d.served.1 = s.clock + 1 then d.served.2 else [])) }

/-- Push the records of an instruction in order: OUT of each counter rises (11 R217), and those that find no room, or stand behind one
that waits, are deferred. Each comes with the nm operation of its home wave. -/
def pushAll (g die : Nat) (k : BinKey) : List (Nat × BinRec) → State → State
  | [], s => s
  | (op, r) :: rest, s0 =>
    let s := outAdd s0 (s0.group g).ctx r.counter.toNat 1
    let behind := served s die k || s.pushes.any fun p => p.die == die && p.key == k
    match if behind then none else pushOne s g die k r with
    | some s1 => pushAll g die k rest (opEnds s1 op)
    | none =>
      pushAll g die k rest
        { s with nextId := s.nextId + 1,
                 pushes := s.pushes ++ [{ id := s.nextId, op := op, g := g, die := die, key := k, item := r }] }

/-- The end of a clock at one slot, after its pushes and TAKEs: the coalescing test, then a timer that expires, unless a launch has
restarted it (R202). -/
def settleBin (s : State) (die slot : Nat) : State :=
  match mget (s.die die).bins slot with
  | none => s
  | some b =>
    let s1 := coalesce (b.recs.length + 1) s die slot
    match mget (s1.die die).bins slot with
    | none => s1
    | some b1 =>
      let s2 := setBin s1 die slot { b1 with fire := false }
      if b1.fire ∧ b1.timerEnd.any (· ≤ s.clock) then launchBin s2 die slot b1.coal else s2

/-- The end of a clock at the bins. -/
def settleBins (s : State) : State :=
  let at_ := s.dies.flatMap fun d => d.2.bins.map fun b => (d.1, b.1)
  sweepBins (at_.foldl (fun s p => settleBin s p.1 p.2) s)

/-! ### Timers (R202) -/

/-- Whether a key's context is in the active bank of some core of a die, which is what the model takes as active (log 131). -/
def keyActive (s : State) (die : Nat) (k : BinKey) : Bool :=
  s.cores.any fun x => x.1 / 48 == die && x.2.active == some (keyCtx s k)

/-- Timers stand still while the key's context is not active. -/
def pauseBins (s : State) (clocks : Nat) : State :=
  { s with dies := s.dies.map fun (d : Nat × Die) =>
      (d.1, { d.2 with bins := d.2.bins.map fun (b : Nat × BinSlot) =>
        (b.1, if keyActive s d.1 b.2.key then b.2 else { b.2 with timerEnd := b.2.timerEnd.map (· + clocks) }) }) }

end Sys2Proof.Machine
end

