-- ==== Sys2Proof/Machine/Queues.lean ====
section
/-! DEFINITION. The state of hardware queues as counters change (10 R195 to R198). -/

namespace Sys2Proof.Machine

def State.queue (s : State) (ctx q : Nat) : Queue := mgetD (s.ctx ctx).queues q {}
def modQueue (s : State) (ctx q : Nat) (f : Queue → Queue) : State :=
  s.modCtx ctx fun c => { c with queues := mput c.queues q (f (mgetD c.queues q {})) }

/-- Packets of the ring (R196). -/
def Queue.ring (q : Queue) : Nat := 2 ^ (q.logsz + 4)
def Queue.inRange (q : Queue) (w : BitVec 32) : Bool := (w - q.rdidx).toNat ≤ q.ring

/-- The virtual address of the head packet, and the packet. -/
def Queue.headVa (q : Queue) : Nat := q.base.toNat + 64 * (q.rdidx.toNat % q.ring)
def headPacket (s : State) (ctx : Nat) (q : Queue) : List Byte := (s.sysRead ctx q.headVa 64).getD (List.replicate 64 0)
def pktField (p : List Byte) (off n : Nat) : Nat := ofBytes ((p.drop off).take n)

/-- Empty or ready by the indices. -/
def Queue.idleState (q : Queue) : Nat := if q.wridx = q.rdidx then 1 else 2

/-- Stop a queue with an error: ERR, and a record to the context (Table 14-19). -/
def stopQueue (s : State) (ctx q err : Nat) (extra : Nat) : State :=
  let y := s.queue ctx q
  ctxErr (modQueue s ctx q fun y => { y with state := 4, err := err }) ctx 0x0101 err q y.rdidx.toNat y.headVa extra 0

/-- A doorbell: WRIDX of a queue that is disabled or stopped is not checked, and a value out of range stops another one at the end of
the clock (R196, Table 10-3). -/
def ringQueue (s : State) (c q : Nat) (v : BitVec 32) : State :=
  if (mget s.ctxs c).isNone then s
  else
    modQueue s c q fun y =>
      match y.bell with
      | some b => { y with bell := some (b.1, some v) }
      | none =>
        if y.state = 0 ∨ y.state = 4 then { y with wridx := v }
        else if !y.inRange v then { y with bell := some (v, none) }
        else
          let y1 := { y with wridx := v }
          { y1 with state := if y.state = 3 ∧ v ≠ y.rdidx then 3 else y1.idleState }

/-- The end of a clock in which a doorbell was out of range: a queue that has been disabled keeps the new WRIDX (R198). -/
def settleBell (s : State) (c q : Nat) : State :=
  let y := s.queue c q
  match y.bell with
  | none => s
  | some (bad, later) =>
    let s1 := modQueue s c q fun y => { y with bell := none }
    if y.state = 0 then modQueue s1 c q fun y => { y with wridx := later.getD bad }
    else
      let s2 := if y.state = 4 then s1 else stopQueue s1 c q 2 bad.toNat
      match later with
      | some v => modQueue s2 c q fun y => { y with wridx := v }
      | none => s2

/-- A dependence: 0 none; met once VALUE reaches DEPN. None where DEP is no handle of the context. -/
def depMet (s : State) (ctx dep n : Nat) : Option Bool :=
  if dep = 0 then some true else if handleOk s ctx dep then some (n ≤ cVal (ctrRead s ctx (hSlot dep))) else none

/-- A counter at its final value, or freed since (R197). -/
def levelEnded (s : State) (ctx h : Nat) : Bool :=
  !handleOk s ctx h || (let st := cState (ctrRead s ctx (hSlot h)); st == 2 || st == 4)

/-- Whether the head's condition holds: its dependence, and ORD. -/
def headMet (s : State) (ctx : Nat) (q : Queue) : Bool :=
  let p := headPacket s ctx q
  depMet s ctx (pktField p 8 8) (pktField p 0x10 8) == some true && (!bit (pktField p 1 1) 0 || q.pending.isEmpty)

/-- Packets whose level has ended are complete, NOTE sets the queue's bit, and a blocked queue whose head is met, or whose
DEP has ceased to be a handle, becomes ready (Table 10-3). -/
def settleQueue (s0 : State) (ctx qn : Nat) : State :=
  let s := settleBell s0 ctx qn
  let y := s.queue ctx qn
  let done := y.pending.filter fun p => levelEnded s ctx p.2.2.toNat
  let s1 := if done.isEmpty then s else modQueue s ctx qn fun y => { y with pending := y.pending.filter fun p => !levelEnded s ctx p.2.2.toNat }
  let s2 := if done.any (·.2.1) then s1.modCtx ctx fun c => { c with notify := c.notify ||| (1#64 <<< qn) } else s1
  let p := headPacket s2 ctx y
  if y.state = 3 ∧ (headMet s2 ctx (s2.queue ctx qn) || (depMet s2 ctx (pktField p 8 8) (pktField p 0x10 8)).isNone) then modQueue s2 ctx qn fun y => { y with state := 2 } else s2

def settleQueues (s : State) : State :=
  s.ctxs.foldl (fun s c => (c.2.queues.map (·.1)).foldl (fun s q => settleQueue s c.1 q) s) s

/-! ### Writes to doorbell pages and counter tables -/

/-- The doorbell page that a physical byte lies in, as (context, offset): `State.doorbells` names the pages that system software has
mapped as doorbell pages into device memory, as (place, context) (R196, log 88). -/
def doorAt (s : State) (sp : Space) (pa : Nat) : Option (Nat × Nat) :=
  (mget s.doorbells (placeKey sp pa / 4096)).bind fun c => if pa % 4096 < 512 then some (c, pa % 4096) else none

/-- Bytes at an offset of a doorbell page ring every doorbell whose first byte they hold. -/
def ringPage (s : State) (c off : Nat) (bs : List Byte) : State :=
  (List.range bs.length).foldl (fun s i =>
    if (off + i) % 8 = 0 ∧ off + i < 512 then ringQueue s c ((off + i) / 8) (BitVec.ofNat 32 (ofBytes ((bs.drop i).take 4))) else s) s

/-- A write to physical bytes, in pieces that each lie in one 32-byte block: those of a counter table change its entries as 11 R215 and
R216 say, and those of a doorbell page ring its queues. -/
def memoryWrite (sp : Space) : Nat → Nat → List Byte → State → State
  | 0, _, _, s => s
  | f + 1, pa, bs, s =>
    if bs.isEmpty then s
    else
      let n := 32 - pa % 32
      let s1 := match doorAt s sp pa, ctrPhys s sp pa with
        | some (c, off), _ => ringPage s c off (bs.take n)
        | none, some (c, slot, off) => ctrStore s c slot off (bs.take n)
        | none, none => s.engineWrite sp pa (bs.take n)
      memoryWrite sp f (pa + n) (bs.drop n) s1

def State.memoryWrite (s : State) (sp : Space) (pa : Nat) (bs : List Byte) : State :=
  Machine.memoryWrite sp (bs.length / 32 + 2) pa bs s

end Sys2Proof.Machine
end

