-- ==== Sys2Proof/Machine/Access.lean ====
section
/-! DEFINITION. Memory accesses of the lanes of an instruction: checks, performance at issue or later, parking in the
operand log, and completion (12 R227 to R254, 13 R281, 15 R337, R339). -/

namespace Sys2Proof.Machine

/-! ### Values -/

/-- The little-endian bytes of the first `width` bytes of a list of registers. -/
def bytesOf (vals : List Word) (width : Nat) : List Byte := (vals.flatMap fun v => toBytes 4 v.toNat).take width

/-- The registers that loaded bytes fill; 1 and 2 bytes are extended to 32 bits (R251). -/
def wordsOf (sx : Bool) (bs : List Byte) : List Word :=
  match bs with
  | [b0] => [if sx then b0.signExtend 32 else b0.zeroExtend 32]
  | [b0, b1] => let x : BitVec 16 := b1 ++ b0; [if sx then x.signExtend 32 else x.zeroExtend 32]
  | bs => (List.range (bs.length / 4)).map fun i => BitVec.ofNat 32 (ofBytes ((bs.drop (4 * i)).take 4))

/-- The new value of an atomic (Table 12-9), `n` bits wide. -/
def atomNew (op : AtomOp) (sg : Bool) (n : Nat) (m v : Nat) : Nat :=
  let bm := BitVec.ofNat n m
  let bv := BitVec.ofNat n v
  match op with
  | .add => (bm + bv).toNat
  | .and => (bm &&& bv).toNat
  | .or => (bm ||| bv).toNat
  | .xor => (bm ^^^ bv).toNat
  | .min => if sg then (if bv.toInt < bm.toInt then v else m) else min m v
  | .max => if sg then (if bm.toInt < bv.toInt then v else m) else max m v
  | .exch => v
  | .inc => if m ≥ v then 0 else m + 1
  | .dec => if m = 0 ∨ m > v then v else m - 1
  | .fadd => if n = 32 then (fpAdd .fp32 .rn false m v).1 else (fpAdd .fp64 .rn false m v).1

/-! ### Scratchpad (R234) -/

def scratchRead (x : Group) (o n : Nat) : List Byte := readN x.scratch o n
def scratchWrite (s : State) (g o : Nat) (bs : List Byte) : State :=
  s.modGroup g fun x =>
    { x with scratch := writeL x.scratch o bs,
             scratchPoison := x.scratchPoison.filter fun p => !(o ≤ p.1 && p.1 < o + bs.length) }

/-- Poison among bytes of a scratchpad: the subcode of DATA_POISON. -/
def scratchPoisoned (x : Group) (o n : Nat) : Option Nat := (x.scratchPoison.find? fun p => o ≤ p.1 && p.1 < o + n).map (·.2)

/-- The check of a scratchpad access: alignment, then range, then poisoned words that a read consumes. -/
def scratchCheck (x : Group) (o width : Nat) (reads : Bool) : Option (Nat × Nat) :=
  if o % width ≠ 0 then some (0x10, 0)
  else if o + width > x.hdr.scratch then some (0x14, 0)
  else if reads then (scratchPoisoned x o width).map fun sub => (0x15, sub)
  else none

/-! ### Placing an access -/

/-- Where the lanes of an access go: what each lane asks, or the first failing check. -/
inductive LaneRes where
  | ok (o : LaneOp) (t : Option Trans)
  | fail (f : LaneFail)
  | park (m : Nat × Nat) (o : LaneOp)
  | absent (pa : Nat)
  deriving DecidableEq, Repr

def accOf : AccKind → Acc
  | .load _ => .r
  | .store => .w
  | .atom _ _ => .rw
  | .cas => .rw
  | .flush _ => .r
  | .sload => .r
  | .jtab => .r

/-- A destination of the fabric, of KIND pool or peer. -/
def destOf (kind dev : Nat) : Dest := if kind = 1 then .node (BitVec.ofNat 22 dev) else .peer (BitVec.ofNat 22 dev)

def streamOf (v : Wave) (d : Dest) : Stream := (aget v.streams d).getD {}

/-- Whether an access crosses the fabric (Table 12-4): KIND pool or peer, not of CLASS private. -/
def remoteKind (kind cls : Nat) : Bool := (kind == 1 || kind == 2) && cls != 0

/-- Whether an access performs when it issues: the domain of R281, scratchpad being KIND 4. Others perform at completion. -/
def performsNow (kind cls : Nat) : Bool := kind == 0 || kind == 4 || (kind == 3 && cls == 2)

/-- Whether a lane's access crosses the fabric: also one of a private page that its core's lines cannot serve. -/
def LaneOp.crosses (o : LaneOp) : Bool := remoteKind o.kind o.cls || ((o.kind == 1 || o.kind == 2) && o.priv)

/-- Whether an access of a private page goes to the page's home: a read of bytes that the core holds no line of, and an atomic, which
is performed there (12 R229, R252). -/
def goesHome (s : State) (core : Nat) (k : AccKind) (sp : Space) (pa width : Nat) : Bool :=
  match k with
  | .store => false
  | .flush _ => false
  | .atom _ _ => true
  | .cas => true
  | _ => !((List.range width).all fun i => (mget (s.core core).dirty (placeKey sp (pa + i))).isSome)

/-- All checks of one lane of a memory instruction, in their order: Table 12-2, the stream (R289), poison (R233). -/
def checkLane (s : State) (g : Nat) (m : Nat × Nat) (k : AccKind) (width : Nat) (o : LaneOp) : LaneRes :=
  let x := s.group g
  match check s x.ctx x.core o.addr.toNat width (accOf k) with
  | .fail c sub => .fail ⟨m, c, sub, o.addr⟩
  | .park _ => .park m o
  | .absent pa => .absent pa
  | .ok t =>
    let o' := { o with kind := t.kind, dev := t.dev, cls := t.cls, pa := t.pa, size := t.size,
                       priv := t.cls == 0 && (t.kind == 1 || t.kind == 2) && goesHome s x.core k t.space t.pa width }
    if (t.kind = 1 ∨ t.kind = 2) ∧ (streamOf (s.wave g m.2) (destOf t.kind t.dev)).poison.isSome then .fail ⟨m, 0x15, 2, o.addr⟩
    else if performsNow t.kind t.cls && (accOf k).reads && (match k with | .flush _ => false | _ => true) then
      (match poisoned s t.space t.pa width with
       | some sub => .fail ⟨m, 0x15, sub, o.addr⟩
       | none => .ok o' (some t))
    else .ok o' (some t)

def resFails (rs : List LaneRes) : List LaneFail := rs.filterMap fun r => match r with | .fail f => some f | _ => none
def resParks (rs : List LaneRes) : List (Nat × Nat) := rs.filterMap fun r => match r with | .park m _ => some m | _ => none
def resAbsent (rs : List LaneRes) : Option Nat := rs.findSome? fun r => match r with | .absent pa => some pa | _ => none

/-! ### Performing -/

/-- The translation that a lane's record keeps. -/
def LaneOp.space (o : LaneOp) : Space :=
  match o.kind with
  | 0 => .hbm
  | 1 => .far (.node (BitVec.ofNat 22 o.dev))
  | 2 => .far (.peer (BitVec.ofNat 22 o.dev))
  | _ => .host

/-- The byte that a core's private lines hold at a place, or else another. -/
def privByte (s : State) (core : Nat) (sp : Space) (pa : Nat) (home : Byte) : Byte :=
  match mget (s.core core).dirty (placeKey sp pa) with
  | some x => x.2
  | none => home

def loadAt (s : State) (g core : Nat) (o : LaneOp) (n : Nat) : List Byte :=
  if o.kind = 4 then scratchRead (s.group g) o.pa n
  else if o.cls = 0 then (List.range n).map fun i => privByte s core o.space (o.pa + i) (memRead (s.mem o.space) (o.pa + i))
  else s.read o.space o.pa n

def storeAt (s : State) (g ctx core : Nat) (o : LaneOp) (bs : List Byte) : State :=
  if o.kind = 4 then scratchWrite s g o.pa bs
  else
    match doorAt s o.space o.pa, ctrPhys s o.space o.pa with
    | some (c, off), _ => ringPage s c off bs
    | none, some (c, slot, off) => ctrStore s c slot off bs
    | none, none =>
    let s1 := unpoison s o.space o.pa bs.length
    if o.cls = 0 then
      s1.modCore core fun c =>
        { c with dirty := ((List.range bs.length).zip bs).foldl (fun m x => mput m (placeKey o.space (o.pa + x.1)) (ctx, x.2)) c.dirty }
    else s1.write o.space o.pa bs

/-- Perform one lane's access: the state after it and the registers that it returns. -/
def performLane (s : State) (g : Nat) (k : AccKind) (width : Nat) (o : LaneOp) : State × List Word :=
  let x := s.group g
  match k with
  | .load sx => (s, wordsOf sx (loadAt s g x.core o width))
  | .sload => (s, wordsOf false (loadAt s g x.core o width))
  | .jtab => (s, wordsOf false (loadAt s g x.core o width))
  | .store => (storeAt s g x.ctx x.core o (bytesOf o.vals width), [])
  | .atom op sg =>
    let m := loadAt s g x.core o width
    let v := ofBytes (bytesOf o.vals width)
    (storeAt s g x.ctx x.core o (toBytes width (atomNew op sg (8 * width) (ofBytes m) v)), wordsOf false m)
  | .cas =>
    let m := loadAt s g x.core o width
    let r := width / 4
    let s1 := if m = bytesOf o.vals width then storeAt s g x.ctx x.core o (bytesOf (o.vals.drop r) width) else s
    (s1, wordsOf false m)
  | .flush _ =>
    let line := placeKey o.space o.pa / 128
    (if o.cls = 0 then writeBack s x.core (fun q => q / 128 == line) else s, [])

/-- The caches that an access leaves: its translation, and the owner of a private page that had none. -/
def touchPage (s : State) (g : Nat) (o : LaneOp) (t : Trans) : State :=
  let x := s.group g
  takeOwner (fill s x.ctx x.core o.addr.toNat t) x.ctx o.addr.toNat x.core t

/-- Perform the lanes that perform at issue, in ascending lane order; the others stay pending. -/
def performAll (s : State) (g : Nat) (k : AccKind) (width : Nat) :
    List ((Nat × Nat) × LaneOp × Option Trans) → State × List ((Nat × Nat) × LaneOp)
  | [] => (s, [])
  | (m, o, t) :: rest =>
    let s1 := match t with | some t => touchPage s g o t | none => s
    let (s2, o2) :=
      if performsNow o.kind o.cls then
        let r := performLane s1 g k width o
        (r.1, { o with got := some r.2 })
      else if o.priv && (accOf k).writes then
        (writeBack s1 (s1.group g).core (fun q => q / 128 == placeKey o.space o.pa / 128), o)
      else (s1, o)
    let (s3, os) := performAll s2 g k width rest
    (s3, (m, o2) :: os)

/-- Lines that the lanes of one store overwrite whole between them lose their poison: lanes of one line share one access
(R233, R237). -/
def coverLines (s : State) (k : AccKind) (width : Nat) (done : List ((Nat × Nat) × LaneOp)) : State :=
  if k = .store ∧ !s.poison.isEmpty then
    let runs := (done.filter fun (x : (Nat × Nat) × LaneOp) => x.2.got.isSome && x.2.kind != 4).map
      fun (x : (Nat × Nat) × LaneOp) => placeKey x.2.space x.2.pa
    { s with poison := s.poison.filter fun (l : Nat × Nat) =>
        !((List.range 128).all fun i => runs.any fun r => r ≤ 128 * l.1 + i && 128 * l.1 + i < r + width) }
  else s

/-- Perform the lanes of one instruction that perform at issue. -/
def performSet (s : State) (g : Nat) (k : AccKind) (width : Nat) (ops : List ((Nat × Nat) × LaneOp × Option Trans)) :
    State × List ((Nat × Nat) × LaneOp) :=
  let r := performAll s g k width ops
  (coverLines r.1 k width r.2, r.2)

/-! ### The operand log (R240, R241) -/

/-- The lowest free entry of a home wave's operand log. -/
def freeEntry (v : Wave) : Option Nat := (List.range 8).find? fun e => (mget v.log e).isNone

/-- Park threads: Fault-parked at the instruction, their formed wave dissolved (R139). -/
def parkThreads (s : State) (g pc : Nat) (ms : List (Nat × Nat)) : State :=
  let s1 := ms.foldl (fun s m => s.modThread g m.2 m.1 fun t => { t with st := .faultParked, pc := pc, hold := .none }) s
  s1.modGroup g fun x => x.endFormed s.clock fun f => f.members.any fun m => ms.contains m

def putEntry (s : State) (g w e : Nat) (le : LogEntry) : State := s.modWave g w fun v => { v with log := mput v.log e le }

/-! ### Issue of an access -/

/-- What the instruction says of all its lanes. -/
structure AccInfo where
  kind : AccKind
  width : Nat
  ctr : Nat
  scope : Scope
  flag : Bool := false
  acq : Bool := false
  uni : Bool := false
  joint : Nat := 0
  deriving DecidableEq, Repr

/-- Record the part of an instruction that one home wave issues: the access with its lanes, the log entry of those that
parked, and the counter, which falls when this home wave's own lanes are done (log 124). `mask` is the threads that issue. -/
def recordWave (s : State) (inf : AccInfo) (g w : Nat) (mask : Word) (done : List ((Nat × Nat) × LaneOp))
    (parked : List ((Nat × Nat) × LaneOp)) : State :=
  let v := s.wave g w
  let mine := (done.filter fun x => x.1.2 == w).map (·.2)
  let pk := (parked.filter fun x => x.1.2 == w)
  let e := (freeEntry v).getD 0
  let past := if inf.kind = .jtab ∧ pk.isEmpty then v.counted else v.counted + 1
  let id := s.nextId
  let lanes := mine ++ pk.map fun x => { x.2 with stage := .parked e, entry := some e }
  let a : Access :=
    { id := id, g := g, w := w, kind := inf.kind, width := inf.width, ctr := inf.ctr, scope := inf.scope, flag := inf.flag,
      acq := inf.acq, uni := inf.uni, mask := mask, pc := s.cur.pc, word := s.cur.word, clock := s.clock,
      issued := past, lanes := lanes, joint := inf.joint }
  let s1 := { s with nextId := s.nextId + 1, accesses := s.accesses ++ [a] }
  let s2 := if inf.ctr < 6 then ctrInc s1 g w inf.ctr else s1
  if pk.isEmpty then s2
  else
    let pmask := if inf.uni then mask else maskOf (pk.map fun x => x.1.1)
    let le : LogEntry :=
      { word := s.cur.word, pc := s.cur.pc, mask := pmask, late := false, op := id,
        addrs := pk.map fun x => (x.1.1, x.2.addr), vals := pk.map fun x => (x.1.1, x.2.vals), issued := past, clock := s.clock }
    parkThreads (putEntry s2 g w e le) g s.cur.pc ((lanesOf pmask).map fun l => (l, w))

/-- Issue a memory instruction for lanes whose addresses are known: every check first (R227), then performance, the access
records and the parked lanes. A failing uniform access traps every issuing thread of its home wave (R107). -/
def issueAccess (s : State) (inf : AccInfo) (reqs : List ((Nat × Nat) × LaneOp)) (check1 : (Nat × Nat) → LaneOp → LaneRes) :
    Out :=
  let g := s.cur.g
  let rs := reqs.map fun r => check1 r.1 r.2
  let fs := if inf.uni then (resFails rs).flatMap fun f => (s.cur.members.filter fun m => m.2 == f.at_.2).map fun m => { f with at_ := m }
    else resFails rs
  if !fs.isEmpty then .next (trapFails s fs (resParks rs))
  else
    match resAbsent rs with
    | some pa => .fault (.absentMemory pa)
    | none =>
      let good := (reqs.zip rs).filterMap fun x => match x.2 with | .ok o t => some (x.1.1, o, t) | _ => none
      let parked := (reqs.zip rs).filterMap fun x => match x.2 with | .park _ o => some (x.1.1, o) | _ => none
      let (s1, done) := performSet (advance s) g inf.kind inf.width good
      .next ((wavesOf (reqs.map (·.1))).foldl (fun s w =>
        recordWave s inf g w (maskOf (waveLanes (s.cur.members) w)) done parked) s1)

/-! ### Rights and errors of the fabric (15 R334, 13 R289) -/

/-- The virtual function of a context and its generation. -/
def ctxFn (s : State) (ctx : Nat) : Nat := ((s.ctx ctx).fn).getD 0
def fnGen (s : State) (fn : Nat) : Nat := ((mgetD s.vfs fn {}).gen).toNat

/-- Whether an owner's grant list lets a device, function and generation access an address (R334). -/
def granted (gs : List (Nat × List Grantee)) (dev fn gen pa : Nat) (write : Bool) : Bool :=
  pa < poolSize && (mgetD gs (pa / 2 ^ 28) []).any fun e =>
    e.dev.toNat == dev && e.vf.toNat == fn && e.gen.toNat == gen && (if write then e.w else e.r)

/-- A write that cannot be delivered poisons the stream and leaves a machine-check record (R289). -/
def poisonStream (s : State) (g w : Nat) (d : Dest) (lane pc : Nat) (va : DWord) (street : Nat) : State :=
  let x := s.group g
  if (streamOf (s.wave g w) d).poison.isSome then s
  else
    let c := s.ctx x.ctx
    let idx := c.errHead.toNat + c.errHeld.length
    let num := match d with | .node n => n.toNat | .peer n => n.toNat + 2 ^ 31
    let s1 := s.modWave g w fun v => { v with streams := aput v.streams d { streamOf v d with poison := some idx } }
    let s2 := s1.modCtx x.ctx fun c => { c with machineChecks := c.machineChecks ++ [(idx, g, w, d)] }
    pushErr s2 x.ctx (toBytes 2 0x15 ++ toBytes 1 lane ++ toBytes 1 2 ++ toBytes 4 pc ++ toBytes 8 va.toNat ++
      toBytes 4 num ++ toBytes 2 w ++ toBytes 1 street ++ toBytes 1 0 ++ toBytes 8 s.clock) (groupRef x) none

/-! ### Completion (Table 3-9, R251, R339) -/

/-- Write a lane's destination registers, unless its thread has exited (R163). -/
def writeBackLane (s : State) (a : Access) (o : LaneOp) : State :=
  match o.got with
  | none => s
  | some ws =>
    match a.kind with
    | .sload =>
      s.modWave a.g a.w fun v =>
        { (o.dst.zip ws).foldl (fun v x => putS x.1 x.2 v) v with sPending := v.sPending.filter fun p => p.2 != a.id }
    | _ =>
      if (s.thread a.g a.w o.lane).st = .exited then s
      else s.modThread a.g a.w o.lane fun t => ((o.dst.zip ws).filter fun x => x.1 < 256).foldl (fun t x => putV x.1 x.2 t) t

def setAccess (s : State) (id : Nat) (f : Access → Access) : State :=
  { s with accesses := s.accesses.map fun a => if a.id = id then f a else a }

/-- Threads go on after a logged instruction; those of a late entry stay where they stand. -/
def goOn (s : State) (g w pc : Nat) (late : Bool) (ls : List Nat) : State :=
  if late then s
  else ls.foldl (fun s l => s.modThread g w l fun t =>
    if t.st = .exited then t else { t with st := .ready, hold := .none, pc := pc + 12 }) s

/-- Take lanes out of an entry; an entry without lanes is free. -/
def leaveEntry (s : State) (g w e : Nat) (ls : List Nat) : State :=
  s.modWave g w fun v =>
    match mget v.log e with
    | none => v
    | some le =>
      let m := le.mask &&& ~~~(maskOf ls)
      if m = 0 then { v with log := mdel v.log e }
      else
        { v with log := mput v.log e { le with mask := m, addrs := le.addrs.filter fun a => m.getLsbD a.1 || le.addrs.length == 1
                                               vals := le.vals.filter fun a => m.getLsbD a.1 || le.vals.length == 1
                                               ops := le.ops.filter fun a => m.getLsbD a.1 } }

/-- Lanes leave an access; it ends with its last lane, and its counter falls. -/
def abandonLanes (s : State) (a : Access) (ls : List Nat) : State :=
  let rest := a.lanes.filter fun o => !ls.contains o.lane
  if rest.isEmpty then
    let s1 := { s with accesses := s.accesses.filter fun x => x.id != a.id }
    let s2 := s1.modWave a.g a.w fun v => { v with sPending := v.sPending.filter fun p => p.2 != a.id }
    if a.ctr < 6 then counterFalls s2 a.g a.w a.ctr else s2
  else setAccess s a.id fun x => { x with lanes := rest }

/-- The home lanes whose threads a lane of an access stands for: those that issued a uniform access (06 R107). -/
def Access.threadLanes (a : Access) (o : LaneOp) : List Nat := if a.uni then lanesOf a.mask else [o.lane]

/-- A lane ends: it leaves the late or logged entry that it holds, its threads go on after a logged one (12 R242, 15 R339), and it
leaves the access. -/
def endLane (s : State) (a : Access) (o : LaneOp) : State :=
  let s1 := match o.stage, o.entry with
    | .late e, _ => leaveEntry s a.g a.w e [o.lane]
    | _, some e => leaveEntry (goOn s a.g a.w a.pc false (a.threadLanes o)) a.g a.w e (a.threadLanes o)
    | _, none => s
  let rest := a.lanes.filter fun x => x.lane != o.lane
  if rest.isEmpty then
    let s2 := { s1 with accesses := s1.accesses.filter fun x => x.id != a.id }
    if a.ctr < 6 then counterFalls s2 a.g a.w a.ctr else s2
  else setAccess s1 a.id fun x => { x with lanes := x.lanes.filter fun y => y.lane != o.lane }

/-- The threads of a home wave for which a lane of an access stands: those that issued a uniform access (06 R107). -/
def Access.threads (a : Access) (o : LaneOp) : Word := if a.uni then a.mask else 1#32 <<< o.lane

/-- Whether two lanes of accesses that have still to perform touch a common byte. -/
def sameBytes (a b : Access) (o p : LaneOp) : Bool :=
  p.kind == o.kind && p.dev == o.dev && p.pa < o.pa + a.width && o.pa < p.pa + b.width

/-- Whether an earlier access of the thread to some of the same bytes has not performed yet (13 R279), or a lower lane of the same
instruction that writes some of them (12 R250, R252). -/
def earlierSame (s : State) (a : Access) (o : LaneOp) : Bool :=
  (s.accesses.any fun b => b.id < a.id && b.g == a.g && b.w == a.w && b.lanes.any fun p =>
    (a.threads o &&& b.threads p) != 0 && p.got.isNone && sameBytes a b o p) ||
  ((accOf a.kind).writes && a.lanes.any fun p => p.lane < o.lane && p.got.isNone && p.stage == .pending && sameBytes a a o p)

/-- The instruction issues of a home wave past an instruction that `issued` of them precede or are (R242). -/
def issuesPast (s : State) (g w issued : Nat) : Nat := (s.wave g w).counted - issued

/-- The log entry that holds a lane. -/
def LaneOp.logged (o : LaneOp) : Option Nat :=
  match o.stage with
  | .late e => some e
  | .parked e => some e
  | _ => o.entry

/-- The lanes of late failures that trap in one frame: those of the first one's log entry, or those that are in none (14 R312). -/
def oneFrame (fs : List (LaneOp × Nat × Nat)) : List (LaneOp × Nat × Nat) :=
  fs.filter fun f => f.1.logged == (fs.head?.bind fun x => x.1.logged)

/-- Whether late failures can be recorded: uniform ones need no entry, others the one that they have or a free one (15 R339). -/
def canRecord (s : State) (a : Access) (fs : List (LaneOp × Nat × Nat)) : Bool :=
  a.uni || (fs.head?.any fun f => f.1.logged.isSome) || (freeEntry (s.wave a.g a.w)).isSome ||
    fs.all fun f => (s.thread a.g a.w f.1.lane).st == .exited

/-- Late failures of lanes of one access, each with its cause and subcode: the lanes trap together, wherever their threads stand, with
the entry that holds them or a new one (R339); a uniform load traps all of its threads (R107). -/
def lateTraps (s : State) (a : Access) (fs : List (LaneOp × Nat × Nat)) : State :=
  let fail (l : Nat) (f : LaneOp × Nat × Nat) : LaneFail := ⟨(l, a.w), f.2.1, f.2.2, f.1.addr⟩
  let stay (s : State) (ls : List Nat) : State :=
    ls.foldl (fun s l => s.modThread a.g a.w l fun t =>
      if t.st = .held ∨ t.st = .faultParked then { t with st := .ready, hold := .none, pc := a.pc } else t) s
  let entry := fs.head?.bind fun f => f.1.logged
  let raise_ (s : State) (e : Option Nat) (count : Nat) (xs : List LaneFail) : State :=
    let t := failTrap s xs []
    takeTrap s a.g { t with pc := a.pc, word := a.word, frm := false, log := e, count := count }
  let count := issuesPast s a.g a.w a.issued
  if a.uni then
    raise_ (stay (abandonLanes s a (fs.map (·.1.lane))) (lanesOf a.mask)) entry (if entry.isSome then count else 0)
      (fs.flatMap fun f => (lanesOf a.mask).map fun l => fail l f)
  else
    let gone (f : LaneOp × Nat × Nat) : Bool := (s.thread a.g a.w f.1.lane).st == .exited
    let live := fs.filter fun f => !gone f
    let s1 := match entry with
      | some e => leaveEntry s a.g a.w e ((fs.filter gone).map (·.1.lane))
      | none => s
    let s2 := abandonLanes s1 a (fs.map (·.1.lane))
    if live.isEmpty then s2
    else
      match entry with
      | some e =>
        let parked := live.filter fun f => f.1.entry.isSome
        raise_ (stay s2 (parked.map (·.1.lane))) (some e) count (live.map fun f => fail f.1.lane f)
      | none =>
        match freeEntry (s2.wave a.g a.w) with
        | none => raise_ s2 none count (live.map fun f => fail f.1.lane f)
        | some e =>
          let le : LogEntry :=
            { word := a.word, pc := a.pc, mask := maskOf (live.map (·.1.lane)), late := true, op := a.id, issued := a.issued,
              clock := s.clock, addrs := live.map (fun f => (f.1.lane, f.1.addr)), vals := live.map fun f => (f.1.lane, f.1.vals) }
          raise_ (putEntry s2 a.g a.w e le) (some e) count (live.map fun f => fail f.1.lane f)

/-- How a lane that performs only as it completes would fail: poison, or at a node or peer the missing right (R233, 15 R334). -/
def completeFail (s : State) (a : Access) (o : LaneOp) : Option (Nat × Nat) :=
  if !(accOf a.kind).reads || (match a.kind with | .flush _ => true | _ => false) then none
  else
    match poisoned s o.space o.pa a.width with
    | some sub => some (0x15, sub)
    | none => none

/-- A store to a private page of a node or peer whose grant list refuses it: the write-back cannot be delivered (15 R334). -/
def refusedStore (s : State) (a : Access) (o : LaneOp) : Bool :=
  let fn := ctxFn s (s.group a.g).ctx
  a.kind == .store && (o.kind == 1 || o.kind == 2) && !granted (s.remote (destOf o.kind o.dev)).grants s.device fn (fnGen s fn) o.pa true

/-- Whether a lane performs only as it completes: outside the domain, and not over the fabric. -/
def Access.atEnd (s : State) (a : Access) (o : LaneOp) : Bool :=
  o.got.isNone && o.stage == .pending && !performsNow o.kind o.cls && !o.crosses && !earlierSame s a o

/-- Complete one lane: an access outside the domain performs now, a lane that has its value writes it. -/
def completeLane (s : State) (id lane : Nat) : State :=
  match s.accesses.find? fun a => a.id == id with
  | none => s
  | some a =>
    match a.lanes.find? fun o => o.lane == lane with
    | none => s
    | some o =>
      match o.got, o.stage with
      | some _, .parked _ => s
      | some _, _ => endLane (writeBackLane s a o) a o
      | none, _ =>
        if !a.atEnd s o then s
        else if refusedStore s a o then endLane (poisonStream s a.g a.w (destOf o.kind o.dev) o.lane a.pc o.addr 0) a o
        else
          let r := performLane s a.g a.kind a.width o
          let o2 := { o with got := some r.2 }
          endLane (writeBackLane r.1 a o2) a o2

/-- Lanes complete. Where one of them meets poison as it performs, all lanes of the instruction that do trap together (R233); they
wait for a log entry. -/
def completeLanes (s : State) (id : Nat) (lanes : List Nat) : State :=
  match s.accesses.find? fun a => a.id == id with
  | none => s
  | some a =>
    let bad := a.lanes.filterMap fun o => if a.atEnd s o then (completeFail s a o).map fun f => (o, f.1, f.2) else none
    let fs := oneFrame bad
    if fs.any fun f => lanes.contains f.1.lane then (if canRecord s a fs then lateTraps s a fs else s)
    else (lanes.filter fun l => !(bad.any fun f => f.1.lane == l)).foldl (fun s l => completeLane s id l) s

end Sys2Proof.Machine
end

