-- ==== Sys2Proof/Machine/Image.lean ====
section
/-! DEFINITION. The save image of a group: Tables 14-4 to 14-6, 14-17 and 14-18, and Table 9-1. -/

namespace Sys2Proof.Machine

def stateCode : TState → Nat
  | .ready => 0 | .held => 1 | .parked => 2 | .parkedJoin => 3 | .faultParked => 4 | .halted => 5 | .exited => 6

def slotBits (a : ArrSlot) : Nat := 0x8000 + a.par.toNat * 1024 + a.bar

/-- The 32 bytes of a thread record (Table 14-6). -/
def threadBytes (t : Thread) : List Byte :=
  toBytes 4 t.pc ++ toBytes 1 (stateCode t.st) ++ toBytes 1 t.hf.toNat ++ toBytes 2 t.pend.toNat ++ toBytes 4 t.sig.toNat ++
    toBytes 4 t.mark.toNat ++ toBytes 6 t.pr.toNat ++ toBytes 1 t.fflags.toNat ++ toBytes 1 0 ++
    (List.range 4).flatMap fun i => toBytes 2 ((t.slots[i]?.map slotBits).getD 0)

/-- A named barrier (Table 9-1). -/
def barBits (b : Bar) : Nat :=
  b.ph.toNat + b.fsub * 2 ^ 16 + b.state * 2 ^ 20 + b.arr * 2 ^ 23 + b.exp * 2 ^ 34 + b.gt.toNat * 2 ^ 45 +
    b.chan.toNat * 2 ^ 56 + b.bexp * 2 ^ 64 + b.bcred * 2 ^ 96

/-- A receive window (Table 14-17). -/
def winBytes (x : Win) : List Byte :=
  toBytes 4 x.base ++ toBytes 4 x.len ++ toBytes 4 x.acc.toNat ++
    toBytes 2 (x.opened.toNat * 2 ^ 15 + x.bar.isSome.toNat * 2 ^ 14 + x.bar.getD 0) ++ toBytes 1 x.tl ++ toBytes 1 0 ++
    toBytes 4 x.drop ++ toBytes 12 0

/-- What an entry keeps for a lane in its mask; a uniform access keeps it once for every lane (06 R107). -/
def entryAt {α : Type} (e : LogEntry) (xs : List (Nat × α)) (l : Nat) : Option α :=
  if e.mask.getLsbD l then (mget xs l).orElse fun _ => xs.head?.map (·.2) else none

/-- An operand-log entry (Table 14-18). -/
def entryBytes (e : Option LogEntry) : List Byte :=
  match e with
  | none => List.replicate 2048 0
  | some e =>
    let addr (l : Nat) : Nat := ((entryAt e e.addrs l).getD 0).toNat
    let vals (l : Nat) : List Byte := ((entryAt e e.vals l).getD []).flatMap fun v => toBytes 4 v.toNat
    let pad (n : Nat) (bs : List Byte) : List Byte := (bs ++ List.replicate n 0).take n
    pad 2048 (toBytes 12 e.word.toNat ++ toBytes 4 (1 + e.late.toNat * 2) ++ toBytes 8 e.pc ++ toBytes 4 e.mask.toNat ++ toBytes 36 0 ++
      (List.range 32).flatMap fun l => toBytes 8 (addr l) ++ pad 40 (if e.late then [] else vals l))

def counterBits (c : Counters) (handler : Bool) : Nat :=
  c.ld + c.st * 2 ^ 5 + c.cp * 2 ^ 10 + c.mx * 2 ^ 15 + c.rm * 2 ^ 20 + c.nm * 2 ^ 25 + handler.toNat * 2 ^ 30

/-- Whether a vector register is the one whose row holds the reconvergence masks (08 R140). -/
def maskRow (h : Header) (n : Nat) : Bool := h.depth != 0 && n + 1 == h.vregs

/-- The wave slot from offset 0x280 on (Table 14-5), as (offset, bytes). -/
def waveImage (x : Group) (v : Wave) : List (Nat × List Byte) :=
  let th (l : Nat) : Thread := v.threads.getD l {}
  [ (0x280, toBytes 8 (counterBits v.ctrs v.handler)),
    (0x400, (List.range 32).flatMap fun l => if l < v.threads.length then threadBytes (th l) else List.replicate 32 0),
    (0x800, (List.range 64).flatMap fun n => toBytes 4 (mgetD v.sr n 0).toNat),
    (0x900, (List.range 16).flatMap fun n =>
      let c := mgetD v.conv n {}
      toBytes 4 c.set.toNat ++ toBytes 4 c.sgn.toNat ++ toBytes 8 c.kind),
    (0x1000, (List.range 8).flatMap fun e => entryBytes (mget v.log e)),
    (0x5000, (List.range 32).flatMap fun l => (List.range 8).flatMap fun n =>
      let b := mgetD (th l).br n {}
      toBytes 4 b.lo.toNat ++ toBytes 4 b.hi.toNat ++ toBytes 4 b.flo.toNat ++ toBytes 4 b.fhi.toNat ++ toBytes 4 b.st.toNat),
    (0x6400, (List.range 64).flatMap fun i =>
      let r := mgetD v.latch i {}
      toBytes 64 r.data.toNat ++ toBytes 4 r.scales.toNat),
    (0x8000, (List.range x.hdr.vregs).flatMap fun n => (List.range 32).flatMap fun l =>
      toBytes 4 (if maskRow x.hdr n then mgetD v.rcv l 0 else mgetD (th l).vr n 0).toNat) ]

/-- The join words of a group's threads (R146): those of a live thread are 0. -/
def joinWords (x : Group) : List Byte :=
  let word (t : Thread) : List Byte :=
    if t.st = .exited then toBytes 4 t.join.toNat ++ toBytes 4 1 else List.replicate 8 0
  let bs := (groupThreads x).flatMap word
  bs ++ List.replicate (8192 - bs.length) 0

/-- The group's part of the image (Table 14-4). The completion word stands there already. -/
def groupImage (x : Group) (state : Nat) : List (Nat × List Byte) :=
  [ (0, toBytes 8 (state + x.published.toNat * 16)),
    (0x10, List.replicate 112 0),
    (0x400, joinWords x),
    (0x80, (List.range 16).flatMap fun n => let t := mgetD x.tls n {}; toBytes 8 t.issued ++ toBytes 8 t.value),
    (0x180, (List.range 8).flatMap fun n =>
      let c := mgetD x.wps n {}
      toBytes 4 c.ptr ++ toBytes 4 c.qend ++ toBytes 8 ((c.cause.map fun y => y.1 + y.2.1 * 256).getD 0)),
    (0x200, (List.range 8).flatMap fun n => winBytes (mgetD x.wins n {})),
    (0x300, (List.range 16).flatMap fun n =>
      let b := mgetD x.hbars n {}
      toBytes 16 (b.par.toNat + b.sent.toNat * 2)),
    (0x2400, (List.range x.hdr.barriers).flatMap fun n => toBytes 16 (barBits (mgetD x.bars n {}))),
    (0x8000, scratchBytes x) ]
where
  scratchBytes (x : Group) : List Byte := readN x.scratch 0 x.hdr.scratch

/-- A group's image as (offset in its save area, bytes). -/
def imageOf (x : Group) : List (Nat × List Byte) :=
  groupImage x (placeCode x.place) ++
    ((List.range x.waves.length).zip x.waves).flatMap fun (w, v) => (waveImage x v).map fun p => (0x80000 + 0x10000 * w + p.1, p.2)

/-- Write a group's image into its save area (R311, R318). -/
def writeImage (s : State) (g : Nat) : State :=
  let x := s.group g
  let base := saveVa s g
  (imageOf x).foldl (fun s p => s.sysWrite x.ctx (base + p.1) p.2) s

/-- Write those bytes of an image that have changed. -/
def writeChanged (ctx at_ : Nat) (s : State) (p : List Byte × List Byte) : State :=
  if p.1 = p.2 then s
  else p.2.zipIdx.foldl (fun s b => if p.1[b.2]? = some b.1 then s else s.sysWrite ctx (at_ + b.2) [b.1]) s

/-- What a step has changed of a saved group goes into its image: engines that complete into it, deliveries, a cancel (01 R16,
R311). -/
def saveGroup (old s : State) (g : Nat) : State :=
  let x := old.group g
  let y := s.group g
  if x.place ≠ .swapped ∧ x.place ≠ .loading ∨ y.place ≠ .swapped ∧ y.place ≠ .loading ∧ y.place ≠ .dead ∨ x = y then s
  else
    let base := saveVa s g
    ((imageOf x).zip (imageOf y)).foldl (fun s p => writeChanged y.ctx (base + p.2.1) s (p.1.2, p.2.2)) s

def saveGroups (old s : State) : State := (s.groups.map (·.1)).foldl (saveGroup old) s

/-! ### Reading an image back (R311) -/

def le (bs : List Byte) (off n : Nat) : Nat := ofBytes ((bs.drop off).take n)
def leW (bs : List Byte) (off : Nat) : Word := BitVec.ofNat 32 (le bs off 4)

/-- A thread in the state that a record gives. A state that the image was not written with has no condition of its own: a Held thread,
and one parked by JOIN, executes its instruction again. -/
def withState (t : Thread) (code : Nat) : Thread :=
  if code = stateCode t.st then t
  else
    let st : TState := match code with
      | 2 => .parked | 4 => .faultParked | 5 => .halted | 6 => .exited | _ => .ready
    { t with st := st, hold := .none, joinOp := none }

/-- The thread that a record gives. -/
def readThread (t : Thread) (r : List Byte) : Thread :=
  let slot (i : Nat) : Option ArrSlot :=
    let b := le r (24 + 2 * i) 2
    if bit b 15 then some ⟨b % 1024, bit b 10⟩ else none
  withState
    { t with pc := le r 0 4, hf := bit (le r 5 1) 0, pend := BitVec.ofNat 16 (le r 6 2), sig := leW r 8, mark := leW r 12,
             pr := BitVec.ofNat 48 (le r 16 6), fflags := BitVec.ofNat 5 (le r 22 1), slots := (List.range 4).filterMap slot,
             hazards := [] }
    (le r 4 1)

/-- An operand-log entry that software has changed in the image. -/
def readEntry (old : LogEntry) (b : List Byte) : LogEntry :=
  let ls := lanesOf (leW b 0x18)
  let n (l : Nat) : Nat := ((entryAt old old.vals l).map (·.length)).getD 10
  { old with word := BitVec.ofNat 96 (le b 0 12), late := bit (le b 0xC 4) 1, pc := le b 0x10 8, mask := leW b 0x18
             addrs := ls.map fun l => (l, BitVec.ofNat 64 (le b (0x40 + 48 * l) 8))
             vals := ls.map fun l => (l, (List.range (n l)).map fun i => leW b (0x48 + 48 * l + 4 * i)) }

def readLog (v : Wave) (slot : List Byte) (m : List (Nat × LogEntry)) (e : Nat) : List (Nat × LogEntry) :=
  let b := (slot.drop (0x1000 + 2048 * e)).take 2048
  if b = entryBytes (mget v.log e) then m
  else if bit (le b 0xC 4) 0 then
    mput m e (readEntry ((mget v.log e).getD { word := 0, pc := 0, mask := 0, late := false, op := 0, addrs := [], vals := [], issued := v.counted }) b)
  else mdel m e

/-- One home wave from its slot. -/
def readWave (x : Group) (v : Wave) (slot : List Byte) : Wave :=
  let word (off n : Nat) : Word := leW slot (off + 4 * n)
  let wv := le slot 0x280 8
  let row (n l : Nat) : Word := word (0x8000 + 128 * n) l
  let conv (n : Nat) : Conv := { set := leW slot (0x900 + 16 * n), sgn := leW slot (0x904 + 16 * n), kind := le slot (0x908 + 16 * n) 8 }
  let latch (i : Nat) : LatchRow := { data := BitVec.ofNat 512 (le slot (0x6400 + 68 * i) 64), scales := leW slot (0x6440 + 68 * i) }
  let brk (l n : Nat) : Bracket :=
    let a := 0x5000 + 160 * l + 20 * n
    { lo := leW slot a, hi := leW slot (a + 4), flo := leW slot (a + 8), fhi := leW slot (a + 12), st := leW slot (a + 16) }
  let rows := (List.range x.hdr.vregs).filter fun n => !maskRow x.hdr n
  let thread (p : Thread × Nat) : Thread :=
    let t := readThread p.1 ((slot.drop (0x400 + 32 * p.2)).take 32)
    { t with vr := rows.foldl (fun m n => msetD m n (row n p.2) 0) t.vr
             br := (List.range 8).foldl (fun m n => msetD m n (brk p.2 n) {}) t.br }
  { v with
    ctrs := { ld := wv % 32, st := wv / 2 ^ 5 % 32, cp := wv / 2 ^ 10 % 32, mx := wv / 2 ^ 15 % 32, rm := wv / 2 ^ 20 % 32,
              nm := wv / 2 ^ 25 % 32 }
    handler := wv / 2 ^ 30 % 4 == 1
    sr := (List.range 64).foldl (fun m n => msetD m n (word 0x800 n) 0) v.sr
    sHazards := []
    conv := (List.range 16).foldl (fun m n => msetD m n (conv n) {}) v.conv
    latch := (List.range 64).foldl (fun m i => msetD m i (latch i) {}) v.latch
    log := (List.range 8).foldl (readLog v slot) v.log
    rcv := if x.hdr.depth = 0 then v.rcv else (List.range 32).foldl (fun m k => msetD m k (row (x.hdr.vregs - 1) k) 0) v.rcv
    threads := v.threads.zipIdx.map thread }

/-- A named barrier from the bytes of Table 9-1. -/
def barFrom (old : Bar) (b : Nat) : Bar :=
  { old with ph := bit b 0, fsub := b / 2 ^ 16 % 16, state := b / 2 ^ 20 % 8, arr := b / 2 ^ 23 % 2048, exp := b / 2 ^ 34 % 2048,
             gt := bit b 45, chan := BitVec.ofNat 8 (b / 2 ^ 56), bexp := b / 2 ^ 64 % 2 ^ 32, bcred := b / 2 ^ 96 % 2 ^ 32 }

def winFrom (b : List Byte) : Win :=
  let c := le b 12 2
  { opened := bit c 15, base := le b 0 4, len := le b 4 4, acc := leW b 8, bar := if bit c 14 then some (c % 1024) else none,
    tl := le b 14 1, drop := le b 16 4 }

/-- A channel's pointers and recorded cause; the address of a cause that stands as it was written is kept. -/
def chanFrom (old : Chan) (b : List Byte) : Chan :=
  let c := le b 8 2
  { old with ptr := le b 0 4, qend := le b 4 4,
             cause := if c = 0 then none else some (c % 256, c / 256, (old.cause.map (·.2.2)).getD 0) }

/-- The group's part of its image, of which `b` is the first 0x8000 bytes. -/
def readGroup (x : Group) (b : List Byte) : Group :=
  let at_ (off n : Nat) : List Byte := (b.drop off).take n
  let tl (n : Nat) : Timeline := { mgetD x.tls n {} with issued := le b (0x80 + 16 * n) 8, value := le b (0x88 + 16 * n) 8 }
  let hbar (n : Nat) : HBar := let h := le b (0x300 + 16 * n) 16; { mgetD x.hbars n {} with par := bit h 0, sent := bit h 1 }
  let joined (p : Wave × Nat) : Wave :=
    { p.1 with threads := p.1.threads.zipIdx.map fun t => { t.1 with join := leW b (0x400 + 8 * (32 * p.2 + t.2)) } }
  { x with
    published := bit (le b 0 8) 4
    waves := x.waves.zipIdx.map joined
    tls := (List.range 16).foldl (fun m n => msetD m n (tl n) {}) x.tls
    wps := (List.range 8).foldl (fun m n => msetD m n (chanFrom (mgetD x.wps n {}) (at_ (0x180 + 16 * n) 16)) {}) x.wps
    wins := (List.range 8).foldl (fun m n => msetD m n (winFrom (at_ (0x200 + 32 * n) 32)) {}) x.wins
    hbars := (List.range 16).foldl (fun m n => msetD m n (hbar n) {}) x.hbars
    bars := (List.range x.hdr.barriers).foldl (fun m n => msetD m n (barFrom (mgetD x.bars n {}) (le b (0x2400 + 16 * n) 16)) {}) x.bars }

/-- A restored group takes what its image holds: the image is authoritative while the group is swapped. -/
def readImage (s : State) (g : Nat) : State :=
  let x := s.group g
  let base := saveVa s g
  let one (s : State) (w : Nat) : State :=
    match s.sysRead x.ctx (base + 0x80000 + 0x10000 * w) 0x10000 with
    | some slot => s.modWave g w fun v => readWave x v slot
    | none => s
  let s1 := (List.range x.waves.length).foldl one s
  let s2 := match s1.sysRead x.ctx base 0x8000 with
    | some b => s1.modGroup g fun x => readGroup x b
    | none => s1
  match s2.sysRead x.ctx (base + 0x8000) x.hdr.scratch with
  | some bs => s2.modGroup g fun x => { x with scratch := writeL [] 0 bs }
  | none => s2

end Sys2Proof.Machine
end

