-- ==== Sys2Proof/Machine/Bank.lean ====
section
/-! DEFINITION. The banks of a core: swaps, spills, scrubs, the release of a core, and the unloading of a killed context
(14 R307 to R309, R318, R320, R323). -/

namespace Sys2Proof.Machine

/-- Groups of a context on a core that stand in one of some places. -/
def groupsAt (s : State) (core ctx : Nat) (p : Place → Bool) : List Nat :=
  (s.groups.filter fun (x : Nat × Group) => x.2.core == core && x.2.ctx == ctx && p x.2.place).map (·.1)

def isActive : Place → Bool | .active => true | _ => false
def isShadow : Place → Bool | .shadow => true | _ => false
def isLoading : Place → Bool | .loading => true | _ => false
def isSpilling : Place → Bool | .spilling => true | _ => false
def isHere : Place → Bool | .active => true | .shadow => true | .spilling => true | .loading => true | .migrating => true | _ => false

/-- Waves halt at an instruction boundary: formed waves dissolve, INV pairs end at their round boundary (R132, R139). -/
def haltWaves (x : Group) : Group :=
  { x with formed := [], invs := [], waves := x.waves.map fun v => { v with sel := { v.sel with pair := none, readySince := none } } }

/-- Change the place of groups, and their entries. -/
def moveAll (s : State) (gs : List Nat) (p : Place) : State := gs.foldl (fun s g => setPlace (s.modGroup g haltWaves) g p) s

/-- The banks of a core change places (Table 14-3): its quadrants switch in 64 clocks, in which nothing of it issues. -/
def swapBanks (s : State) (core : Nat) : State :=
  let k := s.core core
  let out := match k.active with | some c => groupsAt s core c isActive | none => []
  let inn := match k.shadow with | some c => groupsAt s core c isShadow | none => []
  (moveAll (moveAll s out .shadow) inn .active).modCore core fun k =>
    { k with active := k.shadow, shadow := k.active, switchEnd := s.clock + 64 }

/-- The spill engine starts on the context in the shadow bank. -/
def startSpill (s : State) (core : Nat) : State :=
  match (s.core core).shadow with
  | none => s
  | some c =>
    (moveAll s (groupsAt s core c isShadow) .spilling).modCore core fun k => { k with shadow := none, spilling := some c }

/-- Whether a context holds a core in any way. -/
def holdsCore (k : Core) (ctx : Nat) : Bool :=
  k.active == some ctx || k.shadow == some ctx || k.loading == some ctx || k.spilling == some ctx

/-- Departing contexts' translations and names are dropped from a core, and from its die where they keep no other core of it
(01 R16, R323). -/
def forget (s : State) (core : Nat) (ctxs : List Nat) : State :=
  let die := core / 48
  let keeps (c : Nat) : Bool := s.cores.any fun (k : Nat × Core) => k.1 / 48 == die && k.1 != core && holdsCore k.2 c
  let gone := ctxs.filter fun c => !keeps c
  let s1 := s.modCore core fun k => { k with tlb := k.tlb.filter fun e => !ctxs.contains e.ctx }
  s1.modDie die fun d =>
    { d with tlb := d.tlb.filter fun e => !gone.contains e.ctx
             nested := d.nested.filter fun e => !gone.contains e.ctx
             names := d.names.filter fun e => !gone.contains (e.1 / 2 ^ 36) }

/-- Contexts depart from a core: private lines go home, and their translations and names are dropped. -/
def depart (s : State) (core : Nat) (ctxs : List Nat) : State := forget (writeBack s core fun _ => true) core ctxs

/-- A group whose core is zeroed loses its registers, predicates, latches, brackets and scratchpad (R323). -/
def zeroGroup (x : Group) : Group :=
  let thread (t : Thread) : Thread := { t with vr := [], pr := 0, br := [], hazards := [] }
  { x with
    scratch := [], scratchPoison := []
    waves := x.waves.map fun v => { v with threads := v.threads.map thread, sr := [], sHazards := [], latch := [], rcv := [] } }

/-- A scrub (R323): both register banks and the scratchpad are zeroed, also under a group of another context that stands in one of
them; a group in its save image is unaffected. -/
def scrub (s : State) (core : Nat) (ctxs : List Nat) : State :=
  let zero (x : Nat × Group) : Nat × Group :=
    if x.2.core = core ∧ (x.2.place = .active ∨ x.2.place = .shadow ∨ x.2.place = .migrating) then (x.1, zeroGroup x.2) else x
  depart { s with groups := s.groups.map zero } core ctxs

/-- A context leaves a core: the other bank, if it is loaded, becomes active, and a ladder for the context ends. -/
def releaseCore (s : State) (core ctx : Nat) : State :=
  let k := s.core core
  let s1 := if k.active = some ctx ∧ k.shadow.isSome then swapBanks s core else s
  let s2 := s1.modCore core fun k =>
    { k with active := if k.active = some ctx then none else k.active, shadow := if k.shadow = some ctx then none else k.shadow,
             ladder := if k.ladderOf = ctx then 0 else k.ladder, slices := mdel k.slices ctx }
  forget s2 core [ctx]

/-- Every context leaves a core that holds no group. -/
def emptyCore (s : State) (core : Nat) : State :=
  let k := s.core core
  let left := [k.active, k.shadow, k.loading].filterMap id
  let s1 := s.modCore core fun k => { k with active := none, shadow := none, loading := none, waits := [], slices := [], ladder := 0 }
  forget s1 core left

/-- The banks of a core are switching (R308). -/
def switching (s : State) (k : Core) : Bool := s.clock < k.switchEnd

/-- Groups are being restored into the shadow bank of a core, or its load engine fills it. -/
def filling (s : State) (core : Nat) : Bool :=
  let k := s.core core
  k.loading.isSome || k.shadow.any fun c => !(groupsAt s core c isLoading).isEmpty

/-- The context that a core's spill engine takes, or is to take. -/
def evicting (k : Core) : Option Nat :=
  k.spilling.orElse fun _ => k.waits.findSome? fun r => match r.2 with | .spill c => some c | _ => none

/-- Step 1 of the ladder ends when every resident group of its context on the core is dead (Table 14-10). -/
def softDone (s : State) (core : Nat) : State :=
  let k := s.core core
  if k.ladder = 1 ∧ (groupsAt s core k.ladderOf isHere).isEmpty then releaseCore s core k.ladderOf else s

/-- A killed context is unloaded once every group is dead, every core released (Table 14-2) and no error record held (R317, R405). -/
def unloadKilled (s : State) (ctx : Nat) : State :=
  if (s.ctx ctx).state ≠ .killing ∨ !(s.ctx ctx).errHeld.isEmpty then s
  else if (s.groups.any fun (x : Nat × Group) => x.2.ctx == ctx && x.2.place != .dead) || s.cores.any (fun k => holdsCore k.2 ctx) then s
  else
    { s with
      ctxs := mdel s.ctxs ctx
      groups := s.groups.filter fun x => x.2.ctx != ctx
      launches := s.launches.filter fun l => l.2.ctx != ctx
      graphs := s.graphs.filter fun g => g.2.ctx != ctx
      moves := s.moves.filter fun m => m.ctx != ctx }

/-- The end of a clock at the cores and contexts. -/
def sweepBanks (s : State) : State :=
  let s1 := (s.cores.map (·.1)).foldl softDone s
  (s1.ctxs.map (·.1)).foldl unloadKilled s1

end Sys2Proof.Machine
end

