-- ==== Sys2Proof/Machine/Hbar.lean ====
section
/-! DEFINITION. Hierarchical barriers between the groups of a launch (09 R188): arrivals, squares and releases. -/

namespace Sys2Proof.Machine

def hbarOf (s : State) (g h : Nat) : HBar := mgetD (s.group g).hbars h {}
def modHbar (s : State) (g h : Nat) (f : HBar → HBar) : State :=
  s.modGroup g fun x => { x with hbars := msetD x.hbars h (f (mgetD x.hbars h {})) {} }

def holdsHbar (h : Nat) : Hold → Bool
  | .hbar x _ => x == h
  | _ => false

/-- A phase whose messages name no level is decided at the package (log 30). -/
def lvlRank : HLvl → Nat
  | .team => 0
  | .die => 1
  | .package => 2

/-- Live groups of a launch that are placed on a core. -/
def launchLive (s : State) (launch : Nat) : List (Nat × Group) :=
  s.groups.filter fun x => x.2.launch == launch && x.2.place != .dead
def onCore (x : Group) : Bool := x.place != .waiting && x.place != .queued

/-- Whether a group stands under a square. -/
def inSquare (lvl : HLvl) (place : Nat) (x : Group) : Bool :=
  match lvl with
  | .team => x.core == place
  | .die => x.core / 48 == place
  | .package => true

/-- Every live thread of the group has executed HBARARR or HBARWAIT on hk in the phase. -/
def hbarAll (x : Group) (h : Nat) : Bool :=
  let ts := (groupThreads x).filter fun t => t.st != .exited
  !ts.isEmpty && ts.all fun t => t.hbarArr.any fun a => a.1 == h

/-- A group that has arrived sends one arrival to its core's team square. -/
def hbarSend (s : State) (g h : Nat) : State :=
  let x := s.group g
  let y := hbarOf s g h
  if onCore x && x.place != .dead && !y.sent && hbarAll x h then
    let m : HbarMsg :=
      { id := s.nextId, launch := x.launch, h := h, lvl := .team, place := x.core, groups := [g], level := y.level, release := false,
        phase := y.phase }
    modHbar { s with nextId := s.nextId + 1, hbarMsgs := s.hbarMsgs ++ [m] } g h fun z => { z with sent := true }
  else s

def sameSquare (a b : HSquare) : Bool := a.launch == b.launch && a.h == b.h && a.lvl == b.lvl && a.place == b.place

/-- Every waiting thread of the launch traps with subcode 11. The arrivals of the phase stay counted (log 129). -/
def trapLaunch (s : State) (launch h : Nat) : State :=
  (launchLive s launch).foldl (fun s x => trapHeld s x.1 0x0C 11 (fun _ => true) (holdsHbar h)) s

/-- The release of a phase: one message to each live group, and the squares are empty again. -/
def releaseHbar (s : State) (launch h : Nat) : State :=
  let ms := launchLive s launch
  let s1 := { s with hsquares := s.hsquares.filter fun q => !(q.launch == launch && q.h == h) }
  ms.foldl (fun s x =>
    { s with nextId := s.nextId + 1,
             hbarMsgs := s.hbarMsgs ++ [{ id := s.nextId, launch := launch, h := h, lvl := .team, place := 0, groups := [x.1],
                                          level := none, release := true, phase := (hbarOf s x.1 h).phase }] }) s1

/-- Whether what stands at a place of a level lies under a square, or is it. -/
def beneath (q : HSquare) (lvl : HLvl) (place : Nat) : Bool :=
  match q.lvl, lvl with
  | .team, .team => place == q.place
  | .die, .team => place / 48 == q.place
  | .die, .die => place == q.place
  | .package, _ => true
  | _, _ => false

/-- A group's arrival counts at another square than those under this one: it was made before the group moved. -/
def countedElsewhere (s : State) (q : HSquare) (g : Nat) : Bool :=
  (s.hsquares.any fun z => z.launch == q.launch && z.h == q.h && z.groups.contains g && !beneath q z.lvl z.place) ||
    s.hbarMsgs.any fun m => !m.release && m.launch == q.launch && m.h == q.h && m.groups.contains g && !beneath q m.lvl m.place

/-- A square decides, or sends its combined count up once every group under it has arrived there or where it stood before. -/
def evalSquare (s : State) (q : HSquare) : State :=
  let named := q.level.getD .package
  let live := launchLive s q.launch
  let unborn := ((mget s.launches q.launch).map fun l => l.ngrp - l.next).getD 0
  if lvlRank named ≤ lvlRank q.lvl then
    if live.any fun x => onCore x.2 && !inSquare q.lvl q.place x.2 then trapLaunch s q.launch q.h
    else if unborn = 0 ∧ live.all fun x => q.groups.contains x.1 then releaseHbar s q.launch q.h
    else s
  else if !q.sent && (live.filter fun x => onCore x.2 && inSquare q.lvl q.place x.2).all fun x =>
      q.groups.contains x.1 || countedElsewhere s q x.1 then
    let up : HLvl × Nat := match q.lvl with | .team => (.die, q.place / 48) | _ => (.package, 0)
    let m : HbarMsg :=
      { id := s.nextId, launch := q.launch, h := q.h, lvl := up.1, place := up.2, groups := q.groups, level := q.level, release := false,
        phase := (hbarOf s (q.groups.headD 0) q.h).phase }
    { s with nextId := s.nextId + 1, hbarMsgs := s.hbarMsgs ++ [m],
             hsquares := s.hsquares.map fun z => if sameSquare z q then { z with sent := true } else z }
  else s

/-- The end of a clock: groups that have arrived send, and squares see the groups that have died. -/
def sweepHbar (s : State) : State :=
  let s1 := s.groups.foldl (fun s x => (List.range 16).foldl (fun s h => hbarSend s x.1 h) s) s
  s1.hsquares.foldl evalSquare s1

/-- A message belongs to a phase that has been released: a group of it has its release, or will have. -/
def staleMsg (s : State) (m : HbarMsg) : Bool :=
  m.groups.any fun g => m.phase < (hbarOf s g m.h).phase ||
    s.hbarMsgs.any fun r => r.release && r.launch == m.launch && r.h == m.h && r.groups == [g] && r.phase == m.phase

/-- A combined arrival reaches a square. Arrivals of one phase that name different levels trap. -/
def execHbarArrivalMessage (id : Nat) (s : State) : Out :=
  match s.hbarMsgs.find? fun m => m.id == id && !m.release with
  | none => .next s
  | some m =>
    let s1 := { s with hbarMsgs := s.hbarMsgs.filter fun x => x.id != id }
    let q0 : HSquare := { launch := m.launch, h := m.h, lvl := m.lvl, place := m.place, groups := [], level := none, sent := false }
    let q := (s1.hsquares.find? fun z => sameSquare z q0).getD q0
    let clash := (match q.level, m.level with | some a, some b => a != b | _, _ => false)
    let q1 := { q with groups := q.groups ++ m.groups.filter fun g => !q.groups.contains g
                       level := q.level.orElse fun _ => m.level
                       sent := false }
    let s2 := { s1 with hsquares := q1 :: s1.hsquares.filter fun z => !sameSquare z q0 }
    .next (if staleMsg s1 m then s1 else if clash then trapLaunch s2 m.launch m.h else evalSquare s2 q1)

/-- A release reaches a group: its parity turns and its waiters see it at the end of the clock. -/
def execHbarReleaseMessage (id : Nat) (s : State) : Out :=
  match s.hbarMsgs.find? fun m => m.id == id && m.release with
  | none => .next s
  | some m =>
    let g := m.groups.headD 0
    let s1 := modHbar { s with hbarMsgs := s.hbarMsgs.filter fun x => x.id != id } g m.h fun z =>
      { par := !z.par, level := none, sent := false, phase := z.phase + 1 }
    .next (s1.modGroup g fun x =>
      { x with waves := x.waves.map fun v => { v with threads := v.threads.map fun t =>
          { t with hbarArr := t.hbarArr.filter fun a => a.1 != m.h } } })

end Sys2Proof.Machine
end

