-- ==== Sys2Proof/Machine/Select.lean ====
section
/-! DEFINITION. Wave selection and dual-path issue (08 R136 to R139, 03 R41 to R47, 04 R63), the fetch, and what follows an
instruction (STALL, YLD, single steps). -/

namespace Sys2Proof.Machine

/-! ### Attributes of the forms (04 Table 4-2) -/

/-- Exclusive issue classes (R63). -/
inductive IClass where
  | memory | matrix | copy | name | barrier | system
  deriving DecidableEq, Repr

def classOf (maj mn : Nat) : Option IClass :=
  match maj with
  | 0x08 => some .memory
  | 0x10 => if mn = 7 then some .barrier else if mn = 12 then some .system else none
  | 0x11 => some .name
  | 0x12 => some .barrier
  | 0x14 => some .memory
  | 0x15 => if mn < 5 then some .copy else if mn = 6 || mn = 8 || mn = 9 then some .barrier else none
  | 0x18 => some .matrix
  | 0x19 => some .matrix
  | 0x1A => some .matrix
  | 0x1C => if mn = 0 || mn = 3 then some .system else none
  | 0x1E => if mn = 1 then some .barrier else if mn = 3 then some .name else some .memory
  | 0x3F => some .system
  | _ => none

def issueClass (i : Instr) : Option IClass := (formOf i).bind fun f => classOf f.maj.toNat f.mn.toNat

/-- The outstanding-operation counter of a form (Table 4-2): 0 ld, 1 st, 2 cp, 3 mx, 4 rm, 5 nm. -/
def counterOf (i : Instr) : Option Nat :=
  match i with
  | .ld .. => some 0
  | .lds .. => some 0
  | .cas .. => some 0
  | .cass .. => some 0
  | .atom _ a _ _ _ _ _ _ _ => if a == .null then some 1 else some 0
  | .atoms _ a _ _ _ _ _ _ => if a == .null then some 1 else some 0
  | .st .. => some 1
  | .sts .. => some 1
  | .cflush .. => some 1
  | .ldto .. => some 4
  | .npost .. => some 4
  | .nread .. => some 4
  | .latchclr _ => none
  | i =>
    match formOf i with
    | some f =>
      let maj := f.maj.toNat
      let mn := f.mn.toNat
      if maj = 0x11 then (if mn = 0 || mn = 3 || mn = 4 || mn = 5 || mn = 6 || mn = 8 || mn = 9 then some 5 else none)
      else if maj = 0x15 then (if mn < 5 then some 2 else none)
      else if maj = 0x18 || maj = 0x19 || maj = 0x1A then some 3
      else none
    | none => none

/-- Whether OPA is only written. -/
def opaDest (i : Instr) : Bool :=
  match formOf i with
  | some f =>
    let mn := f.mn.toNat
    match f.maj.toNat with
    | 0x10 => mn == 2
    | 0x11 => mn != 0 && mn != 9
    | 0x12 => mn == 5
    | 0x14 => mn == 0 || mn == 2 || mn == 10
    | 0x15 => mn == 5 || mn == 7
    | 0x18 => mn == 6
    | 0x19 => false
    | 0x1A => mn == 4
    | 0x1C => mn == 0 || mn == 2
    | 0x1E => mn == 3
    | 0x3F => mn == 2
    | n => n ≤ 0x08
  | none => false

def spanV (x : Kd × Opnd) : List Nat :=
  match x.2 with
  | .v n => (List.range x.1.n).map fun i => n.toNat + i
  | _ => []
def spanS (x : Kd × Opnd) : List Nat :=
  match x.2 with
  | .s n => (List.range x.1.n).map fun i => n.toNat + i
  | _ => []

/-- The registers after the B fragment that hold its scales in scale mode 1 (07 Table 7-1). -/
def scaleRegs : Instr → List Nat
  | .mma8a _ _ (.v n) _ _ => [n.toNat + 16]
  | .mma8b _ _ (.v n) _ _ => [n.toNat + 16]
  | .mma8c _ _ (.v n) _ _ => [n.toNat + 32, n.toNat + 33]
  | .mma4a _ _ (.v n) _ _ => [n.toNat + 16]
  | .mma4b _ _ (.v n) _ _ => [n.toNat + 16]
  | .mma4c _ _ (.v n) _ _ => [n.toNat + 32, n.toNat + 33]
  | _ => []

/-- The operands that an instruction reads: not OPA where it is only written, nor a span of TAKE, a status of JOIN or the registers
that LAND.M names. -/
def readOps (i : Instr) : List (Kd × Opnd) :=
  match i with
  | .take .. => []
  | .join _ _ b _ _ _ => [(Kd.Ref, b)]
  | .land .. => []
  | i => if opaDest i then (sig i).drop 1 else sig i
/-- EXIT reads v0, the join value (08 R164). -/
def exitReads : Instr → List Nat
  | .exit _ => [0]
  | _ => []
def readsV (i : Instr) : List Nat := (readOps i).flatMap spanV ++ scaleRegs i ++ exitReads i
def readsS (i : Instr) : List Nat := (readOps i).flatMap spanS

/-- Whether an instruction executes on the scalar datapath (03 R38): a uniform destination, or the issue once for each home wave
of group 0x08. -/
def onScalar (i : Instr) : Bool :=
  (formOf i).any (fun f => f.maj.toNat == 0x08) ||
    ((opaDest i || isSvc i) && match (sig i).head? with | some (_, .s _) => true | _ => false)
where
  isSvc : Instr → Bool
    | .svc .. => true
    | _ => false

/-- The first word of the INV pair. -/
def isInv : Instr → Bool
  | .inv .. => true
  | _ => false
def isMma (i : Instr) : Bool := (formOf i).any fun f => f.maj.toNat == 0x18 || f.maj.toNat == 0x19
/-- The vector registers that an instruction writes, as its operands name them. -/
def writesV (i : Instr) : List Nat :=
  match i with
  | .take _ _ b _ => spanV (Kd.VSpan 8, b)
  | .join _ a _ c _ _ => spanV (Kd.DV, a) ++ spanV (Kd.St, c)
  | i => if opaDest i || isMma i then ((sig i).take 1).flatMap spanV else []

/-- The multiplying forms and MMAZ occupy the matrix unit, for the clocks of Table 7-1 or R118. -/
def unitClocks : Instr → Nat
  | .mma8a .. => 8 | .mma8b .. => 16 | .mma8c .. => 32
  | .mma4a .. => 8 | .mma4b .. => 16 | .mma4c .. => 32
  | .mma16a .. => 8 | .mma16b .. => 16 | .mma16c .. => 32
  | .mmaz _ _ sh => sh.accRegs / 32
  | _ => 0

/-! ### Which waves are ready (R136) -/

/-- A wave that the issue stage may select: a home wave, or a formed wave by its number. -/
structure Cand where
  g : Nat
  w : Nat
  fid : Option Nat
  rec_ : IssueRec
  ready : List (Nat × Nat)
  deriving DecidableEq, Repr

/-- A wave's key in YIELD's list. -/
def Cand.key (c : Cand) : Nat × Nat := (c.g, match c.fid with | some i => 64 + i | none => c.w)

def away (x : Group) (m : Nat × Nat) : Bool := x.formed.any fun f => f.members.contains m
/-- A thread may issue: Ready, in a group that does not halt, and of a wave at handler level only if it entered it (R314). -/
def isReady (x : Group) (m : Nat × Nat) : Bool :=
  let v := x.waves.getD m.2 {}
  let t := v.threads.getD m.1 {}
  t.st == .ready && (!x.haltReq || t.dbgStep) && (!v.handler || t.hf)
def pcOf (x : Group) (m : Nat × Nat) : Nat := ((x.waves.getD m.2 {}).threads.getD m.1 {}).pc

/-- The threads of a home wave that may issue: the Ready ones that are not away; the single-stepped one alone. A wave that runs
an INV pair issues nothing beside it (R63). -/
def homeReady (x : Group) (w : Nat) : List (Nat × Nat) :=
  let v := x.waves.getD w {}
  let inv := x.invs.any fun r => r.fid.isNone && r.w == w
  let ls := ((List.range v.threads.length).map fun l => (l, w)).filter fun m => !inv && isReady x m && !away x m
  match ls.find? fun m => (v.threads.getD m.1 {}).dbgStep with
  | some m => [m]
  | none => ls

/-- The better of two PCs: held by more threads, and of equals the lower. -/
def betterPc (x : Group) (ms : List (Nat × Nat)) (p q : Nat) : Nat :=
  let n (p : Nat) : Nat := (ms.filter fun m => pcOf x m == p).length
  if n q > n p ∨ (n q = n p ∧ q < p) then q else p

def bestPc (x : Group) (ms : List (Nat × Nat)) : List Nat → Option Nat
  | [] => none
  | p :: ps => some (ps.foldl (betterPc x ms) p)

/-- A ready PC that has waited through 63 issues of its wave; of several the one that waited longest. -/
def starvedPc (r : IssueRec) (pcs : List Nat) : Option Nat :=
  let late := r.pcSeen.filter fun p => pcs.contains p.1 && r.issues ≥ p.2 + 63
  match late with
  | [] => none
  | p :: ps => some (ps.foldl (fun a b => if b.2 < a.2 then b else a) p).1

/-- The first and the second path of a wave. -/
def rankPcs (x : Group) (c : Cand) : List Nat :=
  let pcs := uniq (c.ready.map (pcOf x))
  match starvedPc c.rec_ pcs with
  | some p => p :: ((bestPc x c.ready (pcs.filter (· != p))).toList)
  | none =>
    match bestPc x c.ready pcs with
    | some p => p :: ((bestPc x c.ready (pcs.filter (· != p))).toList)
    | none => []

def decodeAt (s : State) (g w pc : Nat) : Option Instr :=
  match decode (wordAt s g w pc) with
  | .ok i => some i
  | .error _ => none

/-- The space of an access as a bit of a storage mask (02 Table 2-1): scratchpad, local, pool and peer, host. -/
def spaceBit (kind : Nat) : Nat :=
  match kind with
  | 4 => 0
  | 0 => 1
  | 3 => 3
  | _ => 2

/-- Whether a thread has an access that has not performed, of those that a test selects. -/
def unperformed (s : State) (g : Nat) (m : Nat × Nat) (p : Access → LaneOp → Bool) : Bool :=
  s.accesses.any fun a => a.g == g && a.w == m.2 && a.lanes.any fun o => o.got.isNone && (o.lane == m.1 || a.uni) && p a o

/-- ST.rel waits for the thread's earlier accesses to the spaces of its mask, and a memory, copy, matrix or name
instruction waits for the thread's LD.acq (13 R273). -/
def orderWaits (s : State) (g : Nat) (ms : List (Nat × Nat)) (i : Instr) : Bool :=
  (match i with
   | .st _ _ _ _ rel _ _ _ sc => rel && ms.any fun m => unperformed s g m fun _ o => sc.mask.getLsbD (spaceBit o.kind)
   | _ => false) ||
    (match issueClass i with
     | none => (match i with | .jtab .. => ms.any fun m => unperformed s g m fun a _ => a.acq | _ => false)
     | some .barrier => false
     | some .system => false
     | some _ => ms.any fun m => unperformed s g m fun a _ => a.acq)

/-- The counter that an instruction of a home wave raises: its own, that of a matrix operation which its signature may complete
(09 R193), or that of a logged instruction which its RTE issues again (14 R316). -/
def countersOf (v : Wave) (i : Instr) : List Nat :=
  (counterOf i).toList ++
    (match i with
     | .csign _ (.res (.c n)) => if (mgetD v.conv n.toNat {}).kind = 2 then [3] else []
     | .rte _ =>
       match v.frLog.bind fun e => mget v.log e with
       | some e => (match decode e.word with | .ok j => (counterOf j).toList | .error _ => [])
       | none => []
     | _ => [])

/-- An instruction that would take a counter to 31 is held (R47), in a formed wave that of any home wave (R48). -/
def counterFull (s : State) (g : Nat) (ms : List (Nat × Nat)) (i : Instr) : Bool :=
  (wavesOf ms).any fun w => (countersOf (s.wave g w) i).any fun k => 30 ≤ (s.wave g w).ctrs.get k

/-- The barrier that a home wave names (09 R180). -/
def barIndex (s : State) (d : Opnd) (bar : BitVec 10) (m : Nat × Nat) : Nat :=
  bar.toNat + (match d with | .null => 0 | d => (src s m d).toNat)

/-- The barriers that a named-barrier instruction touches for each home wave, with its place in the order of a clock (09 R183). -/
def barKeys (s : State) (i : Instr) : List (Nat × Nat) :=
  let at_ (k : Ctl) (d : Opnd) (bar : BitVec 10) (rank : Nat) : List (Nat × Nat) :=
    let act := actives k s
    (wavesOf act).map fun w => (barIndex s d bar (leadOf act w), placeOf rank w)
  match i with
  | .barinit k _ d bar => at_ k d bar 0
  | .barbyte k _ _ d bar => at_ k d bar 1
  | .bararr k d bar => at_ k d bar 3
  | .barwait k d bar => at_ k d bar 3
  | .barsync k d bar => at_ k d bar 3
  | .bartry k _ d bar => at_ k d bar 3
  | _ => []

/-- An instruction of a barrier that would come before an event which the barrier has seen in this clock issues in the next. -/
def barWaits (s : State) (g : Nat) (ms : List (Nat × Nat)) (i : Instr) : Bool :=
  (barKeys { s with cur := { g := g, members := ms } } i).any fun x => !inOrder s g x.1 x.2

/-- Whether an instruction has to wait on its own account: a counter at 30 (R47), a full operand log (12 R241; a JTAB may park
too), a scalar load or a matrix operation that still writes what it reads (R43, R117), the matrix unit (R118), the order of
accesses or that of a barrier's events. -/
def waitsItself (s : State) (g quad core : Nat) (ms : List (Nat × Nat)) (i : Instr) : Bool :=
  counterFull s g ms i ||
  ((wavesOf ms).any fun w =>
    let v := s.wave g w
    ((issueClass i == some .memory || issueClass i == some .copy || isJtab i) && 8 ≤ v.log.length) ||
      (v.sPending.any fun p => (readsS i).contains p.1) || (v.accPending.any fun p => (readsV i).contains p.1)) ||
    (unitClocks i != 0 && s.clock < mgetD s.unitBusy (4 * core + quad) 0) || orderWaits s g ms i || barWaits s g ms i
where
  isJtab : Instr → Bool
    | .jtab .. => true
    | _ => false

/-- The threads of a home wave that are held at a signing point of c. -/
def signers (s : State) (g w c : Nat) : List (Nat × Nat) := (heldOn (s.group g) (holdsSign c)).filter fun m => m.2 == w

/-- Whether the matrix form that the signers of a home wave hold has to wait. -/
def signersWait (s : State) (g c w : Nat) : Bool :=
  match signers s g w c with
  | [] => false
  | m :: ms =>
    match decodeAt s g w (s.thread g w m.1).pc with
    | some i => waitsItself s g (s.wave g w).quad (s.group g).core (m :: ms) i
    | none => false

/-- Whether a delivery that a window has accepted is still being placed: an RXCLOSE takes effect after it (21 R401). -/
def placingTo (s : State) (g win : Nat) : Bool :=
  s.ldtos.any fun o => o.win == win && (o.stage matches .placing _ _) &&
    (match o.target with | .group c n _ _ => c == (s.group g).ctx && n == (s.group g).num | .notify _ => false)

/-- Whether an instruction has to wait: also a signature that completes the set of a matrix form which has to (09 R193). -/
def mustWait (s : State) (g quad core : Nat) (ms : List (Nat × Nat)) (i : Instr) : Bool :=
  waitsItself s g quad core ms i ||
    (match i with
     | .rxclose _ _ win => placingTo s g win.toNat
     | .csign k (.res (.c n)) =>
       let act := actives k { s with cur := { g := g, members := ms } }
       (wavesOf act).any fun w =>
         let x := s.conv g w n.toNat
         x.kind == 2 && (x.sgn ||| maskOf (waveLanes act w)) == x.set && signersWait s g n.toNat w
     | _ => false)

/-- What a test says of the instruction that a wave's ready threads have at a PC. -/
def testAt (s : State) (c : Cand) (pc : Nat) (p : List (Nat × Nat) → Nat → Instr → Bool) : Bool :=
  let ms := c.ready.filter fun m => pcOf (s.group c.g) m == pc
  let w := (ms.headD (0, c.w)).2
  match decodeAt s c.g w pc with
  | some i => p ms w i
  | none => false

def blockedAt (s : State) (c : Cand) (pc : Nat) : Bool :=
  testAt s c pc fun ms w i => mustWait s c.g ((s.group c.g).waves.getD w {}).quad (s.group c.g).core ms i

/-! ### Pairs of one clock (R63) -/

/-- Whether two instructions of a wave may issue in one clock (R63): not of one exclusive class, not both on the scalar datapath,
and an INV beside nothing. -/
def mayPair (i j : Instr) : Bool :=
  (issueClass i != issueClass j || (issueClass i).isNone) && !(onScalar i && onScalar j) && !isInv i && !isInv j

/-- The words of two PCs may pair; a word that does not decode has no class. -/
def pairsAt (s : State) (c : Cand) (p q : Nat) : Bool :=
  let at_ (p : Nat) : Option Instr := decodeAt s c.g ((c.ready.find? fun m => pcOf (s.group c.g) m == p).getD (0, c.w)).2 p
  match at_ p, at_ q with
  | some i, some j => mayPair i j
  | some i, none => !isInv i
  | none, some j => !isInv j
  | none, none => true

/-- A wave is ready: a Ready thread, its gap elapsed, its first path not held, and no counter that holds its second (R47). -/
def Cand.isReady (s : State) (c : Cand) : Bool :=
  !c.ready.isEmpty && c.rec_.next ≤ s.clock &&
    (match rankPcs (s.group c.g) c with
     | p :: q :: _ => !blockedAt s c p && !(pairsAt s c p q && testAt s c q fun ms _ i => counterFull s c.g ms i)
     | [p] => !blockedAt s c p
     | [] => false)

/-- The waves of a quadrant whose context is active and may issue. -/
def cands (s : State) (core quad : Nat) : List Cand :=
  s.groups.flatMap fun gx =>
    let x := gx.2
    if x.core = core ∧ x.place = .active ∧ (s.ctx x.ctx).state = .runnable ∧ (s.core core).active = some x.ctx ∧ !switching s (s.core core) then
      (((List.range x.waves.length).filter fun w => (x.waves.getD w {}).quad == quad).map fun w =>
        { g := gx.1, w := w, fid := none, rec_ := (x.waves.getD w {}).sel, ready := homeReady x w : Cand }) ++
      ((x.formed.filter fun f => f.quad == quad).map fun f =>
        { g := gx.1, w := (f.members.headD (0, 0)).2, fid := some f.id, rec_ := f.sel,
          ready := if x.invs.any (fun r => r.fid == some f.id) then [] else f.members.filter (isReady x) : Cand })
    else []

/-- YLD and YIELD (R44, R161). -/
def deferred (s : State) (others : List Cand) (c : Cand) : Bool :=
  (match c.rec_.hint with | some t => s.clock ≤ t + 1 | none => false) ||
    (match c.rec_.defer with
     | .none => false
     | .yield ks t => s.clock < t && ks.any fun k => others.any fun o => o.key == k)

def olderCand (a b : Cand) : Cand := if b.rec_.age < a.rec_.age then b else a

def oldest : List Cand → Option Cand
  | [] => none
  | c :: cs => some (cs.foldl olderCand c)

/-- W (R136, R137): the oldest starved wave; else the oldest that is not deferred; else the oldest. -/
def selectWave (s : State) (core quad : Nat) : Option Cand :=
  let rs := (cands s core quad).filter (Cand.isReady s)
  let starved := rs.filter fun c => match c.rec_.readySince with | some t => t + 16 ≤ s.clock | none => false
  match oldest starved with
  | some c => some c
  | none =>
    match oldest (rs.filter fun c => !deferred s rs c) with
    | some c => some c
    | none => oldest rs

/-! ### What issues -/

/-- The second path issues beside the first where R63 allows the pair and nothing holds it. -/
def maySecond (s : State) (c : Cand) (p q : Nat) : Bool := pairsAt s c p q && !blockedAt s c q

def modSel (s : State) (g : Nat) (w : Nat) (fid : Option Nat) (f : IssueRec → IssueRec) : State :=
  match fid with
  | none => s.modWave g w fun v => { v with sel := f v.sel }
  | some i => s.modGroup g fun x => { x with formed := x.formed.map fun y => if y.id = i then { y with sel := f y.sel } else y }

/-- Every thread of the issuing wave at its position. -/
def positionsOf (x : Group) (c : Cand) : List (Nat × Nat) :=
  match c.fid with
  | some i => ((x.formed.find? fun f => f.id == i).map (·.members)).getD []
  | none => (List.range (x.waves.getD c.w {}).threads.length).map fun l => (l, c.w)

def curOf (s : State) (c : Cand) (pc : Nat) : Issue :=
  let x := s.group c.g
  let ms := c.ready.filter fun m => pcOf x m == pc
  { g := c.g, w := c.w, formed := c.fid.isSome, fid := c.fid.getD 0, members := ms, positions := positionsOf x c, pc := pc,
    word := wordAt s c.g ((ms.headD (0, c.w)).2) pc }

/-- The record of a selection: what issues, and the PCs still waiting. -/
def issuedRec (s : State) (x : Group) (c : Cand) (ps : List Nat) (second : Option Nat) (r : IssueRec) : IssueRec :=
  let n := r.issues + 1
  let pcs := uniq (c.ready.map (pcOf x))
  { r with issues := n, readySince := none, defer := .none, hint := none,
           pair := second.map fun p => (p, s.clock, c.ready.filter fun m => pcOf x m == p),
           pcSeen := pcs.map fun p => (p, if ps.contains p then n else mgetD r.pcSeen p (n - 1)) }

/-- A second path that waits to issue in this clock: the threads that stood there when the wave was selected. It is held after all
where the first has filled a counter (R47), or its barrier has seen a later event of the clock (09 R183). -/
def pairCand (s : State) (core quad : Nat) : Option (Cand × Nat) :=
  (cands s core quad).findSome? fun c =>
    match c.rec_.pair with
    | some (p, t, ms) =>
      let d := { c with ready := c.ready.filter ms.contains }
      if t = s.clock ∧ d.ready.any (fun m => pcOf (s.group c.g) m == p) ∧
          !(testAt s d p fun ms _ i => counterFull s c.g ms i || barWaits s c.g ms i) then some (d, p) else none
    | none => none

/-- The choice of a quadrant's issue stage: the state with the selection recorded and `cur` set, or none. -/
def choose (s : State) (core quad : Nat) : Option State :=
  match pairCand s core quad with
  | some (c, p) =>
    let s1 := { s with cur := curOf s c p }
    some (modSel s1 c.g c.w c.fid fun r => { r with pair := none })
  | none =>
    if s.clock < mgetD s.quadNext (4 * core + quad) 0 then none
    else
      (selectWave s core quad).bind fun c =>
        match rankPcs (s.group c.g) c with
        | [] => none
        | p :: rest =>
          let second := rest.head?.bind fun q => if maySecond s c p q then some q else none
          let s1 := { s with cur := curOf s c p, quadNext := mput s.quadNext (4 * core + quad) (s.clock + 1) }
          some (modSel s1 c.g c.w c.fid (issuedRec s (s.group c.g) c (p :: second.toList) second))

/-! ### The fetch (12 Table 12-2 for X) -/

inductive Fetch where
  | ok | fail (cause sub : Nat) (va : Nat) | park (va : Nat)
  deriving DecidableEq, Repr

/-- Check the bytes of the word at a PC, which may lie on two pages. -/
def fetchAt (s : State) (g w pc : Nat) : Fetch :=
  let x := s.group g
  let va := codeBase s g w + pc
  let one (a : Nat) (rest : Fetch) : Fetch :=
    match check s x.ctx x.core (a % 2 ^ 64) 1 .x with
    | .ok _ => rest
    | .absent _ => rest
    | .fail c sub => .fail c sub a
    | .park _ => .park a
  one va (one (va + 11) .ok)

def fetchCheck (s : State) : Fetch := fetchAt s s.cur.g ((s.cur.members.headD (0, s.cur.w)).2) s.cur.pc

/-- A fetch leaves its translations in the TLBs, and takes a private page that has no owner (R227). -/
def fetchTouch (s : State) : State :=
  let x := s.cg
  let va := codeBase s s.cur.g ((s.cur.members.headD (0, s.cur.w)).2) + s.cur.pc
  let one (s : State) (a : Nat) : State :=
    match check s x.ctx x.core (a % 2 ^ 64) 1 .x with
    | .ok t => takeOwner (fill s x.ctx x.core (a % 2 ^ 64) t) x.ctx (a % 2 ^ 64) x.core t
    | _ => s
  one (one s va) (va + 11)

/-- The issuing threads are parked for the page of their instruction; no operand-log entry holds a word that is not fetched (log 84). -/
def parkFetch (s : State) : State :=
  let g := s.cur.g
  let ms := s.cur.members
  let s1 := ms.foldl (fun s m => s.modThread g m.2 m.1 fun t => { t with st := .faultParked, hold := .none }) s
  let s2 := (wavesOf ms).foldl (fun s w => s.modWave g w fun v => { v with fetchWait := v.fetchWait ++ [(s.cur.pc, maskOf (waveLanes ms w))] }) s1
  s2.modGroup g fun x => x.endFormed s.clock fun f => f.members.any ms.contains

/-- A residence request for a page that an access needs (12 R242 to R244). -/
def requestPage (s : State) (ctx va : Nat) : State :=
  let page := va - va % 4096
  if s.moves.any fun m => m.ctx == ctx && m.va == page && (m.ended.isNone || m.refused) && !m.toHost then s
  else
    { s with nextId := s.nextId + 1,
             moves := s.moves ++ [{ id := s.nextId, ctx := ctx, va := page, toHost := false, asked := s.clock }] }

/-- A page that the host driver has refused (12 R242). -/
def refusedPage (s : State) (ctx va : Nat) : Bool :=
  s.moves.any fun m => m.ctx == ctx && m.va == va - va % 4096 && m.refused

/-- A refusal is forgotten once no thread of the context is parked on the page: a later access asks again. -/
def clearRefused (s : State) (ctx va : Nat) : State :=
  let page := va - va % 4096
  let waits (x : Group) (v : Wave) : Bool := x.ctx == ctx && v.log.any fun (e : Nat × LogEntry) =>
    (lanesOf e.2.mask).any (fun l => (v.threads.getD l {}).st == .faultParked) &&
      e.2.addrs.any fun a => a.2.toNat - a.2.toNat % 4096 == page
  if s.groups.any fun x => x.2.waves.any (waits x.2) then s
  else { s with moves := s.moves.filter fun m => !(m.ctx == ctx && m.va == page && m.refused) }

/-- The page service at work on a page that an access of a core cannot use yet. -/
def servePage (s : State) (ctx core va : Nat) (acc : Acc) : State :=
  match check s ctx core va 1 acc with
  | .park .notPresent => requestPage s ctx va
  | .park .migrating => s
  | .park _ => resolve s ctx core va acc
  | _ => s

/-- The trap of a fetch that a check refuses, for every thread that reached the word. -/
def fetchTrap (s : State) (cause sub va : Nat) : State :=
  takeTrap s s.cur.g
    { cause := cause, sub := sub, lanes := s.cur.members, addrs := s.cur.members.map fun m => (m, BitVec.ofNat 64 va),
      pc := s.cur.pc, word := s.cur.word, frm := s.cur.formed }

/-! ### Decoding what was fetched (03 R35, 04 R65, R66) -/

/-- Whether the word after an INV is a CALLM that the pair accepts (R66), well-formed (log 125). -/
def pairOk (s : State) (g w pc : Nat) : Bool :=
  inCode s g w (pc + 12) &&
    (match decodeAt s g w (pc + 12) with
     | some (.callm k _) => !k.gn && k.gp == 63
     | _ => false)

/-- A word whose form needs a header flag that is clear (R56), by its MAJ and MIN: PARK to NPROBE, and INV. -/
def flagClear (l : Limits) (w : IWord) : Bool :=
  let op := w.toNat / 2 ^ 86
  (op / 16 == 0x11 && 2 ≤ op % 16 && op % 16 ≤ 8 && !l.names) || (op == 0x1C * 16 && !l.invert)

/-- The instruction that a word at a place of a group's code stands for, or its decoding fault; of several the lowest cause
code. -/
def decodeWord (s : State) (g w pc : Nat) (word : IWord) : Except DecErr Instr :=
  let lim := (s.group g).hdr.limits (s.wave g w).handler
  let inv := word.toNat / 2 ^ 86 == 0x1C * 16
  if flagClear lim word || (inv && !pairOk s g w pc) then .error .illegalOp
  else
    match decode word with
    | .error e => .error e
    | .ok i =>
      match limitErr lim i with
      | some e => .error e
      | none => .ok i

/-- The instruction that issues, or its decoding fault. -/
def decodeCur (s : State) : Except DecErr Instr :=
  decodeWord s s.cur.g ((s.cur.members.headD (0, s.cur.w)).2) s.cur.pc s.cur.word

def decCause : DecErr → Nat
  | .illegalOp => 1
  | .illegalOperand => 2
  | .privilege => 3

/-! ### After an instruction -/

/-- G(n) of the kernel header (R41). -/
def gapOf (x : Group) (n : Nat) : Nat := if n = 0 then 0 else x.hdr.gaps.getD n n

/-- Whether the word at a member's PC ends a formed wave: a regroup point or RCVWAIT (R139). -/
def endsFormed (s : State) (g : Nat) (m : Nat × Nat) : Bool :=
  let x := s.group g
  let w := (wordAt s g m.2 (pcOf x m)).toNat
  (x.hdr.regroup && bit w 5) || (w / 2 ^ 86 % 1024 == 0x10 * 16 + 7)

/-- Whether a member ends its formed wave: it stands at a regroup point or RCVWAIT, or it is parked or halted (R139). -/
def leavesFormed (s : State) (g : Nat) (m : Nat × Nat) : Bool :=
  let t := s.thread g m.2 m.1
  (t.st != .ready && t.st != .held && t.st != .exited) || (t.st == .ready && endsFormed s g m)

/-- After an issue of a formed wave: it dissolves once a member has left it. -/
def reform (s : State) (g : Nat) : State := s.modGroup g fun x => x.endFormed s.clock fun f => f.members.any (leavesFormed s g)

/-- After a step that did not issue a formed wave: it dissolves where the step has moved a member so that it leaves. -/
def reformMoved (old s : State) : State :=
  let moved (g : Nat) (m : Nat × Nat) : Bool :=
    let t := s.thread g m.2 m.1
    let u := old.thread g m.2 m.1
    (t.st != u.st || t.pc != u.pc) && leavesFormed s g m
  (s.groups.filter fun x => !x.2.formed.isEmpty).foldl (fun t x =>
    t.modGroup x.1 fun y => y.endFormed s.clock fun f => f.members.any (moved x.1)) s

/-- The end of a clock: no second path is left to issue, and formed waves that were to dissolve have. -/
def sweepFormed (s : State) : State :=
  { s with groups := s.groups.map fun (x : Nat × Group) => (x.1, x.2.dropFormed Formed.ending) }

/-- Clocks until the wave's next issue (R41), the larger of the two gaps where two paths issue; the YLD hint (R44). -/
def stallRec (clock gap : Nat) (yld : Bool) (r : IssueRec) : IssueRec :=
  { r with next := max r.next (clock + gap + 1), hint := if yld then some clock else r.hint }

/-- YIELD lists of the other waves of a quadrant lose a wave that has issued. -/
def issuedOnce (s : State) (key : Nat × Nat) : State :=
  let f (r : IssueRec) : IssueRec :=
    match r.defer with
    | .yield ks t => { r with defer := .yield (ks.filter (· != key)) t }
    | _ => r
  { s with groups := s.groups.map fun (x : Nat × Group) =>
      (x.1, { x.2 with waves := x.2.waves.map fun v => { v with sel := f v.sel }
                       formed := x.2.formed.map fun y => { y with sel := f y.sel } }) }

/-- Members whose thread will be followed by a step: single-stepped threads, and lanes of hstep at user level (14 R325). -/
def steppers (s : State) : List (Nat × Nat × Nat) :=
  (s.cur.members.filter fun m =>
    let v := s.wave s.cur.g m.2
    (v.threads.getD m.1 {}).dbgStep || (!v.handler && v.hstep.getLsbD m.1)).map fun m => (s.cur.g, m.2, m.1)

/-- An issue counts one for each home wave whose threads take part (12 R242); one that leaves all of them Held counts when it
lets the first of them go (19 R391). -/
def countIssue (s : State) (g pc : Nat) (ms : List (Nat × Nat)) : State :=
  (wavesOf ms).foldl (fun s w =>
    if (ms.filter fun m => m.2 == w).all fun m => (s.thread g m.2 m.1).st == .held then
      s.modWave g w fun v => { v with owed := v.owed ++ [(pc, maskOf (waveLanes ms w))] }
    else s.modWave g w fun v => { v with counted := v.counted + 1 }) s

/-- Whether a thread still waits at an instruction, also where a handler has entered it. -/
def stillHeld (pc : Nat) (t : Thread) : Bool :=
  (t.st == .held && t.pc == pc) || (t.hf && t.savedSt == .held && t.savedPc == pc)

/-- The issues that let their first thread go are counted. -/
def settleOwed (s : State) : State :=
  let one (v : Wave) : Wave :=
    if v.owed.isEmpty then v
    else
      let keep := v.owed.filter fun e => (lanesOf e.2).all fun l => stillHeld e.1 (v.threads.getD l {})
      { v with owed := keep, counted := v.counted + (v.owed.length - keep.length) }
  { s with groups := s.groups.map fun x => (x.1, { x.2 with waves := x.2.waves.map one }) }

/-- A row that WLANE wrote in this clock keeps that value over what the other path's instruction writes there (06 R106). -/
def afterLaneW (clock : Nat) (ws : List Nat) (t : Thread) : Thread :=
  { t with vr := t.laneW.foldl (fun r e => if e.2.2 = clock ∧ ws.contains e.1 then msetD r e.1 e.2.1 0 else r) t.vr }

/-- The accesses and name operations that an issue has made leave the rows that WLANE wrote in this clock. -/
def spareRows (s0 s : State) : State :=
  let kept (g w l : Nat) : List Nat := ((s.thread g w l).laneW.filter fun e => e.2.2 == s0.clock).map (·.1)
  let keptBy (x : Sender) : List Nat := match x with | .thread g w l => kept g w l | _ => []
  { s with
    accesses := s.accesses.map fun a =>
      if s0.nextId ≤ a.id ∧ a.g = s0.cur.g ∧ a.kind ≠ .sload then
        { a with lanes := a.lanes.map fun o => { o with dst := (kept a.g a.w o.lane).foldl (fun d n => dropRow n d) o.dst } }
      else a
    nameOps := s.nameOps.map fun o =>
      if s0.nextId ≤ o.id then { o with dst := (keptBy o.sender).foldl (fun d n => dropDst n d) o.dst } else o
    joins := s.joins.map fun j =>
      if s0.nextId ≤ j.id then
        { j with dst := (keptBy j.sender).foldl (fun d n => dropDst n d) j.dst, sdst := (keptBy j.sender).foldl (fun d n => dropDst n d) j.sdst }
      else j
    takes := s.takes.map fun o =>
      if s0.nextId ≤ o.id then
        { o with born := s0.clock, spared := o.lanes.flatMap fun m => (kept o.g m.2 m.1).map fun n => (m.1, m.2, n) }
      else o }

/-- The rows of a group's home wave that WLANE has written in this clock, as (lane, register). -/
def laneRows (s : State) (g w : Nat) : List (Nat × Nat) :=
  ((s.wave g w).threads.zipIdx).flatMap fun x => (x.1.laneW.filter fun e => e.2.2 == s.clock).map fun e => (x.2, e.1)

/-- The vector registers that the issuing instruction writes in its lanes: CALLM writes the link pair that its target names (07 R129). -/
def writesNow (s0 : State) (i : Instr) : List Nat :=
  match i with
  | .callm _ off =>
    let t : Int := s0.cur.pc + 12 * off.toInt
    (match (if 0 ≤ t then decodeAt s0 s0.cur.g ((s0.cur.members.headD (0, s0.cur.w)).2) t.toNat else none) with
     | some (.land _ _ _ _ (.v n) _ true _) => [n.toNat, n.toNat + 1]
     | _ => [])
  | i => writesV i

/-- The rows that an instruction writes, as (lane, home wave, register): those of its active lanes, or the targets of WLANE. -/
def rowsWritten (s0 : State) (i : Instr) : List (Nat × Nat × Nat) :=
  match i with
  | .wlane k (.v n) _ c => (actives k s0).map fun m => ((src s0 m c).toNat % 32, m.2, n.toNat)
  | i => (actives (ctlOf i) s0).flatMap fun m => (writesNow s0 i).map fun r => (m.1, m.2, r)

/-- Matrix results that an instruction has overwritten: an instruction that trapped has overwritten none (07 R117). A new operation
does not write the rows of its issuing lanes that WLANE has written in this clock (06 R106). -/
def touchMatrix (s0 s : State) (i : Instr) : State :=
  let c := s0.cur
  let rows := rowsWritten s0 i
  let old := s0.matrix.map (·.id)
  if s.matrix.isEmpty then s else
    { s with matrix := s.matrix.map fun o =>
        if o.g = c.g ∧ !old.contains o.id then
          let ls := if (writesV i).isEmpty then [] else waveLanes c.members o.w
          let kept := laneRows s0 o.g o.w
          { o with fresh := some (s0.clock, ls)
                   writes := o.writes.filter fun x => !(ls.contains x.1 && kept.contains (x.1, x.2.1))
                   touched := uniq (o.touched ++ kept) }
        else if o.g = c.g ∧ !((s.wave c.g o.w).handler && !(s0.wave c.g o.w).handler) then
          { o with touched := uniq (o.touched ++ (rows.filter fun x => x.2.1 == o.w).map fun x => (x.1, x.2.2)) }
        else o }

/-- The end of an issue: gap, hints, formed waves, the matrix registers that it overwrote, the threads being stepped. -/
def afterIssue (s0 s : State) (i : Option Instr) : State :=
  let k := match i with | some i => ctlOf i | none => ⟨false, 63, 0, false, false, false, false, false⟩
  let c := s0.cur
  let fid := if c.formed then some c.fid else none
  let s1 := modSel (countIssue s c.g c.pc c.members) c.g c.w fid (stallRec s0.clock (gapOf (s0.group c.g) k.stall.toNat) k.yld)
  let wv := match i with | some i => writesNow s0 i | none => []
  let s1 := c.members.foldl (fun s m => s.modThread c.g m.2 m.1 (afterLaneW s0.clock wv)) (spareRows s0 s1)
  let s2 := if c.formed then reform s1 c.g else s1
  let s3 := issuedOnce s2 (c.g, if c.formed then 64 + c.fid else c.w)
  let s5 := match i with | some i => touchMatrix s0 s3 i | none => s3
  let due := (steppers s0).filter fun x => !(((s5.wave x.1 x.2.1).handler) && !((s0.wave x.1 x.2.1).handler))
  { s5 with stepping := s5.stepping ++ due.filter fun x => !s5.stepping.contains x }

/-- Stepped threads that have completed their instruction, an INV pair with its last round (07 R132): a single-stepped one halts,
the lanes of hstep trap, one PC of a home wave at a time (14 R324, R325). -/
def settleSteps (s : State) : State :=
  s.stepping.foldl (fun s x =>
    let t := s.thread x.1 x.2.1 x.2.2
    let v := s.wave x.1 x.2.1
    let drop (s : State) : State := { s with stepping := s.stepping.filter (· != x) }
    if !(s.stepping.contains x) then s
    else if t.st = .exited then drop s
    else if t.st ≠ .ready ∨ (s.group x.1).invs.any (fun r => r.issue.contains (x.2.2, x.2.1)) then s
    else if t.dbgStep then drop (s.modThread x.1 x.2.1 x.2.2 fun t => { t with st := .halted, dbgStep := false })
    else if v.handler then s
    else
      let mates := s.stepping.filter fun y =>
        y.1 == x.1 && y.2.1 == x.2.1 && (s.thread y.1 y.2.1 y.2.2).st == .ready && (s.thread y.1 y.2.1 y.2.2).pc == t.pc &&
          !(s.thread y.1 y.2.1 y.2.2).dbgStep
      let s1 := takeTrap s x.1 { cause := 0x22, lanes := mates.map fun y => (y.2.2, y.2.1), pc := t.pc,
                                 word := wordAt s x.1 x.2.1 t.pc }
      { s1 with stepping := s1.stepping.filter fun y => !mates.contains y }) s

/-! ### Regrouping (R138) -/

/-- Members in ascending lane. -/
def byLane (ms : List (Nat × Nat)) : List (Nat × Nat) := (List.range 32).flatMap fun l => ms.filter fun m => m.1 == l

/-- Form a wave at a regroup point, where the issue stage may. The formed wave starts with no STALL gap (log 123). -/
def regroup (s : State) (g pc : Nat) (listed : List (Nat × Nat)) : State :=
  let x := s.group g
  let ms := byLane listed
  let m0 := ms.headD (0, 0)
  let quad := (s.wave g m0.2).quad
  let inQuad := (s.groups.flatMap fun y => if y.2.core = x.core then y.2.formed.filter fun f => f.quad == quad else []).length
  let first := (selectWave s x.core quad).bind fun c => (rankPcs (s.group c.g) c).head?.map fun p => (c, p)
  let ok := match first with
    | some (c, p) => c.g == g && p == pc && ms.any (fun m => c.ready.contains m)
    | none => false
  if ok && x.hdr.regroup && bit (wordAt s g m0.2 pc).toNat 5 && !(s.wave g m0.2).handler && inQuad < 4 &&
      ms.all (fun m => isReady x m && !away x m && pcOf x m == pc && (x.waves.getD m.2 {}).quad == quad &&
        !(x.waves.getD m.2 {}).handler && !((x.waves.getD m.2 {}).threads.getD m.1 {}).dbgStep) &&
      ((uniq (ms.map (·.1))).length == ms.length) then
    let age := (ms.map fun m => (x.waves.getD m.2 {}).sel.age).foldl min (s.wave g m0.2).sel.age
    { s.modGroup g fun x =>
        { x with formed := x.formed ++ [{ id := s.nextId, quad := quad, members := ms, sel := { age := age, next := s.clock } }] }
      with nextId := s.nextId + 1 }
  else s

/-! ### The clock -/

/-- What the end of a clock notes of a wave: since when it is ready and unselected (R137), and of the waves that its YIELD waits
for those that are still ready (R161). -/
def noteReady (clock : Nat) (ready : List (Nat × Nat)) (key : Nat × Nat) (r : IssueRec) : IssueRec :=
  { r with
    readySince := if ready.contains key then some (r.readySince.getD clock) else none
    defer := match r.defer with
      | .yield ks t => .yield (ks.filter ready.contains) t
      | .none => .none }

def markReady (s : State) : State :=
  let quads := (s.cores.map (·.1)).flatMap fun c => (List.range 4).map fun q => (c, q)
  quads.foldl (fun s q =>
    let cs := cands s q.1 q.2
    let ready := (cs.filter (Cand.isReady s)).map Cand.key
    cs.foldl (fun s c => modSel s c.g c.w c.fid (noteReady s.clock ready c.key)) s) s

/-- The arithmetic clock and the reference timer advance. -/
def tick (s : State) (clocks ns : Nat) : State :=
  let s0 := sweepHbar (settleOwed (settleTraps (settle (pauseBins (settleBins s) clocks))))
  let s1 := markReady (sweepBanks (settleQueues s0))
  { s1 with clock := s1.clock + clocks, ns := s1.ns + ns }

/-- Events are the rows of the opcode table that are no word of the device or of a hart. -/
def isEvent (i : Instr) : Bool := (formOf i).isNone && (encodeHart i).isNone

/-- A line of a core's private cache is evicted: its dirty bytes go home (12 R229). -/
def evictLine (s : State) (core line : Nat) : State := writeBack s core fun k => k / 128 == line

/-- A line of local memory is lost to an uncorrectable error (12 R233). -/
def poisonLine (s : State) (line : Nat) : State :=
  { s with poison := if s.poison.any fun l => l.1 == line then s.poison else (line, 1) :: s.poison }

/-- Errors in two words of one row of a parity set poison the row's words (12 R235): the set of word offset o holds banks 8q to
8q + 7, so its row is the aligned 32 bytes that hold o. DEDUCED: subcode 1 of DATA_POISON, a local line (log 89). -/
def poisonRow (s : State) (g o : Nat) : State :=
  s.modGroup g fun x =>
    { x with scratchPoison := ((List.range 32).map fun j => (o / 32 * 32 + j, 1)) ++
        x.scratchPoison.filter fun p => p.1 / 32 != o / 32 }

/-- A sensor or process monitor takes a new reading (16 R377). -/
def sense (s : State) (die sensor value : Nat) (proc : Bool) : State :=
  if 4 ≤ die ∨ (if proc then 16 else 64) ≤ sensor then s
  else
    s.modDie die fun d =>
      if proc then { d with procs := mput d.procs sensor (value % 256) } else { d with temps := mput d.temps sensor (value % 256) }

/-- The end of a step: stepped threads, and fresh free values for the next step (log 1). -/
def endStep (s : State) : State :=
  let s1 := settleSteps s
  { s1 with freeIdx := s1.freeIdx + 1 }

/-- A quadrant with a second path that still has to issue in this clock. -/
def pairDue (s : State) : Option (Nat × Nat) :=
  ((s.cores.map (·.1)).flatMap fun c => (List.range 4).map fun q => (c, q)).find? fun q => (pairCand s q.1 q.2).isSome

end Sys2Proof.Machine
end

