-- ==== Sys2Proof/Machine/Barrier.lean ====
section
/-! DEFINITION. Group 0x12, barriers (09 R180 to R194); convergence registers are in Machine/Converge.lean. -/

namespace Sys2Proof.Machine

/-! ### Traps -/

def misuse (ms : List (Nat × Nat)) (sub : Nat) : List LaneFail := ms.map fun m => ⟨m, 0x0C, sub, 0⟩

/-- Failing lanes of the instruction trap at it, and with them the threads that an event traps where they are held: in a home
wave that issues, those held at the issuing PC stand in its frame, and those held elsewhere trap after RTE. -/
def trapBoth (s : State) (g : Nat) (fs : List LaneFail) (sub : Nat) (held : Hold → Bool) : State :=
  let s1 := (fs.map (·.at_)).foldl (fun s m => setPc s m s.cur.pc) s
  let s2 := markHeld s1 g 0x0C sub (fun _ => true) held
  let mates := (heldOn (s2.group g) fun h => isTrapped h == some (0x0C, sub)).filter fun m =>
    (s2.thread g m.2 m.1).pc == s.cur.pc && (fs.any fun f => f.at_.2 == m.2)
  let s3 := if fs.isEmpty then s2 else trapFails (unhold s2 g mates) (fs ++ misuse mates sub) []
  takeHeldTraps s3 g

/-! ### BARINIT and BARBYTE (R191) -/

/-- The threads of each home wave that executes, with that wave's lead. -/
def waveActs (k : Ctl) (s : State) : List ((Nat × Nat) × List (Nat × Nat)) :=
  let act := actives k s
  (wavesOf act).map fun w => (leadOf act w, act.filter fun m => m.2 == w)

/-- The barriers that an instruction names are stamped with its place in the clock. -/
def stampAll (s : State) (g : Nat) (keys : List (Nat × Nat)) : State := keys.foldl (fun s x => stamp s g x.1 x.2) s

/-- What BARINIT refuses (Table 9-4). -/
def initFail (s : State) (g b n : Nat) : Option Nat :=
  let x := s.bar g b
  if b ≥ (s.group g).hdr.barriers then some 1
  else if n > 1024 then some 2
  else if x.state = 2 then some 3
  else if x.state = 4 ∧ !(heldOn (s.group g) (holdsBar b)).isEmpty then some 9
  else none

/-- BARINIT counts the threads that live now, so an exit noted in this clock counts no more. A faulted barrier loses its counts and its
FSUB (log 127). -/
def initBar (live n : Nat) (x : Bar) : Bar :=
  let y0 := { x with exits := [] }
  let y := if x.state = 4 then { y0 with arr := 0, bcred := 0, bexp := 0, chan := 0, fsub := 0, epoch := x.epoch + 1 } else y0
  if n = 0 then { y with state := 1, exp := live, gt := true } else { y with state := 1, exp := n, gt := false }

def execBarinit (k : Ctl) (b d : Opnd) (bar : BitVec 10) (s : State) : Out :=
  let g := s.cur.g
  let ws := (waveActs k s).map fun x => (barIndex s d bar x.1, (src s x.1 b).toNat, x.1.2, x.2)
  let t := stampAll s g (ws.map fun x => (x.1, placeOf 0 x.2.2.1))
  let fs := ws.flatMap fun x => match initFail s g x.1 x.2.1 with | some sub => misuse x.2.2.2 sub | none => []
  if !fs.isEmpty then .next (trapFails t fs [])
  else .next (ws.foldl (fun t x => modBar t g x.1 (initBar (liveCount (t.group g)) x.2.1)) (advance t))

/-- What BARBYTE refuses. -/
def byteFail (s : State) (g b c : Nat) : Option Nat :=
  let x := s.bar g b
  if b ≥ (s.group g).hdr.barriers then some 1
  else if x.state = 0 ∨ x.state = 4 then some 9
  else match chanBar (s.group g) c with
    | some y => if y ≠ b then some 8 else none
    | none => none

def chanOf : Opnd → Nat
  | .res (.wp n) => n.toNat
  | _ => 0

/-- One BARBYTE: bytes are added and the channel bound, or it is refused; an overflow of BEXP is subcode 7. -/
def byteOne (s : State) (g b c n : Nat) : State × Option Nat :=
  match byteFail s g b c with
  | some sub => (s, some sub)
  | none =>
    if (s.bar g b).bexp + n ≥ 2 ^ 32 then (setFault s g b 7, some 7)
    else (modBar s g b fun x => { x with bexp := x.bexp + n, state := 2, chan := x.chan ||| (1#8 <<< c) }, none)

/-- The BARBYTEs of the home waves, one after another: the state, the lanes that fail, and the barriers that overflow. -/
def byteAll (g c : Nat) : List (Nat × Nat × List (Nat × Nat)) → State → State × List LaneFail × List Nat
  | [], s => (s, [], [])
  | (b, n, ms) :: rest, s =>
    let r := byteOne s g b c n
    let q := byteAll g c rest r.1
    (q.1, (match r.2 with | some sub => misuse ms sub | none => []) ++ q.2.1, (if r.2 = some 7 then [b] else []) ++ q.2.2)

def execBarbyte (k : Ctl) (a b d : Opnd) (bar : BitVec 10) (s : State) : Out :=
  let g := s.cur.g
  let ws := (waveActs k s).map fun x => (barIndex s d bar x.1, (src s x.1 b).toNat, x.2)
  let t := stampAll s g (ws.map fun x => (x.1, placeOf 1 ((x.2.2.headD (0, 0)).2)))
  let r := byteAll g (chanOf a) ws t
  if r.2.1.isEmpty then .next (advance r.1)
  else if r.2.2.isEmpty then .next (trapFails t r.2.1 [])
  else .next (trapBoth (r.2.2.foldl (fun t b => setFault t g b 7) t) g r.2.1 7 fun h => r.2.2.any fun b => holdsBar b h)

/-! ### Arrivals (R182, R192) -/

def slotFor (t : Thread) (b : Nat) : Option ArrSlot := t.slots.find? fun x => x.bar == b

/-- Checks of an arriving lane, subcodes 5 and 4. -/
def arriveFail (s : State) (g b : Nat) (m : Nat × Nat) : Option Nat :=
  let t := s.thread g m.2 m.1
  if (slotFor t b).isSome then some 5 else if t.slots.length ≥ 4 then some 4 else none

/-- Checks of the barrier itself, for the issuing threads. -/
def barFail (s : State) (g b : Nat) : Option Nat :=
  let x := s.bar g b
  if b ≥ (s.group g).hdr.barriers then some 1 else if x.state = 0 ∨ x.state = 4 then some 9 else none

/-- One lane's arrival, where ARR is below EXP. -/
def arriveOne (s : State) (g b : Nat) (m : Nat × Nat) : State :=
  let ph := (s.bar g b).ph
  let s1 := modBar s g b fun x => { x with arr := x.arr + 1, state := 2 }
  s1.modThread g m.2 m.1 fun t => { t with slots := t.slots ++ [⟨b, ph⟩] }

/-- Lanes arrive one after another in ascending home wave and lane; the first that would exceed EXP stops the rest. `also`
holds a lane that has arrived, where the form waits. -/
def arriveAll (g : Nat) (also : State → Nat × Nat → Nat → State) :
    List ((Nat × Nat) × Nat) → State → State × List ((Nat × Nat) × Nat)
  | [], s => (s, [])
  | (m, b) :: rest, s =>
    let x := s.bar g b
    if x.arr = x.exp then (s, (m, b) :: rest)
    else arriveAll g also rest (also (arriveOne s g b m) m b)

/-- Members in ascending home wave and lane. -/
def byWave (ms : List (Nat × Nat)) : List (Nat × Nat) := (wavesOf ms).flatMap fun w => ms.filter fun m => m.2 == w

/-- Arrivals of the lanes `as`, each with its barrier, and the traps of those beyond EXP. -/
def arrivals (t : State) (as : List ((Nat × Nat) × Nat)) (also : State → Nat × Nat → Nat → State) : State :=
  let g := t.cur.g
  let (t1, bad) := arriveAll g also as t
  match bad with
  | [] => t1
  | (_, b) :: _ => trapBoth (setFault t1 g b 6) g (misuse (bad.map (·.1)) 6) 6 (holdsBar b)

/-- Hold a lane until PH differs from its slot's parity. -/
def holdBar (s : State) (m : Nat × Nat) (b : Nat) : State :=
  let t := s.thread s.cur.g m.2 m.1
  holdAt s m (.bar b (((slotFor t b).map (·.par)).getD false))

/-- The lanes of an instruction with the barrier that each names. -/
def laneBars (k : Ctl) (s : State) (d : Opnd) (bar : BitVec 10) : List ((Nat × Nat) × Nat) :=
  let act := actives k s
  (byWave act).map fun m => (m, barIndex s d bar (leadOf act m.2))

/-- Common checks, then what the form does. Within a lane the barrier's check comes first. -/
def onBar (k : Ctl) (d : Opnd) (bar : BitVec 10) (s : State) (lane : Nat → Nat × Nat → Option Nat)
    (f : State → List ((Nat × Nat) × Nat) → State) : Out :=
  let g := s.cur.g
  let ls := laneBars k s d bar
  let t := stampAll s g (ls.map fun x => (x.2, placeOf 3 x.1.2))
  let fs := ls.flatMap fun x =>
    match (barFail s g x.2).orElse fun _ => lane x.2 x.1 with | some sub => misuse [x.1] sub | none => []
  if !fs.isEmpty then .next (trapFails t fs []) else .next (f t ls)

def execBararr (k : Ctl) (d : Opnd) (bar : BitVec 10) (s : State) : Out :=
  onBar k d bar s (fun b m => arriveFail s s.cur.g b m) fun t ls => arrivals (advance t) ls fun t _ _ => t

def execBarsync (k : Ctl) (d : Opnd) (bar : BitVec 10) (s : State) : Out :=
  onBar k d bar s (fun b m => arriveFail s s.cur.g b m) fun t ls => arrivals (advance t) ls holdBar

/-- BARWAIT arrives for lanes without a slot; lanes whose slot's phase is past go on, and free it. -/
def execBarwait (k : Ctl) (d : Opnd) (bar : BitVec 10) (s : State) : Out :=
  let g := s.cur.g
  let has (b : Nat) (m : Nat × Nat) : Bool := (slotFor (s.thread g m.2 m.1) b).isSome
  onBar k d bar s (fun b m => if has b m then none else arriveFail s g b m) fun t ls =>
    let t := (ls.filter fun x => has x.2 x.1).foldl (fun t x =>
      match slotFor (s.thread g x.1.2 x.1.1) x.2 with
      | some sl =>
        if sl.par != (s.bar g x.2).ph then t.modThread g x.1.2 x.1.1 fun y => dropSlot y x.2 else holdBar t x.1 x.2
      | none => t) (advance t)
    arrivals t (ls.filter fun x => !has x.2 x.1) holdBar

def execBartry (k : Ctl) (a d : Opnd) (bar : BitVec 10) (s : State) : Out :=
  let g := s.cur.g
  onBar k d bar s (fun _ _ => none) fun t ls =>
    ls.foldl (fun t x =>
      let past := match slotFor (s.thread g x.1.2 x.1.1) x.2 with
        | some sl => sl.par != (s.bar g x.2).ph
        | none => true
      let t1 := wrDst t 1 x.1 a (wordOfBool past)
      if past then t1.modThread g x.1.2 x.1.1 fun y => dropSlot y x.2 else t1) (advance t)

/-! ### Hierarchical barriers (R188, R194) -/

/-- Record a thread's arrival on hk, once in a phase. -/
def hbarArrive (s : State) (g : Nat) (m : Nat × Nat) (h : Nat) (lvl : Option HLvl) : State :=
  s.modThread g m.2 m.1 fun t =>
    if t.hbarArr.any fun x => x.1 == h then t else { t with hbarArr := t.hbarArr ++ [(h, lvl)] }

def execHbararr (k : Ctl) (h : BitVec 4) (lvl : HLvl) (s : State) : Out :=
  let g := s.cur.g
  let act := actives k s
  let n := h.toNat
  let had := (hbarOf s g n).level
  let new := act.filter fun m => !((s.thread g m.2 m.1).hbarArr.any fun x => x.1 == n)
  if new.isEmpty then .next (advance s)
  else if had.isSome && had != some lvl then
    .next (trapLaunch (trapBoth s g (misuse new 11) 11 (holdsHbar n)) s.cg.launch n)
  else
    .next (modHbar (new.foldl (fun t m => hbarArrive t g m n (some lvl)) (advance s)) g n fun x => { x with level := some lvl })

def execHbarwait (k : Ctl) (h : BitVec 4) (s : State) : Out :=
  let g := s.cur.g
  let n := h.toNat
  let par := (hbarOf s g n).par
  .next ((actives k s).foldl (fun t m => holdAt (hbarArrive t g m n none) m (.hbar n par)) (advance s))

end Sys2Proof.Machine
end

