-- ==== Sys2Proof/Machine/Integer.lean ====
section
/-! DEFINITION. Group 0x00, integer arithmetic (06 R92, Table 6-3). -/

namespace Sys2Proof.Machine

/-- Signed or unsigned value. -/
def ival (u : Bool) (x : Word) : Int := if u then x.toNat else x.toInt

def minW (u : Bool) (x y : Word) : Word := if ival u x ≤ ival u y then x else y
def maxW (u : Bool) (x y : Word) : Word := if ival u x ≥ ival u y then x else y

/-- A sum clamped to the 32-bit range of its signedness. -/
def addSat (u : Bool) (x y : Word) : Word :=
  BitVec.ofInt 32 (clampInt (intMin 32 (!u)) (intMax 32 (!u)) (ival u x + ival u y))

/-- Byte i of a word, signed or unsigned. -/
def byteVal (u : Bool) (x : Word) (i : Nat) : Int :=
  let b : BitVec 8 := x.extractLsb' (8 * i) 8
  if u then b.toNat else b.toInt

def dot4 (u sat : Bool) (x y d : Word) : Word :=
  let t : Int := d.toInt + ((List.range 4).map fun i => byteVal u x i * byteVal u y i).sum
  BitVec.ofInt 32 (if sat then clampInt (intMin 32 true) (intMax 32 true) t else t)

def sad4 (u : Bool) (x y d : Word) : Word :=
  BitVec.ofInt 32 (d.toInt + ((List.range 4).map fun i => ((byteVal u x i - byteVal u y i).natAbs : Int)).sum)

def execIadd (k : Ctl) (a b c : Opnd) (s : State) : Out := .next (compute k 4 a (fun s m => src s m b + src s m c) s)
def execIsub (k : Ctl) (a b c : Opnd) (s : State) : Out := .next (compute k 4 a (fun s m => src s m b - src s m c) s)
def execImul (k : Ctl) (a b c : Opnd) (s : State) : Out := .next (compute k 6 a (fun s m => src s m b * src s m c) s)
def execImulhi (k : Ctl) (a b c : Opnd) (u : Bool) (s : State) : Out :=
  .next (compute k 6 a (fun s m => BitVec.ofInt 32 (ival u (src s m b) * ival u (src s m c) / 2 ^ 32)) s)
def execImad (k : Ctl) (a b c d : Opnd) (s : State) : Out :=
  .next (compute k 6 a (fun s m => src s m b * src s m c + src s m d) s)
def execImin (k : Ctl) (a b c : Opnd) (u : Bool) (s : State) : Out :=
  .next (compute k 4 a (fun s m => minW u (src s m b) (src s m c)) s)
def execImax (k : Ctl) (a b c : Opnd) (u : Bool) (s : State) : Out :=
  .next (compute k 4 a (fun s m => maxW u (src s m b) (src s m c)) s)
def execIabs (k : Ctl) (a b : Opnd) (s : State) : Out :=
  .next (compute k 4 a (fun s m => if (src s m b).msb then -(src s m b) else src s m b) s)
def execIneg (k : Ctl) (a b : Opnd) (s : State) : Out := .next (compute k 4 a (fun s m => -(src s m b)) s)

/-- The result and the new carry predicate, both from the old values, in every active lane. -/
def withCarry (k : Ctl) (a d : Opnd) (f : Word → Word → Bool → Word × Bool) (b c : Opnd) (s : State) : State :=
  (actives k s).foldl
    (fun t m =>
      let r := f (src s m b) (src s m c) (srcP s m d)
      wrDst (wrDst t 4 m a r.1) 4 m d (wordOfBool r.2)) (advance s)

/-- IADDC: the carry out of bit 31. -/
def addCarry (x y : Word) (p : Bool) : Word × Bool :=
  let t := x.toNat + y.toNat + p.toNat
  (BitVec.ofNat 32 t, 2 ^ 32 ≤ t)

/-- ISUBB: the borrow. -/
def subBorrow (x y : Word) (p : Bool) : Word × Bool :=
  (x - y - wordOfBool p, x.toNat < y.toNat + p.toNat)

def execIaddc (k : Ctl) (a b c d : Opnd) (s : State) : Out := .next (withCarry k a d addCarry b c s)
def execIsubb (k : Ctl) (a b c d : Opnd) (s : State) : Out := .next (withCarry k a d subBorrow b c s)
def execIaddsat (k : Ctl) (a b c : Opnd) (u : Bool) (s : State) : Out :=
  .next (compute k 4 a (fun s m => addSat u (src s m b) (src s m c)) s)
def execIdot4 (k : Ctl) (a b c d : Opnd) (u sat : Bool) (s : State) : Out :=
  .next (compute k 6 a (fun s m => dot4 u sat (src s m b) (src s m c) (src s m d)) s)
def execIsad (k : Ctl) (a b c d : Opnd) (u : Bool) (s : State) : Out :=
  .next (compute k 6 a (fun s m => sad4 u (src s m b) (src s m c) (src s m d)) s)
def execIadd64 (k : Ctl) (a b c : Opnd) (s : State) : Out :=
  .next (compute64 k 4 a (fun s m => src64 s m b + src64 s m c) s)
def execImad64 (k : Ctl) (a b c d : Opnd) (u : Bool) (s : State) : Out :=
  .next (compute64 k 6 a (fun s m => BitVec.ofInt 64 (ival u (src s m b) * ival u (src s m c)) + src64 s m d) s)

end Sys2Proof.Machine
end

