-- ==== Sys2Proof/Machine/Logic.lean ====
section
/-! DEFINITION. Group 0x01, logic and bits (06 R93, Table 6-4). -/

namespace Sys2Proof.Machine

/-- The word whose bit i is f i. -/
def wordBits (f : Nat → Bool) : Word :=
  (List.range 32).foldl (fun acc i => if f i then acc ||| (1#32 <<< i) else acc) 0

/-- BFE: a field bit at a position of 32 or more reads 0, or the source's bit 31 under .s32. -/
def bfe (sx : Bool) (b c : Word) : Word :=
  let pos := c.toNat % 256
  let len := c.toNat / 256 % 256
  let at_ (j : Nat) : Bool := if pos + j < 32 then b.getLsbD (pos + j) else sx && b.msb
  if len = 0 then 0 else wordBits fun i => if i < len then at_ i else sx && at_ (len - 1)

/-- BFI: bits at positions of 32 or more are written nowhere. -/
def bfi (b c d : Word) : Word :=
  let pos := c.toNat % 256
  let len := c.toNat / 256 % 256
  wordBits fun i => if pos ≤ i && i < pos + len then b.getLsbD (i - pos) else d.getLsbD i

def shiftL (b c : Word) : Word := if c.toNat < 32 then b <<< c.toNat else 0
def shiftR (b c : Word) : Word := if c.toNat < 32 then b >>> c.toNat else 0
def shiftA (b c : Word) : Word := b.sshiftRight (min 31 c.toNat)
def popc (b : Word) : Word := BitVec.ofNat 32 ((List.range 32).countP b.getLsbD)
def clz (b : Word) : Word := BitVec.ofNat 32 (32 - bitLen b.toNat)
def brev (b : Word) : Word := wordBits fun i => b.getLsbD (31 - i)
def tern (tt : BitVec 8) (b c d : Word) : Word :=
  wordBits fun i => tt.getLsbD ((b.getLsbD i).toNat + 2 * (c.getLsbD i).toNat + 4 * (d.getLsbD i).toNat)

/-- One byte of PERM: selector nibble n over the eight bytes of c:b. -/
def permByte (b c : Word) (n : Nat) : Nat :=
  let x := (b.toNat + 2 ^ 32 * c.toNat) / 2 ^ (8 * (n % 8)) % 256
  if n / 8 % 2 = 1 then (if x ≥ 128 then 255 else 0) else x
def perm (b c d : Word) : Word :=
  BitVec.ofNat 32 (((List.range 4).map fun i => permByte b c (d.toNat / 2 ^ (4 * i) % 16) * 2 ^ (8 * i)).sum)

def execAnd (k : Ctl) (a b c : Opnd) (s : State) : Out := .next (compute k 4 a (fun s m => src s m b &&& src s m c) s)
def execOr (k : Ctl) (a b c : Opnd) (s : State) : Out := .next (compute k 4 a (fun s m => src s m b ||| src s m c) s)
def execXor (k : Ctl) (a b c : Opnd) (s : State) : Out := .next (compute k 4 a (fun s m => src s m b ^^^ src s m c) s)
def execNot (k : Ctl) (a b : Opnd) (s : State) : Out := .next (compute k 4 a (fun s m => ~~~(src s m b)) s)
def execAndn (k : Ctl) (a b c : Opnd) (s : State) : Out :=
  .next (compute k 4 a (fun s m => src s m b &&& ~~~(src s m c)) s)
def execShl (k : Ctl) (a b c : Opnd) (s : State) : Out :=
  .next (compute k 4 a (fun s m => shiftL (src s m b) (src s m c)) s)
def execShr (k : Ctl) (a b c : Opnd) (s : State) : Out :=
  .next (compute k 4 a (fun s m => shiftR (src s m b) (src s m c)) s)
def execSar (k : Ctl) (a b c : Opnd) (s : State) : Out :=
  .next (compute k 4 a (fun s m => shiftA (src s m b) (src s m c)) s)
def execRot (k : Ctl) (a b c : Opnd) (right : Bool) (s : State) : Out :=
  .next (compute k 4 a (fun s m =>
    if right then (src s m b).rotateRight ((src s m c).toNat % 32) else (src s m b).rotateLeft ((src s m c).toNat % 32)) s)
def execBfe (k : Ctl) (a b c : Opnd) (sx : Bool) (s : State) : Out :=
  .next (compute k 4 a (fun s m => bfe sx (src s m b) (src s m c)) s)
def execBfi (k : Ctl) (a b c d : Opnd) (s : State) : Out :=
  .next (compute k 4 a (fun s m => bfi (src s m b) (src s m c) (src s m d)) s)
def execPopc (k : Ctl) (a b : Opnd) (s : State) : Out := .next (compute k 4 a (fun s m => popc (src s m b)) s)
def execClz (k : Ctl) (a b : Opnd) (s : State) : Out := .next (compute k 4 a (fun s m => clz (src s m b)) s)
def execBrev (k : Ctl) (a b : Opnd) (s : State) : Out := .next (compute k 4 a (fun s m => brev (src s m b)) s)
def execTern (k : Ctl) (a b c d : Opnd) (tt : BitVec 8) (s : State) : Out :=
  .next (compute k 4 a (fun s m => tern tt (src s m b) (src s m c) (src s m d)) s)
def execPerm (k : Ctl) (a b c d : Opnd) (s : State) : Out :=
  .next (compute k 4 a (fun s m => perm (src s m b) (src s m c) (src s m d)) s)

end Sys2Proof.Machine
end

