-- ==== Sys2Proof/Machine/Compare.lean ====
section
/-! DEFINITION. Group 0x02, compare, select and move (06 R94, R95). -/

namespace Sys2Proof.Machine

def icmp (cc : ICond) (u : Bool) (x y : Word) : Bool :=
  let i := ival u x
  let j := ival u y
  match cc with
  | .eq => x == y
  | .ne => x != y
  | .lt => i < j
  | .le => i ≤ j
  | .gt => i > j
  | .ge => i ≥ j

def execIcmp (k : Ctl) (a b c : Opnd) (cc : ICond) (u : Bool) (s : State) : Out :=
  .next (computeP k 4 a (fun s m => [icmp cc u (src s m b) (src s m c)]) s)
def execFcmp (k : Ctl) (a b c : Opnd) (cc : FCond) (s : State) : Out :=
  .next (computeP k 4 a (fun s m => [fpCmp .fp32 cc (srcF s m b) (srcF s m c)]) s)
def execSel (k : Ctl) (a b c d : Opnd) (s : State) : Out :=
  .next (compute k 4 a (fun s m => if srcP s m d then src s m b else src s m c) s)
def execPtern (k : Ctl) (a b c d : Opnd) (tt : BitVec 8) (s : State) : Out :=
  .next (computeP k 4 a
    (fun s m => [tt.getLsbD ((srcP s m b).toNat + 2 * (srcP s m c).toNat + 4 * (srcP s m d).toNat)]) s)

/-- Predicates n to n + count − 1 as the low bits of a word. -/
def predWord (s : State) (m : Nat × Nat) (b : Opnd) (count : Nat) : Word :=
  match b with
  | .p n => wordBits fun i => i < count && rdP s m (n.toNat + i)
  | _ => 0

def execP2v (k : Ctl) (a b : Opnd) (cnt : BitVec 5) (s : State) : Out :=
  .next (compute k 4 a (fun s m => predWord s m b (cnt.toNat + 1)) s)
def execV2p (k : Ctl) (a b : Opnd) (cnt : BitVec 5) (s : State) : Out :=
  .next (computeP k 4 a (fun s m => (List.range (cnt.toNat + 1)).map (src s m b).getLsbD) s)
def execMov (k : Ctl) (a b : Opnd) (s : State) : Out := .next (compute k 4 a (fun s m => src s m b) s)
def execMovx (k : Ctl) (a b : Opnd) (s : State) : Out := .next (compute64 k 4 a (fun s m => src64 s m b) s)
def execFclass (k : Ctl) (a b : Opnd) (w : Bool) (s : State) : Out :=
  .next (compute k 4 a (fun s m =>
    BitVec.ofNat 32 (if w then fpClass .fp64 (srcD s m b) else fpClass .fp32 (srcF s m b))) s)

end Sys2Proof.Machine
end

