-- ==== Sys2Proof/Machine/Hart.lean ====
section
/-! DEFINITION. The harts of the application cluster (16 R367 to R369) and their Xsknm instructions (08 R177). -/

namespace Sys2Proof.Machine

def State.hart (s : State) (h : Nat) : Hart := mgetD s.harts h {}
def State.modHart (s : State) (h : Nat) (f : Hart → Hart) : State := { s with harts := mput s.harts h (f (s.hart h)) }

/-- x0 reads zero and discards writes (the RISC-V base, log 20). -/
def rdX (s : State) (h n : Nat) : DWord := if n = 0 then 0 else mgetD (s.hart h).x n 0
def wrX (s : State) (h n : Nat) (v : DWord) : State :=
  if n = 0 then s else s.modHart h fun y => { y with x := msetD y.x n v 0 }

/-! ### Trap registers (the RISC-V base, log 21) -/

/-- Where the trap registers of M stand among the control and status registers, or those of HS. -/
def trapBase (dest : HMode) : Nat := if dest = .m then 0x300 else 0x100
def Hart.csrAt (y : Hart) (n : Nat) : DWord := mgetD y.csr n 0
def Hart.xtvec (y : Hart) : DWord := y.csrAt (trapBase y.mode + 0x05)
def Hart.xepc (y : Hart) : DWord := y.csrAt (trapBase y.mode + 0x41)
def Hart.xcause (y : Hart) : DWord := y.csrAt (trapBase y.mode + 0x42)
def Hart.xtval (y : Hart) : DWord := y.csrAt (trapBase y.mode + 0x43)

/-- Whether a mode is virtual, and its level of privilege: 3 for M, 1 for HS and VS. -/
def HMode.virt (x : HMode) : Bool := x == .vs || x == .vu
def HMode.level (x : HMode) : Nat := match x with | .m => 3 | .hs => 1 | .vs => 1 | _ => 0
def modeOf (level : Nat) (virt : Bool) : HMode :=
  match level, virt with
  | 3, _ => .m
  | 1, false => .hs
  | 1, true => .vs
  | _, false => .u
  | _, true => .vu

/-- The bits of mstatus that hold data: SIE, MIE, SPIE, MPIE, SPP, MPP and MPV; hstatus holds SPV at bit 7. -/
def statusBits : Nat := 0x80000019AA

def setCsr (y : Hart) (n : Nat) (v : DWord) : Hart := { y with csr := msetD y.csr n v 0 }

/-- A trap of a hart into M or HS saves its pc, its mode and the interrupt enable of that mode, and goes on at the trap vector. -/
def enterHart (y : Hart) (dest : HMode) (cause val : DWord) : Hart :=
  let b := trapBase dest
  let st := (y.csrAt 0x300).toNat
  let st1 :=
    if dest = .m then setBits (setBits (setBits (setBits st 7 1 (st / 8 % 2)) 3 1 0) 11 2 y.mode.level) 39 1 y.mode.virt.toNat
    else setBits (setBits (setBits st 5 1 (st / 2 % 2)) 1 1 0) 8 1 y.mode.level
  let y1 := if dest = .m then y else setCsr y 0x600 (BitVec.ofNat 64 (128 * y.mode.virt.toNat))
  let y2 := setCsr (setCsr (setCsr (setCsr y1 0x300 (BitVec.ofNat 64 st1)) (b + 0x41) y.pc) (b + 0x42) cause) (b + 0x43) val
  { y2 with pc := y.csrAt (b + 0x05), mode := dest, stall := none }

/-- A hart's exception: xepc at the instruction, the cause and the value; the handler runs at HS, or at M for M (log 21). -/
def hartTrap (s : State) (h cause : Nat) (val : DWord) : State :=
  s.modHart h fun y => enterHart y (if y.mode = .m then .m else .hs) (BitVec.ofNat 64 cause) val

/-- The return from a trap: MRET (3), or SRET in HS, M or VS; the mode and the interrupt enable that the trap saved. -/
def leaveHart (y : Hart) (mret : Bool) : Hart :=
  let st := (y.csrAt 0x300).toNat
  if mret then
    let st1 := setBits (setBits (setBits (setBits st 3 1 (st / 128 % 2)) 7 1 1) 11 2 0) 39 1 0
    { setCsr y 0x300 (BitVec.ofNat 64 st1) with pc := y.csrAt 0x341, mode := modeOf (st / 2 ^ 11 % 4) (bit st 39) }
  else if y.mode = .vs then
    let v := (y.csrAt 0x200).toNat
    { setCsr y 0x200 (BitVec.ofNat 64 (setBits (setBits (setBits v 1 1 (v / 32 % 2)) 5 1 1) 8 1 0)) with
      pc := y.csrAt 0x241, mode := modeOf (v / 256 % 2) true }
  else
    let st1 := setBits (setBits (setBits st 1 1 (st / 32 % 2)) 5 1 1) 8 1 0
    { setCsr (setCsr y 0x300 (BitVec.ofNat 64 st1)) 0x600 0 with
      pc := y.csrAt 0x141, mode := modeOf (st / 256 % 2) (bit (y.csrAt 0x600).toNat 7) }

def hartNext (s : State) (h : Nat) : State := s.modHart h fun y => { y with pc := y.pc + 4 }

/-- What a hart fetches: its word, or the exception of the fetch (R368). -/
inductive HartFetch where
  | word (w : BitVec 32) | accessFault | absent (pa : Nat)
  deriving DecidableEq, Repr

/-- Fetch at the hart's pc, a physical address of local memory (log 22): two bytes, and two more where they begin a word of 32 bits.
The upper half of a 16-bit instruction is zero. -/
def hartFetch (s : State) (h : Nat) : HartFetch :=
  let pc := (s.hart h).pc.toNat
  let lo := ofBytes (s.read .hbm pc 2)
  if hbmSize < pc + 2 then .absent pc
  else if sealCode s pc = 1 ∨ sealCode s (pc + 1) = 1 then .accessFault
  else if lo % 4 ≠ 3 then .word (BitVec.ofNat 32 lo)
  else if hbmSize < pc + 4 then .absent pc
  else if sealCode s (pc + 2) = 1 ∨ sealCode s (pc + 3) = 1 then .accessFault
  else .word (BitVec.ofNat 32 (ofBytes (s.read .hbm pc 4)))

/-- A hart issues only on a started part, and not while an NJOIN stalls it (R177, R374). -/
def hartRuns (s : State) (h : Nat) : Bool := h < 32 && s.phase == 2 && (s.hart h).stall.isNone

end Sys2Proof.Machine
end

