-- ==== Sys2Proof/Machine/Remote.lean ====
section
/-! DEFINITION. The fabric as a source and a destination see it: streets, streams, packets, performance at a node or peer,
ordered flags, answers, resends and failures (15 R333 to R348, 13 R288, R289, 20 R392, R393). -/

namespace Sys2Proof.Machine

/-! ### Streets (R335, R336) -/

def State.link (s : State) (n : Nat) : Link := mgetD s.links n {}
def State.modLink (s : State) (n : Nat) (f : Link → Link) : State := { s with links := mput s.links n (f (s.link n)) }

def destNum : Dest → Nat
  | .node n => n.toNat
  | .peer n => n.toNat

/-- The route class of a destination, and its streets as (link, route tag). -/
def routeClass (d : Dest) : Nat := destNum d % 65536
def streetsOf (s : State) (d : Dest) : List (Nat × Nat) := (mgetD s.streets (routeClass d) []).take 4

/-- A street is usable while its link is Up and no node has reported it failed. -/
def usable (s : State) (d : Dest) (i : Nat) : Bool :=
  match (streetsOf s d)[i]? with
  | some (l, _) => (s.link l).state == 2 && !s.deadStreets.contains (routeClass d, i)
  | none => false

/-- Free request slots of a link (R346). -/
def freeReq (l : Link) : Nat := l.limReq - (l.sentReq - l.retReq).toNat

def streetLink (s : State) (d : Dest) (i : Nat) : Nat := (((streetsOf s d)[i]?).getD (0, 0)).1

/-- The street of a list whose link has the most free slots; ties to the lower number. -/
def mostFree (s : State) (d : Dest) : List Nat → Option Nat
  | [] => none
  | i :: is => some (is.foldl (fun a b => if freeReq (s.link (streetLink s d a)) < freeReq (s.link (streetLink s d b)) then b else a) i)

def usableStreets (s : State) (d : Dest) : List Nat := (List.range (streetsOf s d).length).filter (usable s d)

/-- The street of a first send (R336). -/
def chooseStreet (s : State) (d : Dest) : Option Nat := mostFree s d (usableStreets s d)

/-- The street of a resend: another usable one, or the same where it is the only one (R347). -/
def resendStreet (s : State) (p : Packet) : Option Nat :=
  match mostFree s p.dest ((usableStreets s p.dest).filter (· != p.street)) with
  | some i => some i
  | none => (usableStreets s p.dest).head?

/-- Whether a street's link has a free request slot. -/
def hasSlot (s : State) (d : Dest) (street : Nat) : Bool := freeReq (s.link (streetLink s d street)) != 0

/-- The slots of a group of flits: each is encrypted under the next counter values of its link (R343). -/
def groupSlots : DWord := 5

/-- The 96-bit nonce of a group: the link's salt and the counter value of the group's first slot (R343). -/
def Link.nonce (l : Link) (first : DWord) : BitVec 96 := l.salt ++ first

/-- A packet leaves on a street: its link spends a request slot, and its flits take the next slots (a group of them, log 114). -/
def spendSlot (s : State) (d : Dest) (street : Nat) : State :=
  match (streetsOf s d)[street]? with
  | some (l, _) => s.modLink l fun k => { k with sentReq := k.sentReq + 1, txSlot := k.txSlot + groupSlots }
  | none => s

/-- A reply that has arrived on a street frees its buffer slot (R346). -/
def freeReplySlot (s : State) (d : Dest) (street : Nat) : State :=
  match (streetsOf s d)[street]? with
  | some (l, _) => s.modLink l fun k => { k with freedRep := k.freedRep + 1 }
  | none => s

/-! ### Allowances (R349) -/

/-- The allowance of a stream at its destination, and the reservation for its replies, are taken or used. -/
def useAllow (s : State) (d : Dest) (fn gen g w : Nat) : State :=
  let hit (a : Allowance) : Bool := a.dest == d && a.fn == fn && a.gen == gen && a.g == g && a.w == w
  if s.allowances.any hit then { s with allowances := s.allowances.map fun a => if hit a then { a with used := s.ns } else a }
  else
    let a : Allowance := { id := s.nextId, dest := d, fn := fn, gen := gen, g := g, w := w, reply := false, used := s.ns }
    { s with nextId := s.nextId + 2, allowances := s.allowances ++ [a, { a with id := s.nextId + 1, reply := true }] }

/-- Whether a packet, or its answer, still finds what it needs. -/
def allowed (s : State) (p : Packet) (reply : Bool) : Bool :=
  s.allowances.any fun a => a.dest == p.dest && a.fn == p.fn && a.gen == p.gen && a.g == p.g && a.w == p.w && a.reply == reply

/-! ### Sending (R337, R288) -/

def setStream (s : State) (g w : Nat) (d : Dest) (f : Stream → Stream) : State :=
  s.modWave g w fun v => { v with streams := aput v.streams d (f (streamOf v d)) }

def inFlight (s : State) (g w : Nat) (d : Dest) : List Packet :=
  s.packets.filter fun p => p.g == g && p.w == w && p.dest == d

/-- What a lane of an access asks at the destination. -/
def actOf (a : Access) (o : LaneOp) : PktAct :=
  match a.kind with
  | .store => .store (bytesOf o.vals a.width)
  | .atom op sg => .atom op sg (a.width == 8) (BitVec.ofNat 64 (ofBytes (bytesOf o.vals a.width)))
  | .cas =>
    .cas (a.width == 8) (BitVec.ofNat 64 (ofBytes (bytesOf o.vals a.width)))
      (BitVec.ofNat 64 (ofBytes (bytesOf (o.vals.drop (a.width / 4)) a.width)))
  | _ => .load a.width

/-- Number the lanes of an access that cross the fabric, in ascending order, each in the stream of its destination (R337). -/
def numberLanes (s : State) (a : Access) : State :=
  a.lanes.foldl (fun s o =>
    if o.crosses && o.seq.isNone && o.got.isNone && !(o.stage matches .parked _) then
      let d := destOf o.kind o.dev
      let n := (streamOf (s.wave a.g a.w) d).seq
      setAccess (setStream s a.g a.w d fun x => { x with seq := x.seq + 1 }) a.id fun x =>
        { x with lanes := x.lanes.map fun y => if y.lane = o.lane then { y with seq := some n } else y }
    else s) s

/-- Send the lanes of an access that share a line, or wait: for the line table, the stream limit, a buffer slot, a street count, or
a restart that is not acknowledged. A packet with no usable street fails at once (R347). -/
def trySend (s : State) (a : Access) (d : Dest) (line : Nat) (os : List LaneOp) : Option State :=
  let v := s.wave a.g a.w
  let st := streamOf v d
  let fl := inFlight s a.g a.w d
  let lines := uniq (fl.map (·.line))
  let others := uniq ((s.packets.filter fun p => p.g == a.g && p.w == a.w && p.dest != d).map (·.dest))
  let wr := isWrite a.kind
  let street := chooseStreet s d
  let sn := street.getD 0
  let full := wr && !a.flag && street.isSome && st.counts.getD sn 0 ≥ 65535
  if (!lines.contains line && lines.length ≥ 64) || (fl.isEmpty && others.length ≥ 16) || (wr && st.restart) ||
      (street.isSome && !hasSlot s d sn) || (full && fl.any fun p => p.write || p.flag.isSome) then none
  else
    let counts0 := if full then [0, 0, 0, 0] else st.counts
    let fn := ctxFn s (s.group a.g).ctx
    let p : Packet :=
      { id := s.nextId, g := a.g, w := a.w, acc := a.id, dest := d, line := line,
        parts := os.map fun o => (o.lane, o.pa, actOf a o), write := wr && !a.flag,
        flag := if a.flag then some (st.flags, counts0) else none, seq := (os.head?.bind (·.seq)).getD st.seq,
        after := ((fl.filter fun p => p.line == line).getLast?).map (·.seq), restart := full, street := sn, firstStreet := sn,
        first := s.ns, sent := s.ns, lost := street.isNone, va := (os.head?.map (·.addr)).getD 0, pc := a.pc, fn := fn,
        gen := fnGen s fn, answer := none, epoch := st.flags, ord := s.nextId }
    let counts1 := if a.flag then [0, 0, 0, 0] else if wr then lmod counts0 sn (· + 1) else counts0
    let s1 := { s with nextId := s.nextId + 1, packets := s.packets ++ [p] }
    let s2 := setStream s1 a.g a.w d fun x =>
      { x with counts := counts1, flags := if a.flag then x.flags + 1 else x.flags, restart := x.restart || full }
    let s3 := useAllow (if street.isSome then spendSlot s2 d sn else s2) d fn (fnGen s fn) a.g a.w
    some (setAccess s3 a.id fun x =>
      { x with lanes := x.lanes.map fun o => if os.any (fun q => q.lane == o.lane) && o.stage == .pending then { o with stage := .sent p.id } else o })

/-- A list without repeats, in the order of first occurrence. -/
def firsts {α : Type} [DecidableEq α] (xs : List α) : List α := (uniq xs.reverse).reverse

/-- The groups of lanes that an access still has to send, as (destination, line, lanes), that of the lowest lane first: it carries
the counts of an ordered flag (R288). -/
def toSend (s : State) (a : Access) : List (Dest × Nat × List LaneOp) :=
  let sent (o : LaneOp) : Bool := match o.stage with
    | .pending => false
    | .late _ => s.packets.any fun p => p.acc == a.id && p.parts.any fun x => x.1 == o.lane
    | _ => true
  let os := a.lanes.filter fun o => o.got.isNone && !sent o && o.crosses && !(o.priv && earlierSame s a o)
  let keys := firsts (os.map fun o => (destOf o.kind o.dev, o.pa / 128))
  keys.map fun k => (k.1, k.2, os.filter fun o => destOf o.kind o.dev == k.1 && o.pa / 128 == k.2)

/-- A poisoned stream discards a later write or flag, which falls from its counter as completed (R289). -/
def discardLanes (s : State) (a : Access) (os : List LaneOp) : State :=
  os.foldl (fun s o =>
    match s.accesses.find? fun x => x.id == a.id with
    | some a => endLane s a { o with stage := .pending }
    | none => s) s

/-- Send what waits at the source, in issue order; a stream whose head must wait sends nothing past it. `stuck` lists the
streams that wait. -/
def sendGroups (g w : Nat) : List (Access × Dest × Nat × List LaneOp) → List Dest → State → State
  | [], _, s => s
  | (a, d, line, os) :: rest, stuck, s =>
    if stuck.contains d then sendGroups g w rest stuck s
    else if isWrite a.kind && (streamOf (s.wave g w) d).poison.isSome then sendGroups g w rest stuck (discardLanes s a os)
    else
      match trySend s a d line os with
      | some s1 => sendGroups g w rest stuck s1
      | none => sendGroups g w rest (d :: stuck) s

/-- Send everything that a home wave has waiting. -/
def sendWave (s : State) (g w : Nat) : State :=
  let mine (s : State) : List Access := s.accesses.filter fun a => a.g == g && a.w == w
  let s1 := (mine s).foldl numberLanes s
  sendGroups g w ((mine s1).flatMap fun a => (toSend s1 a).map fun x => (a, x.1, x.2.1, x.2.2)) [] s1

/-- Send what waits in every home wave: a link has slots again. -/
def sendAll (s : State) : State := (uniq (s.accesses.map fun a => (a.g, a.w))).foldl (fun s x => sendWave s x.1 x.2) s

/-! ### At the destination (R338, R393) -/

def rstream (r : Remote) (g w : Nat) : RStream := (r.streams.find? fun x => x.g == g && x.w == w).getD { g := g, w := w }
def setRStream (r : Remote) (x : RStream) : Remote :=
  { r with streams := x :: r.streams.filter fun y => !(y.g == x.g && y.w == x.w) }

/-- The generation that a destination holds for a virtual function (R350). -/
def heldGen (r : Remote) (fn : Nat) : Nat := mgetD r.gens fn 0

def actWrites : PktAct → Bool
  | .load _ => false
  | .name _ => false
  | .third _ => false
  | _ => true

/-- Perform one lane's act in the memory of a destination. -/
def performAct (m : List Host.Cell) (pa : Nat) (x : PktAct) : List Host.Cell × List Byte :=
  match x with
  | .load n => (m, readN m pa n)
  | .store bs => (writeL m pa bs, [])
  | .atom op sg wide v =>
    let n := if wide then 8 else 4
    let old := readN m pa n
    (writeL m pa (toBytes n (atomNew op sg (8 * n) (ofBytes old) v.toNat)), old)
  | .cas wide c v =>
    let n := if wide then 8 else 4
    let old := readN m pa n
    (if ofBytes old = c.toNat then writeL m pa (toBytes n v.toNat) else m, old)
  | .name _ => (m, [])
  | .third _ => (m, [])

def performParts (m : List Host.Cell) : List (Nat × Nat × PktAct) → List Host.Cell × List (Nat × List Byte)
  | [] => (m, [])
  | (l, pa, x) :: rest =>
    let r := performAct m pa x
    let q := performParts r.1 rest
    (q.1, (l, r.2) :: q.2)

/-- Whether every lane of a packet has the right it needs (R334). -/
def packetGranted (s : State) (r : Remote) (p : Packet) : Bool :=
  p.parts.all fun x => granted r.grants s.device p.fn p.gen x.2.1 (actWrites x.2.2)

/-- A byte as some stores leave it. -/
def flagByte (parts : List (Nat × Nat × PktAct)) (m : List Host.Cell) (pa : Nat) (b : Byte) : Byte :=
  if parts.any fun x => (match x.2.2 with | .store bs => x.2.1 ≤ pa && pa < x.2.1 + bs.length | _ => false) then memRead m pa else b

/-- The answer to a load with the bytes of a flag that commits in its clock (R393). -/
def seenFlag (parts : List (Nat × Nat × PktAct)) (m : List Host.Cell) (q : Packet) : Option PktAns :=
  match q.answer with
  | some (.data ls) => some (.data (ls.map fun y =>
      match q.parts.find? fun x => x.1 == y.1 with
      | some (_, pa, .load _) => (y.1, y.2.zipIdx.map fun b => flagByte parts m (pa + b.2) b.1)
      | _ => y))
  | r => r

/-- Loads that reached a destination in the clock in which a flag commits there return the flag's value. -/
def patchReads (s : State) (d : Dest) (parts : List (Nat × Nat × PktAct)) : State :=
  let m := (s.remote d).mem
  let hit (q : Packet) : Bool := q.dest == d && q.doneAt == some s.clock
  let s1 := (s.packets.filter hit).foldl (fun s q =>
    s.modRemote d fun r =>
      let x := rstream r q.g q.w
      setRStream r { x with performed := x.performed.map fun y =>
        if y.1 = q.seq.toNat then (y.1, (seenFlag parts m q).getD y.2) else y }) s
  { s1 with packets := s1.packets.map fun q => if hit q then { q with answer := seenFlag parts m q } else q }

/-- The answer to a request is made. -/
def answerPacket (s : State) (id : Nat) (a : PktAns) : State :=
  { s with packets := s.packets.map fun q => if q.id = id then { q with answer := some a, doneAt := some s.clock, replied := s.ns } else q }

/-- Commit held flags whose counts are met, in the order of the stream (R393). -/
def commitFlags : Nat → State → Dest → Nat → Nat → State
  | 0, s, _, _, _ => s
  | n + 1, s, d, g, w =>
    let r := s.remote d
    let x := rstream r g w
    match x.held.findSome? fun id => s.packets.find? fun p => p.id == id && (match p.flag with | some f => f.1 == x.flagsDone | none => false) with
    | some p =>
      let counts := (p.flag.map (·.2)).getD [0, 0, 0, 0]
      if ((List.range 4).all fun i => counts.getD i 0 ≤ x.committed.getD i 0) then
        let m := performParts r.mem p.parts
        let x1 := { x with committed := (List.range 4).map fun i => x.committed.getD i 0 - counts.getD i 0,
                           flagsDone := x.flagsDone + 1, held := x.held.filter (· != p.id),
                           performed := x.performed ++ [(p.seq.toNat, .data m.2)] }
        let s1 := s.modRemote d fun r => setRStream { r with mem := m.1 } x1
        commitFlags n (patchReads (answerPacket s1 p.id (.data m.2)) d p.parts) d g w
      else s
    | none => s

/-- Whether a request of a stream has performed at its destination. -/
def performed (x : RStream) (p : Packet) : Bool := x.performed.any fun y => y.1 == p.seq.toNat

/-- Packets of a stream that have not performed at its destination. -/
def openPackets (s : State) (g w : Nat) (d : Dest) : List Packet :=
  let x := rstream (s.remote d) g w
  (inFlight s g w d).filter fun p => !performed x p

/-- A write that its destination has refused never commits. -/
def refusedAt (x : RStream) (p : Packet) : Bool := x.performed.any fun y => y.1 == p.seq.toNat && y.2 == .refused

/-- Whether a counted write must wait for one of its street that an earlier flag counts: the first commits on a street after a flag
are those that the next flag counts (R393), also when a packet was lost; a refused one never commits, and its refusal poisons the
stream (R334), so that no later write takes its count. -/
def countsLater (s : State) (p : Packet) : Bool :=
  let x := rstream (s.remote p.dest) p.g p.w
  p.write && (inFlight s p.g p.w p.dest).any fun q =>
    q.write && q.firstStreet == p.firstStreet && q.epoch < p.epoch && (!performed x q || refusedAt x q)

/-- A request reaches its destination: discarded for its generation, answered again when it has performed before, held for an
earlier access of its line, for the writes of an earlier flag or as a flag, refused, or performed once. -/
def arrive (s : State) (p : Packet) : State :=
  let r := s.remote p.dest
  let x := rstream r p.g p.w
  if p.gen < heldGen r p.fn ∨ !allowed s p false then s
  else
    match x.performed.find? fun y => y.1 == p.seq.toNat with
    | some y => answerPacket s p.id y.2
    | none =>
      let early := match p.after with
        | some q => s.packets.any fun z => z.g == p.g && z.w == p.w && z.dest == p.dest && z.seq == q && z.id < p.id &&
            !(x.performed.any fun y => y.1 == q.toNat)
        | none => false
      if early || countsLater s p then s
      else if !packetGranted s r p then
        let x1 := { x with performed := x.performed ++ [(p.seq.toNat, .refused)] }
        answerPacket (s.modRemote p.dest fun r => setRStream r x1) p.id .refused
      else
        match p.flag with
        | some _ =>
          let x1 := { x with held := if x.held.contains p.id then x.held else x.held ++ [p.id] }
          commitFlags 32 (s.modRemote p.dest fun r => setRStream r x1) p.dest p.g p.w
        | none =>
          let m := performParts r.mem p.parts
          let c0 := if p.restart then [0, 0, 0, 0] else x.committed
          let x1 := { x with committed := if p.write then lmod c0 p.firstStreet (· + 1) else c0,
                             performed := x.performed ++ [(p.seq.toNat, .data m.2)] }
          let s1 := s.modRemote p.dest fun r => setRStream { r with mem := m.1 } x1
          commitFlags 32 (answerPacket s1 p.id (.data m.2)) p.dest p.g p.w

/-! ### At the source -/

/-- A stream that recovers counts what its destination has still to subtract: the writes that have committed there or will, without
those that the flags in flight carry (log 34). -/
def recovered (s : State) (g w : Nat) (d : Dest) (x : Stream) : Stream :=
  let r := rstream (s.remote d) g w
  let ps := openPackets s g w d
  let flags := ps.filterMap (·.flag)
  let base := if ps.any (·.restart) then [0, 0, 0, 0] else r.committed
  let count (i : Nat) : Nat :=
    base.getD i 0 + (ps.filter fun p => p.write && p.firstStreet == i).length - (flags.map fun f => f.2.getD i 0).foldl (· + ·) 0
  { x with poison := none, counts := (List.range 4).map count, flags := r.flagsDone + flags.length }

/-- A packet ends; its destination need keep no answer for it. -/
def dropPacket (s : State) (id : Nat) : State :=
  match s.packets.find? fun p => p.id == id with
  | none => s
  | some p =>
    let s1 := { s with packets := s.packets.filter fun q => q.id != id }
    s1.modRemote p.dest fun r =>
      let x := rstream r p.g p.w
      setRStream r { x with performed := x.performed.filter fun y => y.1 != p.seq.toNat, held := x.held.filter (· != id) }

def holdsPoolFence : Hold → Bool
  | .fence pool _ _ => pool
  | _ => false

/-- A FENCE with the pool bit that waits while a stream of its home wave becomes poisoned traps (20 R397). -/
def trapFences (s : State) (g w : Nat) : State := trapHeld s g 0x15 2 (· == w) holdsPoolFence

/-- Lanes of a packet end without a value: writes that are discarded (R289). -/
def discardPacket (s : State) (p : Packet) : State :=
  let s1 := dropPacket s p.id
  let s2 := if p.restart then setStream s1 p.g p.w p.dest fun x => { x with restart := false } else s1
  match s2.accesses.find? fun a => a.id == p.acc with
  | none => s2
  | some a => discardLanes s2 a (a.lanes.filter fun o => p.parts.any fun x => x.1 == o.lane)

/-- The writes and flags of a poisoned stream that a test selects and that wait for their answers are discarded, and what waits at the
source follows (R289). -/
def spreadWrites (s : State) (g w : Nat) (d : Dest) (later : Packet → Bool) : State :=
  let dead := s.packets.filter fun q => q.g == g && q.w == w && q.dest == d && later q && q.answer.isNone && (q.write || q.flag.isSome)
  sendWave (dead.foldl discardPacket s) g w

/-- The same, and the threads that wait in a FENCE with the pool bit trap (20 R397). -/
def spreadPoison (s : State) (g w : Nat) (d : Dest) (later : Packet → Bool) : State := trapFences (spreadWrites s g w d later) g w

/-- The lanes that a packet carries of its access. -/
def packetLanes (s : State) (p : Packet) : List LaneOp :=
  match s.accesses.find? fun a => a.id == p.acc with
  | none => []
  | some a => a.lanes.filter fun o => p.parts.any fun x => x.1 == o.lane

/-- Whether the lanes of a failed access trap: a load, or an atomic that returns its value. -/
def Access.traps (a : Access) : Bool :=
  match a.kind with
  | .store => false
  | .atom _ _ => a.ctr != 1
  | _ => true

/-- Whether a failed packet poisons its stream: a write or an ordered flag, and an atomic, which may have performed; a refused atomic
that returns its value has not (R334, R347). -/
def poisons (p : Packet) (a : Access) (refused : Bool) : Bool := (p.write || p.flag.isSome) && !(refused && a.traps)

/-- The first lane of the packets of an access, by its number. -/
def lowestPacket (ps : List Packet) (p : Packet) : Packet :=
  let low (p : Packet) : Nat := (p.parts.map (·.1)).foldl min 31
  ps.foldl (fun a b => if low b < low a then b else a) p

/-- Packets of one access fail together, refused or without an answer: writes poison their stream, with the record of its lowest lane;
loads and atomics that return values trap, before the fences that the poison releases (R289, R290, R334, R347). They wait where
the operand log has no room; the lanes of one frame trap together, and a packet ends with its last lane. -/
def failPackets (s : State) (ps : List Packet) (refused : Bool) : State :=
  match ps with
  | [] => s
  | p :: _ =>
    match s.accesses.find? fun a => a.id == p.acc with
    | none => ps.foldl (fun s p => dropPacket s p.id) s
    | some a =>
      let f : Nat × Nat := if refused then (0x12, 1) else (0x15, 3)
      let fs := oneFrame ((ps.flatMap (packetLanes s)).map fun o => (o, f.1, f.2))
      let qs := if a.traps then ps.filter fun q => (packetLanes s q).all fun o => fs.any fun y => y.1.lane == o.lane else ps
      if a.traps && !canRecord s a fs then s
      else
        let low := lowestPacket qs p
        let bad := qs.filter fun q => poisons q a refused
        let s1 := if bad.isEmpty then s
          else poisonStream s a.g a.w p.dest (((low.parts.map (·.1)).foldl min 31)) a.pc low.va low.firstStreet
        let s2 := qs.foldl (fun s q => if a.traps then dropPacket s q.id else discardPacket s q) s1
        let s3 := if a.traps && p.restart then setStream s2 p.g p.w p.dest fun x => { x with restart := false } else s2
        let s4 := if bad.isEmpty then s3 else spreadWrites s3 a.g a.w p.dest fun q => p.id < q.id
        let s5 := if a.traps then (match s4.accesses.find? fun x => x.id == a.id with
          | some a => lateTraps s4 a fs
          | none => s4) else s4
        sendWave (if bad.isEmpty then s5 else trapFences s5 a.g a.w) a.g a.w

/-- The bytes that a lane gets from an answer: those of its core's private lines stand (12 R229). -/
def laneBytes (s : State) (a : Access) (o : LaneOp) (bs : List Byte) : List Byte :=
  if o.priv && !(accOf a.kind).writes then bs.zipIdx.map fun b => privByte s (s.group a.g).core o.space (o.pa + b.2) b.1 else bs

/-- The answer reaches the source: lanes get their values, writes are acknowledged, and what waited may be sent. -/
def answered (s : State) (p : Packet) : State :=
  match p.answer with
  | none => s
  | some .refused => failPackets s [p] true
  | some (.status _) => dropPacket s p.id
  | some (.data ls) =>
      let s1 := dropPacket s p.id
      let s2 := if p.restart then setStream s1 p.g p.w p.dest fun x => { x with restart := false } else s1
      let sx := match s.accesses.find? fun a => a.id == p.acc with | some a => (match a.kind with | .load b => b | _ => false) | none => false
      let s3 := setAccess s2 p.acc fun a =>
        { a with lanes := a.lanes.map fun o =>
            match ls.find? fun y => y.1 == o.lane with
            | some y => if o.stage == .sent p.id || (match o.stage with | .late _ => o.got.isNone | _ => false)
                then { o with got := some (wordsOf sx (laneBytes s a o y.2)), stage := match o.stage with | .sent _ => .pending | z => z } else o
            | none => o }
      sendWave s3 p.g p.w

end Sys2Proof.Machine
end

