-- ==== Sys2Proof/Machine/Names.lean ====
section
/-! DEFINITION. Names: references, lookup, the checks of R149, delivery and joins (08 R143 to R152, R169 to R179). -/

namespace Sys2Proof.Machine

/-! ### References and lookup (R143, R144, R148) -/

def refNum (r : DWord) : Nat := r.toNat / 2 ^ 10 % 2 ^ 36
def refThread (r : DWord) : Nat := r.toNat % 1024
def refGc (r : DWord) : Bool := bit r.toNat 47
def refGen (r : DWord) : Nat := r.toNat / 2 ^ 48
def refBad (r : DWord) : Bool := bit r.toNat 46 || (!refGc r && refGen r != 0)

/-- An entry as a die's name controller sees it: the copy in its name TLB, or the walk. -/
def nteSee (s : State) (die ctx num : Nat) : Option Nat :=
  match mget (s.die die).names (nteKey ctx num) with
  | some e => some e
  | none => if (mget s.ctxs ctx).isSome then (nteOf s ctx num).map (nteRead s) else none

/-- The name TLB of a die keeps an entry that it has seen (2,048 entries). -/
def fillName (s : State) (die ctx num : Nat) : State :=
  match mget (s.die die).names (nteKey ctx num), nteSee s die ctx num with
  | none, some e =>
    if (s.die die).names.length < 2048 then s.modDie die fun d => { d with names := mput d.names (nteKey ctx num) e } else s
  | _, _ => s

/-- Where a lookup ends: context, group number, entry and the rights in force. None is status 3. -/
structure Found where
  ctx : Nat
  num : Nat
  entry : Nat
  rights : BitVec 6
  deriving DecidableEq, Repr

/-- A reserved bit of an entry is set: such an entry is rejected as the walk's are (R5, R144, R145). A host thread's entry has no
core and no die. -/
def nteBad (e : Nat) : Bool :=
  e / 2 ^ 164 % 2 ^ 28 != 0 || e / 2 ^ 87 % 2 ^ 9 != 0 || e / 2 ^ 48 % 2 ^ 16 != 0 || e / 2 ^ 10 % 2 ^ 6 != 0 ||
    (e % 16 == 6 && e / 2 ^ 150 % 2 ^ 8 != 0)

def nameLookup (s : State) (die ctx : Nat) (r : DWord) : Option Found :=
  if refBad r then none
  else
    ((nteSee s die ctx (refNum r)).filter fun e => !nteBad e).bind fun e =>
      match nteState e with
      | 0 => none
      | 7 =>
        let r2 := e / 2 ^ 192 % 2 ^ 64
        let c2 := e / 2 ^ 128 % 65536
        let n2 := r2 / 1024 % 2 ^ 36
        if r2 / 2 ^ 46 ≠ 0 ∨ r2 % 1024 ≠ 0 then none
        else
          ((nteSee s die c2 n2).filter fun e => !nteBad e).bind fun e2 =>
            if nteState e2 = 0 ∨ nteState e2 = 7 then none else some ⟨c2, n2, e2, nteRights e &&& nteRights e2⟩
      | _ => some ⟨ctx, refNum r, e, nteRights e⟩

/-- The group that stands under a number, and the group record of one that died. -/
def groupAt (s : State) (ctx num : Nat) : Option Nat :=
  (s.groups.find? fun x => x.2.ctx == ctx && x.2.num == num && x.2.place != .waiting && x.2.place != .queued &&
    !(x.2.cancelled && x.2.waves.isEmpty)).map (·.1)

def threadAt (s : State) (g t : Nat) : Thread := s.thread g (t / 32) (t % 32)

/-! ### The checks of R149 -/

/-- Rights by their place in an entry (Table 8-4). -/
inductive Right where
  | wake | signal | deposit | join | feed | probe
  deriving DecidableEq, Repr
def Right.index : Right → Nat
  | .wake => 0 | .signal => 1 | .deposit => 2 | .join => 3 | .feed => 4 | .probe => 5

/-- What the checks answer: a trap, a status, or delivery to a target. -/
inductive NameRes where
  | trap (cause sub : Nat)
  | status (n : Nat)
  | go (f : Found) (t : Target) (remote : Option Nat)
  deriving DecidableEq, Repr

def nteDev (e : Nat) : Nat := e / 2 ^ 128 % 2 ^ 22
def nteVcnt (e : Nat) : Nat := e / 2 ^ 72 % 32
def nteScnt (e : Nat) : Nat := e / 2 ^ 83 % 16

/-- Lookup, rights and generation. -/
def nameFound (s : State) (die ctx : Nat) (r : DWord) (right : Right) (trap : Bool) : NameRes ⊕ Found :=
  match nameLookup s die ctx r with
  | none => .inl (if trap then .trap 0x18 0 else .status 3)
  | some f =>
    if !f.rights.getLsbD right.index then .inl (.trap 0x1A 0)
    else if right ≠ .probe ∧ refGc r ∧ refGen r ≠ nteGen f.entry then .inl (if trap then .trap 0x19 0 else .status 4)
    else .inr f

/-- Whether the target is seen to be finished: a thread index beyond the group, a dead group, an exited thread of a live
one. For a swapped or migrating group an exited thread is found only when the operation is applied. -/
def nameGone (s : State) (f : Found) (r : DWord) (grp : Bool) : Bool :=
  match groupAt s f.ctx f.num with
  | none => nteState f.entry == 5
  | some g =>
    let x := s.group g
    let st := nteState f.entry
    (!grp && x.gsize ≤ refThread r) || st == 5 ||
      ((st == 1 || st == 2) && (if grp then liveCount x == 0 else (threadAt s g (refThread r)).st == .exited))

/-- The deposit window of an entry (R171): no slot stands above 23. -/
def outsideWindow (e slot : Nat) : Bool := if slot < 16 then nteVcnt e ≤ slot else nteScnt e ≤ slot - 16 || 23 < slot

/-- Every check of a wake, signal or deposit, in order. -/
def nameCheck (s : State) (die ctx : Nat) (r : DWord) (grp trap : Bool) (act : NameAct) : NameRes :=
  let right := match act with | .wake => Right.wake | .signal => .signal | .deposit _ _ => .deposit
  match nameFound s die ctx r right trap with
  | .inl x => x
  | .inr f =>
    let above : Bool := match act with | .deposit slot _ => 23 < slot.toNat | _ => false
    if nteState f.entry = 6 then (if above then .trap 0x1B 1 else .go f (.notify (f.entry / 2 ^ 128 % 4096)) none)
    else
      let out := match act with | .deposit slot _ => outsideWindow f.entry slot.toNat | _ => false
      if nteDev f.entry ≠ s.device % 2 ^ 22 then
        (if nteState f.entry = 5 then .status 2
         else if out then .trap 0x1B 1 else .go f (.group f.ctx f.num (refThread r) grp) (some (nteDev f.entry)))
      else if nameGone s f r grp then .status 2
      else if out then .trap 0x1B 1
      else .go f (.group f.ctx f.num (refThread r) grp) none

/-! ### Applying (Table 8-5, R151, R152, R169) -/

/-- One thread takes a wake or a signal. -/
def wakeThread (t : Thread) : Thread :=
  if t.st = .exited then t
  else if t.st = .parked then { t with st := .ready }
  else { t with pend := if t.pend = 65535 then 65535 else t.pend + 1 }

def signalThread (t : Thread) : Thread :=
  if t.st = .exited then t
  else if t.st = .parked then { t with sig := t.sig + 1, st := .ready, mark := t.sig + 1 }
  else { t with sig := t.sig + 1 }

/-- The threads that an operation reaches: the named one, or every live thread in ascending index. -/
def reached (x : Group) (thread : Nat) (grp : Bool) : List (Nat × Nat) :=
  (if grp then allMembers x else [(thread % 32, thread / 32)]).filter fun m =>
    ((x.waves.getD m.2 {}).threads.getD m.1 { st := .exited }).st != .exited

/-- A deposit: a vector register of each thread reached, or a uniform register of each home wave once. The window begins where
the entry says. -/
def depositTo (s : State) (g : Nat) (ms : List (Nat × Nat)) (slot vfirst sfirst : Nat) (v : Word) : State :=
  if slot < 16 then ms.foldl (fun s m => s.modThread g m.2 m.1 (depositV s.clock ((vfirst + slot) % 256) v)) s
  else (wavesOf ms).foldl (fun s w => s.modWave g w (depositS s.clock ((sfirst + slot - 16) % 64) v)) s

def applyAct (s : State) (g thread : Nat) (grp : Bool) (o : NameOp) : State :=
  let ms := reached (s.group g) thread grp
  match o.act with
  | .wake => ms.foldl (fun s m => s.modThread g m.2 m.1 wakeThread) s
  | .signal => ms.foldl (fun s m => s.modThread g m.2 m.1 signalThread) s
  | .deposit slot v => depositTo s g ms slot.toNat o.vfirst o.sfirst v

/-- Wakes applied while a group is away: PEND rises, and a Parked target queues the group for swap-in (R199, R385). -/
def countWakes (s : State) (g thread : Nat) (grp : Bool) : State :=
  let x := s.group g
  let ms := reached x thread grp
  let parked := ms.any fun m => ((x.waves.getD m.2 {}).threads.getD m.1 {}).st == .parked
  let s1 := nteEdit s x.ctx x.num fun e => setBits e 32 16 (min 65535 (e / 2 ^ 32 % 65536 + ms.length))
  if parked && x.place == .swapped then s1.modGroup g fun x => { x with wantSwapIn := true } else s1

/-- WAKE saturates at 65,535 (Table 8-10). -/
def wakeSum (base : BitVec 16) (n : Nat) : BitVec 16 := BitVec.ofNat 16 (min 65535 (base.toNat + n))

/-- What WAKE held before the WAKEs of this clock, and their number. -/
def wakesNow (s : State) (n : Notify) : BitVec 16 × Nat :=
  match n.fresh with
  | some (c, base, k) => if c = s.clock then (base, k) else (n.wake, 0)
  | none => (n.wake, 0)

def wakeIn (s : State) (n : Notify) : Notify :=
  let (base, k) := wakesNow s n
  { n with wake := wakeSum base (k + 1), fresh := some (s.clock, base, k + 1) }

/-- A clear applies before the WAKEs of its clock (16 R370). -/
def wakeClear (s : State) (n : Notify) (v : BitVec 16) : Notify :=
  let (base, k) := wakesNow s n
  { n with wake := wakeSum (base &&& ~~~v) k, fresh := some (s.clock, base &&& ~~~v, k) }

/-- A notify register takes an operation; a WAKE signals its route (R178, 16 R370). -/
def notifyApply (s : State) (i : Nat) (act : NameAct) : State :=
  let n := mgetD s.notifies i {}
  let route := n.route.toNat
  match act with
  | .wake =>
    let s1 := { s with notifies := mput s.notifies i (wakeIn s n) }
    if bit route 31 && route % 2048 != 0 then { s1 with msis := s1.msis ++ [(route / 2 ^ 16 % 32, route / 2 ^ 21 % 4, route % 2048)] } else s1
  | .signal => { s with notifies := mput s.notifies i { n with sig := n.sig + 1 } }
  | .deposit _ v => { s with notifies := mput s.notifies i { n with value := v } }

/-! ### Results at the sender -/

/-- Write a result of a name instruction: a predicate receives 1 for status 0 or 1. -/
def putResult (s : State) (g w l : Nat) (a : Opnd) (x : Word) : State :=
  if (s.thread g w l).st = .exited then s
  else
    match a with
    | .v n => s.modThread g w l (putV n.toNat x)
    | .p n => s.modThread g w l (putP n.toNat (x == 0 || x == 1))
    | _ => s

def State.port (s : State) (fn k : Nat) : Port := mgetD s.ports (256 * fn + k) {}
def modPort (s : State) (fn k : Nat) (f : Port → Port) : State :=
  { s with ports := mput s.ports (256 * fn + k) (f (s.port fn k)) }

/-- A name port's command ends (R179). -/
def portDone (s : State) (fn k status : Nat) (result : Option Word) : State :=
  modPort s fn k fun p => { p with busy := false, joining := false, status := status, result := result.getD p.result }

/-- A NARM wake found its target dead, unbound or stale (15 R362). -/
def armReport (s : State) (g lane pc : Nat) (ref : DWord) : State :=
  if (mget s.groups g).isNone ∨ (s.group g).place = .dead then s else report s g 8 lane 0 pc 0 0 ref.toNat

/-- The status of an operation reaches its sender. -/
def nameStatus (s : State) (o : NameOp) (x : Word) : State :=
  match o.sender with
  | .thread g w l =>
    let s1 := putResult s g w l o.dst x
    opEnds (if o.cancel then s1.modWave g w fun v => { v with accPending := v.accPending.filter fun p => p.2 != o.id } else s1) o.op
  | .hart h =>
    (wrX (hartNext s h) h o.op (BitVec.zeroExtend 64 x)).modHart h fun y => { y with stall := none }
  | .port fn k => portDone s fn k x.toNat none
  | .arm g l pc ref => if 2 ≤ x.toNat then armReport s g l pc ref else s

/-! ### Delivery (R149 to R152, 18 R384, R385) -/

def sameTarget : Option Target → Option Target → Bool
  | some (.group c n t g), some (.group c' n' t' g') => c == c' && n == n' && (g || g' || t == t')
  | some (.notify i), some (.notify j) => i == j
  | _, _ => false

/-- An earlier operation of the same sender, or of a lower lane of the same instruction, on the same target has not been applied
yet (R150). -/
def nameBehind (s : State) (o : NameOp) : Bool :=
  s.nameOps.any fun p => p.id < o.id && (p.sender == o.sender || (p.inst == o.inst && p.inst != 0)) && sameTarget p.target o.target

def dropName (s : State) (id : Nat) : State := { s with nameOps := s.nameOps.filter fun o => o.id != id }

/-- Apply an operation where its target stands now, and its status where none has been written yet. A group that spills
holds it; one that migrates queues it, with status 1, and takes it at its new place. -/
def deliverName (s : State) (o : NameOp) : State :=
  let done (s : State) (st : Word) : State := if o.written then dropName s o.id else nameStatus (dropName s o.id) o st
  match o.status, o.target with
  | some x, _ => done s x
  | none, none => done s 3
  | none, some (.notify i) => done (notifyApply s i o.act) 0
  | none, some (.group c n t grp) =>
    match groupAt s c n with
    | none => done s 0
    | some g =>
      let wake := match o.act with | .wake => true | _ => false
      match (s.group g).place with
      | .spilling => s
      | .migrating =>
        if o.written then done (applyAct (if wake then countWakes s g t grp else s) g t grp o) 1
        else nameStatus { s with nameOps := s.nameOps.map fun p => if p.id = o.id then { p with written := true } else p } o 1
      | .swapped => done (applyAct (if wake then countWakes s g t grp else s) g t grp o) 1
      | .loading => done (applyAct (if wake then countWakes s g t grp else s) g t grp o) 1
      | _ => done (applyAct s g t grp o) 0

/-- Whether a request of the hub to another device has failed (15 R347): 4 ms after it was sent, or with no usable street. -/
def farLost (s : State) (dev asked : Nat) : Bool :=
  asked + 4000000 ≤ s.ns || (chooseStreet s (.peer (BitVec.ofNat 22 dev))).isNone

/-- Such a request of a hart, a port or an armed wake fails: status 3, or for a hart under .trap the fault of R177. -/
def hubFail (s : State) (o : NameOp) : State :=
  match o.sender with
  | .hart h => if o.trap then hartTrap s h 7 o.ref else nameStatus s o 3
  | _ => nameStatus s o 3

/-- A name operation is applied at its target. One of another device waits for that device's answer, except of a sender
outside the device's waves, whose status the spec leaves to that device (log 1) unless the request fails. -/
def execNameDelivery (id : Nat) (s : State) : Out :=
  match s.nameOps.find? fun o => o.id == id with
  | none => .next s
  | some o =>
    if nameBehind s o then .next s
    else
      match o.remote, o.sender with
      | none, _ => .next (deliverName s o)
      | some _, .thread _ _ _ => .next s
      | some dev, _ =>
        if farLost s dev o.asked then .next (hubFail (dropName s id) o)
        else let (x, s1) := s.freeWord; .next (nameStatus (dropName s1 id) o (BitVec.ofNat 32 (x.toNat % 3)))

/-! ### Sending -/

/-- A packet that carries a name operation or a third-party read in the sender wave's stream (15 R340, R351). Without a free buffer
slot it has still to be sent, as one that was lost. -/
def sendCarrier (s : State) (g w : Nat) (d : Dest) (act : PktAct) (pc : Nat) (va : DWord) : State :=
  let st := streamOf (s.wave g w) d
  let fn := ctxFn s (s.group g).ctx
  let street := (chooseStreet s d).filter (hasSlot s d)
  let p : Packet :=
    { id := s.nextId, g := g, w := w, acc := 0, dest := d, line := 2 ^ 60 + s.nextId, parts := [(0, 0, act)], write := false, flag := none,
      seq := st.seq, after := ((inFlight s g w d).getLast?).map (·.seq), restart := false, street := street.getD 0,
      firstStreet := street.getD 0, first := s.ns, sent := s.ns, lost := street.isNone, va := va, pc := pc, fn := fn,
      gen := fnGen s fn, answer := none, epoch := st.flags, ord := s.nextId }
  let s1 := setStream { s with nextId := s.nextId + 1, packets := s.packets ++ [p] } g w d fun x => { x with seq := x.seq + 1 }
  useAllow (if street.isSome then spendSlot s1 d (street.getD 0) else s1) d fn (fnGen s fn) g w

def sendName (s : State) (g w dev op pc : Nat) (ref : DWord) : State :=
  sendCarrier s g w (Dest.peer (BitVec.ofNat 22 dev)) (.name op) pc ref

/-- Record an operation of a sender. -/
def postName (s : State) (o : NameOp) : State := { s with nextId := s.nextId + 1, nameOps := s.nameOps ++ [{ o with id := s.nextId }] }

/-! ### Joins (R172) -/

/-- The value of a thread in a save area (R146). -/
def savedJoin (s : State) (ctx save t : Nat) : Word :=
  BitVec.ofNat 32 (ofBytes ((s.sysRead ctx (save + 0x400 + 8 * t) 4).getD []))

/-- What a join's lookup answers: a trap, an immediate value and status, a target to wait for, one that has ended with a value but
whose stores have still to perform, or one of another device. -/
inductive JoinRes where
  | trap (cause sub : Nat)
  | now (v : Option Word) (st : Nat)
  | wait (t : Target) (notify : Option Nat)
  | late (t : Target) (v : Word)
  | far (t : Target) (dev : Nat)
  deriving DecidableEq, Repr

/-- Whether stores of a join's target have still to perform. -/
def storesOpen (s : State) (g t : Nat) (grp : Bool) : Bool :=
  if grp then (allMembers (s.group g)).any fun m => !(pendingWrites s g m).isEmpty else !(pendingWrites s g (t % 32, t / 32)).isEmpty

/-- The answer for a target that has ended with a value. -/
def joinEnded (s : State) (f : Found) (t : Nat) (grp : Bool) (v : Word) : JoinRes :=
  match groupAt s f.ctx f.num with
  | some g => if storesOpen s g t grp then .late (.group f.ctx f.num t grp) v else .now (some v) 0
  | none => .now (some v) 0

def joinCheck (s : State) (die ctx : Nat) (r : DWord) (grp trap : Bool) : JoinRes :=
  match nameFound s die ctx r .join trap with
  | .inl (.trap c sub) => .trap c sub
  | .inl (.status n) => .now none n
  | .inl (.go _ _ _) => .now none 3
  | .inr f =>
    let t := refThread r
    let target := Target.group f.ctx f.num t grp
    if nteState f.entry = 6 then .wait target (some (f.entry / 2 ^ 128 % 4096))
    else if nteDev f.entry ≠ s.device % 2 ^ 22 then .far target (nteDev f.entry)
    else
      let dead := nteState f.entry = 5
      let size := match groupAt s f.ctx f.num with | some g => (s.group g).gsize | none => 1024
      let gone := match groupAt s f.ctx f.num with | some g => (threadAt s g t).st == .exited | none => false
      if !grp && size ≤ t then .now none 2
      else if dead ∧ grp then joinEnded s f t grp (BitVec.ofNat 32 (f.entry / 2 ^ 96))
      else if dead then joinEnded s f t grp (savedJoin s f.ctx (f.entry / 2 ^ 192 % 2 ^ 64) t)
      else if !grp && gone then
        joinEnded s f t grp (match groupAt s f.ctx f.num with | some g => (threadAt s g t).join | none => 0)
      else .wait target none

/-- What a waiting join has: its value once its target has ended and every store of the target has performed. -/
def joinValue (s : State) (j : JoinOp) : Option (Option Word × Nat) :=
  match j.notify, j.target with
  | some i, .group c n _ _ =>
    match nteOf s c n with
    | some a => if nteState (nteRead s a) = 5 then some (some (mgetD s.notifies i {}).value, 0) else none
    | none => none
  | _, .group c n t grp =>
    if !j.parked ∨ j.remote.isSome then j.result
    else
      match groupAt s c n with
      | none => j.result
      | some g => if storesOpen s g t grp then none else j.result
  | _, _ => j.result

/-- A join ends at its sender: value, status, and the thread, hart or port goes on. -/
def endJoin (s : State) (j : JoinOp) (v : Option Word) (st : Nat) : State :=
  let s1 := { s with joins := s.joins.filter fun x => x.id != j.id }
  match j.sender with
  | .thread g w l =>
    let s2 := match v with | some x => putResult s1 g w l j.dst x | none => s1
    let s3 := putResult s2 g w l j.sdst (BitVec.ofNat 32 st)
    let s4 := s3.modThread g w l fun t =>
      if t.joinOp = some j.id ∧ t.st = .parkedJoin then { t with st := .ready, joinOp := none } else t
    (opEnds s4 j.op)
  | .hart h =>
    let x := BitVec.ofNat 64 ((v.getD 0).toNat + st * 2 ^ 32)
    (wrX (hartNext s1 h) h j.rd x).modHart h fun y => { y with stall := none }
  | .port fn k => portDone s1 fn k st v
  | .arm _ _ _ _ => s1

/-- Whether a join names a thread that its target's group may not have: any but thread 0. -/
def beyond (j : JoinOp) : Bool := match j.target with | .group _ _ t grp => !grp && t != 0 | .notify _ => false

/-- The answer of another device to a join: its target's value with status 0, or status 2 for an index beyond its group (log 1). -/
def farJoin (s : State) (j : JoinOp) : (Option Word × Nat) × State :=
  let (x, s1) := s.freeWord
  let (y, s2) := s1.freeWord
  (if beyond j && y.getLsbD 0 then (none, 2) else (some (x.truncate 32), 0), s2)

/-- A join of a hart or a port on another device ends: with that device's answer, or, where the request has had none, as failed
(15 R347). Whether a request whose answer is late has been answered before is open (log 1). -/
def hubJoin (s : State) (j : JoinOp) (dev : Nat) : State :=
  let (b, s1) := if farLost s dev j.asked then s.freeBool else (false, s)
  if b then
    match j.sender with
    | .hart h => if j.trap then hartTrap { s1 with joins := s1.joins.filter fun x => x.id != j.id } h 7 j.ref else endJoin s1 j none 3
    | _ => endJoin s1 j none 3
  else let r := farJoin s1 j; endJoin r.2 j r.1.1 r.1.2

/-- A join completes once its target is finished and its stores performed. One of another device, from a hart or a port, completes
when that device answers. -/
def execJoinComplete (id : Nat) (s : State) : Out :=
  match s.joins.find? fun j => j.id == id with
  | none => .next s
  | some j =>
    match joinValue s j, j.remote, j.sender with
    | some (v, st), _, _ => .next (endJoin s j v st)
    | none, some dev, .hart _ => .next (hubJoin s j dev)
    | none, some dev, .port _ _ => .next (hubJoin s j dev)
    | none, _, _ => .next s

/-! ### Probes (R174) -/

/-- The device that answers a probe, where it is another, and whether its answer holds a bit that the entry does not: that of the
thread, of a group that is neither swapped nor migrating. -/
def probeFar (s : State) (die ctx : Nat) (r : DWord) (trap : Bool) : Option Nat :=
  match nameFound s die ctx r .probe trap with
  | .inr f => if nteState f.entry ≠ 6 ∧ nteDev f.entry ≠ s.device % 2 ^ 22 then some (nteDev f.entry) else none
  | .inl _ => none

/-- A probe word as another device answers it: whether the thread has exited is that device's to say (log 1). -/
def farProbe (s : State) (grp : Bool) (w : Word) : Word × State :=
  let (x, s1) := s.freeWord
  let st := w.toNat % 16
  (if !grp && st != 3 && st != 4 && x.getLsbD 0 then w ||| 0x10 else w, s1)

/-- The probe word of a reference, or the trap. -/
def probeWord (s : State) (die ctx : Nat) (r : DWord) (grp trap : Bool) : NameRes ⊕ Word :=
  match nameFound s die ctx r .probe trap with
  | .inl (.status _) => .inr 0
  | .inl x => .inl x
  | .inr f =>
    let st := nteState f.entry
    let ex := !grp && st != 4 && st != 3 && st != 6 && nteDev f.entry == s.device % 2 ^ 22 &&
      (match groupAt s f.ctx f.num with | some g => refThread r < (s.group g).gsize && (threadAt s g (refThread r)).st == .exited | none => false)
    .inr (BitVec.ofNat 32 (st + ex.toNat * 16 + nteGen f.entry * 2 ^ 16))

end Sys2Proof.Machine
end

