-- ==== Sys2Proof/Machine/Name.lean ====
section
/-! DEFINITION. Group 0x11, threads and names (08 R165 to R175, 10 R200 to R205, 11 R222, R223), and the bins' events. -/

namespace Sys2Proof.Machine

def dieOf (x : Group) : Nat := x.core / 48

/-- Counters of an instruction: for each home wave of the lanes one nm operation, as (home wave, operation). -/
def nmStart (s : State) (g : Nat) (act : List (Nat × Nat)) : State × List (Nat × Nat) :=
  (wavesOf act).foldl (fun r w =>
    let (id, t) := opStart r.1 g w 5 (waveLanes act w).length
    (t, r.2 ++ [(w, id)])) (s, [])
def nmOp (ops : List (Nat × Nat)) (w : Nat) : Nat := mgetD ops w 0

/-! ### Bins (R166 to R168) -/

/-- Whether an entry offset lies in the code of the issuing kernel. -/
def badEntry (s : State) (act : List (Nat × Nat)) (entry : Word) : Bool :=
  act.any fun m => !inCode s s.cur.g m.2 (entry.toNat : Int)

def recordOf (s : State) (m : Nat × Nat) (a : Opnd) : List Word :=
  match a with
  | .v n => (List.range 8).map fun i => rdV s m (n.toNat + i)
  | _ => []

/-- Push one record for each active lane, in ascending lane order. -/
def pushLanes (s : State) (act : List (Nat × Nat)) (a : Opnd) (key : BinKey) (held : Bool) (counter : DWord) : State :=
  let g := s.cur.g
  let (t, ops) := nmStart (advance s) g act
  let recs := act.map fun m =>
    (nmOp ops m.2, { held := held, vals := recordOf s m a, counter := counter, pusher := s.cg.launch, node := s.cg.node : BinRec })
  pushAll g (dieOf s.cg) key recs t

/-- Option constants: bit 0 is .hold. -/
def holdOpt : Opnd → Bool
  | .imm x => x.getLsbD 0
  | _ => false

def execSpawn (k : Ctl) (a c : Opnd) (entry : Word) (s : State) : Out :=
  let act := actives k s
  if badEntry s act entry then .next (trapNow s 0x0A 0 act)
  else if act.isEmpty then .next (advance s)
  else .next (pushLanes s act a { node := false, owner := s.cg.ctx, entry := entry.toNat } (holdOpt c) s.cg.counter)

def execEmit (k : Ctl) (a : Opnd) (entry : Word) (s : State) : Out :=
  let act := actives k s
  match s.cg.graph.bind fun gr => (graphNode s gr entry.toNat).map fun _ => gr with
  | none => .next (if act.isEmpty then advance s else trapNow s 0x0A 0 act)
  | some gr =>
    if act.isEmpty then .next (advance s)
    else
      .next (pushLanes s act a { node := true, owner := gr, entry := entry.toNat } false
        (((mget s.graphs gr).map (·.handle)).getD 0))

def pregOf : Opnd → Nat
  | .p n => n.toNat
  | _ => 0
def vregOf : Opnd → Nat
  | .v n => n.toNat
  | _ => 0

/-- TAKE holds its lanes until the bin answers. -/
def execTake (k : Ctl) (a b : Opnd) (entry : Word) (s : State) : Out :=
  let act := actives k s
  if badEntry s act entry then .next (trapNow s 0x0A 0 act)
  else if act.isEmpty then .next (advance s)
  else
    let id := s.nextId
    let o : TakeOp :=
      { id := id, g := s.cur.g, lanes := act, die := dieOf s.cg, key := { node := false, owner := s.cg.ctx, entry := entry.toNat },
        pd := pregOf a, base := vregOf b, entry := entry.toNat }
    .next (act.foldl (fun t m => holdAt t m (.bin id)) { advance s with nextId := id + 1, takes := s.takes ++ [o] })

/-- Continue a thread that waits at an instruction, also while its wave is at handler level. -/
def resumeAt (t : Thread) (h : Hold) (pc : Nat) : Thread :=
  if t.st = .held ∧ t.hold = h then { t with st := .ready, hold := .none, pc := pc }
  else if t.hf ∧ t.savedSt = .held ∧ t.savedHold = h then { t with savedSt := .ready, savedHold := .none, savedPc := pc }
  else t
def waitsFor (t : Thread) (h : Hold) : Bool :=
  (t.st == .held && t.hold == h) || (t.hf && t.savedSt == .held && t.savedHold == h)

/-- The PC of the instruction that a thread waits at. -/
def waitPc (t : Thread) (h : Hold) : Nat := if t.st = .held ∧ t.hold = h then t.pc else t.savedPc

/-- One lane of a TAKE: the oldest record remaining, or none. The predicate that it sets is the live one, which RTE overwrites where the
wave is at handler level (log 122). -/
def takeOne (s : State) (o : TakeOp) (m : Nat × Nat) : State :=
  let t := s.thread o.g m.2 m.1
  if !waitsFor t (.bin o.id) then s
  else
    match (binFind (s.die o.die) o.key).bind fun x => x.2.recs.head?.map fun r => (x.1, x.2, r) with
    | none =>
      s.modThread o.g m.2 m.1 fun t => resumeAt (putP o.pd false t) (.bin o.id) (waitPc t (.bin o.id) + 12)
    | some (i, b, r) =>
      let b1 := { b with recs := b.recs.drop 1 }
      let b2 := { b1 with timerEnd := if freeCount b1 = 0 then none else b1.timerEnd }
      let s1 := outAdd (storeBin (setBin s o.die i b2) b2) (s.group o.g).ctx r.counter.toNat (-1)
      let regs := ((List.range 8).zip r.vals).filter fun x => !o.spared.contains (m.1, m.2, o.base + x.1)
      let s2 := s1.modThread o.g m.2 m.1 fun t => putP o.pd true (regs.foldl (fun t x => putV (o.base + x.1) x.2 t) t)
      (leaveAllConv (leaveAllRcv s2 o.g m) o.g m).modThread o.g m.2 m.1 fun t => resumeAt t (.bin o.id) o.entry

/-- The bin answers a TAKE, lane by lane (R24, R168, R204). -/
def execTakeAnswer (id : Nat) (s : State) : Out :=
  match s.takes.find? fun o => o.id == id with
  | none => .next s
  | some o =>
    let s1 := { s with takes := s.takes.filter fun x => x.id != id }
    .next (o.lanes.foldl (fun s m => takeOne s o m) (serve s1 o.die o.key))

/-- A push that waits completes, if nothing of its key waits before it and there is room. -/
def execBinPushDeferred (id : Nat) (s : State) : Out :=
  match s.pushes.find? fun p => p.id == id with
  | none => .next s
  | some p =>
    if served s p.die p.key || s.pushes.any fun q => q.id < id && q.die == p.die && q.key == p.key then .next s
    else
      match pushOne s p.g p.die p.key p.item with
      | none => .next s
      | some s1 =>
        .next (opEnds { s1 with pushes := s1.pushes.filter fun q => q.id != id } p.op)

/-- A bin's timer expires: the end of the clock launches all free records, at most COAL of them (Table 10-6). -/
def execBinTimerExpiry (die : BitVec 2) (slot : BitVec 12) (s : State) : Out :=
  match mget (s.die die.toNat).bins slot.toNat with
  | none => .next s
  | some b =>
    match b.timerEnd with
    | some t =>
      if t ≤ s.clock ∧ keyActive s die.toNat b.key then .next (setBin s die.toNat slot.toNat { b with fire := true }) else .next s
    | none => .next s

/-! ### PARK, WAKE, SIGNAL, DEPOSIT (R169 to R171) -/

/-- PARK consumes a pending wake or a new signal, or the thread becomes Parked after the instruction. -/
def parkThread (t : Thread) : Thread :=
  if t.pend ≠ 0 then { t with pend := t.pend - 1, mark := t.sig }
  else if t.sig ≠ t.mark then { t with mark := t.sig }
  else { t with st := .parked }

def execPark (k : Ctl) (s : State) : Out :=
  .next ((actives k s).foldl (fun t m => t.modThread s.cur.g m.2 m.1 parkThread) (advance s))

/-- Traps of name instructions. -/
def nameFails (rs : List ((Nat × Nat) × NameRes)) : List LaneFail :=
  rs.filterMap fun r => match r.2 with | .trap c sub => some ⟨r.1, c, sub, 0⟩ | _ => none

/-- Post the operation of one lane. -/
def postLane (s t : State) (ops : List (Nat × Nat)) (a : Opnd) (trap : Bool) (act : NameAct) (ref : DWord) (m : Nat × Nat)
    (r : NameRes) : State :=
  let g := s.cur.g
  let base : NameOp :=
    { id := 0, sender := .thread g m.2 m.1, op := nmOp ops m.2, act := act, target := none, remote := none, dst := a, status := none,
      trap := trap, pc := s.cur.pc, word := s.cur.word, inst := s.nextId, born := s.clock }
  match r with
  | .go f tg rem =>
    let id := t.nextId
    let t1 := postName (fillName t (dieOf s.cg) f.ctx f.num)
      { base with target := some tg, remote := rem, vfirst := f.entry / 2 ^ 64 % 256, sfirst := f.entry / 2 ^ 77 % 64, ref := ref }
    match rem with
    | some dev => sendName t1 g m.2 dev id s.cur.pc ref
    | none => t1
  | .status n => postName t { base with status := some (BitVec.ofNat 32 n) }
  | .trap _ _ => t

/-- WAKE, SIGNAL and DEPOSIT: the checks of every lane, then one operation for each lane in ascending order. -/
def sendNames (k : Ctl) (a b : Opnd) (grp trap : Bool) (f : State → Nat × Nat → NameAct) (s : State) : Out :=
  let act := actives k s
  let rs := act.map fun m => (m, nameCheck s (dieOf s.cg) s.cg.ctx (src64 s m b) grp trap (f s m))
  let fs := nameFails rs
  if !fs.isEmpty then .next (trapFails s fs [])
  else
    let (t, ops) := nmStart (advance s) s.cur.g act
    .next (rs.foldl (fun t r => postLane s t ops a trap (f s r.1) (src64 s r.1 b) r.1 r.2) t)

def execWake (k : Ctl) (a b : Opnd) (grp trap : Bool) (s : State) : Out := sendNames k a b grp trap (fun _ _ => .wake) s
def execSignal (k : Ctl) (a b : Opnd) (grp trap : Bool) (s : State) : Out := sendNames k a b grp trap (fun _ _ => .signal) s
def execDeposit (k : Ctl) (a b c : Opnd) (grp trap : Bool) (slot : BitVec 5) (s : State) : Out :=
  sendNames k a b grp trap (fun s m => .deposit slot (src s m c)) s

/-! ### JOIN, NAMEOF, NPROBE (R172 to R174) -/

/-- One lane of a JOIN: a record of it, and a thread that waits is Parked after the instruction. -/
def joinLane (s t : State) (ops : List (Nat × Nat)) (a c : Opnd) (trap : Bool) (ref : DWord) (m : Nat × Nat) (r : JoinRes) : State :=
  let g := s.cur.g
  let base : JoinOp :=
    { id := t.nextId, sender := .thread g m.2 m.1, op := nmOp ops m.2, target := .notify 0, dst := a, sdst := c, rd := 0, result := none,
      parked := false, notify := none, trap := trap, pc := s.cur.pc, word := s.cur.word, born := s.clock, ref := ref, asked := s.ns }
  let add (j : JoinOp) : State := { t with nextId := t.nextId + 1, joins := t.joins ++ [j] }
  let park (j : JoinOp) : State := (add { j with parked := true }).modThread g m.2 m.1 fun x =>
    { x with st := .parkedJoin, joinOp := some t.nextId }
  match r with
  | .now v st => add { base with result := some (v, st) }
  | .wait tg n => park { base with target := tg, notify := n }
  | .late tg v => park { base with target := tg, result := some (some v, 0) }
  | .far tg dev => sendName (park { base with target := tg, remote := some dev }) g m.2 dev t.nextId s.cur.pc ref
  | .trap _ _ => t

def execJoin (k : Ctl) (a b c : Opnd) (grp trap : Bool) (s : State) : Out :=
  let act := actives k s
  let rs := act.map fun m => (m, joinCheck s (dieOf s.cg) s.cg.ctx (src64 s m b) grp trap)
  let fs := rs.filterMap fun r => match r.2 with | .trap c sub => some (⟨r.1, c, sub, 0⟩ : LaneFail) | _ => none
  if !fs.isEmpty then .next (trapFails s fs [])
  else
    let (t, ops) := nmStart (advance s) s.cur.g act
    .next (rs.foldl (fun t r => joinLane s t ops a c trap (src64 s r.1 b) r.1 r.2) t)

/-- ((gbase + gi) << 10) | (.grp ? 0 : ti<9:0>). -/
def nameOf (gbase : Nat) (gi ti : Word) (grp : Bool) : DWord :=
  ((BitVec.ofNat 64 gbase + gi.zeroExtend 64) <<< 10) ||| (if grp then 0 else (ti.truncate 10 : BitVec 10).zeroExtend 64)

def execNameof (k : Ctl) (a b c : Opnd) (grp : Bool) (s : State) : Out :=
  .next (compute64 k 0 a (fun s m => nameOf s.cg.gbase (src s m b) (src s m c) grp) s)

/-- Post the probe of one lane: another device answers for a thread of its own (15 R340). -/
def probeLane (s t : State) (ops : List (Nat × Nat)) (a : Opnd) (grp trap : Bool) (ref : DWord) (m : Nat × Nat) (r : NameRes ⊕ Word) : State :=
  match r with
  | .inl _ => t
  | .inr w =>
    let far := probeFar s (dieOf s.cg) s.cg.ctx ref trap
    let t1 := postName t { id := 0, sender := .thread s.cur.g m.2 m.1, op := nmOp ops m.2, act := .wake, target := none, remote := far,
                           dst := a, status := some w, trap := trap, pc := s.cur.pc, word := s.cur.word, born := s.clock, probe := !grp, ref := ref }
    match far with
    | some dev => sendName t1 s.cur.g m.2 dev t.nextId s.cur.pc ref
    | none => t1

def execNprobe (k : Ctl) (a b : Opnd) (grp trap : Bool) (s : State) : Out :=
  let act := actives k s
  let rs := act.map fun m => (m, probeWord s (dieOf s.cg) s.cg.ctx (src64 s m b) grp trap)
  let fs := nameFails (rs.filterMap fun r => match r.2 with | .inl x => some (r.1, x) | .inr _ => none)
  if !fs.isEmpty then .next (trapFails s fs [])
  else
    let (t, ops) := nmStart (advance s) s.cur.g act
    .next (rs.foldl (fun t r => probeLane s t ops a grp trap (src64 s r.1 b) r.1 r.2) t)

/-! ### GDONE and CANCEL (11 R222, R223) -/

def execGdone (k : Ctl) (s : State) : Out :=
  let g := s.cur.g
  .next ((actives k s).foldl (fun t m =>
    if (t.thread g m.2 m.1).gdone || (t.group g).published then t
    else eventDue ((coverThread t g m).modThread g m.2 m.1 fun x => { x with gdone := true }) g) (advance s))

def cancelCode : CancelLvl → Nat
  | .grp => 0 | .launch => 1 | .graph => 2 | .phase => 3 | .job => 4

/-- Cancel a level by its handle: the status of R223. Completions that are due come first (R213). -/
def cancelHandle (s0 : State) (ctx h lvl : Nat) : State × Nat :=
  let s := publishDue s0 ctx
  if !handleOk s ctx h || hLvl h != lvl then (s, 3)
  else
    match cState (ctrRead s ctx (hSlot h)) with
    | 2 => (s, 1)
    | 3 => (s, 2)
    | 4 => (s, 2)
    | _ => (cancelLevel s ctx h, 0)

/-- The cancel of another device's group is sent to it: the status is that device's, and the destination is interlocked until it is
written (11 R223, 15 R340; log 1). -/
def sendCancel (s : State) (m : Nat × Nat) (a : Opnd) (dev : Nat) (r : DWord) : State :=
  let g := s.cur.g
  let id := s.nextId
  let s1 := postName s
    { id := id, sender := .thread g m.2 m.1, op := 0, act := .wake, target := none, remote := some dev, dst := a, status := none, trap := false,
      pc := s.cur.pc, word := s.cur.word, born := s.clock, cancel := true, ref := r, asked := s.ns }
  let s2 := match a with
    | .v n => s1.modWave g m.2 fun v => { v with accPending := v.accPending ++ [(n.toNat, id)] }
    | _ => s1
  sendName s2 g m.2 dev id s.cur.pc r

/-- CANCEL.grp: W right required. A host thread has nothing that ends (log 31); of another device's group no status is known yet. -/
def cancelName (s : State) (die ctx : Nat) (m : Nat × Nat) (a : Opnd) (r : DWord) : NameRes ⊕ (State × Option Nat) :=
  match nameFound s die ctx r .wake false with
  | .inl (.status n) => .inr (s, some n)
  | .inl x => .inl x
  | .inr f =>
    if nteState f.entry = 5 then .inr (s, some 1)
    else if nteState f.entry ≠ 6 ∧ nteDev f.entry ≠ s.device % 2 ^ 22 then .inr (sendCancel s m a (nteDev f.entry) r, none)
    else
      match groupAt s f.ctx f.num with
      | some g => .inr (cancelGroup s g, some 0)
      | none => .inr (s, some 0)

def execCancel (k : Ctl) (a b : Opnd) (lvl : CancelLvl) (s : State) : Out :=
  let act := actives k s
  let ctx := s.cg.ctx
  let die := dieOf s.cg
  let fs := if lvl = .grp then act.filterMap fun m =>
      (match nameFound s die ctx (src64 s m b) .wake false with
       | .inl (.trap c sub) => some (⟨m, c, sub, 0⟩ : LaneFail)
       | _ => none) else []
  if !fs.isEmpty then .next (trapFails s fs [])
  else
    .next (act.foldl (fun t m =>
      let r := if lvl = .grp then
          (match cancelName t die ctx m a (src64 s m b) with | .inr x => x | .inl _ => (t, some 3))
        else let x := cancelHandle t ctx (src64 s m b).toNat (cancelCode lvl); (x.1, some x.2)
      match r.2 with
      | some n => if (r.1.thread s.cur.g m.2 m.1).st = .exited then r.1 else wrDst r.1 0 m a (BitVec.ofNat 32 n)
      | none => r.1) (advance s))

end Sys2Proof.Machine
end

