-- ==== Sys2Proof/Machine/Launch.lean ====
section
/-! DEFINITION. Launch and graph records, kernel headers and counters as the scheduler accepts them (03 R55, 10 R201, R207,
11 R211 to R218). -/

namespace Sys2Proof.Machine

/-! ### Reading a context's memory (R211, R212) -/

/-- What the scheduler reads: bytes, a page that is not ready, or a fault. -/
inductive Rd where
  | ok (bs : List Byte) | wait (va : Nat) | bad
  deriving DecidableEq, Repr

def rdRuns (s : State) (ctx : Nat) : List (Nat × Nat) → Rd
  | [] => .ok []
  | (va, n) :: rest =>
    match walk s (s.ctx ctx) (va % 2 ^ 64) with
    | .error (.npk _ _) => .wait va
    | .error (.invalid _) => .bad
    | .ok t =>
      if !canonical (va % 2 ^ 64) || !t.r then .bad
      else
        match rdRuns s ctx rest with
        | .ok bs => .ok ((List.range n).map (fun i => viewByte s t.space (t.pa + i)) ++ bs)
        | r => r

def schedRead (s : State) (ctx va n : Nat) : Rd := rdRuns s ctx (spansOf va n)

/-- Every byte of a range is mapped with X. -/
def codeRuns (s : State) (ctx : Nat) : List (Nat × Nat) → Rd
  | [] => .ok []
  | (va, _) :: rest =>
    match walk s (s.ctx ctx) (va % 2 ^ 64) with
    | .error (.npk _ _) => .wait va
    | .error (.invalid _) => .bad
    | .ok t => if canonical (va % 2 ^ 64) && t.x then codeRuns s ctx rest else .bad

/-! ### The kernel header (Table 3-12, R211) -/

def zeros (bs : List Byte) : Bool := bs.all (· == 0)
def fieldOf (bs : List Byte) (off n : Nat) : Nat := ofBytes ((bs.drop off).take n)

def headerFrom (b : List Byte) : Header :=
  { entry := fieldOf b 8 8, vregs := fieldOf b 16 2, sregs := fieldOf b 18 1, preds := fieldOf b 19 1, brackets := fieldOf b 20 1,
    depth := fieldOf b 21 1, maxgroup := fieldOf b 22 2, scratch := fieldOf b 24 4, depV := fieldOf b 28 1, depVn := fieldOf b 29 1,
    depS := fieldOf b 30 1, depSn := fieldOf b 31 1, barriers := fieldOf b 32 2, conv := fieldOf b 34 1, args := fieldOf b 36 4,
    codesize := fieldOf b 40 8, names := bit (fieldOf b 6 2) 0, invert := bit (fieldOf b 6 2) 1, regroup := bit (fieldOf b 6 2) 2,
    persistent := bit (fieldOf b 6 2) 3, gaps := (List.range 16).map fun k => fieldOf b (48 + k) 1 }

def wavesFor (threads : Nat) : Nat := (threads + 31) / 32

/-- Waves of a kernel in one register bank of one quadrant (01 R12). -/
def bankWaves (vregs : Nat) : Nat := min 16 (1024 / vregs)

/-- The limits of Table 3-12 and the fits of R12. -/
def headerOk (b : List Byte) : Bool :=
  let h := headerFrom b
  fieldOf b 0 4 == 0x4B485849 && fieldOf b 4 2 == 1 && fieldOf b 6 2 < 16 && h.entry % 12 == 0 &&
    8 ≤ h.vregs && h.vregs ≤ 256 && h.vregs % 8 == 0 && h.sregs ≤ 64 && h.preds ≤ 48 && h.brackets ≤ 8 && h.depth ≤ 32 &&
    1 ≤ h.maxgroup && h.maxgroup ≤ 1024 && h.scratch ≤ 458752 && h.depVn ≤ 16 &&
    (if h.depVn = 0 then h.depV == 0 else h.depV + h.depVn ≤ h.vregs - (if h.depth = 0 then 0 else 1)) && h.depSn ≤ 8 &&
    (if h.depSn = 0 then h.depS == 0 else h.depS + h.depSn ≤ h.sregs) && h.barriers ≤ 1024 && h.conv ≤ 16 &&
    fieldOf b 35 1 == 0 && h.args ≤ 4096 && h.args % 4 == 0 && h.codesize % 12 == 0 && h.gaps.all (· ≤ 63) && h.gaps.headD 1 == 0 &&
    (wavesFor h.maxgroup + 3) / 4 ≤ bankWaves h.vregs

/-- What acceptance answers. -/
inductive Accept (α : Type) where
  | ok (x : α) | wait (va : Nat) | rej (err : Nat)
  deriving DecidableEq, Repr

def Accept.bind {α β : Type} (r : Accept α) (f : α → Accept β) : Accept β :=
  match r with
  | .ok x => f x
  | .wait va => .wait va
  | .rej e => .rej e

def needRd (r : Rd) : Accept (List Byte) :=
  match r with
  | .ok bs => .ok bs
  | .wait va => .wait va
  | .bad => .rej 3
def needOk (b : Bool) (err : Nat) : Accept Unit := if b then .ok () else .rej err

/-- Read and check a header for a code base: its code is mapped (R211). -/
def readHeader (s : State) (ctx hdr code : Nat) : Accept Header :=
  (needOk (hdr % 64 == 0 && code % 64 == 0) 3).bind fun _ =>
    (needRd (schedRead s ctx hdr 64)).bind fun b =>
      (needOk (headerOk b) 3).bind fun _ =>
        let h := headerFrom b
        (needRd (codeRuns s ctx (spansOf (code + h.entry) h.codesize))).bind fun _ => .ok h

/-- The waves of a group of `n` threads fit a save area (14 R310). -/
def fitsArea (s : State) (ctx n : Nat) : Bool := 0x80000 + 0x10000 * wavesFor n ≤ (s.ctx ctx).saveStride

/-! ### Counters at acceptance (R216) -/

/-- A free counter that a new level may take. -/
def ctrFree (s : State) (ctx h lvl : Nat) : Bool :=
  hLvl h == lvl && h / 2 ^ 16 % 2 ^ 29 == 0 && (sysTrans s ctx (ctrVa s ctx (hSlot h))).isSome && cState (ctrRead s ctx (hSlot h)) == 0

/-- A parent: none, or an open level of one of the given kinds. -/
def parentOk (s : State) (ctx h : Nat) (lvls : List Nat) : Bool :=
  h == 0 || (handleOk s ctx h && cState (ctrRead s ctx (hSlot h)) == 1 && lvls.contains (hLvl h))

def openCtr (s : State) (ctx h parent final : Nat) : State :=
  ctrEdit s ctx (hSlot h) fun _ => 1 + hLvl h * 32 + hGen h * 2 ^ 16 + final * 2 ^ 128 + parent * 2 ^ 192

/-! ### The partition (14 R321, 10 R206, R207) -/

/-- The cores on which a context may run: those of its partition, and those lent to it; not those lent away. -/
def partCores (s : State) (part : Nat) : List Nat :=
  let p := mgetD s.parts part {}
  (List.range 192).filter fun c =>
    match (s.core c).lentTo with
    | some q => q == part
    | none => p.cores.contains c || p.margin.contains c

def partDies (s : State) (part : Nat) : List Nat :=
  let cs := partCores s part
  (List.range 4).filter fun d => cs.any fun c => c / 48 == d

def splitBytes (k : Core) : Nat := 65536 * k.split

/-- Some core of the partition could hold a group of the header when empty. -/
def fitsSome (s : State) (ctx : Nat) (h : Header) : Bool :=
  (partCores s (s.ctx ctx).part).any fun c => h.scratch ≤ splitBytes (s.core c)

/-! ### Launch records (Table 11-1) -/

/-- A bin-binding record (Table 10-5), as (entry, COAL, TIMER, CAPLOG, buffer). -/
def binBind (h : Header) (b : List Byte) : Option (Nat × Nat × Nat × Nat × DWord) :=
  let buf := fieldOf b 0 8
  let e := fieldOf b 8 4
  if buf % 64 == 0 && buf != 0 && e % 12 == 0 && h.entry ≤ e && e < h.entry + h.codesize && 1 ≤ fieldOf b 12 2 && fieldOf b 12 2 ≤ 1024 &&
      1 ≤ fieldOf b 14 2 && 5 ≤ fieldOf b 16 1 && fieldOf b 16 1 ≤ 16 && zeros ((b.drop 17).take 15) then
    some (e, fieldOf b 12 2, fieldOf b 14 2, fieldOf b 16 1, BitVec.ofNat 64 buf)
  else none

def binList (h : Header) (b : List Byte) : Nat → Option (List (Nat × Nat × Nat × Nat × DWord))
  | 0 => some []
  | n + 1 => (binList h b n).bind fun xs => (binBind h ((b.drop (32 * n)).take 32)).map fun x => xs ++ [x]

/-- Rights of the entries of a launch (R146): 0 selects W, G, D, J and P. -/
def launchRights (r : Nat) : BitVec 6 := if r = 0 then 0b101111 else BitVec.ofNat 6 (r / 16)

/-- Check a launch record and form its launch: everything but the opening of its counter. `within` is the graph's handle for a
root launch, whose PARENT must equal it. -/
def readLaunch (s : State) (ctx prio va : Nat) (within : Option Nat) : Accept Launch :=
  (needRd (schedRead s ctx va 128)).bind fun b =>
    let f (off n : Nat) : Nat := fieldOf b off n
    let ctr := f 0x20 8
    let parent := f 0x28 8
    let gbase := f 0x38 8
    let ngrp := f 0x40 4
    let gsize := f 0x44 2
    let rights := f 0x46 2
    let scope := f 0x48 1
    (needOk (va % 64 == 0 && zeros (b.drop 0x49) && f 0x10 8 % 64 == 0 && rights % 16 == 0 && rights < 1024 && gbase < 2 ^ 36 && 1 ≤ ngrp &&
        gbase + ngrp ≤ 2 ^ 36 && (scope == 0 || (3 ≤ scope && scope ≤ 7)) && ctrFree s ctx ctr 1 &&
        (match within with | some h => parent == h | none => parentOk s ctx parent [2, 3, 4])) 3).bind fun _ =>
      (readHeader s ctx (f 0 8) (f 8 8)).bind fun h =>
        (needOk (1 ≤ gsize && gsize ≤ h.maxgroup && fitsArea s ctx gsize && (h.args == 0 || f 0x18 8 % 4 == 0)) 3).bind fun _ =>
          (needRd (schedRead s ctx (f 0x18 8) h.args)).bind fun args =>
            (needRd (schedRead s ctx (f 0x30 8 / 32 * 32) (32 * (f 0x30 8 % 32)))).bind fun bl =>
              match binList h bl (f 0x30 8 % 32) with
              | none => .rej 3
              | some bins =>
                (needOk (fitsSome s ctx h) 4).bind fun _ =>
                  let proto : Group :=
                    { ctx := ctx, gbase := gbase, gsize := gsize, hdr := h, entry := h.entry, code := BitVec.ofNat 64 (f 8 8),
                      cnst := BitVec.ofNat 64 (f 0x10 8), args := args, rights := launchRights rights,
                      scope := if scope = 0 then 5 else scope, prio := prio, counter := BitVec.ofNat 64 ctr, bins := bins, born := s.clock }
                  .ok { ctx := ctx, handle := BitVec.ofNat 64 ctr, parent := BitVec.ofNat 64 parent, next := 0, ngrp := ngrp,
                        proto := proto, state := 0, dies := partDies s (s.ctx ctx).part, dealt := [] }

/-- Accept a launch: its counter opens and its groups enter placement. -/
def startLaunch (s : State) (l : Launch) (graph : Option Nat) : State :=
  let id := s.nextId
  let s1 := openCtr s l.ctx l.handle.toNat l.parent.toNat l.ngrp
  { s1 with nextId := id + 1, launches := mput s1.launches id { l with proto := { l.proto with launch := id, graph := graph } } }

def acceptLaunch (s : State) (ctx prio va : Nat) : Accept (State × Nat) :=
  (readLaunch s ctx prio va none).bind fun l => .ok (startLaunch s l none, l.handle.toNat)

/-! ### Graph records (Table 11-4) -/

/-- One node entry (R218). -/
def readNode (s : State) (ctx : Nat) (b : List Byte) : Accept GraphNode :=
  let f (off n : Nat) : Nat := fieldOf b off n
  (readHeader s ctx (f 0 8) (f 8 8)).bind fun h =>
    (needOk (f 0x10 8 % 64 == 0 && (h.args == 0 || f 0x18 8 % 4 == 0) && f 0x20 8 % 64 == 0 && f 0x20 8 != 0 && f 0x28 4 % 12 == 0 &&
        h.entry ≤ f 0x28 4 && f 0x28 4 < h.entry + h.codesize && 1 ≤ f 0x2C 2 && f 0x2C 2 ≤ 1024 && fitsArea s ctx (min (f 0x2C 2) h.maxgroup) && 1 ≤ f 0x2E 2 && 5 ≤ f 0x30 1 &&
        f 0x30 1 ≤ 16 && zeros ((b.drop 0x31).take 15)) 3).bind fun _ =>
      (needRd (schedRead s ctx (f 0x18 8) h.args)).bind fun args =>
        .ok { entry := f 0x28 4, hdr := h, code := BitVec.ofNat 64 (f 8 8), cnst := BitVec.ofNat 64 (f 0x10 8), args := args,
              buf := BitVec.ofNat 64 (f 0x20 8), coal := f 0x2C 2, timer := f 0x2E 2, caplog := f 0x30 1 }

def readNodes (s : State) (ctx : Nat) (b : List Byte) : Nat → Accept (List GraphNode)
  | 0 => .ok []
  | n + 1 => (readNodes s ctx b n).bind fun xs => (readNode s ctx ((b.drop (64 * n)).take 64)).bind fun x => .ok (xs ++ [x])

/-- Accept the root launches of a graph in order. -/
def acceptRoots (ctx prio h graph : Nat) : List Nat → State → Accept State
  | [], s => .ok s
  | va :: rest, s => (readLaunch s ctx prio va (some h)).bind fun l => acceptRoots ctx prio h graph rest (startLaunch s l (some graph))

def acceptGraph (s : State) (ctx prio va : Nat) : Accept (State × Nat) :=
  (needRd (schedRead s ctx va 64)).bind fun b =>
    let f (off n : Nat) : Nat := fieldOf b off n
    let ctr := f 0 8
    let nroot := f 0x20 4
    let nnode := f 0x24 4
    (needOk (va % 64 == 0 && zeros (b.drop 0x28) && ctrFree s ctx ctr 2 && parentOk s ctx (f 8 8) [3, 4] && f 0x10 8 % 8 == 0 &&
        f 0x18 8 % 64 == 0 && 1 ≤ nroot && nroot ≤ 65535 && nnode ≤ 4096) 3).bind fun _ =>
      (needRd (schedRead s ctx (f 0x10 8) (8 * nroot))).bind fun rs =>
        (needRd (schedRead s ctx (f 0x18 8) (64 * nnode))).bind fun ns =>
          (readNodes s ctx ns nnode).bind fun nodes =>
            let id := s.nextId
            let s1 := openCtr s ctx ctr (f 8 8) nroot
            let s2 := { s1 with nextId := id + 1, graphs := mput s1.graphs id { ctx := ctx, handle := BitVec.ofNat 64 ctr, nodes := nodes } }
            (acceptRoots ctx prio ctr id ((List.range nroot).map fun i => fieldOf rs (8 * i) 8) s2).bind fun s3 => .ok (s3, ctr)

/-! ### The head of a queue (10 R196 to R198) -/

def pktBad (p : List Byte) : Bool :=
  let t := pktField p 0 1
  3 < t || 4 ≤ pktField p 1 1 || !zeros ((p.drop 2).take 6) || !zeros (p.drop 0x20) || ((t == 0 || t == 3) && pktField p 0x18 8 != 0)

/-- The head packet is consumed: RDIDX rises, and the packet is complete, or pends on a counter. -/
def consume (s : State) (ctx q : Nat) (note : Bool) (h : Option Nat) : State :=
  let s1 := modQueue s ctx q fun y =>
    let y1 := { y with rdidx := y.rdidx + 1
                       pending := match h with | some h => y.pending ++ [(y.rdidx.toNat, note, BitVec.ofNat 64 h)] | none => y.pending }
    { y1 with state := y1.idleState }
  if note ∧ h = none then s1.modCtx ctx fun c => { c with notify := c.notify ||| (1#64 <<< q) } else s1

/-- The scheduler examines the head packet of a ready queue (Table 10-3). One whose page cannot be read leaves the queue ready
(log 130). -/
def examine (s : State) (ctx q : Nat) : State :=
  let y := s.queue ctx q
  match schedRead s ctx y.headVa 64 with
  | .wait va => requestPage s ctx va
  | .bad => s
  | .ok p =>
    let note := bit (pktField p 1 1) 1
    let rec_ := pktField p 0x18 8
    if pktBad p then stopQueue s ctx q 1 rec_
    else
      match depMet s ctx (pktField p 8 8) (pktField p 0x10 8) with
      | none => stopQueue s ctx q 5 rec_
      | some met =>
        if !met || (bit (pktField p 1 1) 0 && !y.pending.isEmpty) then modQueue s ctx q fun y => { y with state := 3 }
        else
          let accept (r : Accept (State × Nat)) : State :=
            match r with
            | .ok (t, h) => consume t ctx q note (some h)
            | .wait va => requestPage s ctx va
            | .rej e => stopQueue s ctx q e rec_
          match pktField p 0 1 with
          | 1 => accept (acceptLaunch s ctx y.prio rec_)
          | 2 => accept (acceptGraph s ctx y.prio rec_)
          | _ => consume s ctx q note none

def execQueueHeadExamine (ctx : BitVec 16) (q : BitVec 6) (s : State) : Out :=
  let c := ctx.toNat
  if (mget s.ctxs c).isSome ∧ (s.ctx c).state ≠ .killing ∧ (s.queue c q.toNat).state = 2 then .next (examine s c q.toNat) else .next s

/-! ### Doorbells and EN (Table 10-3) -/

/-- The host port reaches a context's doorbell page through the function under which the context runs (16 Table 16-1); it answers
nothing in PHASE 3 (16 R374). -/
def paged (s : State) (ctx : Nat) : Bool := (s.ctx ctx).fn.isSome && s.phase != 3

def execDoorbell (ctx : BitVec 16) (q : BitVec 6) (v : Word) (s : State) : Out :=
  .next (if paged s ctx.toNat then ringQueue s ctx.toNat q.toNat v else s)

/-- A queue is enabled: its descriptor is checked, and WRIDX against RDIDX. -/
def enableQueue (s : State) (c q : Nat) : State :=
  let y := s.queue c q
  let s1 := modQueue s c q fun y => { y with en := true }
  if y.base.toNat % 64 ≠ 0 ∨ 12 < y.logsz then stopQueue s1 c q 6 0
  else if !y.inRange y.wridx then stopQueue s1 c q 2 y.wridx.toNat
  else modQueue s1 c q fun y => { y with state := y.idleState }

def execQueueEnable (ctx : BitVec 16) (q : BitVec 6) (s : State) : Out :=
  let y := s.queue ctx.toNat q.toNat
  if (mget s.ctxs ctx.toNat).isNone ∨ y.en ∨ y.state ≠ 0 then .next s else .next (enableQueue s ctx.toNat q.toNat)

def execQueueDisable (ctx : BitVec 16) (q : BitVec 6) (s : State) : Out :=
  if (mget s.ctxs ctx.toNat).isNone ∨ !(s.queue ctx.toNat q.toNat).en then .next s
  else .next (modQueue s ctx.toNat q.toNat fun y => { y with en := false, err := if y.state = 4 then 0 else y.err, state := 0 })

end Sys2Proof.Machine
end

