-- ==== Sys2Proof/Machine/Sched.lean ====
section
/-! DEFINITION. Placement of groups: the ready lists, local queues, residence, stealing, and the move of a group to another
core (10 R199, R203, R206 to R208, 11 R213, 12 R245, 14 R308 to R310, Table 8-2). -/

namespace Sys2Proof.Machine

/-! ### Room on a core (R206, R308, R309) -/

/-- Groups that take up room on a core, in either bank. -/
def onCoreGroups (s : State) (core : Nat) : List Group :=
  (s.groups.filter fun (x : Nat × Group) => x.2.core == core && (match x.2.place with
    | .active => true | .shadow => true | .spilling => true | .loading => true | .migrating => true | _ => false)).map (·.2)

/-- Vector registers and slots that the waves of a context take in one quadrant. -/
def bankUse (gs : List Group) (ctx quad : Nat) : Nat × List Nat :=
  let vs := (gs.filter fun x => x.ctx == ctx).flatMap fun x => (x.waves.filter fun v => v.quad == quad).map fun v => (x.hdr.vregs, v.slot)
  ((vs.map (·.1)).foldl (· + ·) 0, vs.map (·.2))

/-- Waves of a group that stand on a quadrant: they are spread round-robin from quadrant 0. -/
def quadWaves (n quad : Nat) : Nat := ((List.range n).filter fun w => w % 4 == quad).length

/-- Whether a group of a header with `n` waves fits the free resources of a core: wave slots and registers, scratchpad and the 1,024
named barriers (R206, chapter 09). -/
def fitsNow (s : State) (core ctx : Nat) (h : Header) (n : Nat) : Bool :=
  let gs := onCoreGroups s core
  (List.range 4).all (fun q =>
    let u := bankUse gs ctx q
    u.1 + h.vregs * quadWaves n q ≤ 1024 && u.2.length + quadWaves n q ≤ 16) &&
    (gs.map fun x => x.hdr.scratch).foldl (· + ·) 0 + h.scratch ≤ splitBytes (s.core core) &&
    (gs.map fun x => x.hdr.barriers).foldl (· + ·) 0 + h.barriers ≤ 1024

/-- The lowest slot of a list that is free. -/
def lowFree (used : List Nat) : Nat := ((List.range (used.length + 1)).find? fun i => !used.contains i).getD 0

/-- Quadrants and slots of `n` waves on a core, in wave order. -/
def dealSlots (gs : List Group) (ctx n : Nat) : List (Nat × Nat) :=
  ((List.range n).foldl (fun (r : List (Nat × Nat)) w =>
    let q := w % 4
    r ++ [(q, lowFree ((bankUse gs ctx q).2 ++ (r.filter fun x => x.1 == q).map (·.2)))]) [])

/-- The bank of a core in which a context stands. -/
def bankOf (s : State) (core ctx : Nat) : Option Place :=
  if (s.core core).active = some ctx then some .active else if (s.core core).shadow = some ctx then some .shadow else none

/-- Step 1 of the ladder and a revocation keep groups from residing on a core (14 R320, R322). -/
def coreTakes (s : State) (core ctx : Nat) : Bool :=
  let k := s.core core
  !k.revoke && !(k.ladder == 1 && k.ladderOf == ctx) && evicting k != some ctx

/-- A pending move keeps groups from being placed there; those that are there already run to completion (10 R209). -/
def coreOpen (s : State) (core ctx : Nat) : Bool := coreTakes s core ctx && !(s.partMoves.any fun m => m.1 == core)

def freeArea (s : State) (ctx : Nat) : Option Nat :=
  let i := lowFree ((s.ctx ctx).saveUsed.map (·.1))
  if i < (s.ctx ctx).saveCnt then some i else none

/-! ### Numbers and entries (R203, R213) -/

/-- What a number's entry allows: the group may take it, or is counted complete with this state code. -/
inductive EntryFor where
  | free | taken (code : Nat) | wait
  deriving DecidableEq, Repr

/-- The entry is judged by its STATE, whatever its reserved bits hold (log 116). -/
def entryFor (s : State) (ctx num : Nat) : EntryFor :=
  match nteOf s ctx num with
  | none => .taken 0xFF
  | some a => let st := nteState (nteRead s a); if st = 0 ∨ st = 5 then .free else .taken st

/-- The number that a bin group takes: the lowest of the spawn range that is unbound, dead or unmapped. -/
def spawnNum (s : State) (ctx : Nat) : Option Nat :=
  let c := s.ctx ctx
  ((List.range c.spawnN).find? fun i =>
    match nteOf s ctx (c.spawnG + i) with
    | none => true
    | some a => let st := nteState (nteRead s a); st == 0 || st == 5).map fun i => c.spawnG + i

/-- The number of a group, and what its entry allows. -/
def numberFor (s : State) (x : Group) : Option Nat × EntryFor :=
  match x.binKey with
  | none => (some x.num, entryFor s x.ctx x.num)
  | some _ =>
    if (s.ctx x.ctx).spawnN = 0 then (none, .taken 0xFF)
    else
      match spawnNum s x.ctx with
      | some n => (some n, entryFor s x.ctx n)
      | none => (none, .wait)

/-- A group that cannot have its number is counted complete at once, with a record to the context. -/
def countComplete (s : State) (x : Group) (num : Option Nat) (code : Nat) : State :=
  let h := x.counter.toNat
  let s1 := x.records.foldl (fun s r => outAdd s x.ctx r.2.toNat (-1)) s
  let st := cState (ctrRead s1 x.ctx (hSlot h))
  let s2 := if handleOk s1 x.ctx h ∧ (st = 1 ∨ st = 3) then valAdd s1 x.ctx h else s1
  ctxErr s2 x.ctx 0x0102 code 0 0 ((num.map (· * 1024)).getD 0) h 0

/-! ### Groups waiting on a die (R199, R206) -/

/-- A group that waits: one of a launch by its index, one of a bin, or a saved one that a WAKE has queued. -/
inductive Waiting where
  | launch (id index : Nat) | bin (g : Nat) | saved (g : Nat)
  deriving DecidableEq, Repr

/-- A rank: priority, whether saved, age and number. -/
def ranksBefore (a b : Nat × Bool × Nat × Nat) : Bool :=
  if a.1 ≠ b.1 then b.1 < a.1
  else if a.2.1 ≠ b.2.1 then a.2.1
  else if a.2.2.1 ≠ b.2.2.1 then a.2.2.1 < b.2.2.1 else a.2.2.2 < b.2.2.2

/-- The next group of a launch on a die. -/
def nextIndex (l : Launch) (die : Nat) : Option Nat :=
  match (List.range l.dies.length).find? fun j => l.dies.getD j 9 == die with
  | none => none
  | some j => let i := j + l.dies.length * mgetD l.dealt die 0; if i < l.ngrp ∧ l.state = 0 then some i else none

def waitingOn (s : State) (die : Nat) : List ((Nat × Bool × Nat × Nat) × Waiting) :=
  (s.launches.filterMap fun (l : Nat × Launch) => (nextIndex l.2 die).map fun i =>
    ((l.2.proto.prio, false, l.2.proto.born, l.1), Waiting.launch l.1 i)) ++
  ((s.die die).ready.map fun g => let x := s.group g; ((x.prio, false, x.born, g), Waiting.bin g)) ++
  (s.groups.filterMap fun (x : Nat × Group) =>
    if x.2.place = .swapped ∧ x.2.wantSwapIn ∧ x.2.die = die then some ((x.2.prio, true, x.2.born, x.1), Waiting.saved x.1) else none)

/-- Insert by rank. -/
def insertRank (x : (Nat × Bool × Nat × Nat) × Waiting) : List ((Nat × Bool × Nat × Nat) × Waiting) → List ((Nat × Bool × Nat × Nat) × Waiting)
  | [] => [x]
  | y :: ys => if ranksBefore x.1 y.1 then x :: y :: ys else y :: insertRank x ys

def ranked (s : State) (die : Nat) : List Waiting := ((waitingOn s die).foldl (fun r x => insertRank x r) []).map (·.2)

/-- Resident and locally queued waves of a core. -/
def coreWaves (s : State) (core : Nat) : Nat :=
  ((onCoreGroups s core).map fun x => x.waves.length).foldl (· + ·) 0 +
    ((s.core core).localq.map fun g => wavesFor (s.group g).gsize).foldl (· + ·) 0

/-- The candidate core with the fewest waves; ties to the lower number. -/
def placeCore (s : State) (die ctx : Nat) (ok : Nat → Bool) : Option Nat :=
  let cs := (partCores s (s.ctx ctx).part).filter fun c => c / 48 == die && coreOpen s c ctx && ok c
  match cs with
  | [] => none
  | c :: rest => some (rest.foldl (fun a b => if coreWaves s b < coreWaves s a then b else a) c)

/-- A waiting group as a record. -/
def waitingGroup (s : State) (die : Nat) (w : Waiting) : Group :=
  match w with
  | .launch id i =>
    let l := mgetD s.launches id { ctx := 0, handle := 0, parent := 0, next := 0, ngrp := 0, proto := {}, state := 0, dies := [], dealt := [] }
    { l.proto with index := i, num := l.proto.gbase + i, die := die, place := .queued }
  | .bin g => { s.group g with place := .queued }
  | .saved g => s.group g

/-- The group is no longer waiting. -/
def takeWaiting (s : State) (die : Nat) (w : Waiting) : State :=
  match w with
  | .launch id _ =>
    { s with launches := mmod s.launches id fun l =>
        { l with next := l.next + 1, dealt := mput l.dealt die (mgetD l.dealt die 0 + 1), state := if l.next + 1 = l.ngrp ∧ l.state = 0 then 1 else l.state } }
  | .bin g => s.modDie die fun d => { d with ready := d.ready.filter (· != g) }
  | .saved _ => s

/-- Place one waiting group in a core's local queue, or start the restore of a saved one into the shadow bank of a core (Table 8-2). -/
def placeOne (s : State) (die : Nat) (w : Waiting) : Option State :=
  let x := waitingGroup s die w
  match w with
  | .saved g =>
    (placeCore s die x.ctx fun c => bankOf s c x.ctx == some .shadow && fitsNow s c x.ctx x.hdr x.waves.length).map fun c =>
      s.modGroup g fun x => { x with place := .loading, core := c }
  | _ =>
    match numberFor s x with
    | (_, .wait) => none
    | (n, .taken code) =>
      let s1 := countComplete (takeWaiting s die w) x n code
      some (match w with | .bin g => { s1 with groups := mdel s1.groups g } | _ => s1)
    | (_, .free) =>
      if (freeArea s x.ctx).isNone then none
      else
        (placeCore s die x.ctx fun c => (s.core c).localq.length < 4).map fun c =>
          let s1 := takeWaiting s die w
          let (g, s2) := match w with
            | .bin g => (g, { s1 with groups := mput s1.groups g { x with core := c } })
            | _ => (s1.nextId, { s1 with nextId := s1.nextId + 1, groups := mput s1.groups s1.nextId { x with core := c } })
          s2.modCore c fun k => { k with localq := k.localq ++ [g] }

/-- The scheduler places the group that ranks first among those that find a place. -/
def execGroupPlace (die : BitVec 2) (s : State) : Out :=
  match (ranked s die.toNat).findSome? (placeOne s die.toNat) with
  | some t => .next (sweepBins t)
  | none => .next s

/-! ### Residence (R206, R310, Table 8-2) -/

/-- The threads of a group at its first issue: the entry, and the records of a bin group in v0 to v7. -/
def firstWaves (x : Group) (slots : List (Nat × Nat)) (age : Nat) : List Wave :=
  (List.range (wavesFor x.gsize)).map fun w =>
    { threads := (List.range (min 32 (x.gsize - 32 * w))).map fun l =>
        { pc := x.entry, vr := ((List.range 8).zip (x.recVals.getD (32 * w + l) [])).foldl (fun m v => msetD m v.1 v.2 0) [] }
      quad := (slots.getD w (0, 0)).1
      slot := (slots.getD w (0, 0)).2
      sel := { age := age } }

/-- The location fields of an entry. -/
def locate (x : Group) (e : Nat) : Nat :=
  let v0 := x.waves.headD {}
  setBits (setBits (setBits (setBits e 150 2 (x.core / 48)) 152 6 (x.core % 48)) 158 2 v0.quad) 160 4 v0.slot

/-- The entry of a group that becomes resident. -/
def boundEntry (s : State) (x : Group) (save : Nat) (e : Nat) : Nat :=
  let h := x.hdr
  let b := nteSetState (placeCode x.place) 0 + x.rights.toNat * 16 + (nteGen e + 1) % 65536 * 2 ^ 16 + h.depV * 2 ^ 64 + h.depVn * 2 ^ 72 +
    h.depS * 2 ^ 77 + h.depSn * 2 ^ 83 + s.device % 2 ^ 22 * 2 ^ 128 + save * 2 ^ 192
  locate x b

/-- A dead group whose number is taken again gives up its save area (R146, R310); one whose completion event is still due stays,
under no number, until it is published. -/
def dropDead (s : State) (ctx num : Nat) : State :=
  let isOld (x : Group) : Bool := x.ctx == ctx && x.num == num && x.place == .dead
  let old := (s.groups.filter fun x => isOld x.2).map (·.1)
  let keep (x : Nat × Group) : Option (Nat × Group) :=
    if !isOld x.2 then some x
    else if x.2.due && !x.2.published then some (x.1, { x.2 with num := 2 ^ 36, saveIdx := none })
    else none
  { s.modCtx ctx fun c => { c with saveUsed := c.saveUsed.filter fun u => !old.contains u.2 } with groups := s.groups.filterMap keep }

/-- A group of a core's local queue becomes resident. The completion word and the threads' words of its save area are those of a new
group (R146, R310). -/
def reside (s : State) (core g num area : Nat) (bank : Place) : State :=
  let s0 := dropDead s (s.group g).ctx num
  let x0 := s0.group g
  let gs := onCoreGroups s0 core
  let x1 := { x0 with
    num := num, core := core, die := core / 48, place := bank, saveIdx := some area,
    gbase := if x0.binKey.isSome then (s0.ctx x0.ctx).spawnG else x0.gbase,
    index := if x0.binKey.isSome then num - (s0.ctx x0.ctx).spawnG else x0.index,
    waves := firstWaves x0 (dealSlots gs x0.ctx (wavesFor x0.gsize)) s0.clock }
  let s1 := { s0 with groups := mput s0.groups g x1 }
  let s2 := s1.modCtx x1.ctx fun c => { c with saveUsed := c.saveUsed ++ [(area, g)] }
  let save := saveVa s2 g
  let s3 := nteEdit s2 x1.ctx num (boundEntry s2 x1 save)
  (s3.sysWrite x1.ctx (save + 8) (toBytes 8 0)).sysWrite x1.ctx (save + 0x400) (List.replicate (8 * x1.gsize) 0)

/-- A core takes the head of its local queue into residence when it fits. -/
def execGroupReside (core : BitVec 8) (s : State) : Out :=
  let c := core.toNat
  match (s.core c).localq with
  | [] => .next s
  | g :: rest =>
    let x := s.group g
    let s1 := s.modCore c fun k => { k with localq := rest }
    match numberFor s x, freeArea s x.ctx, bankOf s c x.ctx with
    | (n, .taken code), _, _ => .next (let t := countComplete s1 x n code; { t with groups := mdel t.groups g })
    | (some n, .free), some a, some b =>
      if fitsNow s c x.ctx x.hdr (wavesFor x.gsize) && coreTakes s c x.ctx then .next (reside s1 c g n a b) else .next s
    | _, _, _ => .next s

/-! ### Stealing (R208) -/

/-- The oldest group of a local queue that would fit a core now. -/
def offer (s : State) (thief victim : Nat) (bins : Bool) : Option Nat :=
  let gs := (s.core victim).localq.filter fun g =>
    let x := s.group g
    (bins || x.binKey.isNone) && (partCores s (s.ctx x.ctx).part).contains thief && (partCores s (s.ctx x.ctx).part).contains victim &&
      (bankOf s thief x.ctx).isSome && coreOpen s thief x.ctx && fitsNow s thief x.ctx x.hdr (wavesFor x.gsize)
  match gs with
  | [] => none
  | g :: rest => some (rest.foldl (fun a b => if (s.group b).born < (s.group a).born then b else a) g)

/-- Of the cores of a die that offer a group, the one with the longest local queue; ties to the lower number. -/
def victimOf (s : State) (thief die : Nat) (bins : Bool) : Option (Nat × Nat) :=
  let cs := ((List.range 48).map fun i => 48 * die + i).filterMap fun c =>
    if c = thief then none else (offer s thief c bins).map fun g => (c, g)
  match cs with
  | [] => none
  | x :: rest => some (rest.foldl (fun a b => if (s.core a.1).localq.length < (s.core b.1).localq.length then b else a) x)

def execGroupSteal (core : BitVec 8) (s : State) : Out :=
  let c := core.toNat
  if !(s.core c).localq.isEmpty then .next s
  else
    let far := (List.range 4).filter fun d => d != c / 48
    match (victimOf s c (c / 48) true).orElse fun _ => far.findSome? fun d => victimOf s c d false with
    | none => .next s
    | some (v, g) =>
      let s1 := s.modCore v fun k => { k with localq := k.localq.filter (· != g) }
      .next ((s1.modCore c fun k => { k with localq := [g] }).modGroup g fun x => { x with core := c })

/-! ### A group moves to another core (12 R245) -/

/-- Records that a group's launch has pushed on its die hold it there: a TAKE acts on the bins of its own core's die and on no other
(10 R200), and the outcomes of a walk hold under every move (17 R381, log 118). -/
def boundToDie (s : State) (x : Group) : Bool :=
  let mine (r : BinRec) : Bool := r.pusher == x.launch
  ((s.die x.die).bins.any fun b => b.2.recs.any mine) || s.pushes.any fun p => p.die == x.die && mine p.item
def mayMove (s : State) (x : Group) (core : Nat) : Bool := core / 48 == x.die || !boundToDie s x

/-- A running group halts at an instruction boundary and its entry becomes migrating (Table 8-2). -/
def execGroupMigration (g : Nat) (core : BitVec 8) (s : State) : Out :=
  let x := s.group g
  let c := core.toNat
  if x.place = .active ∧ c ≠ x.core ∧ (partCores s (s.ctx x.ctx).part).contains c ∧ bankOf s c x.ctx = some .active ∧
      coreOpen s c x.ctx ∧ fitsNow s c x.ctx x.hdr x.waves.length ∧ mayMove s x c then
    .next (setPlace (s.modGroup g fun x => { x with formed := [], invs := [], moveTo := some c }) g .migrating)
  else .next s

/-- A group stands at a core: its place, its slots and its entry. -/
def settleAt (s : State) (g core : Nat) (bank : Place) : State :=
  let gs := (onCoreGroups { s with groups := mdel s.groups g } core)
  let s1 := s.modGroup g fun x =>
    let slots := dealSlots gs x.ctx x.waves.length
    { x with core := core, die := core / 48, moveTo := none,
             waves := ((List.range x.waves.length).zip x.waves).map fun (w, v) =>
               { v with quad := (slots.getD w (0, 0)).1, slot := (slots.getD w (0, 0)).2, sel := { v.sel with age := s.clock, pair := none } } }
  let s2 := setPlace s1 g bank
  nteEdit s2 (s2.group g).ctx (s2.group g).num (locate (s2.group g))

/-- Name operations of a group that wait at its entry are applied, in order. -/
def applyQueued (s : State) (g : Nat) : State :=
  let x := s.group g
  let mine (o : NameOp) : Bool := match o.target with | some (.group c n _ _) => c == x.ctx && n == x.num && o.remote.isNone | _ => false
  (s.nameOps.filter mine).foldl deliverName s

/-- Whether accesses that a group's threads have made are still to perform: a move releases and acquires at package scope
(13 R271). Those of parked lanes are made again after it. -/
def openAccesses (s : State) (g : Nat) : Bool :=
  s.accesses.any fun a => a.g == g && a.lanes.any fun o => o.got.isNone && (match o.stage with | .parked _ => false | _ => true)

/-- The move completes: what was queued applies before the first issue at the new place. -/
def execGroupMigrationComplete (g : Nat) (s : State) : Out :=
  let x := s.group g
  match x.place, x.moveTo with
  | .migrating, some c =>
    if bankOf s c x.ctx ≠ some .active ∨ !fitsNow s c x.ctx x.hdr x.waves.length ∨ openAccesses s g then .next s
    else
      let s1 := applyQueued (settleAt s g c .active) g
      .next (nteEdit s1 x.ctx x.num fun e => setBits e 32 16 0)
  | _, _ => .next s

end Sys2Proof.Machine
end

