-- ==== Sys2Proof/Machine/Scalar.lean ====
section
/-! DEFINITION. Group 0x08, scalar memory (06 R107, R108). -/

namespace Sys2Proof.Machine

def signOff (off : BitVec 24) : DWord := off.signExtend 64

/-- One request for each home wave in which the guard is true in at least one issuing thread (R17). -/
def uniReqs (k : Ctl) (s : State) (f : Nat × Nat → LaneOp) : List ((Nat × Nat) × LaneOp) :=
  let act := actives k s
  (wavesOf act).map fun w => (leadOf act w, f (leadOf act w))

def sregsOf (a : Opnd) (n : Nat) : List Nat :=
  match a with
  | .s i => (List.range n).map fun j => i.toNat + j
  | _ => []

/-- The accesses that this issue has made, as (id, home wave, whether a lane of it crosses the fabric). -/
def newAccesses (s0 s : State) : List Access := s.accesses.filter fun a => s0.nextId ≤ a.id

/-- After an SLD: its destination is interlocked, and one that goes to pool or peer storage holds its issuing threads. -/
def holdSload (s0 s : State) : State :=
  (newAccesses s0 s).foldl (fun s a =>
    let s1 := s.modWave a.g a.w fun v => { v with sPending := v.sPending ++ (a.lanes.flatMap (·.dst)).map fun r => (r, a.id) }
    let far := a.lanes.any fun o => (o.kind == 1 || o.kind == 2)
    if far then
      (lanesOf a.mask).foldl (fun s l => holdAt s (l, a.w) (.ops [a.id])) s1
    else s1) s

/-- Send what an issue leaves waiting for the fabric. -/
def sendNew (s0 s : State) : State :=
  (uniq ((newAccesses s0 s).map fun a => (a.g, a.w))).foldl (fun s x => sendWave s x.1 x.2) s

def mapNext (o : Out) (f : State → State) : Out :=
  match o with
  | .next s => .next (f s)
  | .fault r => .fault r
  | .refused r => .refused r

def execSld (k : Ctl) (a b : Opnd) (w : Width) (off : BitVec 24) (_sc : Scope) (s : State) : Out :=
  let reqs := uniReqs k s fun m => { lane := m.1, addr := src64 s m b + signOff off, dst := sregsOf a w.regs, vals := [] }
  let inf : AccInfo := { kind := .sload, width := w.bytes, ctr := 6, scope := ⟨0, 15⟩, uni := true }
  if reqs.isEmpty then .next (advance s)
  else mapNext (issueAccess s inf reqs fun m o => checkLane s s.cur.g m .sload w.bytes o) fun t => sendNew s (holdSload s t)

/-- Bytes of the argument block; at or beyond the header's args size they read 0 (R108). -/
def argWord (x : Group) (off : Nat) : Word :=
  BitVec.ofNat 32 (ofBytes ((List.range 4).map fun i => if off + i < x.hdr.args then x.args.getD (off + i) 0 else 0))

def execSldarg (k : Ctl) (a : Opnd) (pair : Bool) (off4 : BitVec 10) (s : State) : Out :=
  let x := s.cg
  let act := actives k s
  let off := 4 * off4.toNat
  .next ((wavesOf act).foldl (fun t w =>
    ((sregsOf a (if pair then 2 else 1)).zip [argWord x off, argWord x (off + 4)]).foldl (fun t p => wrS t 0 w p.1 p.2) t) (advance s))

end Sys2Proof.Machine
end

