-- ==== Sys2Proof/Machine/Control.lean ====
section
/-! DEFINITION. Group 0x10, control (08 R153 to R164). -/

namespace Sys2Proof.Machine

/-! ### Branches (R142, R154) -/

/-- PC + 12 × SignExt(X, 32). -/
def branchTo (pc : Nat) (off : Word) : Int := (pc : Int) + 12 * off.toInt

/-- A target inside the code a home wave runs (R25, R57). -/
def landFail (s : State) (m : Nat × Nat) (t : Int) : Option LaneFail :=
  if t % 12 == 0 && inCode s s.cur.g m.2 t then none else some ⟨m, 0x0A, 0, 0⟩

/-- Check the targets of all lanes before any lane transfers, then transfer. -/
def transfer (s : State) (ts : List ((Nat × Nat) × Int)) (also : State → State) : Out :=
  let fs := ts.filterMap fun x => landFail s x.1 x.2
  if !fs.isEmpty then .next (trapFails s fs [])
  else .next (ts.foldl (fun s x => setPc s x.1 x.2.toNat) (also (advance s)))

def execBra (k : Ctl) (off : Word) (s : State) : Out :=
  transfer s ((actives k s).map fun m => (m, branchTo s.cur.pc off)) id

def execBru (k : Ctl) (off : Word) (s : State) : Out :=
  let act := actives k s
  if !act.isEmpty && act.length != s.cur.members.length then .next (trapNow s 0x07 0 s.cur.members)
  else transfer s (act.map fun m => (m, branchTo s.cur.pc off)) id

/-- Write a 64-bit value to a vector pair. -/
def wrPair (s : State) (m : Nat × Nat) (a : Opnd) (x : DWord) : State := wrDst64 s 1 m a x

def execCall (k : Ctl) (a : Opnd) (off : Word) (s : State) : Out :=
  let act := actives k s
  transfer s (act.map fun m => (m, branchTo s.cur.pc off)) fun t =>
    act.foldl (fun t m => wrPair t m a (BitVec.ofNat 64 (s.cur.pc + 12))) t

/-- RET (R155): bits 63:32 of the return address are zero, and it lies in the code. -/
def execRet (k : Ctl) (b : Opnd) (s : State) : Out :=
  transfer s ((actives k s).map fun m => (m, ((src64 s m b).toNat : Int))) id

/-! ### JTAB (R25, R57, R156) -/

/-- What a table read comes to. -/
inductive JRes where
  | trap (fs : List LaneFail) (parks : List (Nat × Nat))
  | park
  | far (ops : List ((Nat × Nat) × LaneOp))
  | absent (pa : Nat)
  | go (ts : List ((Nat × Nat) × Nat))
  deriving DecidableEq, Repr

/-- The word that a checked read of the table returns, where it performs at once. -/
def tableWord (s : State) (g : Nat) (o : LaneOp) : Word := ((performLane s g .jtab 4 o).2).headD 0

def tableOp (m : Nat × Nat) (addr : Nat) (vals : List Word) : LaneOp :=
  { lane := m.1, addr := BitVec.ofNat 64 addr, dst := [], vals := vals }

def resOps (rs : List LaneRes) : List LaneOp := rs.filterMap fun r => match r with | .ok o _ => some o | _ => none

/-- A lane of a JTAB: its member, its index, the header word, and the entry word once it is known. -/
structure JLane where
  at_ : Nat × Nat
  index : Word
  header : Word
  entry : Option Word := none
  deriving DecidableEq, Repr

def JLane.outside (x : JLane) : Bool := x.header.toNat % 65536 ≤ x.index.toNat

/-- Whether a target is a multiple of 12, in the code, and at a LAND that carries the table's label. -/
def jtabLands (s : State) (g : Nat) (x : JLane) (e : Word) : Bool :=
  e.toNat % 12 == 0 && inCode s g x.at_.2 e.toNat &&
    (match decode (wordAt s g x.at_.2 e.toNat) with
     | .ok (.land _ _ _ _ _ label mono _) => !mono && label.toNat == x.header.toNat / 65536
     | _ => false)

/-- How a lane fails: its index is out of bound, or its target does not land. -/
def jtabFail (s : State) (g : Nat) (x : JLane) : Option LaneFail :=
  if x.outside then some ⟨x.at_, 0x09, 0, 0⟩
  else
    match x.entry with
    | none => none
    | some e => if jtabLands s g x e then none else some ⟨x.at_, 0x0A, 0, 0⟩

/-- The read of a lane's entry. -/
def entryOp (base : Nat) (x : JLane) : LaneOp := tableOp x.at_ (base + 4 + 4 * x.index.toNat) [x.index, x.header]

/-- A lane of a JTAB that still needs its entry: how the read's checks end. -/
def entryRead (s : State) (g base : Nat) (x : JLane) : Option LaneRes :=
  if x.outside || x.entry.isSome then none else some (checkLane s g x.at_ .jtab 4 (entryOp base x))

/-- A lane with the entry word that it reads at once, if it does. -/
def entryNow (s : State) (g base : Nat) (x : JLane) : JLane :=
  match entryRead s g base x with
  | some (.ok o _) => if performsNow o.kind o.cls then { x with entry := some (tableWord s g o) } else x
  | _ => x

/-- The read of a lane's entry that does not perform at once, if it is one. -/
def entryLater (s : State) (g base : Nat) (x : JLane) : Option LaneOp :=
  match entryRead s g base x with
  | some (.ok o _) => if performsNow o.kind o.cls then none else some o
  | _ => none

/-- Read the entries, once the header word is known, and check every lane before any lane transfers (02 R25). A lane whose index is out
of bound reads none. What does not perform at once is read first, since the masks of a trap record every failing lane. -/
def jtabEntries (s : State) (g base : Nat) (xs : List JLane) : JRes :=
  if xs.any fun x => (entryLater s g base x).isSome then
    .far (xs.map fun x =>
      (x.at_, match entryLater s g base x with
        | some o => o
        | none => { entryOp base x with got := some x.entry.toList }))
  else
    let rs := xs.filterMap (entryRead s g base)
    let seen := xs.filter JLane.outside ++ (xs.filter fun x => !x.outside).map (entryNow s g base)
    let fs := resFails rs ++ seen.filterMap (jtabFail s g)
    let parks := resParks rs
    if !fs.isEmpty then .trap fs parks
    else if !parks.isEmpty then .park
    else
      match resAbsent rs with
      | some pa => .absent pa
      | none => .go (xs.map fun x => (x.at_, ((entryNow s g base x).entry.getD 0).toNat))

/-- Read the header word of the table, then the entries: xs lists member and index. -/
def jtabRead (s : State) (g base : Nat) (xs : List ((Nat × Nat) × Word)) : JRes :=
  match xs with
  | [] => .go []
  | x0 :: _ =>
    match checkLane s g x0.1 .jtab 4 (tableOp x0.1 base []) with
    | .fail f => .trap (xs.map fun x => { f with at_ := x.1 }) []
    | .park _ _ => .park
    | .absent pa => .absent pa
    | .ok o _ =>
      if performsNow o.kind o.cls then
        jtabEntries s g base (xs.map fun x => { at_ := x.1, index := x.2, header := tableWord s g o })
      else .far (xs.map fun x => (x.1, { o with lane := x.1.1, vals := [x.2] }))

def jtabInfo : AccInfo := { kind := .jtab, width := 4, ctr := 6, scope := ⟨0, 15⟩ }

def execJtab (k : Ctl) (b : Opnd) (tab : Word) (s : State) : Out :=
  let act := actives k s
  let base := s.cg.cnst.toNat + tab.toNat
  let t := advance s
  let record (done parked : List ((Nat × Nat) × LaneOp)) : State :=
    (wavesOf act).foldl (fun t w =>
      recordWave t { jtabInfo with joint := s.nextId } s.cur.g w (maskOf (waveLanes act w)) done parked) t
  match jtabRead s s.cur.g base (act.map fun m => (m, src s m b)) with
  | .trap fs ps => .next (trapFails s fs ps)
  | .absent pa => .fault (.absentMemory pa)
  | .park => .next (record [] (act.map fun m => (m, tableOp m (base + 4 + 4 * (src s m b).toNat) [src s m b])))
  | .far ops =>
    let t1 := record ops []
    .next (sendNew s ((newAccesses s t1).foldl (fun t a => (a.lanes.map (·.lane)).foldl (fun t l => holdAt t (l, a.w) (.ops [a.id])) t) t1))
  | .go ts => .next (ts.foldl (fun t x => setPc t x.1 x.2) t)

/-! ### A JTAB that waits -/

/-- The lanes of a JTAB that waits, in all of its home waves, each with its access. -/
def jtabLanes (s : State) (j : Nat) : List (Access × LaneOp) :=
  (s.accesses.filter fun a => a.kind == .jtab && a.joint == j).flatMap fun a => a.lanes.map fun o => (a, o)

def mapJtab (s : State) (j : Nat) (f : Access → LaneOp → LaneOp) : State :=
  { s with accesses := s.accesses.map fun a => if a.kind = .jtab ∧ a.joint = j then { a with lanes := a.lanes.map (f a) } else a }

/-- A JTAB ends: its accesses are gone, and its threads stand at it; the lanes that `stay` keep their log entries. -/
def jtabEnds (s : State) (j : Nat) (stay : List (Nat × Nat)) : State :=
  let s1 := { s with accesses := s.accesses.filter fun a => !(a.kind == .jtab && a.joint == j) }
  (jtabLanes s j).foldl (fun s x =>
    let t := s.modThread x.1.g x.1.w x.2.lane fun t =>
      if t.st = .held ∨ t.st = .faultParked then { t with st := .ready, hold := .none, pc := x.1.pc } else t
    match x.2.logged with
    | some e => if stay.contains (x.2.lane, x.1.w) then t else leaveEntry t x.1.g x.1.w e [x.2.lane]
    | none => t) s1

/-- Threads of a JTAB that waited go to their targets. -/
def jtabGo (s : State) (j : Nat) (ts : List ((Nat × Nat) × Nat)) : State :=
  match jtabLanes s j with
  | [] => s
  | (a, _) :: _ => ts.foldl (fun s x => s.modThread a.g x.1.2 x.1.1 fun t => if t.st = .ready then { t with pc := x.2 } else t) (jtabEnds s j [])

/-- A JTAB that waited traps: each home wave of the cause mask enters its handler, with the entry that its lanes hold, and the
lanes that do not fail stand at it again. -/
def jtabTrap (s : State) (j : Nat) (fs : List LaneFail) (parks : List (Nat × Nat)) : State :=
  match jtabLanes s j with
  | [] => s
  | (a, o) :: rest =>
    let t := { failTrap s fs parks with pc := a.pc, word := a.word, frm := false }
    let ws := wavesOf t.lanes
    let entry (w : Nat) : Option Nat := ((a, o) :: rest).findSome? fun x => if x.1.w = w then x.2.logged else none
    let count (w : Nat) : Nat :=
      match ((a, o) :: rest).find? fun x => x.1.w == w with
      | some x => if (entry w).isSome then issuesPast s a.g w x.1.issued else 0
      | none => 0
    ws.foldl (fun s w => enterWave (s.modGroup a.g fun x => dissolve x w) a.g w { t with log := entry w, count := count w })
      (jtabEnds s j ((t.lanes ++ t.others).filter fun m => ws.contains m.2))

/-- A JTAB that waited parks in the operand log of each of its home waves; it waits on where one of them is full. -/
def jtabPark (s : State) (j base : Nat) : State :=
  let as := s.accesses.filter fun a => a.kind == .jtab && a.joint == j
  let place (a : Access) : Option Nat :=
    match a.lanes.findSome? (·.logged) with
    | some e => some e
    | none => freeEntry (s.wave a.g a.w)
  if as.any fun a => (place a).isNone then s
  else
    as.foldl (fun s a =>
      let e := (place a).getD 0
      let os := a.lanes.map fun o =>
        { tableOp (o.lane, a.w) (base + 4 + 4 * (o.vals.headD 0).toNat) [o.vals.headD 0] with stage := .parked e, entry := some e }
      let s1 := setAccess s a.id fun a => { a with lanes := os }
      if a.lanes.any fun o => o.logged.isSome then s1
      else
        let le : LogEntry :=
          { word := a.word, pc := a.pc, mask := maskOf (os.map (·.lane)), late := false, op := a.id, issued := a.issued, clock := s.clock,
            addrs := os.map (fun o => (o.lane, o.addr)), vals := os.map fun o => (o.lane, o.vals) }
        parkThreads (putEntry s1 a.g a.w e le) a.g a.pc (os.map fun o => (o.lane, a.w))) s

/-- What the lanes of a JTAB that waits do, once its table has been read as far as it could be. -/
def jtabSettle (s : State) (j base : Nat) (r : JRes) : State :=
  match r with
  | .go ts => jtabGo s j ts
  | .trap fs ps => jtabTrap s j fs ps
  | .park => jtabPark s j base
  | .absent _ => s
  | .far ops =>
    let new (a : Access) (o : LaneOp) : LaneOp :=
      match ops.find? fun x => x.1 == (o.lane, a.w) with
      | some x => { x.2 with entry := o.logged }
      | none => o
    (uniq ((jtabLanes s j).map fun x => (x.1.g, x.1.w))).foldl (fun s x => sendWave s x.1 x.2) (mapJtab s j new)

/-- A JTAB whose table lies outside the domain goes on once all of its lanes have the word they asked for. -/
def jtabProgress (s : State) (id : Nat) : State :=
  match s.accesses.find? fun a => a.id == id && a.kind == .jtab with
  | none => s
  | some a =>
    let s1 := mapJtab s a.joint fun a o =>
      if o.got.isNone && o.stage == .pending && !o.crosses then { o with got := some (performLane s a.g .jtab 4 o).2 } else o
    let ls := jtabLanes s1 a.joint
    if ls.any fun x => x.2.got.isNone then s1
    else
      let at_ (x : Access × LaneOp) : Nat × Nat := (x.2.lane, x.1.w)
      if ls.all fun x => x.2.vals.length == 2 then
        let base (x : Access × LaneOp) : Nat := (x.2.addr.toNat + 2 ^ 64 - (4 + 4 * (x.2.vals.headD 0).toNat)) % 2 ^ 64
        let b := (ls.head?.map base).getD 0
        jtabSettle s1 a.joint b (jtabEntries s1 a.g b (ls.map fun x =>
          { at_ := at_ x, index := x.2.vals.headD 0, header := x.2.vals.getD 1 0, entry := (x.2.got.getD []).head? }))
      else
        let b := (ls.head?.map fun x => x.2.addr.toNat).getD 0
        jtabSettle s1 a.joint b (jtabEntries s1 a.g b (ls.map fun x =>
          { at_ := at_ x, index := x.2.vals.headD 0, header := (x.2.got.getD []).headD 0 }))

/-! ### LAND, NOP, YIELD, EXIT, BRK -/

def execLand (_k : Ctl) (_a _b _c _d : Opnd) (_label : BitVec 16) (_m _dir : Bool) (s : State) : Out := .next (advance s)
def execNop (_k : Ctl) (s : State) : Out := .next (advance s)

/-- YIELD (R161): the other waves of the quadrant that are ready now come first, for 16 clocks at most. -/
def execYield (k : Ctl) (s : State) : Out :=
  let t := advance s
  if (actives k s).isEmpty then .next t
  else
    let quad := (s.wave s.cur.g s.cur.w).quad
    let me : Nat × Nat := (s.cur.g, if s.cur.formed then 64 + s.cur.fid else s.cur.w)
    let others := ((cands s s.cg.core quad).filter (Cand.isReady s)).map Cand.key |>.filter (· != me)
    .next (modSel t s.cur.g s.cur.w (if s.cur.formed then some s.cur.fid else none) fun r =>
      { r with defer := .yield others (s.clock + 16) })

def execExit (k : Ctl) (s : State) : Out :=
  .next ((actives k s).foldl (fun t m => exitNow t s.cur.g m (rdV s m 0)) (advance s))

/-- Every live thread of a group halts at its next instruction boundary (14 R324): those that wait halt once released. -/
def haltThread (t : Thread) : Thread := if t.st = .ready then { t with st := .halted } else t
def haltGroup (s : State) (g : Nat) : State :=
  s.modGroup g fun x =>
    { x with haltReq := true, formed := [], invs := [], waves := x.waves.map fun v => { v with threads := v.threads.map haltThread } }

/-- BRK (R160): with a debugger the lanes halt at it, or the whole group does; without one it traps BREAKPOINT. -/
def execBrk (k : Ctl) (_code : Word) (s : State) : Out :=
  let act := actives k s
  let c := s.ctx s.cg.ctx
  if act.isEmpty then .next (advance s)
  else if c.debug then
    let t := act.foldl (fun t m => t.modThread s.cur.g m.2 m.1 fun x => { x with st := .halted, pc := s.cur.pc }) (advance s)
    .next (if c.allStop then haltGroup t s.cur.g else t)
  else .next (takeTrap s s.cur.g { cause := 0x21, lanes := act, rsm := true, pc := s.cur.pc, word := s.cur.word, frm := s.cur.formed })

/-! ### Reconvergence (R140, R141, R158) -/

/-- Whether a thread of a home wave is held at RCVWAIT dk. -/
def heldRcv (s : State) (g w n : Nat) : Bool := (s.wave g w).threads.any fun t => t.st == .held && t.hold == .rcv n

def setRcv (s : State) (g w n : Nat) (m : Word) : State := s.modWave g w fun v => { v with rcv := msetD v.rcv n m 0 }

def execRcvset (k : Ctl) (n : BitVec 5) (s : State) : Out :=
  let act := actives k s
  let g := s.cur.g
  if act.isEmpty then .next (advance s)
  else if n.toNat ≥ s.cg.hdr.depth then .next (trapNow s 0x08 0 act)
  else
    let busy := act.filter fun m => heldRcv s g m.2 n.toNat
    if !busy.isEmpty then .next (trapNow s 0x0C 12 busy)
    else .next ((wavesOf act).foldl (fun t w => setRcv t g w n.toNat (maskOf (waveLanes act w))) (advance s))

/-- RCVWAIT holds a thread that is in the mask; its release is decided at the end of the clock (`settleRcv`). -/
def execRcvwait (k : Ctl) (n : BitVec 5) (s : State) : Out :=
  let act := actives k s
  if act.isEmpty then .next (advance s)
  else if n.toNat ≥ s.cg.hdr.depth then .next (trapNow s 0x08 0 act)
  else
    .next (act.foldl (fun t m =>
      if (mgetD (s.wave s.cur.g m.2).rcv n.toNat 0).getLsbD m.1 then holdAt t m (.rcv n.toNat) else t) (advance s))

/-- RCVDROP removes the thread from the mask; a thread of a convergence set whose signers are held leaves the set (02 R22). -/
def execRcvdrop (k : Ctl) (n : BitVec 5) (s : State) : Out :=
  let act := actives k s
  let g := s.cur.g
  if act.isEmpty then .next (advance s)
  else if n.toNat ≥ s.cg.hdr.depth then .next (trapNow s 0x08 0 act)
  else
    let held (c : Nat) (w : Nat) : Bool := (heldOn s.cg (holdsSign c)).any fun h => h.2 == w
    .next (act.foldl (fun t m =>
      let t1 := leaveRcv t g m n.toNat
      (((s.wave g m.2).conv.filter fun c => c.2.kind == 2 && held c.1 m.2).map (·.1)).foldl (fun t c => leaveConv t g m c) t1) (advance s))

end Sys2Proof.Machine
end

