-- ==== Sys2Proof/Machine/Memory.lean ====
section
/-! DEFINITION. Group 0x14, memory (12 R249 to R259, 13 R273). -/

namespace Sys2Proof.Machine

/-! ### Addresses and values (R250 to R253) -/

def vaOf (s : State) (m : Nat × Nat) (b : Opnd) (off : BitVec 24) : DWord := src64 s m b + signOff off
def offsetOf (s : State) (m : Nat × Nat) (b : Opnd) (off : BitVec 24) : Word := src s m b + off.signExtend 32

def vregsOf (a : Opnd) (n : Nat) : List Nat :=
  match a with
  | .v i => (List.range n).map fun j => i.toNat + j
  | _ => []

/-- The 32-bit words that a store or an atomic takes from an operand. -/
def wordsAt (s : State) (m : Nat × Nat) (a : Opnd) (w : Width) : List Word :=
  match w with
  | .b128 =>
    (match a with
     | .v n => (List.range 4).map fun i => rdV s m (n.toNat + i)
     | .s n => (List.range 4).map fun i => rdS s m.2 (n.toNat + i)
     | _ => [0, 0, 0, 0])
  | .b64 => let x := src64 s m a; [x.truncate 32, (x >>> 32).truncate 32]
  | _ => [src s m a]

def memOp (s : State) (m : Nat × Nat) (b : Opnd) (off : BitVec 24) (dst : List Nat) (vals : List Word) : LaneOp :=
  { lane := m.1, addr := vaOf s m b off, dst := dst, vals := vals }

def scratchOp (s : State) (m : Nat × Nat) (b : Opnd) (off : BitVec 24) (dst : List Nat) (vals : List Word) : LaneOp :=
  let o := (offsetOf s m b off).toNat
  { lane := m.1, addr := BitVec.ofNat 64 o, dst := dst, vals := vals, kind := 4, cls := 2, pa := o }

/-- The check of one lane of a scratchpad access (R234). -/
def scratchLane (x : Group) (reads : Bool) (width : Nat) (m : Nat × Nat) (o : LaneOp) : LaneRes :=
  match scratchCheck x o.pa width reads with
  | some (c, sub) => .fail ⟨m, c, sub, o.addr⟩
  | none => .ok o none

/-- Issue an access for each active lane, in memory or in scratchpad. -/
def onMemory (k : Ctl) (inf : AccInfo) (f : State → Nat × Nat → LaneOp) (s : State) : Out :=
  mapNext (issueAccess s inf ((actives k s).map fun m => (m, f s m)) fun m o => checkLane s s.cur.g m inf.kind inf.width o)
    fun t => sendNew s t

def onScratch (k : Ctl) (inf : AccInfo) (f : State → Nat × Nat → LaneOp) (s : State) : Out :=
  issueAccess s inf ((actives k s).map fun m => (m, f s m)) fun m o => scratchLane s.cg (accOf inf.kind).reads inf.width m o

/-! ### LD, ST, LDS, STS -/

def execLd (k : Ctl) (a b : Opnd) (w : Width) (sx acq : Bool) (_pol : BitVec 2) (off : BitVec 24) (sc : Scope) (s : State) :
    Out :=
  onMemory k { kind := .load sx, width := w.bytes, ctr := 0, scope := sc, acq := acq }
    (fun s m => memOp s m b off (vregsOf a w.regs) []) s

def execSt (k : Ctl) (a b : Opnd) (w : Width) (_rel : Bool) (_pol : BitVec 2) (flag : Bool) (off : BitVec 24) (sc : Scope)
    (s : State) : Out :=
  onMemory k { kind := .store, width := w.bytes, ctr := 1, scope := sc, flag := flag }
    (fun s m => memOp s m b off [] (wordsAt s m a w)) s

def execLds (k : Ctl) (a b : Opnd) (w : Width) (sx : Bool) (off : BitVec 24) (sc : Scope) (s : State) : Out :=
  onScratch k { kind := .load sx, width := w.bytes, ctr := 0, scope := sc }
    (fun s m => scratchOp s m b off (vregsOf a w.regs) []) s

def execSts (k : Ctl) (a b : Opnd) (w : Width) (off : BitVec 24) (sc : Scope) (s : State) : Out :=
  onScratch k { kind := .store, width := w.bytes, ctr := 1, scope := sc } (fun s m => scratchOp s m b off [] (wordsAt s m a w)) s

/-! ### Atomics (R252, R253) -/

/-- The operand of an atomic: OPA, or what follows the base. -/
def atomVals (s : State) (m : Nat × Nat) (a b : Opnd) (w : Width) (base : Nat) : List Word :=
  match a with
  | .null => wordsAt s m (follows b base) w
  | a => wordsAt s m a w

def atomCtr (a : Opnd) : Nat := if a = .null then 1 else 0

def execAtom (k : Ctl) (a b : Opnd) (w : Width) (sg : Bool) (op : AtomOp) (_nc : Bool) (off : BitVec 24) (sc : Scope)
    (s : State) : Out :=
  onMemory k { kind := .atom op sg, width := w.bytes, ctr := atomCtr a, scope := sc }
    (fun s m => memOp s m b off (vregsOf a w.regs) (atomVals s m a b w 2)) s

def execAtoms (k : Ctl) (a b : Opnd) (w : Width) (sg : Bool) (op : AtomOp) (off : BitVec 24) (sc : Scope) (s : State) : Out :=
  onScratch k { kind := .atom op sg, width := w.bytes, ctr := atomCtr a, scope := sc }
    (fun s m => scratchOp s m b off (vregsOf a w.regs) (atomVals s m a b w 1)) s

/-- Compare and swap values: registers from OPA on. -/
def casVals (s : State) (m : Nat × Nat) (a : Opnd) (w : Width) : List Word := (vregsOf a (2 * w.regs)).map fun r => rdV s m r

def execCas (k : Ctl) (a b : Opnd) (w : Width) (_nc : Bool) (off : BitVec 24) (sc : Scope) (s : State) : Out :=
  onMemory k { kind := .cas, width := w.bytes, ctr := 0, scope := sc }
    (fun s m => memOp s m b off (vregsOf a w.regs) (casVals s m a w)) s

def execCass (k : Ctl) (a b : Opnd) (w : Width) (off : BitVec 24) (sc : Scope) (s : State) : Out :=
  onScratch k { kind := .cas, width := w.bytes, ctr := 0, scope := sc }
    (fun s m => scratchOp s m b off (vregsOf a w.regs) (casVals s m a w)) s

/-! ### FENCE, PREF, CFLUSH (R254, R255) -/

/-- Accesses of a thread to the spaces of a storage mask that have not performed. -/
def fenceIds (s : State) (g : Nat) (m : Nat × Nat) (sc : Scope) : List Nat :=
  (s.accesses.filter fun a => a.g == g && a.w == m.2 &&
    a.lanes.any fun o => o.got.isNone && (o.lane == m.1 || a.uni) && sc.mask.getLsbD (spaceBit o.kind)).map (·.id)

/-- FENCE holds the threads that issue it together until the earlier accesses of all of them have performed (12 R254, 20 R398). -/
def execFence (k : Ctl) (sc : Scope) (s : State) : Out :=
  let g := s.cur.g
  let act := actives k s
  let bad := act.filter fun m => sc.mask.getLsbD 2 && (s.wave g m.2).streams.any fun x => x.2.poison.isSome
  if !bad.isEmpty then .next (trapFails s (bad.map fun m => ⟨m, 0x15, 2, 0⟩) [])
  else
    let ids := uniq (act.flatMap fun m => fenceIds s g m sc)
    .next (if ids.isEmpty then advance s else act.foldl (fun t m => holdAt t m (.fence (sc.mask.getLsbD 2) ids act)) (advance s))

/-- The lanes of PREF and CFLUSH: each active lane, or one for each home wave where the base is uniform. -/
def lineReqs (k : Ctl) (s : State) (b : Opnd) (off : BitVec 24) : List ((Nat × Nat) × LaneOp) :=
  if isUniform b then uniReqs k s fun m => memOp s m b off [] [] else (actives k s).map fun m => (m, memOp s m b off [] [])

/-- PREF leaves the translation in the TLBs where every check passes, and has no other effect that can be seen. -/
def execPref (k : Ctl) (b : Opnd) (_l2 : Bool) (off : BitVec 24) (_sc : Scope) (s : State) : Out :=
  let x := s.cg
  .next ((lineReqs k s b off).foldl (fun t r =>
    match check s x.ctx x.core r.2.addr.toNat 1 .r with
    | .ok tr => fill t x.ctx x.core r.2.addr.toNat tr
    | _ => t) (advance s))

/-- CFLUSH on a page that is not private goes nowhere: KIND 0 performs at once and changes nothing. -/
def flushLane (s : State) (k : AccKind) (m : Nat × Nat) (o : LaneOp) : LaneRes :=
  match checkLane s s.cur.g m k 1 o with
  | .ok o t => .ok (if o.cls = 0 then o else { o with kind := 0 }) t
  | r => r

def execCflush (k : Ctl) (b : Opnd) (inv : Bool) (off : BitVec 24) (sc : Scope) (s : State) : Out :=
  issueAccess s { kind := .flush inv, width := 1, ctr := 1, scope := sc, uni := isUniform b } (lineReqs k s b off)
    (flushLane s (.flush inv))

/-! ### Timeline counters (R263) -/

def State.tl (s : State) (g t : Nat) : Timeline := mgetD (s.group g).tls t {}
def modTl (s : State) (g t : Nat) (f : Timeline → Timeline) : State :=
  s.modGroup g fun x => { x with tls := msetD x.tls t (f (mgetD x.tls t {})) {} }

/-- Whether an open window has a counter. -/
def tlBound (x : Group) (t : Nat) : Bool := x.wins.any fun w => w.2.opened && w.2.tl == t

/-- The next sequence number of a counter. -/
def tlNext (s : State) (g t : Nat) : Nat × State :=
  ((s.tl g t).issued + 1, modTl s g t fun x => { x with issued := x.issued + 1 })

/-- VALUE rises over the completed numbers that follow it. -/
def tlAdvance : Nat → Timeline → Timeline
  | 0, x => x
  | n + 1, x =>
    if x.done.contains (x.value + 1) then tlAdvance n { x with value := x.value + 1, done := x.done.filter (· != x.value + 1) } else x

def tlDone (s : State) (g t seq : Nat) : State :=
  modTl s g t fun x => tlAdvance (x.done.length + 1) { x with done := x.done ++ [seq] }

/-! ### Receive windows (R256, R257) -/

def tlOf : Opnd → Nat
  | .res (.tl n) => n.toNat
  | _ => 0

def State.win (s : State) (g n : Nat) : Win := mgetD (s.group g).wins n {}
def modWin (s : State) (g n : Nat) (f : Win → Win) : State :=
  s.modGroup g fun x => { x with wins := msetD x.wins n (f (mgetD x.wins n {})) {} }

/-- The first check that refuses RXWIN. -/
def winFail (x : Group) (n t base len : Nat) (acc : Word) (bar : Option Nat) : Option (Nat × Nat) :=
  let tl := mgetD x.tls t {}
  if base % 64 ≠ 0 ∨ len % 64 ≠ 0 ∨ len < 64 ∨ 458752 < len then some (0x1B, 3)
  else if acc.toNat / 2 ^ 16 % 2 ^ 14 ≠ 0 then some (0x1B, 5)
  else if (mgetD x.wins n {}).opened then some (0x1B, 6)
  else if tlBound x t ∨ tl.issued ≠ tl.value then some (0x1B, 4)
  else if base + len > x.hdr.scratch then some (0x14, 0)
  else if (bar.getD 0) ≥ x.hdr.barriers ∧ bar.isSome then some (0x0C, 1)
  else none

def execRxwin (k : Ctl) (a b c d : Opnd) (bb : Bool) (bar : BitVec 10) (win : BitVec 3) (s : State) : Out :=
  let g := s.cur.g
  let act := actives k s
  let bind : Option Nat := if bb then some bar.toNat else none
  let at_ (w : Nat) : Nat × Nat × Word := ((src s (leadOf act w) b).toNat, (src s (leadOf act w) c).toNat, src s (leadOf act w) d)
  let ws := wavesOf act
  let fails := ws.flatMap fun w =>
    let f := match winFail s.cg win.toNat (tlOf a) (at_ w).1 (at_ w).2.1 (at_ w).2.2 bind with
      | some f => some f
      | none => if ws.head? = some w then none else some (0x1B, 6)
    match f with
    | some (c, sub) => (s.cur.members.filter fun m => m.2 == w).map fun m => (⟨m, c, sub, 0⟩ : LaneFail)
    | none => []
  if !fails.isEmpty then .next (trapFails s fails [])
  else
    .next (ws.foldl (fun t w => modWin t g win.toNat fun _ =>
      { opened := true, base := (at_ w).1, len := (at_ w).2.1, acc := (at_ w).2.2, bar := bind, tl := tlOf a, drop := 0 }) (advance s))

def execRxclose (k : Ctl) (a : Opnd) (win : BitVec 3) (s : State) : Out :=
  let act := actives k s
  let n : Word := BitVec.ofNat 32 (s.win s.cur.g win.toNat).drop
  let t := act.foldl (fun t m => wrDst t 1 m a n) (advance s)
  .next (if act.isEmpty then t else modWin t s.cur.g win.toNat fun x => { x with opened := false })

/-! ### LDTO (R258, R259) -/

/-- What an LDTO lane asks: recipient, source, length, offset. -/
structure LdtoArg where
  ref : DWord
  src : DWord
  n : Nat
  off : Nat
  deriving DecidableEq, Repr

/-- What the checks of a lane answer: a trap, a page that the lane waits for, or the entry that the reference names. -/
inductive LdtoRes where
  | fail (cause sub : Nat) (addr : DWord)
  | park
  | go (f : Found)
  deriving DecidableEq, Repr

/-- Checks 2 and 3 of Table 12-2 on the source, for each page that it touches. -/
def sourceCheck (s : State) (ctx core : Nat) : List (Nat × Nat) → Option (Option (Nat × Nat))
  | [] => none
  | (va, _) :: rest =>
    if !canonical va then some (some (0x11, 1))
    else
      match lookup s ctx core va with
      | .error (.invalid sub) => some (some (0x11, sub))
      | .error (.npk _ _) => some none
      | .ok _ => sourceCheck s ctx core rest

def ldtoCheck (s : State) (g : Nat) (ack : Bool) (tl : Nat) (x : LdtoArg) : LdtoRes :=
  let y := s.group g
  if x.n = 0 ∨ 4096 < x.n then .fail 0x1B 2 0
  else if ack && tlBound y tl then .fail 0x1B 4 0
  else
    match nameLookup s (y.core / 48) y.ctx x.ref with
    | none => .fail 0x18 0 0
    | some f =>
      if refGc x.ref && refGen x.ref != nteGen f.entry then .fail 0x19 0 0
      else if !f.rights.getLsbD Right.feed.index then .fail 0x1A 0 0
      else
        match sourceCheck s y.ctx y.core (spansOf x.src.toNat x.n) with
        | some (some (c, sub)) => .fail c sub x.src
        | some none => .park
        | none => .go f

/-- One lane is sent: a sequence number under ACK, then the request, in the wave's stream where the owner is a node or a peer (15 R351),
or the report of a dead recipient. -/
def ldtoSend (s : State) (g w lane pc op : Nat) (ack : Bool) (tl win : Nat) (x : LdtoArg) (f : Found) : State :=
  let (seq, s1) := if ack then tlNext s g tl else (0, s)
  if nteState f.entry = 5 then
    let s2 := report s1 g 4 lane (ack.toNat + tl * 2) pc x.src.toNat seq x.ref.toNat
    opEnds (if ack then tlDone s2 g tl seq else s2) op
  else
    let x1 := s1.group g
    let owner : Option Dest := match lookup s1 x1.ctx x1.core x.src.toNat with
      | .ok t => if t.kind = 1 ∨ t.kind = 2 then some (destOf t.kind t.dev) else none
      | .error _ => none
    let o : LdtoOp :=
      { id := s1.nextId, g := g, w := w, lane := lane, op := op, pc := pc, n := x.n, off := x.off, src := x.src,
        ctx := (s1.group g).ctx, ref := x.ref,
        target := if nteState f.entry = 6 then .notify (f.entry / 2 ^ 128 % 4096) else .group f.ctx f.num 0 true, win := win, tl := tl,
        far := if nteState f.entry ≠ 6 ∧ nteDev f.entry ≠ s.device % 2 ^ 22 then some (nteDev f.entry) else none,
        ack := if ack then some (tl, seq) else none, sent := s1.ns, stage := if owner.isSome then .request else .owner }
    let s2 := { s1 with nextId := s1.nextId + 1, ldtos := s1.ldtos ++ [o] }
    match owner with
    | some d => sendCarrier s2 g w d (.third o.id) pc x.src
    | none => s2

def ldtoArg (s : State) (m : Nat × Nat) (a b c d : Opnd) : LdtoArg :=
  { ref := src64 s m a, src := src64 s m b, n := (src s m c).toNat, off := (src s m d).toNat }

/-- The operands of a lane as the operand log keeps them. -/
def ldtoVals (x : LdtoArg) : List Word :=
  [x.ref.truncate 32, (x.ref >>> 32).truncate 32, BitVec.ofNat 32 x.n, BitVec.ofNat 32 x.off]
def ldtoOfVals (src : DWord) (vs : List Word) : LdtoArg :=
  { ref := pairOf (vs.getD 0 0) (vs.getD 1 0), src := src, n := (vs.getD 2 0).toNat, off := (vs.getD 3 0).toNat }

/-- One operation of a counter for each home wave of the lanes, as (home wave, operation). -/
def startOps (s : State) (g : Nat) (act : List (Nat × Nat)) (ctr : Nat) : State × List (Nat × Nat) :=
  (wavesOf act).foldl (fun r w =>
    let (id, t) := opStart r.1 g w ctr (waveLanes act w).length
    (t, r.2 ++ [(w, id)])) (s, [])

/-- Park the lanes of a home wave in the operand log, for an operation that counts in rm. -/
def parkLdto (s : State) (g w op pc : Nat) (word : IWord) (ps : List ((Nat × Nat) × LdtoArg)) : State :=
  if ps.isEmpty then s
  else
    let v := s.wave g w
    let le : LogEntry :=
      { word := word, pc := pc, mask := maskOf (ps.map (·.1.1)), late := false, op := op,
        addrs := ps.map fun x => (x.1.1, x.2.src), vals := ps.map fun x => (x.1.1, ldtoVals x.2), issued := v.counted + 1,
        clock := s.clock }
    parkThreads (putEntry s g w ((freeEntry v).getD 0) le) g pc (ps.map (·.1))

def execLdto (k : Ctl) (a b c d : Opnd) (ack : Bool) (tl : BitVec 4) (win : BitVec 3) (s : State) : Out :=
  let g := s.cur.g
  let act := actives k s
  let rs := act.map fun m => (m, ldtoArg s m a b c d, ldtoCheck s g ack tl.toNat (ldtoArg s m a b c d))
  let fs := rs.filterMap fun r => match r.2.2 with | .fail c sub addr => some (⟨r.1, c, sub, addr⟩ : LaneFail) | _ => none
  let parks := rs.filter fun r => r.2.2 == .park
  if !fs.isEmpty then .next (trapFails s fs (parks.map (·.1)))
  else
    let (t, ops) := startOps (advance s) g act 4
    let t1 := rs.foldl (fun t r =>
      match r.2.2 with
      | .go f => ldtoSend t g r.1.2 r.1.1 s.cur.pc (mgetD ops r.1.2 0) ack tl.toNat win.toNat r.2.1 f
      | _ => t) t
    .next ((wavesOf act).foldl (fun t w =>
      parkLdto t g w (mgetD ops w 0) s.cur.pc s.cur.word ((parks.filter fun r => r.1.2 == w).map fun r => (r.1, r.2.1))) t1)

end Sys2Proof.Machine
end

