-- ==== Sys2Proof/Machine/Copy.lean ====
section
/-! DEFINITION. Group 0x15, copies and waits (12 R260 to R265, 14 R319), and the copy engine's events. -/

namespace Sys2Proof.Machine

def State.chan (s : State) (g c : Nat) : Chan := mgetD (s.group g).wps c {}
def modChan (s : State) (g c : Nat) (f : Chan → Chan) : State :=
  s.modGroup g fun x => { x with wps := msetD x.wps c (f (mgetD x.wps c {})) {} }

/-! ### Issue (R260, R261) -/

/-- What one copy asks: the lane that issues it, its range of scratchpad offsets, its pieces and its receivers; `range` is
whether its offsets lie in the issuer's own allocation. -/
structure CopyReq where
  m : Nat × Nat
  first : Nat
  total : Nat
  segs : List (DWord × Nat × Nat)
  lenOk : Bool
  range : Bool := true
  recv : List DWord := []
  deriving DecidableEq, Repr

/-- The first check that refuses a copy, and the end of the channel's last copy after it. -/
def copyFail (x : Group) (wait : Option Nat) (tle : Bool) (tl : Nat) (r : CopyReq) : Option (Nat × Nat) :=
  if !r.lenOk then some (0x1B, 2)
  else if r.range && r.first + r.total > x.hdr.scratch then some (0x14, 0)
  else if tle && tlBound x tl then some (0x1B, 4)
  else
    match wait with
    | some e => if r.first < e then some (0x1B, 7) else none
    | none => none

/-- Checks of the copies of an instruction, each behind the ones before it; `wait` is the end of the last queued copy. -/
def copyFails (x : Group) (tle : Bool) (tl : Nat) : Option Nat → List CopyReq → List LaneFail
  | _, [] => []
  | wait, r :: rest =>
    (match copyFail x wait tle tl r with
     | some (c, sub) => [⟨r.m, c, sub, BitVec.ofNat 64 r.first⟩]
     | none => []) ++ copyFails x tle tl (some (r.first + r.total)) rest

/-- A copy joins a channel: an idle channel's pointer goes to its first offset, and a recorded cause is cleared. -/
def pushCopy (s : State) (g wp : Nat) (c : Copy) : State :=
  modChan s g wp fun y =>
    { y with ptr := if y.queue.isEmpty then c.first else y.ptr, qend := c.stop, cause := none, queue := y.queue ++ [c],
             asked := if y.queue.isEmpty then s.ns else y.asked }

/-- The barrier that a channel is bound to, with the number of its phase. -/
def boundBar (s : State) (g wp : Nat) : Option (Nat × Nat) := (chanBar (s.group g) wp).map fun b => (b, (s.bar g b).epoch)

/-- A report of a copy, with the receiver it concerns. -/
def copyReport (s : State) (g code : Nat) (c : Copy) (addr : Nat) (ref : DWord) : State :=
  report s g code c.lane ((c.tl.map fun t => 1 + t.1 * 2).getD 0) c.pc addr ((c.tl.map (·.2)).getD 0) ref.toNat

/-- The receiver that a reference names, where it can take the bytes of a copy on its channel. -/
def receiver (s : State) (g wp : Nat) (first stop : Nat) (ref : DWord) : Option Nat :=
  (nameLookup s ((s.group g).core / 48) (s.group g).ctx ref).bind fun f =>
    if refGc ref && refGen ref != nteGen f.entry then none
    else
      (groupAt s f.ctx f.num).bind fun r =>
        let y := s.chan r wp
        if (s.group r).place = .dead ∨ stop > (s.group r).hdr.scratch then none
        else if r ≠ g ∧ !y.queue.isEmpty ∧ first < y.qend then none
        else some r

/-- The receivers of a CPYM take its place in the order of their channels; the others are reported. -/
def addReceivers (s : State) (g wp : Nat) (c : Copy) : List DWord → State × List (Nat × DWord)
  | [] => (s, [])
  | ref :: rest =>
    match receiver s g wp c.first c.stop ref with
    | none => addReceivers (copyReport s g 5 c c.first ref) g wp c rest
    | some r =>
      let s1 := if r = g then s else pushCopy s r wp { c with segs := [], recv := [], bar := boundBar s r wp, tl := none, ops := [] }
      let q := addReceivers s1 g wp c rest
      (q.1, (r, ref) :: q.2)

/-- Issue the copies of an instruction in order. `allWaves` counts the one copy in every home wave that issues. -/
def issueCopies (s : State) (wp : Nat) (kind : CopyKind) (tle : Bool) (tl : Nat) (act : List (Nat × Nat)) (allWaves : Bool)
    (extra : List LaneFail) (reqs : List CopyReq) : Out :=
  let g := s.cur.g
  let y := s.chan g wp
  let fs := copyFails s.cg tle tl (if y.queue.isEmpty then none else some y.qend) reqs
  let fs := fs ++ extra.filter fun f => !(fs.any fun x => x.at_ == f.at_)
  if !fs.isEmpty then .next (trapFails s fs [])
  else
    let (t, ops) := startOps (advance s) g act 2
    .next (reqs.foldl (fun t r =>
      let (seq, t1) := if tle then tlNext t g tl else (0, t)
      let mine := if allWaves then ops.flatMap fun o => List.replicate (waveLanes act o.1).length o.2 else [mgetD ops r.m.2 0]
      let c : Copy :=
        { kind := kind, first := r.first, stop := r.first + r.total, segs := r.segs, recv := [], bar := boundBar t1 g wp,
          tl := if tle then some (tl, seq) else none, wave := r.m.2, lane := r.m.1, pc := s.cur.pc, ops := mine }
      if kind = .cpym then
        let (t2, rs) := addReceivers t1 g wp c r.recv
        pushCopy t2 g wp { c with recv := rs, segs := if rs.isEmpty then [] else c.segs }
      else pushCopy t1 g wp c) t)

def lenOf (s : State) (m : Nat × Nat) (d : Opnd) : Nat := (src s m d).toNat

def execCpy (k : Ctl) (a b c d : Opnd) (tle : Bool) (tl : BitVec 4) (s : State) : Out :=
  let act := actives k s
  issueCopies s (chanOf a) .cpy tle tl.toNat act false [] (act.map fun m =>
    let n := lenOf s m d
    let o := lenOf s m b
    { m := m, first := o, total := n, segs := [(src64 s m c, o, n)], lenOk := 1 ≤ n && n ≤ 458752 })

def sIndex : Opnd → Nat
  | .s n => n.toNat
  | _ => 0

def execCpy2 (k : Ctl) (a b c d : Opnd) (tle : Bool) (tl : BitVec 4) (s : State) : Out :=
  let act := actives k s
  issueCopies s (chanOf a) .cpy2 tle tl.toNat act false [] (act.map fun m =>
    let w (i : Nat) : Word := rdS s m.2 (sIndex d + i)
    let row := (w 0).toNat
    let rows := (w 1).toNat
    let ok := 1 ≤ row && row ≤ 4096 && 1 ≤ rows && rows ≤ 4096
    let o := lenOf s m b
    { m := m, first := o, total := row * rows, lenOk := ok,
      segs := if ok then (List.range rows).map fun i => (src64 s m c + BitVec.ofNat 64 i * pairOf (w 2) (w 3), o + row * i, row) else [] })

def execCpyg (k : Ctl) (a b c d : Opnd) (tle : Bool) (tl : BitVec 4) (s : State) : Out :=
  let act := actives k s
  match act with
  | [] => .next (advance s)
  | m0 :: _ =>
    let n := lenOf s m0 d
    let o := lenOf s m0 b
    issueCopies s (chanOf a) .cpyg tle tl.toNat act true []
      [{ m := m0, first := o, total := n * act.length, lenOk := 1 ≤ n && n ≤ 4096,
         segs := ((List.range act.length).zip act).map fun (i, m) => (src64 s m c, o + n * i, n) }]

def execCpys (k : Ctl) (a b c d : Opnd) (tle : Bool) (tl : BitVec 4) (s : State) : Out :=
  let act := actives k s
  issueCopies s (chanOf a) .cpys tle tl.toNat act false [] (act.map fun m =>
    let n := lenOf s m d
    let o := lenOf s m b
    { m := m, first := o, total := n, segs := [(src64 s m c, o, n)], lenOk := 1 ≤ n && n ≤ 458752 })

/-- The references of a CPYM's receivers: consecutive group numbers. -/
def receivers (ref : DWord) (count : Nat) : List DWord := (List.range count).map fun i => ref + BitVec.ofNat 64 (1024 * i)

/-- A receiver whose entry lacks the D right (R261). -/
def lacksDeposit (s : State) (ref : DWord) : Bool :=
  match nameLookup s (s.cg.core / 48) s.cg.ctx ref with
  | some f => !f.rights.getLsbD Right.deposit.index
  | none => false

def execCpym (k : Ctl) (a b c : Opnd) (tle : Bool) (tl : BitVec 4) (recv : BitVec 6) (s : State) : Out :=
  let act := actives k s
  let ref (m : Nat × Nat) : DWord := pairOf (rdS s m.2 (sIndex b + 2)) (rdS s m.2 (sIndex b + 3))
  let bad := act.filter fun m => (receivers (ref m) (recv.toNat + 1)).any (lacksDeposit s)
  issueCopies s (chanOf a) .cpym tle tl.toNat act false (bad.map fun m => ⟨m, 0x1A, 0, 0⟩) (act.map fun m =>
    let o := (rdS s m.2 (sIndex b)).toNat
    let n := (rdS s m.2 (sIndex b + 1)).toNat
    { m := m, first := o, total := n, segs := [(src64 s m c, o, n)], lenOk := 1 ≤ n && n ≤ 458752, range := false,
      recv := receivers (ref m) (recv.toNat + 1) })

/-! ### Delivery (R260, R262) -/

def Copy.left (c : Copy) : Nat := (c.segs.map (·.2.2)).foldl (· + ·) 0

/-- What the next bytes of a copy meet: a run inside one line, a failing check, a page that is not ready, an absent
address. -/
inductive RunRes where
  | bytes (t : Trans) (k : Nat)
  | stop (cause sub : Nat) (addr : DWord)
  | stall (va : Nat)
  | absent (pa : Nat)
  | none
  deriving DecidableEq, Repr

/-- An engine's access to another device or a node: the grant of the owner, and a street that works. -/
def farFail (s : State) (ctx : Nat) (t : Trans) (write : Bool) : Option (Nat × Nat) :=
  if t.kind = 1 ∨ t.kind = 2 then
    let d := destOf t.kind t.dev
    if !granted (s.remote d).grants s.device (ctxFn s ctx) (fnGen s (ctxFn s ctx)) t.pa write then some (0x12, 1)
    else if (chooseStreet s d).isNone then some (0x15, 3) else none
  else none

/-- The bytes of a scratchpad from an offset on that come before a poisoned one. -/
def cleanRun (x : Group) (o k : Nat) : Nat := (x.scratchPoison.filter fun p => o ≤ p.1).foldl (fun n p => min n (p.1 - o)) k

/-- The next run of a copy; accesses that have no answer 4 ms after their first send fail (15 R347). -/
def copyRun (s : State) (g wp : Nat) (c : Copy) : RunRes :=
  let x := s.group g
  match c.segs with
  | [] => .none
  | (mem, o, n) :: _ =>
    let w := c.kind == .cpys
    match check s x.ctx x.core mem.toNat 1 (if w then .w else .r) with
    | .fail cause sub => .stop cause sub mem
    | .park _ => if refusedPage s x.ctx mem.toNat then .stop 0x11 5 mem else .stall mem.toNat
    | .absent pa => .absent pa
    | .ok t =>
      let k := min n (128 - t.pa % 128)
      match farFail s x.ctx t w with
      | some (cause, sub) => .stop cause sub mem
      | none =>
        if (t.kind = 1 ∨ t.kind = 2) ∧ (s.chan g wp).asked + 4000000 ≤ s.ns then .stop 0x15 3 mem
        else if !w && (poisoned s t.space t.pa k).isSome then .stop 0x15 ((poisoned s t.space t.pa k).getD 1) mem
        else if w && (scratchPoisoned x o 1).isSome then .stop 0x15 ((scratchPoisoned x o 1).getD 1) (BitVec.ofNat 64 o)
        else .bytes t (if w then cleanRun x o k else k)

/-- Whether the copies that serve receivers are first in every receiver's channel. -/
def placesReady (s : State) (g wp : Nat) (c : Copy) : Bool :=
  c.recv.all fun r => r.1 == g || (s.group r.1).place == .dead ||
    (match (s.chan r.1 wp).queue with
     | p :: _ => p.ops.isEmpty && p.first == c.first && p.stop == c.stop && p.pc == c.pc
     | [] => false)

/-- Bytes reach a group's channel: the pointer passes them, and the barrier that the copy was bound to takes them. -/
def passBytes (s : State) (g wp : Nat) (bar : Option (Nat × Nat)) (o k : Nat) : State :=
  let s1 := modChan s g wp fun y => { y with ptr := o + k }
  match bar with
  | some (b, n) => if boundBar s1 g wp = some (b, n) then creditBar (stamp s1 g b (placeOf 2 wp)) g b k else s1
  | none => s1

/-- Deliver a run of the head copy: into scratchpad, from scratchpad, or to the receivers. -/
def deliverRun (s : State) (g wp : Nat) (c : Copy) (t : Trans) (k : Nat) : State :=
  match c.segs with
  | [] => s
  | (mem, o, n) :: rest =>
    let x := s.group g
    let s1 := if x.place = .swapped then s else takeOwner (fill s x.ctx x.core mem.toNat t) x.ctx mem.toNat x.core t
    let s2 := modChan s1 g wp fun y =>
      match y.queue with
      | h :: q =>
        { y with asked := s.ns, queue := { h with segs := if n ≤ k then rest else (mem + BitVec.ofNat 64 k, o + k, n - k) :: rest } :: q }
      | [] => y
    let bs := (List.range k).map fun i => viewByte s t.space (t.pa + i)
    match c.kind with
    | .cpys =>
      let back := min (o - c.first) (mem.toNat % 4096)
      let s3 := s2.memoryWrite t.space t.pa (scratchRead x o k)
      passBytes (unpoison s3 t.space (t.pa - back) (back + k)) g wp c.bar o k
    | .cpym =>
      let s3 := c.recv.foldl (fun s r =>
        if (s.group r.1).place = .dead then s
        else
          let bar := if r.1 = g then c.bar else ((s.chan r.1 wp).queue.head?.bind (·.bar))
          (passBytes (scratchWrite s r.1 o bs) r.1 wp bar o k)) s2
      if c.recv.any fun r => r.1 == g then s3 else modChan s3 g wp fun y => { y with ptr := o + k }
    | _ => passBytes (scratchWrite s2 g o bs) g wp c.bar o k

def headCopy (s : State) (g wp : Nat) : Option Copy := (s.chan g wp).queue.head?

/-- Deliver at most `budget` bytes of the head copy. -/
def deliver : Nat → Nat → State → Nat → Nat → State
  | 0, _, s, _, _ => s
  | f + 1, budget, s, g, wp =>
    match headCopy s g wp with
    | none => s
    | some c =>
      if budget = 0 ∨ c.ops.isEmpty then s
      else
        match copyRun s g wp c with
        | .bytes t k => deliver f (budget - min k budget) (deliverRun s g wp c t (min k budget)) g wp
        | _ => s

/-- Credits keep the order of a clock (09 R183). -/
def creditsInOrder (s : State) (g wp : Nat) (c : Copy) : Bool :=
  let one (g : Nat) (bar : Option (Nat × Nat)) : Bool :=
    match bar with
    | some (b, _) => inOrder s g b (placeOf 2 wp)
    | none => true
  one g c.bar && c.recv.all fun r => one r.1 ((s.chan r.1 wp).queue.head?.bind (·.bar))

/-- Receivers that have died are dropped with a report (R261). -/
def dropReceivers (s : State) (g wp : Nat) (c : Copy) : State :=
  let dead := c.recv.filter fun r => (s.group r.1).place == .dead
  if dead.isEmpty then s
  else
    let s1 := dead.foldl (fun s r => copyReport s g 5 c ((s.chan g wp).ptr) r.2) s
    let keep := c.recv.filter fun r => !dead.contains r
    modChan s1 g wp fun y =>
      match y.queue with
      | h :: q => { y with queue := { h with recv := keep, segs := if keep.isEmpty then [] else h.segs } :: q }
      | [] => y

/-- Whether the channel's head copy may move now. -/
def copyMay (s : State) (g wp : Nat) (c : Copy) : Bool := !c.ops.isEmpty && placesReady s g wp c && creditsInOrder s g wp c

/-- A channel delivers the next bytes, all but the last byte of a copy, which completes it. -/
def execCopyDelivery (g : Nat) (wp : BitVec 3) (n : Nat) (s : State) : Out :=
  match headCopy s g wp.toNat with
  | none => .next s
  | some c0 =>
    let s0 := dropReceivers s g wp.toNat c0
    match headCopy s0 g wp.toNat with
    | none => .next s0
    | some c =>
      if !copyMay s0 g wp.toNat c then .next s0
      else
        match copyRun s0 g wp.toNat c with
        | .absent pa => .fault (.absentMemory pa)
        | .stall va => .next (servePage s0 (s0.group g).ctx (s0.group g).core va (if c.kind = .cpys then .w else .r))
        | .bytes _ _ => .next (deliver (n + 1) (min n (c.left - 1)) s0 g wp.toNat)
        | _ => .next s0

/-- The head copy leaves a channel and the next one starts. -/
def popCopy (s : State) (g wp : Nat) : State :=
  modChan s g wp fun y =>
    match y.queue with
    | _ :: h :: q => { y with queue := h :: q, ptr := h.first, asked := s.ns }
    | _ => { y with queue := [] }

/-- A copy ends: its receivers' places, its timeline and its counter. -/
def endCopy (s : State) (g wp : Nat) (c : Copy) : State :=
  let s1 := c.recv.foldl (fun s r => if r.1 = g then s else popCopy s r.1 wp) (popCopy s g wp)
  let s2 := match c.tl with | some (t, seq) => tlDone s1 g t seq | none => s1
  (c.ops.foldl (fun s o => opEnds s o) s2)

/-- The last byte of a copy is delivered, and the next queued copy starts. -/
def execCopyComplete (g : Nat) (wp : BitVec 3) (s0 : State) : Out :=
  match headCopy s0 g wp.toNat with
  | none => .next s0
  | some c0 =>
    let s := dropReceivers s0 g wp.toNat c0
    match headCopy s g wp.toNat with
    | none => .next s
    | some c =>
      if !copyMay s g wp.toNat c ∨ 1 < c.left then .next s
      else if c.left = 0 then .next (endCopy s g wp.toNat c)
      else
        match copyRun s g wp.toNat c with
        | .bytes t k => .next (endCopy (deliverRun s g wp.toNat c t (min k 1)) g wp.toNat c)
        | .absent pa => .fault (.absentMemory pa)
        | .stall va => .next (servePage s (s.group g).ctx (s.group g).core va (if c.kind = .cpys then .w else .r))
        | _ => .next s

def holdsPointer (c : Nat) : Hold → Bool
  | .pointer x _ => x == c
  | _ => false

/-- The head copy stops: the cause is recorded and reported, the pointer stays, and threads that wait on it execute their wait again,
which traps. -/
def stopCopy (s : State) (g wp : Nat) (c : Copy) (cause sub : Nat) (addr : DWord) : State :=
  let ptr := (s.chan g wp).ptr
  let s1 := copyReport s g cause c addr.toNat ((c.recv.head?.map (·.2)).getD 0)
  let s2 := modChan (endCopy s1 g wp c) g wp fun y =>
    { y with cause := some (cause, sub, addr), ptr := if y.queue.isEmpty then ptr else y.ptr }
  unhold s2 g (heldOn (s2.group g) (holdsPointer wp))

/-- A failing check or a poisoned byte stops the head copy. -/
def execCopyStop (g : Nat) (wp : BitVec 3) (s : State) : Out :=
  match headCopy s g wp.toNat with
  | none => .next s
  | some c =>
    if !copyMay s g wp.toNat c then .next s
    else
      match copyRun s g wp.toNat c with
      | .stop cause sub addr => .next (clearRefused (stopCopy s g wp.toNat c cause sub addr) (s.group g).ctx addr.toNat)
      | _ => .next s

/-! ### Pointers, timelines, WAIT (R262 to R265) -/

/-- WPREAD and WPWAIT trap while their channel holds a cause. -/
def causeFails (s : State) (act : List (Nat × Nat)) (wp : Nat) : List LaneFail :=
  match (s.chan s.cur.g wp).cause with
  | some (c, _, addr) => act.map fun m => ⟨m, c, wp, addr⟩
  | none => []

def execWpread (k : Ctl) (a b : Opnd) (s : State) : Out :=
  let act := actives k s
  let wp := chanOf b
  let fs := causeFails s act wp
  if !fs.isEmpty then .next (trapFails s fs [])
  else .next (act.foldl (fun t m => wrDst t 1 m a (BitVec.ofNat 32 (s.chan s.cur.g wp).ptr)) (advance s))

def execWpwait (k : Ctl) (b c : Opnd) (s : State) : Out :=
  let act := actives k s
  let wp := chanOf b
  let fs := causeFails s act wp
  if !fs.isEmpty then .next (trapFails s fs [])
  else
    .next (act.foldl (fun t m =>
      let n := (src s m c).toNat
      if n ≤ (s.chan s.cur.g wp).ptr then t else holdAt t m (.pointer wp n)) (advance s))

def execTlread (k : Ctl) (a b : Opnd) (iss : Bool) (s : State) : Out :=
  let x := s.tl s.cur.g (tlOf b)
  .next ((actives k s).foldl (fun t m => wrDst64 t 1 m a (BitVec.ofNat 64 (if iss then x.issued else x.value))) (advance s))

def execTlwait (k : Ctl) (b c : Opnd) (s : State) : Out :=
  .next ((actives k s).foldl (fun t m =>
    let n := (src64 s m c).toNat
    if n ≤ (s.tl s.cur.g (tlOf b)).value then t else holdAt t m (.timeline (tlOf b) n)) (advance s))

/-- WAIT holds the threads whose guard is true until each named counter of their home wave is low enough. -/
def execWait (k : Ctl) (ld st cp mx rm nm : BitVec 5) (s : State) : Out :=
  let h : Hold := .counters [ld.toNat, st.toNat, cp.toNat, mx.toNat, rm.toNat, nm.toNat]
  .next ((actives k s).foldl (fun t m => if condMet s s.cur.g m.2 m.1 h then t else holdAt t m h) (advance s))

end Sys2Proof.Machine
end

