-- ==== Sys2Proof/Machine/Page.lean ====
section
/-! DEFINITION. Re-issue from the operand log (12 R242, 14 R316, 15 R339). -/

namespace Sys2Proof.Machine

/-! ### What a logged word asks -/

/-- The access of a memory instruction that the operand log may hold, and the registers that it loads. -/
def loggedAccess (i : Instr) : Option (AccInfo × List Nat) :=
  match i with
  | .ld _ a _ w sx acq _ _ sc => some ({ kind := .load sx, width := w.bytes, ctr := 0, scope := sc, acq := acq }, vregsOf a w.regs)
  | .st _ _ _ w _ _ fl _ sc => some ({ kind := .store, width := w.bytes, ctr := 1, scope := sc, flag := fl }, [])
  | .atom _ a _ w sg op _ _ sc => some ({ kind := .atom op sg, width := w.bytes, ctr := atomCtr a, scope := sc }, vregsOf a w.regs)
  | .cas _ a _ w _ _ sc => some ({ kind := .cas, width := w.bytes, ctr := 0, scope := sc }, vregsOf a w.regs)
  | .cflush _ b inv _ sc => some ({ kind := .flush inv, width := 1, ctr := 1, scope := sc, uni := isUniform b }, [])
  | .sld _ a _ w _ sc => some ({ kind := .sload, width := w.bytes, ctr := 6, scope := sc, uni := true }, sregsOf a w.regs)
  | .jtab .. => some (jtabInfo, [])
  | _ => none

/-- The operation of a lane of a log entry. -/
def LogEntry.opOf (le : LogEntry) (l : Nat) : Nat := mgetD le.ops l le.op

/-- Lanes of an entry belong to a new operation; the others stay with theirs. -/
def LogEntry.rebind (le : LogEntry) (ls : List Nat) (id : Nat) : LogEntry :=
  if le.mask &&& ~~~(maskOf ls) = 0 then { le with op := id, ops := [] }
  else { le with ops := (le.ops.filter fun x => !ls.contains x.1) ++ ls.map fun l => (l, id) }

/-- The lanes of a log entry as the instruction made them. -/
def loggedOps (e : Nat) (le : LogEntry) (dst : List Nat) (lanes : List Nat) : List LaneOp :=
  (le.addrs.filter fun a => lanes.contains a.1).map fun a =>
    { lane := a.1, addr := a.2, dst := dst, vals := (mget le.vals a.1).getD [], stage := .parked e, entry := some e }

/-! ### Re-issue of an access -/

/-- The check of a logged lane, of a memory instruction or of CFLUSH. -/
def recheck (s : State) (a : Access) (o : LaneOp) : LaneRes :=
  match a.kind with
  | .flush inv =>
    (match checkLane s a.g (o.lane, a.w) (.flush inv) 1 o with
     | .ok o t => .ok (if o.cls = 0 then o else { o with kind := 0 }) t
     | r => r)
  | k => checkLane s a.g (o.lane, a.w) k a.width o

/-- Logged lanes trap: their threads leave the parked state at the instruction and enter the handler (R242). -/
def trapLogged (s : State) (g w e : Nat) (le : LogEntry) (fs : List LaneFail) : State :=
  let s1 := if le.late then s else fs.foldl (fun s f => s.modThread g w f.at_.1 fun t =>
    if t.st = .faultParked then { t with st := .ready, pc := le.pc } else t) s
  let t := failTrap s1 fs []
  takeTrap s1 g { t with pc := le.pc, word := le.word, frm := false, log := some e, count := issuesPast s g w le.issued }

/-- A lane of an entry after its re-issue: one that has performed leaves the entry, the others keep it until they complete. -/
def reissued (e : Nat) (late : Bool) (o : LaneOp) : LaneOp :=
  if o.got.isSome then { o with stage := .pending, entry := none }
  else if late then { o with stage := .late e, entry := none }
  else { o with stage := .pending, entry := some e }

/-- Re-issue logged lanes of an access that the machine holds: they trap, park again in their entry, or go on once they have
performed; the threads of a scalar load from pool or peer storage wait for it (06 R107). -/
def redoAccess (s : State) (a : Access) (e : Nat) (le : LogEntry) (os : List LaneOp) : Out :=
  let rs := os.map fun o => (o, recheck s a o)
  let fs := resFails (rs.map (·.2))
  let wide := if a.uni then fs.flatMap fun f => (lanesOf le.mask).map fun l => { f with at_ := (l, a.w) } else fs
  if !fs.isEmpty then .next (trapLogged (abandonLanes s a (fs.map fun f => f.at_.1)) a.g a.w e le wide)
  else
    match resAbsent (rs.map (·.2)) with
    | some pa => .fault (.absentMemory pa)
    | none =>
      let good := rs.filterMap fun r => match r.2 with | .ok o t => some ((r.1.lane, a.w), o, t) | _ => none
      let (s1, done) := performSet s a.g a.kind a.width good
      let new (o : LaneOp) : LaneOp :=
        match done.find? fun d => d.2.lane == o.lane with
        | some d => reissued e le.late d.2
        | none => o
      let s2 := setAccess s1 a.id fun x => { x with lanes := x.lanes.map new }
      let ls := (done.filter fun d => d.2.got.isSome).flatMap fun d => if a.uni then lanesOf le.mask else [d.2.lane]
      let held := if a.kind == .sload && done.any (fun d => d.2.crosses) then lanesOf le.mask else []
      let s3 := held.foldl (fun s l => s.modThread a.g a.w l fun t =>
        if t.st = .exited then t else { t with st := .held, hold := .ops [a.id], pc := le.pc }) s2
      .next (sendWave (leaveEntry (goOn s3 a.g a.w le.pc le.late ls) a.g a.w e ls) a.g a.w)

/-! ### JTAB and LDTO -/

/-- Re-issue a JTAB that waits parked, for all of its lanes (08 R156). -/
def redoJtab (s : State) (j : Nat) : Out :=
  match jtabLanes s j with
  | [] => .next s
  | (a, o) :: rest =>
    if ((a, o) :: rest).any fun x => !(x.2.stage matches .parked _) then .next s
    else
    let base := (o.addr.toNat + 2 ^ 64 - (4 + 4 * (o.vals.headD 0).toNat)) % 2 ^ 64
    match jtabRead s a.g base (((a, o) :: rest).map fun x => ((x.2.lane, x.1.w), x.2.vals.headD 0)) with
    | .absent pa => .fault (.absentMemory pa)
    | r => .next (jtabSettle s j base r)

/-- Re-issue logged lanes of an LDTO. -/
def redoLdto (s : State) (g w e : Nat) (le : LogEntry) (ack : Bool) (tl win : Nat) (lanes : List Nat) (op : Nat) : State :=
  let xs := (le.addrs.filter fun a => lanes.contains a.1).map fun a => (a.1, ldtoOfVals a.2 ((mget le.vals a.1).getD []))
  let rs := xs.map fun x => (x.1, x.2, ldtoCheck s g ack tl x.2)
  let fs := rs.filterMap fun r => match r.2.2 with | .fail c sub addr => some (⟨(r.1, w), c, sub, addr⟩ : LaneFail) | _ => none
  if !fs.isEmpty then trapLogged (fs.foldl (fun s _ => opEnds s op) s) g w e le fs
  else
    rs.foldl (fun s r =>
      match r.2.2 with
      | .go f => leaveEntry (goOn (ldtoSend s g w r.1 le.pc op ack tl win r.2.1 f) g w le.pc false [r.1]) g w e [r.1]
      | _ => s) s

/-! ### From a log entry -/

/-- Re-issue the lanes of an entry that one operation holds. -/
def redoOp (s : State) (g w e : Nat) (le : LogEntry) (lanes : List Nat) (op : Nat) : Out :=
  match decode le.word with
  | .error _ => .next s
  | .ok (.ldto _ _ _ _ _ ack tl win) => .next (redoLdto s g w e le ack tl.toNat win.toNat lanes op)
  | .ok i =>
    match s.accesses.find? fun a => a.id == op with
    | none => .next s
    | some a =>
      match i with
      | .jtab .. => redoJtab s a.joint
      | _ => redoAccess s a e le (a.lanes.filter fun o => o.stage == .parked e && (a.uni || lanes.contains o.lane))

/-- Re-issue lanes of an entry, for each operation that holds some of them. -/
def redoEntry (g w e : Nat) (lanes : List Nat) : List Nat → State → Out
  | [], s => .next s
  | op :: ops, s =>
    match mget (s.wave g w).log e with
    | none => .next s
    | some le =>
      match redoOp s g w e le (lanes.filter fun l => le.opOf l == op) op with
      | .next t => redoEntry g w e lanes ops t
      | r => r

/-- RTE re-issues the logged instruction for trapped lanes: a new operation, counted again. -/
def redoFromLog (s : State) (g w e : Nat) (trapped : Word) : Out :=
  match mget (s.wave g w).log e with
  | none => .next s
  | some le =>
    let lanes := (lanesOf (le.mask &&& trapped))
    let park (s : State) : State :=
      if le.late then s else lanes.foldl (fun s l => s.modThread g w l fun t =>
        if t.st = .ready then { t with st := .faultParked, pc := le.pc } else t) s
    match decode le.word with
    | .error _ => .next s
    | .ok (.ldto _ _ _ _ _ ack tl win) =>
      let (op, s1) := opStart s g w 4 lanes.length
      let s2 := s1.modWave g w fun v => { v with log := mmod v.log e fun le => le.rebind lanes op }
      .next (redoLdto (park s2) g w e le ack tl.toNat win.toNat lanes op)
    | .ok i =>
      match loggedAccess i with
      | none => .next s
      | some (inf, dst) =>
        let id := s.nextId
        let os := loggedOps e le dst lanes
        let a : Access :=
          { id := id, g := g, w := w, kind := inf.kind, width := inf.width, ctr := inf.ctr, scope := inf.scope, flag := inf.flag,
            acq := inf.acq, uni := inf.uni, mask := le.mask, pc := le.pc, word := le.word, clock := s.clock, issued := le.issued,
            joint := if inf.kind = .jtab then id else 0,
            lanes := if inf.uni then (loggedOps e le dst (le.addrs.map (·.1))) else os }
        let s1 := { s with nextId := id + 1, accesses := s.accesses ++ [a] }
        let s2 := if inf.ctr < 6 then ctrInc s1 g w inf.ctr else s1
        let s3 := if inf.kind = .sload then
            s2.modWave g w fun v => { v with sPending := v.sPending ++ dst.map fun r => (r, id) } else s2
        let s4 := s3.modWave g w fun v => { v with log := mmod v.log e fun le => le.rebind lanes id }
        match i with
        | .jtab .. => redoJtab (park s4) id
        | _ => redoAccess (park s4) a e (le.rebind lanes id) a.lanes

/-- The bytes that the translation of a lane covers. -/
def LaneOp.pageFrom (o : LaneOp) : Nat := if o.size = 0 then o.addr.toNat else o.addr.toNat - o.addr.toNat % o.size

/-- Accesses of a context that have a translation of bytes in a range and have not performed. A parked lane has none. -/
def accessesIn (s : State) (ctx va : Nat) (len : Option Nat) : List Nat :=
  (s.accesses.filter fun a => (s.group a.g).ctx == ctx && a.lanes.any fun o => o.got.isNone && o.kind != 4 && !(o.stage matches .parked _) &&
    (match len with
     | none => true
     | some n => va < max (o.addr.toNat + a.width) (o.pageFrom + o.size) && o.pageFrom < va + n)).map (·.id)

end Sys2Proof.Machine
end

