-- ==== Sys2Proof/Machine/System.lean ====
section
/-! DEFINITION. Group 0x3F, system instructions (14 R326 to R332), and the decoding faults (03 R35, 04 R65). -/

namespace Sys2Proof.Machine

/-- A word with a decoding fault traps for every thread that reached it (R35). -/
def execUnassignedEncoding (w : IWord) (s : State) : Out :=
  let t := { s with cur := { s.cur with word := w } }
  match decodeCur t with
  | .error e => .next (trapNow t (decCause e) 0 t.cur.members)
  | .ok _ => .next s

/-- TRAP raises SOFTWARE for the lanes whose guard is true (R328). -/
def execTrap (k : Ctl) (_code : Word) (s : State) : Out :=
  let act := actives k s
  if act.isEmpty then .next (advance s)
  else .next (takeTrap s s.cur.g { cause := 0x20, lanes := act, rsm := true, pc := s.cur.pc, word := s.cur.word, frm := s.cur.formed })

/-! ### RTE (R316) -/

/-- Whether the word at an offset of the trapped kernel is INV. -/
def invAt (s : State) (g pc : Nat) : Bool :=
  match decode (BitVec.ofNat 96 (ofBytes ((s.sysRead (s.group g).ctx ((s.group g).code.toNat + pc) 12).getD []))) with
  | .ok i => isInv i
  | .error _ => false

/-- RTE for one home wave, and the log entry that its frame names: skipped lanes leave it, and it is free once no lane of it is
still parked (log 85). -/
def rteWave (s : State) (w : Nat) : Out :=
  let g := s.cur.g
  let mask := (s.wave g w).frMask
  match returnWave s g w (invAt s g) with
  | (t, none) => .next t
  | (t, some (e, true)) => .next (leaveEntry t g w e (lanesOf mask))
  | (t, some (e, false)) => redoFromLog t g w e mask

def rteAll : List Nat → State → Out
  | [], s => .next s
  | w :: ws, s =>
    match rteWave s w with
    | .next t => rteAll ws t
    | r => r

def execRte (k : Ctl) (s : State) : Out :=
  let act := actives k s
  let low := act.filter fun m => !(s.wave s.cur.g m.2).handler
  if !low.isEmpty then .next (trapNow s 3 0 low)
  else if act.isEmpty then .next (advance s)
  else rteAll (wavesOf act) (advance s)

/-! ### System registers (R327) -/

/-- The error ring's consumer index moves: records behind it are retired, streams recover by their records, and records
that were held are written (R289, R317). -/
def flushHeld : Nat → State → Nat → State
  | 0, s, _ => s
  | n + 1, s, ctx =>
    let c := s.ctx ctx
    match c.errHeld with
    | (rcd, rep) :: rest =>
      if (c.errHead - c.errTail).toNat < 2 ^ c.errSize then
        flushHeld n (putErr (s.modCtx ctx fun c => { c with errHeld := rest }) ctx rcd rep) ctx
      else s
    | [] => s

/-- Streams whose machine-check record is retired recover. -/
def recoverStreams (s : State) (ctx : Nat) : State :=
  let c := s.ctx ctx
  let gone := c.machineChecks.filter fun r => (BitVec.ofNat 32 r.1 - c.errTail).toNat ≥ 2 ^ 31
  let s1 := s.modCtx ctx fun c => { c with machineChecks := c.machineChecks.filter fun r => !gone.contains r }
  gone.foldl (fun s r =>
    s.modWave r.2.1 r.2.2.1 fun v =>
      let one (x : Dest × Stream) : Dest × Stream := if x.1 = r.2.2.2 then (x.1, recovered s r.2.1 r.2.2.1 x.1 x.2) else x
      { v with streams := v.streams.map one }) s1

def setErrTail (s : State) (ctx : Nat) (v : Word) : State :=
  let s1 := s.modCtx ctx fun c => { c with errTail := v }
  let s2 := recoverStreams s1 ctx
  flushHeld ((s2.ctx ctx).errHeld.length) s2 ctx

/-- Whether a core is lent, and whether a context is a guaranteed tenant there. -/
def borrowed (s : State) (core : Nat) : Bool := (s.core core).lentTo.isSome
def tenantHere (s : State) (ctx core : Nat) : Bool :=
  (s.ctx ctx).guaranteed && !borrowed s core &&
    (let p := mgetD s.parts (s.ctx ctx).part {}; p.cores.contains core || p.margin.contains core)

/-- The value of a system register for a home wave (Table 14-12). -/
def sysReg (s : State) (g w : Nat) (r : Nat) : DWord :=
  let x := s.group g
  let c := s.ctx x.ctx
  match r with
  | 0 => BitVec.ofNat 64 (slotVa s g w)
  | 1 => BitVec.ofNat 64 (x.ctx + c.part * 2 ^ 16)
  | 2 => if (s.wave g w).handler then 1 else 0
  | 3 => BitVec.ofNat 64 (saveVa s g)
  | 4 => (s.wave g w).hstep.zeroExtend 64
  | 5 => c.errTail.zeroExtend 64
  | 6 => c.errHead.zeroExtend 64
  | 7 => BitVec.ofNat 64 (saveVa s g + 8)
  | 8 => BitVec.ofNat 64 ((mgetD (s.core x.core).slices x.ctx s.ns - s.ns) / 1000)
  | _ => BitVec.ofNat 64 ((borrowed s x.core).toNat + (tenantHere s x.ctx x.core).toNat * 2)

/-- Registers that only the handler reads. -/
def handlerRead (r : Nat) : Bool := r == 0 || r == 3 || r == 4 || r == 5 || r == 9

def execSrd (k : Ctl) (a : Opnd) (reg : BitVec 10) (s : State) : Out :=
  let g := s.cur.g
  let act := actives k s
  let low := act.filter fun m => handlerRead reg.toNat && !(s.wave g m.2).handler
  if !low.isEmpty then .next (trapNow s 3 0 low)
  else .next ((wavesOf act).foldl (fun t w => wrDst64 t 0 (0, w) a (sysReg s g w reg.toNat)) (advance s))

def execSwr (k : Ctl) (b : Opnd) (reg : BitVec 10) (s : State) : Out :=
  let g := s.cur.g
  let act := actives k s
  if reg.toNat ≠ 4 ∧ reg.toNat ≠ 5 then .next (if act.isEmpty then advance s else trapNow s 3 0 act)
  else
    .next ((wavesOf act).foldl (fun t w =>
      let v := src64 s (leadOf act w) b
      if reg.toNat = 4 then t.modWave g w fun x => { x with hstep := v.truncate 32 } else setErrTail t s.cg.ctx (v.truncate 32)) (advance s))

/-! ### TLBINV, NTINV (R330, R331) -/

/-- The issuing threads of a home wave wait for operations, where there are any. -/
def holdWave (s t : State) (w : Nat) (ids : List Nat) : State :=
  if ids.isEmpty then t else (s.cur.members.filter fun m => m.2 == w).foldl (fun t m => holdAt t m (.allOps ids)) t

def execTlbinv (k : Ctl) (b c : Opnd) (va : Bool) (s : State) : Out :=
  let act := actives k s
  let ctx := s.cg.ctx
  .next ((wavesOf act).foldl (fun t w =>
    let m := leadOf act w
    let at_ := (src64 s m b).toNat
    let len := if va then some (4096 * (src s m c).toNat) else none
    let d := dropTlb t ctx at_ len
    holdWave s (if (s.ctx ctx).nest && len != some 0 then bumpS2 d else d) w (accessesIn s ctx at_ len)) (advance s))

/-- The context in whose name space a sender's references are looked up (08 R177, R179). -/
def spaceOfSender (s : State) (x : Sender) : Option Nat :=
  match x with
  | .thread g _ _ => some (s.group g).ctx
  | .hart h => (mgetD s.harts h {}).bound
  | .port fn _ => (mgetD s.vfs fn {}).ctx
  | .arm g _ _ _ => some (s.group g).ctx

/-- Whether the lookup of an operation used entries of a context, or that of one group: its reference's, or its alias's target. -/
def NameOp.used (s : State) (ctx : Nat) (one : Option Nat) (o : NameOp) : Bool :=
  let num (n : Nat) : Bool := one.all (· == n)
  (spaceOfSender s o.sender == some ctx && num (refNum o.ref)) ||
    (match o.target with | some (.group c n _ _) => c == ctx && num n | _ => false)

/-- Name operations translated through entries of a context, or that of one group, that are neither delivered nor queued. -/
def namesOf (s : State) (ctx : Nat) (one : Option Nat) : List Nat :=
  (s.nameOps.filter fun o => !o.written && o.used s ctx one).map (·.id)

/-- Drop name TLB entries of a context: all, or those of one group. -/
def dropNames (s : State) (ctx : Nat) (one : Option Nat) : State :=
  { s with dies := s.dies.map fun (d : Nat × Die) =>
      (d.1, { d.2 with names := d.2.names.filter fun e =>
        !(e.1 / 2 ^ 36 == ctx && (match one with | none => true | some n => e.1 % 2 ^ 36 == n)) }) }

def execNtinv (k : Ctl) (b : Opnd) (one : Bool) (s : State) : Out :=
  let act := actives k s
  let ctx := s.cg.ctx
  .next ((wavesOf act).foldl (fun t w =>
    let num := if one then some (refNum (src64 s (leadOf act w) b)) else none
    holdWave s (dropNames t ctx num) w (namesOf s ctx num)) (advance s))

/-! ### SVC (R329) -/

/-- The record of a service request. -/
def svcRecord (s : State) (g w : Nat) (code : Word) (v : DWord) : List Byte :=
  let x := s.group g
  toBytes 4 code.toNat ++ toBytes 2 x.ctx ++ toBytes 2 w ++ toBytes 8 (groupRef x) ++ toBytes 8 (codeBase s g w + s.cur.pc) ++ toBytes 8 v.toNat

/-- One home wave's request: it waits for room and for its earlier accesses, then its record stands in the ring. -/
def svcWave (s t : State) (w : Nat) (ms : List (Nat × Nat)) (a : Opnd) (lead : Nat × Nat) (code : Word) : State :=
  let g := s.cur.g
  let c := t.ctx s.cg.ctx
  if ms.all fun m => svcReady t g w m.1 then
    let idx := c.svcHead
    let dst := match a with | .s n => n.toNat | _ => 0
    let t1 := t.sysWrite s.cg.ctx (c.svcBase.toNat + 32 * (idx.toNat % 2 ^ c.svcSize)) (svcRecord s g w code (src64 s lead a))
    let t2 := t1.modCtx s.cg.ctx fun c => { c with svcHead := c.svcHead + 1, svcWait := c.svcWait ++ [(g, w, dst, idx.toNat)] }
    ms.foldl (fun t m => holdAt t m (.svc idx.toNat)) t2
  else ms.foldl (fun t m => holdAt t m .svcRoom) t

def execSvc (k : Ctl) (a : Opnd) (code : Word) (s : State) : Out :=
  let act := actives k s
  let c := s.ctx s.cg.ctx
  if act.isEmpty then .next (advance s)
  else if c.svcBase = 0 then
    let ms := s.cur.members.filter fun m => (wavesOf act).contains m.2
    .next (takeTrap s s.cur.g { cause := 0x20, sub := 2, lanes := ms, rsm := true, pc := s.cur.pc, word := s.cur.word, frm := s.cur.formed })
  else
    .next ((wavesOf act).foldl (fun t w => svcWave s t w (s.cur.members.filter fun m => m.2 == w) a (leadOf act w) code) (advance s))

/-! ### DBGHALT (R332) -/

def execDbghalt (k : Ctl) (s : State) : Out :=
  let act := actives k s
  let t := advance s
  let ctx := s.cg.ctx
  if act.isEmpty then .next t
  else if (s.ctx ctx).debug then .next (haltGroup t s.cur.g)
  else .next (ctxErr (haltCtx t ctx) ctx 0x0105 0 0 s.cur.pc 0 0 (groupRef s.cg))

end Sys2Proof.Machine
end

