-- ==== Sys2Proof/Machine/Contexts.lean ====
section
/-! DEFINITION. The control processor: context records, resume and kill, residency on cores, the escalation ladder,
partitions, debugging, and the mailbox that asks for them (14 R306 to R325, 16 R366). -/

namespace Sys2Proof.Machine

/-! ### The mailbox (R366, Table 16-3) -/

/-- STATUS of the command that ends. -/
def mbStatusIs (s : State) (n : Nat) : State := { s with mbBusy := false, mbStatus := n }

/-- What the control processor does with a command: one that is written while another is in progress is ignored and sets REJ (R366). -/
def mbTake (cmd : Nat) (s : State) (f : State → State) : Out :=
  if s.mbBusy ∧ s.mbCmd ≠ cmd then .next { s with mbRej := true } else .next (f s)

/-- A command other than 11: STATUS 3 while the part is not started, else what the command answers. -/
def mailbox (cmd : Nat) (s : State) (f : State → State × Nat) : Out :=
  mbTake cmd s fun s => if s.phase ≠ 2 then mbStatusIs s 3 else let r := f s; mbStatusIs r.1 r.2

/-- A CMD write while BUSY, or with a code that names no command, is ignored and sets REJ. -/
def execMailboxBadCmd (cmd : BitVec 16) (s : State) : Out :=
  if s.mbBusy ∨ cmd = 0 ∨ 14 < cmd.toNat then .next { s with mbRej := true } else .next s

/-! ### Loading a context (R306, Table 14-1) -/

def dlogFrom (b : List Byte) : Dlog :=
  { bmap := BitVec.ofNat 64 (fieldOf b 24 8), base := BitVec.ofNat 64 (fieldOf b 16 8), head := BitVec.ofNat 32 (fieldOf b 12 4),
    tail := BitVec.ofNat 32 (fieldOf b 8 4), ovf := bit (fieldOf b 0 8) 5, size := fieldOf b 0 8 % 32 }

/-- The limits of Table 12-6. -/
def dlogOk (b : List Byte) : Bool :=
  let d := dlogFrom b
  d.bmap.toNat % 4096 == 0 && d.base.toNat % 16 == 0 && fieldOf b 0 8 < 64 && 4 ≤ d.size && d.size ≤ 24

def queueFrom (b : List Byte) : Queue :=
  { base := BitVec.ofNat 64 (fieldOf b 24 8), wridx := BitVec.ofNat 32 (fieldOf b 20 4), rdidx := BitVec.ofNat 32 (fieldOf b 16 4),
    err := fieldOf b 4 1, logsz := fieldOf b 0 4 / 256 % 16, prio := fieldOf b 0 4 / 32 % 8, en := bit (fieldOf b 0 4) 3 }

/-- Reserved bits of a queue descriptor (Table 10-1). -/
def queueOk (b : List Byte) : Bool := fieldOf b 5 11 == 0 && fieldOf b 0 4 / 4096 == 0 && !bit (fieldOf b 0 4) 4

/-- The checks of Table 14-1. -/
def recordOk (b : List Byte) : Bool :=
  let f (off n : Nat) : Nat := fieldOf b off n
  let nest := bit (f 2 1) 0
  1 ≤ f 0 2 && f 2 1 < 16 && f 3 1 ≤ 1 && f 4 4 == 0 && f 0x08 8 % 8192 == 0 && f 0x10 8 % 8192 == 0 && (nest || f 0x10 8 == 0) &&
    f 0x18 8 % 4096 == 0 && f 0x20 8 % 64 == 0 && f 0x28 8 % 12 == 0 && (f 0x28 8 == 0 || f 0x28 8 < f 0x94 4) && f 0x30 8 % 32 == 0 &&
    f 0x38 8 % 64 == 0 && f 0x40 8 % 4096 == 0 && f 0x48 4 % 65536 == 0 && 1 ≤ f 0x4C 4 && f 0x4C 4 ≤ 2 ^ 20 && f 0x50 8 % 64 == 0 &&
    4 ≤ f 0x58 4 && f 0x58 4 ≤ 20 && f 0x60 8 % 32 == 0 && f 0x68 4 ≤ 16 && f 0x7A 2 == 0 && f 0x84 4 < 64 && f 0x88 8 < 2 ^ 36 &&
    f 0x88 8 + f 0x90 4 ≤ 2 ^ 36 && f 0x94 4 % 12 == 0 && zeros ((b.drop 0x98).take 0x68) && dlogOk ((b.drop 0x100).take 32) &&
    dlogOk ((b.drop 0x120).take 32) && zeros ((b.drop 0x140).take 0x6C0) &&
    (List.range 64).all (fun q => queueOk ((b.drop (0x800 + 32 * q)).take 32))

def ctxFrom (b : List Byte) : Ctx :=
  let f (off n : Nat) : Nat := fieldOf b off n
  let w (off : Nat) : DWord := BitVec.ofNat 64 (f off 8)
  { nest := bit (f 2 1) 0, sandbox := bit (f 2 1) 1, guaranteed := bit (f 2 1) 2, debug := bit (f 2 1) 3, allStop := f 3 1 == 1,
    ptroot := w 8, s2root := w 0x10, ntroot := w 0x18, hcode := w 0x20, hentry := f 0x28 8, hsize := f 0x94 4, ctrtab := w 0x30,
    spawnA := w 0x38, savePool := w 0x40, saveStride := f 0x48 4, saveCnt := f 0x4C 4, errBase := w 0x50, errSize := f 0x58 4,
    errHead := BitVec.ofNat 32 (f 0x5C 4), svcBase := w 0x60, svcSize := f 0x68 4, svcHead := BitVec.ofNat 32 (f 0x6C 4), notify := w 0x70,
    grace := f 0x78 2, killt := f 0x7C 4, quantum := f 0x80 4, part := f 0x84 4, spawnG := f 0x88 8, spawnN := f 0x90 4,
    dlog1 := dlogFrom ((b.drop 0x100).take 32), dlog2 := dlogFrom ((b.drop 0x120).take 32),
    queues := (List.range 64).map fun q => (q, queueFrom ((b.drop (0x800 + 32 * q)).take 32)) }

/-- Queues of a new context with EN = 1 take the state that enabling gives; the others are disabled. -/
def startQueues (s : State) (c : Nat) : State :=
  (List.range 64).foldl (fun s q =>
    if (s.queue c q).en then enableQueue (modQueue s c q fun y => { y with err := 0 }) c q else modQueue s c q fun y => { y with err := 0 }) s

/-- Command 1 loads the record at a host-physical address. A context that is loaded already is a bad operand. -/
def execLoadContext (rec_ : DWord) (s : State) : Out :=
  mailbox 1 s fun s =>
    let b := readN s.hostMem rec_.toNat 4096
    let c := fieldOf b 0 2
    if rec_.toNat % 4096 ≠ 0 ∨ (mget s.ctxs c).isSome then (s, 2)
    else if !recordOk b then (s, 1)
    else (startQueues { s with ctxs := mput s.ctxs c (ctxFrom b) } c, 0)

/-! ### Resume (R307, R317, R379) -/

def allCool (s : State) : Bool := (fourDies s).all fun d => (dieTemps d).all fun t => t < d.twarn

def execResume (ctx : BitVec 16) (s : State) : Out :=
  mailbox 2 s fun s =>
    let c := s.ctx ctx.toNat
    if (mget s.ctxs ctx.toNat).isNone ∨ c.state ≠ .halted then (s, 2)
    else if !c.errHeld.isEmpty ∨ 2 ^ c.errSize ≤ (c.errHead - c.errTail).toNat ∨ (c.tripped ∧ !allCool s) then (s, 1)
    else (s.modCtx ctx.toNat fun c => { c with state := .runnable, tripped := false }, 0)

/-! ### Kill (R320) -/

/-- A store that has not performed may or may not become visible. -/
def loosePerform (s : State) (a : Access) (o : LaneOp) : State :=
  if o.got.isNone && isWrite a.kind && o.stage == .pending && !o.crosses then
    let (b, s1) := s.freeBool
    if b then (performLane s1 a.g a.kind a.width o).1 else s1
  else s
def looseArrive (s : State) (p : Packet) : State :=
  if p.answer.isNone && (p.write || p.flag.isSome) then
    let (b, s1) := s.freeBool
    if b then arrive s1 p else s1
  else s

/-- Operations in flight of a context's groups are abandoned. -/
def abandonOps (s : State) (ctx : Nat) : State :=
  let mine (g : Nat) : Bool := (s.group g).ctx == ctx
  let sent (x : Sender) : Bool := match x with | .thread g _ _ => mine g | .arm g _ _ _ => mine g | _ => false
  let s1 := (s.accesses.filter fun a => mine a.g).foldl (fun s a => a.lanes.foldl (fun s o => loosePerform s a o) s) s
  let s2 := (s1.packets.filter fun p => mine p.g).foldl looseArrive s1
  { s2 with
    accesses := s2.accesses.filter fun a => !mine a.g
    nameOps := s2.nameOps.filter fun o => !sent o.sender
    joins := s2.joins.filter fun j => !sent j.sender
    counts := s2.counts.filter fun o => !mine o.g
    pushes := s2.pushes.filter fun p => !mine p.g
    takes := s2.takes.filter fun t => !mine t.g
    matrix := s2.matrix.filter fun m => !mine m.g
    ldtos := s2.ldtos.filter fun o => !mine o.g
    packets := s2.packets.filter fun p => !mine p.g
    netReqs := s2.netReqs.filter fun r => r.ctx != ctx
    groups := s2.groups.map fun (x : Nat × Group) =>
      if x.2.ctx = ctx then (x.1, { x.2 with waves := x.2.waves.map (fun v => { v with ctrs := {}, streams := [] }), wps := [] }) else x }

/-- The cores of a killed context are released and scrubbed (R320, R323). -/
def freeCore (ctx : Nat) (s : State) (core : Nat) : State :=
  if holdsCore (s.core core) ctx then
    let names (r : Nat × BankReq) : Bool := match r.2 with | .spill c => c == ctx | .load c => c == ctx | .swap => false
    let s1 := (releaseCore s core ctx).modCore core fun k =>
      { k with waits := k.waits.filter fun r => !names r
               loading := if k.loading = some ctx then none else k.loading, spilling := if k.spilling = some ctx then none else k.spilling }
    scrub s1 core [ctx]
  else s

/-- Kill a context; `how` is 1 for the ladder, 2 for command 3. Its record is written first. -/
def killContext (s : State) (ctx how : Nat) : State :=
  let s1 := abandonOps (ctxErr s ctx 0x0106 how 0 0 0 0 0) ctx
  let s2 := s1.modCtx ctx fun c =>
    { c with state := .killing, arms := [], queues := c.queues.map fun (q : Nat × Queue) => (q.1, { q.2 with state := if q.2.state = 0 then 0 else 4, pending := [] }) }
  let s3 := { s2 with
    launches := s2.launches.map fun (l : Nat × Launch) => if l.2.ctx = ctx then (l.1, { l.2 with state := 4, next := l.2.ngrp }) else l
    dies := s2.dies.map fun (d : Nat × Die) => (d.1, { d.2 with bins := d.2.bins.filter fun b => keyCtx s2 b.2.key != ctx }) }
  let s4 := ((s3.groups.filter fun x => x.2.ctx == ctx).map (·.1)).foldl cancelGroup s3
  dropNames (dropTlb ((s4.cores.map (·.1)).foldl (freeCore ctx) s4) ctx 0 none) ctx none

def execKillCtx (ctx : BitVec 16) (s : State) : Out :=
  mailbox 3 s fun s =>
    if (mget s.ctxs ctx.toNat).isNone ∨ (s.ctx ctx.toNat).state = .killing then (s, 2) else (killContext s ctx.toNat 2, 0)

/-! ### Residency (R308, Table 14-3) -/

/-- Swapped groups of a context that a load takes to a core, as far as they fit. -/
def loadGroups (s : State) (core ctx : Nat) : State :=
  ((s.groups.filter fun (x : Nat × Group) => x.2.ctx == ctx && x.2.place == .swapped && !x.2.cancelled).map (·.1)).foldl (fun s g =>
    let x := s.group g
    if fitsNow s core ctx x.hdr x.waves.length && mayMove s x core then s.modGroup g fun x => { x with place := .loading, core := core } else s) s

/-- A context is loaded next on a core (Table 14-3): its quantum starts. -/
def startLoad (s : State) (core ctx : Nat) : State :=
  let k := s.core core
  if (mget s.ctxs ctx).isNone ∨ !(partCores s (s.ctx ctx).part).contains core ∨ holdsCore k ctx ∨ k.loading.isSome ∨ k.shadow.isSome ∨ k.spilling.isSome ∨ k.revoke
  then s
  else
    let q := (s.ctx ctx).quantum
    loadGroups (s.modCore core fun k =>
      { k with loading := some ctx, slices := if q = 0 then k.slices else mput k.slices ctx (s.ns + 1000 * q) }) core ctx

/-- A request to a core's banks that has its turn: a swap that names a context still loading waits for the load, a spill waits for the
engine and from the active bank for a swap, a load spills the context in the shadow bank first, and all wait while the banks switch
and run in the order made (R308). -/
def bankDo (core : Nat) (s : State) (r : Nat × BankReq) : State :=
  let k := s.core core
  let wait (s : State) : State := s.modCore core fun k => { k with waits := k.waits ++ [r] }
  let busy := k.spilling.isSome || filling s core
  if !k.waits.isEmpty || switching s k then wait s
  else match r.2 with
    | .swap => if busy then wait s else swapBanks s core
    | .spill c =>
      if k.shadow = some c then (if busy then wait s else startSpill s core)
      else if k.active = some c then (if busy then wait s else wait (swapBanks s core))
      else s
    | .load c =>
      if holdsCore k c then s
      else if busy then wait s
      else if k.shadow.isSome then wait (startSpill s core)
      else startLoad s core c

/-- The requests that waited. -/
def runWaits (s : State) (core : Nat) : State :=
  (s.core core).waits.foldl (bankDo core) (s.modCore core fun k => { k with waits := [] })

/-- A request is made: a spill takes its turn at the end of the clock, so that a swap of the same clock comes first (R308). -/
def bankRequest (core : Nat) (s : State) (r : BankReq) : State :=
  match r with
  | .spill _ => s.modCore core fun k => { k with waits := k.waits ++ [(s.clock, r)] }
  | .load _ => bankDo core s (s.clock, r)
  | .swap =>
    let late (x : Nat × BankReq) : Bool := x.1 == s.clock && (match x.2 with | .spill _ => true | _ => false)
    let ws := (s.core core).waits
    let s1 := bankDo core (s.modCore core fun k => { k with waits := ws.filter fun x => !late x }) (s.clock, r)
    s1.modCore core fun k => { k with waits := k.waits ++ ws.filter late }

/-- The control processor schedules a context next on a core. -/
def execContextSchedule (core : BitVec 8) (ctx : BitVec 16) (s : State) : Out := .next (bankRequest core.toNat s (.load ctx.toNat))

/-- The load engine has filled the shadow bank. -/
def execContextLoadComplete (core : BitVec 8) (s : State) : Out :=
  let k := s.core core.toNat
  match k.loading with
  | none => .next s
  | some c =>
    if k.shadow.isSome ∨ !(groupsAt s core.toNat c isLoading).isEmpty then .next s
    else .next (runWaits (s.modCore core.toNat fun k => { k with shadow := some c, loading := none }) core.toNat)

def execBankSwap (core : BitVec 8) (s : State) : Out := .next (bankRequest core.toNat s .swap)

def execSpillRequest (core : BitVec 8) (ctx : BitVec 16) (s : State) : Out := .next (bankRequest core.toNat s (.spill ctx.toNat))

/-- A lent core is scrubbed and returned once no borrower is left on it (R322). -/
def returnCore (s : State) (core : Nat) : State :=
  let k := s.core core
  if k.revoke && [k.active, k.shadow, k.loading, k.spilling].all (·.isNone) then
    (scrub s core (uniq (k.tlb.map (·.ctx)))).modCore core fun k => { k with lentTo := none, revoke := false, ladder := 0, slices := [], waits := [] }
  else s

/-- The end of a clock: the bank requests that wait, and the cores that are to be returned. -/
def sweepCores (s : State) : State :=
  (s.cores.map (·.1)).foldl (fun s c => returnCore (if (s.core c).waits.isEmpty then s else runWaits s c) c) s

/-- A page of a group's save area whose recoverable fault stalls the engine that spills or restores the group (R310, R313). -/
def areaStall (s : State) (g : Nat) (acc : Acc) : Option (Nat × ParkWhy) :=
  let x := s.group g
  let runs := spansOf (saveVa s g) (0x80000 + 0x10000 * x.waves.length)
  runs.findSome? fun r => match check s x.ctx x.core (r.1 % 2 ^ 64) 1 acc with | .park why => some (r.1 % 2 ^ 64, why) | _ => none

/-- The page service resolves what stalls an engine. -/
def areaServe (s : State) (g : Nat) (acc : Acc) (p : Nat × ParkWhy) : State :=
  let x := s.group g
  match p.2 with
  | .notPresent => requestPage s x.ctx p.1
  | .migrating => requestPage s x.ctx p.1
  | _ => resolve s x.ctx x.core p.1 acc

/-- A group's last byte is written: it is swapped, its location is cleared, and held name operations apply to its image (Table 8-2,
18 R384). -/
def swapOut (s : State) (g : Nat) : State :=
  let s1 := setPlace s g .swapped
  let s2 := nteEdit s1 (s1.group g).ctx (s1.group g).num fun e => setBits e 128 64 0
  writeImage (applyQueued s2 g) g

/-- Whether operations in flight still complete into the groups that a context has on a core (Table 14-3): lanes that are neither parked
nor recorded, matrix operations, copies, third-party and network requests, name operations and TAKEs. What waits for another event of
the group's own (a parked lane, a JOIN, a push) does not (log 117). -/
def opsInto (s : State) (core ctx : Nat) : Bool :=
  let mine (g : Nat) : Bool := (s.group g).core == core && (s.group g).ctx == ctx && (s.group g).place != .dead
  let runs (o : LaneOp) : Bool := match o.stage with | .parked _ => false | .late _ => false | _ => o.got.isNone
  let sends (x : Sender) : Bool := match x with | .thread g _ _ => mine g | _ => false
  (s.accesses.any fun a => mine a.g && a.lanes.any runs) || (s.matrix.any fun o => mine o.g) || (s.ldtos.any fun o => mine o.g) ||
    (s.netReqs.any fun r => r.ctx == ctx && mine r.g) || (s.takes.any fun t => mine t.g) ||
    (s.nameOps.any fun o => sends o.sender && !o.written) ||
    (s.groups.any fun x => mine x.1 && x.2.wps.any fun p => !p.2.queue.isEmpty)

/-- Groups whose last byte is written are swapped. With every operation in flight completed into the image the spill ends and the core is
released (Table 14-3); a spilled group waits for its turn while a page stalls the engine. -/
def execSpillComplete (core : BitVec 8) (s : State) : Out :=
  let c := core.toNat
  match (s.core c).spilling with
  | none => .next s
  | some ctx =>
    let gs := groupsAt s c ctx isSpilling
    match gs.findSome? fun g => (areaStall s g .w).map fun p => (g, p) with
    | some (g, p) => .next (areaServe s g .w p)
    | none =>
    let s1 := gs.foldl swapOut s
    if opsInto s1 c ctx then .next s1
    else
      let s2 := s1.modCore c fun k =>
        { k with spilling := none, ladder := if k.ladder = 2 ∧ k.ladderOf = ctx then 0 else k.ladder, slices := mdel k.slices ctx }
      .next (returnCore (runWaits (depart s2 c [ctx]) c) c)

/-- A restore completes once no name operation waits for the group, its accesses have performed (13 R271) and its area is mapped;
the group then stands in the shadow bank (Table 8-2). -/
def execGroupRestoreComplete (g : Nat) (s : State) : Out :=
  let x := s.group g
  let waits := s.nameOps.any fun o => match o.target with | some (.group c n _ _) => c == x.ctx && n == x.num && o.remote.isNone | _ => false
  if x.place ≠ .loading ∨ waits ∨ openAccesses s g then .next s
  else
    match areaStall s g .r with
    | some p => .next (areaServe s g .r p)
    | none =>
      let s1 := settleAt (readImage s g) g x.core .shadow
      .next ((nteEdit s1 x.ctx x.num fun e => setBits e 32 16 0).modGroup g fun x => { x with wantSwapIn := false })

/-! ### The escalation ladder (R320, Table 14-10) -/

/-- Another context waits for a core: it stands in the shadow bank, is loading, or its load waits its turn. -/
def othersWait (k : Core) (ctx : Nat) : Bool :=
  let waits (r : Nat × BankReq) : Bool := match r.2 with | .load c => c != ctx | _ => false
  k.shadow.isSome || k.loading.isSome || k.waits.any waits

/-- A slice ends while another context waits for the core. -/
def execSliceEnd (core : BitVec 8) (s : State) : Out :=
  let k := s.core core.toNat
  match k.active with
  | none => .next s
  | some c =>
    if (mget k.slices c).any (fun t => t ≤ s.ns) && k.ladder == 0 && othersWait k c then
      .next (softDone (s.modCore core.toNat fun k => { k with ladder := 1, ladderAt := s.ns, ladderOf := c }) core.toNat)
    else .next s

def graceNs (c : Ctx) : Nat := 1000 * (if c.grace = 0 then 100 else c.grace)
def killNs (c : Ctx) : Nat := 1000 * (if c.killt = 0 then 2000 else c.killt)

/-- GRACE has expired: a bank swap and a spill. A group boundary of the clock in which it expires ends step 1. -/
def execGraceExpiry (core : BitVec 8) (s : State) : Out :=
  let s1 := softDone s core.toNat
  let k := s1.core core.toNat
  if k.ladder = 1 ∧ k.ladderAt + graceNs (s1.ctx k.ladderOf) < s1.ns then
    .next ((bankRequest core.toNat s1 (.spill k.ladderOf)).modCore core.toNat fun k => { k with ladder := 2, ladderAt := s1.ns })
  else .next s1

/-- KILLT has expired before the spill is complete: the context is killed. -/
def execKillTimerExpiry (core : BitVec 8) (s : State) : Out :=
  let k := s.core core.toNat
  if k.ladder = 2 ∧ (mget s.ctxs k.ladderOf).isSome ∧ k.ladderAt + killNs (s.ctx k.ladderOf) < s.ns then .next (killContext s k.ladderOf 1)
  else .next s

/-! ### Partitions and lent cores (R209, R321, R322) -/

def ownerOf (s : State) (core : Nat) : Option Nat :=
  (s.parts.find? fun (p : Nat × Part) => p.2.cores.contains core || p.2.margin.contains core).map (·.1)

/-- A group of a partition waits for placement on a die. -/
def partWaits (s : State) (part die : Nat) : Bool :=
  (ranked s die).any fun w => (s.ctx (waitingGroup s die w).ctx).part == part

/-- A free margin core is lent to a partition of its owner's lend list that has a group waiting. -/
def execCoreLend (core : BitVec 8) (part : BitVec 6) (s : State) : Out :=
  let c := core.toNat
  match ownerOf s c with
  | none => .next s
  | some o =>
    let p := mgetD s.parts o {}
    if p.margin.contains c ∧ p.lend.contains part.toNat ∧ (s.core c).lentTo.isNone ∧ (onCoreGroups s c).isEmpty ∧ (s.core c).localq.isEmpty ∧
        partWaits s part.toNat (c / 48) ∧ !(s.partMoves.any fun m => m.1 == c) then
      .next ((emptyCore s c).modCore c fun k => { k with lentTo := some part.toNat })
    else .next s

/-- The owner has a group waiting that fits no guaranteed core. -/
def ownerNeeds (s : State) (owner die : Nat) : Bool :=
  (ranked s die).any fun w =>
    let x := waitingGroup s die w
    (s.ctx x.ctx).part == owner && (mgetD s.parts owner {}).cores.all fun c => !fitsNow s c x.ctx x.hdr (wavesFor x.gsize)

/-- A lent core is revoked: groups of its local queue wait again and a load is abandoned, whose groups go back to their images; the
borrower is swapped out at once, and its contexts spill (R322). -/
def execLendRevoke (core : BitVec 8) (s : State) : Out :=
  let c := core.toNat
  let k := s.core c
  match ownerOf s c, k.lentTo with
  | some o, some _ =>
    if k.revoke ∨ !ownerNeeds s o (c / 48) then .next s
    else
      let loads := match k.loading with | some x => groupsAt s c x (fun p => isLoading p || isShadow p) | none => []
      let s1 := loads.foldl (fun s g => if (s.group g).place = .shadow then swapOut (s.modGroup g haltWaves) g else setPlace s g .swapped) s
      let s2 := k.localq.foldl (fun s g => s.modGroup g fun x => { x with place := .waiting }) s1
      let s3 := s2.modDie (c / 48) fun d => { d with ready := d.ready ++ k.localq }
      let swap := if k.active.isSome then [(s.clock, BankReq.swap)] else []
      let spills := ([k.active, k.shadow].filterMap id).map fun x => (s.clock, BankReq.spill x)
      let s4 := s3.modCore c fun k => { k with revoke := true, loading := none, waits := swap ++ spills, localq := [] }
      .next (returnCore (runWaits s4 c) c)
  | _, _ => .next s

/-- Command 4: a move of cores to a partition is asked. -/
def execMoveCores (cores : List (BitVec 8)) (part : BitVec 6) (margin : Bool) (s : State) : Out :=
  mailbox 4 s fun s =>
    if cores.any fun c => 192 ≤ c.toNat then (s, 2)
    else
      let one (c : BitVec 8) : Nat × Nat × Bool × Nat := (c.toNat, part.toNat, margin, s.nextId)
      let kept := s.partMoves.filter fun m => !(cores.any fun c => c.toNat == m.1)
      ({ s with nextId := s.nextId + 1, partMoves := kept ++ cores.map one }, 0)

/-- A core holds no resident, locally queued, spilling or restoring group, and is not lent. -/
def coreIdle (s : State) (c : Nat) : Bool :=
  let k := s.core c
  (onCoreGroups s c).isEmpty && k.localq.isEmpty && k.spilling.isNone && k.loading.isNone && k.lentTo.isNone

/-- One core moves to a partition. -/
def moveCore (s : State) (m : Nat × Nat × Bool × Nat) : State :=
  let out := s.parts.map fun (p : Nat × Part) =>
    (p.1, { p.2 with cores := p.2.cores.filter (· != m.1), margin := p.2.margin.filter (· != m.1) })
  let p := mgetD out m.2.1 {}
  let s1 := { s with
    parts := mput out m.2.1 (if m.2.2.1 then { p with margin := p.margin ++ [m.1] } else { p with cores := p.cores ++ [m.1] })
    partMoves := s.partMoves.filter fun x => x.1 != m.1 }
  emptyCore s1 m.1

/-- A move takes effect once all its cores are idle (10 R209). -/
def execPartitionMoveEffect (core : BitVec 8) (s : State) : Out :=
  match s.partMoves.find? fun m => m.1 == core.toNat with
  | none => .next s
  | some m =>
    let ms := s.partMoves.filter fun x => x.2.2.2 == m.2.2.2
    if ms.all fun x => coreIdle s x.1 then .next (ms.foldl moveCore s) else .next s

/-- Command 5: the partitions that may borrow a partition's margin. -/
def execLendList (part : BitVec 6) (list : List (BitVec 6)) (s : State) : Out :=
  mailbox 5 s fun s =>
    ({ s with parts := mput s.parts part.toNat { mgetD s.parts part.toNat {} with lend := list.map (·.toNat) } }, 0)

/-- The split of a core is set only while it holds no group (12 R234). -/
def execScratchpadSplit (core : BitVec 8) (units : BitVec 3) (s : State) : Out :=
  if core.toNat < 192 ∧ (onCoreGroups s core.toNat).isEmpty then .next (s.modCore core.toNat fun k => { k with split := units.toNat }) else .next s

/-! ### Debugging (R324) -/

def execDebuggerAttach (ctx : BitVec 16) (attach allStop : Bool) (s : State) : Out :=
  .next (s.modCtx ctx.toNat fun c => { c with debug := attach, allStop := allStop })

/-- The halt command: in all-stop mode every thread of the group, else the thread alone, which halts once it is released
where it waits. -/
def execDebugHaltCommand (g w l : Nat) (s : State) : Out :=
  let c := s.ctx (s.group g).ctx
  if !c.debug then .next s
  else if c.allStop then .next (haltGroup s g)
  else
    let t := s.thread g w l
    if t.st = .exited ∨ t.st = .halted then .next s
    else if t.st = .ready then
      .next ((s.modGroup g fun x => { x with invs := x.invs.filter fun r => !(r.issue.contains (l, w)) }).modThread g w l fun t =>
        { t with st := .halted })
    else
      .next { s.modThread g w l fun t => { t with dbgStep := true } with
        stepping := s.stepping ++ (if s.stepping.contains (g, w, l) then [] else [(g, w, l)]) }

def resumeThread (t : Thread) : Thread := if t.st = .halted then { t with st := .ready, dbgStep := false } else t

/-- The debugger resumes: the group where all of it was halted, else the thread. -/
def execDebugResume (g w l : Nat) (s : State) : Out :=
  if !(s.ctx (s.group g).ctx).debug then .next s
  else if (s.group g).haltReq then
    .next (s.modGroup g fun x => { x with haltReq := false, waves := x.waves.map fun v => { v with threads := v.threads.map resumeThread } })
  else .next (s.modThread g w l resumeThread)

/-- A single step of a halted thread: it issues one instruction and halts again. -/
def execDebugStep (g w l : Nat) (s : State) : Out :=
  if !(s.ctx (s.group g).ctx).debug then .next s
  else .next (s.modThread g w l fun t => if t.st = .halted then { t with st := .ready, dbgStep := true } else t)

end Sys2Proof.Machine
end

