-- ==== Sys2Proof/Machine/Tile.lean ====
section
/-! DEFINITION. The arithmetic inside matrix operations (05 R81 to R86) and where operands lie (07 R109 to R112). -/

namespace Sys2Proof.Machine

/-- A multiplying form (Table 7-1): M, N, K and the element width in bits. -/
structure MForm where
  m : Nat
  n : Nat
  k : Nat
  w : Nat
  deriving DecidableEq, Repr

def mformOf : Instr → Option MForm
  | .mma8a .. => some ⟨32, 32, 64, 8⟩
  | .mma8b .. => some ⟨64, 32, 64, 8⟩
  | .mma8c .. => some ⟨64, 64, 64, 8⟩
  | .mma4a .. => some ⟨32, 32, 128, 4⟩
  | .mma4b .. => some ⟨64, 32, 128, 4⟩
  | .mma4c .. => some ⟨64, 64, 128, 4⟩
  | .mma16a .. => some ⟨32, 32, 32, 16⟩
  | .mma16b .. => some ⟨64, 32, 32, 16⟩
  | .mma16c .. => some ⟨64, 64, 32, 16⟩
  | _ => none

def shapeM : Shape → Nat
  | .a => 32
  | _ => 64
def shapeN : Shape → Nat
  | .c => 64
  | _ => 32

/-! ### The format word (07 R113, 05 R81) -/

def fwA (w : Word) : Nat := w.toNat % 16
def fwB (w : Word) : Nat := w.toNat / 2 ^ 4 % 16
def fwAcc (w : Word) : Nat := w.toNat / 2 ^ 8 % 16
def fwScale (w : Word) : Nat := w.toNat / 2 ^ 12 % 4
def fwSat (w : Word) : Bool := bitOf w 14
where bitOf (w : Word) (i : Nat) : Bool := w.getLsbD i

/-- The combinations of Table 5-10. -/
def fwOk (f : MForm) (w : Word) : Bool :=
  let a := fwA w
  let b := fwB w
  let ok (x : Nat) : Bool := if f.w = 8 then x ≤ 4 else if f.w = 4 then x == 5 || x == 6 else x == 7 || x == 8
  let int (x : Nat) : Bool := if f.w = 8 then x ≤ 1 else if f.w = 4 then x == 5 else false
  w.toNat / 2 ^ 15 == 0 && ok a && ok b &&
    (if fwAcc w = 9 then fwScale w == 0 || (fwScale w == 1 && f.w != 16)
     else fwAcc w == 10 && int a && int b && fwScale w == 0)

/-! ### Elements -/

/-- Element k of a row or a column held as one number. -/
def elemOf (x w k : Nat) : Nat := x / 2 ^ (k * w) % 2 ^ w

/-- The exact products of a row of A and a column of B. -/
def products (f : MForm) (fa fb : Fmt) (row col : Nat) : List Val :=
  (List.range f.k).map fun k => (mulV (decodeFmt fa (elemOf row f.w k)) (decodeFmt fb (elemOf col f.w k))).1

/-- Special values (R85): the canonical NaN, or the infinity, that the element becomes. -/
def special (ps : List Val) (c : Val) (scaleNan : Bool) : Option Val :=
  let all := c :: ps
  if scaleNan || all.any Val.isNan then some .nan
  else
    let pos := all.any fun v => v == .inf false
    let neg := all.any fun v => v == .inf true
    if pos && neg then some .nan else if pos then some (.inf false) else if neg then some (.inf true) else none

/-- An exact finite sum, never −0, in the window of R82. -/
def windowSum (ps : List Val) : Val :=
  let t := ps.foldl (fun a v => match v with | .fin n m e _ => a + scaled n m e (-40) | _ => a) (0 : Int)
  .fin (t < 0) t.natAbs (-40) false

/-- One rounding into the FP32 accumulator. -/
def accRound (sat : Bool) (c t : Val) : Val := decodeF .fp32 fp32 (roundF .fp32 fp32 .rn sat (addV .rn c t).1).1

/-- R82: unscaled, FP32. -/
def accPlain (sat : Bool) (ps : List Val) (c : Val) : Val := accRound sat c (windowSum ps)

/-- R82: unscaled, INT32. -/
def accInt (sat : Bool) (f : MForm) (fa fb : Fmt) (row col : Nat) (c : Word) : Word :=
  let int (fm : Fmt) (x : Nat) : Int := match intFmt fm with | some (w, sg) => bitsToInt w sg x | none => 0
  let t := (List.range f.k).foldl (fun (a : Int) k => a + int fa (elemOf row f.w k) * int fb (elemOf col f.w k)) 0
  let x := c.toInt + t
  BitVec.ofInt 32 (if sat then clampInt (-(2 ^ 31)) (2 ^ 31 - 1) x else x)

/-- R83: one rounding for each block of 32. -/
def accScaled (sat : Bool) (ps : List Val) (sa sb : Nat) (blocks : Nat) (c : Val) : Val :=
  (List.range blocks).foldl (fun c q =>
    let t := windowSum ((ps.drop (32 * q)).take 32)
    let sp := (mulV (decodeS8 (sa / 256 ^ q % 256)) (decodeS8 (sb / 256 ^ q % 256))).1
    accRound sat c (match (mulV sp t).1 with | .fin n m e st => if m = 0 then .zero false else .fin n m e st | v => v)) c

/-- ⌊log2 |v|⌋ of a non-zero finite value. -/
def ilog : Val → Option Int
  | .fin _ m e _ => if m = 0 then none else some (e + (bitLen m : Int) - 1)
  | _ => none

/-- Round toward −∞ to a multiple of 2^q: the multiple as an integer, and whether a part was lost. -/
def floorAt (v : Val) (q : Int) : Int × Bool :=
  match v with
  | .fin n m e _ =>
    if q ≤ e then (scaled n m e q, false)
    else
      let d : Int := (2 ^ (q - e).toNat : Nat)
      let x : Int := if n then -(m : Int) else m
      (x / d, x % d != 0)
  | _ => (0, false)

/-- R84: one group of 16 products. -/
def accGroup (sat : Bool) (ps : List Val) (c : Val) : Val :=
  match c with
  | .fin cn cm ce _ =>
    match ((c :: ps).filterMap ilog) with
    | [] =>
      if cn && ps.any (fun p => p == .zero false || (p.isZero && !p.sign)) then .zero false else c
    | x :: xs =>
      let emax := xs.foldl max x
      let q := emax - 60
      let fl := ps.map fun p => floorAt p q
      let sum := fl.foldl (fun a y => a + y.1) (0 : Int)
      let sticky := fl.any (·.2)
      let u := min ce (emax - 64)
      let tot := sum * (2 ^ (q - u).toNat : Nat) + scaled cn cm ce u + (if sticky then (2 ^ (emax - 64 - u).toNat : Nat) else 0)
      decodeF .fp32 fp32 (roundF .fp32 fp32 .rn sat (.fin (tot < 0) tot.natAbs u false)).1
  | v => v

/-- The new accumulator element of a row, a column and the old element (R82 to R85). -/
def elemNew (f : MForm) (fw : Word) (row sa col sb : Nat) (c : Word) : Word :=
  match Fmt.ofCode (fwA fw), Fmt.ofCode (fwB fw) with
  | some fa, some fb =>
    let sat := fwSat fw
    if fwAcc fw = 10 then accInt sat f fa fb row col c
    else
      let ps := products f fa fb row col
      let cv := decodeF .fp32 fp32 c.toNat
      let blocks := f.k / 32
      let bad := fwScale fw == 1 && (List.range blocks).any fun q => sa / 256 ^ q % 256 == 255 || sb / 256 ^ q % 256 == 255
      let v := match special ps cv bad with
        | some v => v
        | none =>
          if f.w = 16 then accGroup sat (ps.drop 16) (accGroup sat (ps.take 16) cv)
          else if fwScale fw = 1 then accScaled sat ps sa sb blocks cv
          else accPlain sat ps cv
      BitVec.ofNat 32 (roundF .fp32 fp32 .rn false v).1
  | _, _ => c

end Sys2Proof.Machine
end

