-- ==== Sys2Proof/Machine/Matrix.lean ====
section
/-! DEFINITION. Groups 0x18, 0x19 and 0x1A: signing points, the multiplying forms, and the moves of latch and
accumulators (07 R109 to R125). -/

namespace Sys2Proof.Machine

/-! ### Operations in flight -/

/-- Start an operation of a home wave: counter mx, the values that it writes when it completes, and the hold on readers
of its registers (R117). -/
def startMatrix (s : State) (g w : Nat) (regs : List Nat) (writes : List (Nat × Nat × Word)) (move : Bool) : State :=
  let id := s.nextId
  let s1 := { s with nextId := id + 1,
                     matrix := s.matrix ++ [{ id := id, g := g, w := w, writes := writes, touched := [], move := move }] }
  (ctrInc s1 g w 3).modWave g w fun v => { v with accPending := v.accPending ++ regs.map fun r => (r, id) }

/-- The matrix unit of a quadrant is occupied (R118). -/
def takeUnit (s : State) (g w clocks : Nat) : State :=
  { s with unitBusy := mput s.unitBusy (4 * (s.group g).core + (s.wave g w).quad) (s.clock + clocks) }

/-- A register that a later instruction has written holds either value (R117). -/
def settleReg (s : State) (o : MatrixOp) (x : Nat × Nat × Word) : State :=
  if (s.thread o.g o.w x.1).st = .exited then s
  else if o.touched.contains (x.1, x.2.1) then
    let (b, s1) := s.freeBool
    if b then s1 else s1.modThread o.g o.w x.1 (putV x.2.1 x.2.2)
  else s.modThread o.g o.w x.1 (putV x.2.1 x.2.2)

/-- An operation completes: its registers, its holds and its counter. Operations of one home wave on one register complete
in issue order. -/
def finishMatrix (s : State) (id : Nat) (move : Bool) : State :=
  match s.matrix.find? fun o => o.id == id && o.move == move with
  | none => s
  | some o =>
    let clash (p : MatrixOp) : Bool :=
      p.id < id && p.g == o.g && p.w == o.w && p.writes.any fun x => o.writes.any fun y => x.1 == y.1 && x.2.1 == y.2.1
    if s.matrix.any clash then s
    else
      let s1 := { s with matrix := s.matrix.filter fun p => p.id != id }
      let s2 := o.writes.foldl (fun s x => settleReg s o x) s1
      let s3 := s2.modWave o.g o.w fun v => { v with accPending := v.accPending.filter fun p => p.2 != id }
      (counterFalls s3 o.g o.w 3)

def execMmaComplete (id : Nat) (s : State) : Out := .next (finishMatrix s id false)
def execLatchMoveComplete (id : Nat) (s : State) : Out := .next (finishMatrix s id true)

/-! ### The multiplying forms (R116) -/

def condex : Opnd → Nat
  | .res (.c n) => n.toNat
  | _ => 0

/-- The fields of a multiplying form: guard, accumulator base, B base, convergence register, format word. -/
structure MArgs where
  form : MForm
  k : Ctl
  va : Nat
  vb : Nat
  c : Nat
  vf : Nat
  deriving DecidableEq, Repr

def opndV : Opnd → Nat
  | .v n => n.toNat
  | _ => 0

def margsOf (i : Instr) : Option MArgs :=
  let mk (k : Ctl) (a b c d : Opnd) : Option MArgs := (mformOf i).map fun f => ⟨f, k, opndV a, opndV b, condex c, opndV d⟩
  match i with
  | .mma8a k a b c d => mk k a b c d
  | .mma8b k a b c d => mk k a b c d
  | .mma8c k a b c d => mk k a b c d
  | .mma4a k a b c d => mk k a b c d
  | .mma4b k a b c d => mk k a b c d
  | .mma4c k a b c d => mk k a b c d
  | .mma16a k a b c d => mk k a b c d
  | .mma16b k a b c d => mk k a b c d
  | .mma16c k a b c d => mk k a b c d
  | _ => none

/-- Accumulator registers of a form. -/
def MForm.accRegs (f : MForm) : Nat := f.m * (f.n / 32)

/-- Registers of B's scales (R111). -/
def MArgs.scales (x : MArgs) : List Nat := (List.range (x.form.n / 32)).map fun q => x.vb + 16 * (x.form.n / 32) + q

/-- The trap of an execution, if its format word or scale registers are refused. -/
def mmaFail (s : State) (x : MArgs) (gs : List (Nat × Nat)) : List LaneFail :=
  let fw (m : Nat × Nat) : Word := rdV s m x.vf
  let bad := gs.filter fun m => !fwOk x.form (fw m)
  let differ := gs.any fun m => fw m != fw (gs.headD (0, 0))
  let span := (List.range x.form.accRegs).map fun i => x.va + i
  if !bad.isEmpty then
    bad.map (fun m => ⟨m, 4, 0, 0⟩) ++
      (if differ then (gs.filter fun m => !bad.contains m).map fun m => ⟨m, 5, 0, 0⟩ else [])
  else if differ then gs.map fun m => ⟨m, 5, 0, 0⟩
  else if fwScale (fw (gs.headD (0, 0))) = 1 ∧
      x.scales.any fun r => r ≥ (s.cg.hdr.limits false).vtop || span.contains r || r == x.vf then
    gs.map fun m => ⟨m, 2, 0, 0⟩
  else []

/-- The new accumulator columns of one lane. -/
def laneColumns (s : State) (x : MArgs) (rows : List LatchRow) (fw : Word) (m : Nat × Nat) : List (Nat × Nat × Word) :=
  (List.range (x.form.n / 32)).flatMap fun q =>
    let col := ofBytes ((List.range 16).flatMap fun r => toBytes 4 (rdV s m (x.vb + 16 * q + r)).toNat)
    let sb := (rdV s m (x.vb + 16 * (x.form.n / 32) + q)).toNat
    ((List.range x.form.m).zip rows).map fun (i, row) =>
      let r := x.va + i + x.form.m * q
      (m.1, r, elemNew x.form fw row.data.toNat row.scales.toNat col sb (rdV s m r))

def latchRows (v : Wave) (n : Nat) : List LatchRow := (List.range n).map fun i => mgetD v.latch i {}

/-- The instruction executes on behalf of a home wave whose set is complete (R115, R116). -/
def runMma (s : State) (g w pc : Nat) (word : IWord) (x : MArgs) : State :=
  let gs := (lanesOf (s.conv g w x.c).set).map (fun l => (l, w)) |>.filter fun m => guardOn x.k s m
  let fs := mmaFail s x gs
  let s0 := modConv s g w x.c fun y => { y with sgn := 0, kind := 0 }
  if !fs.isEmpty then
    let t := failTrap s fs []
    takeTrap (unhold s0 g (signers s g w x.c)) g { t with pc := pc, word := word, frm := false }
  else
    let s1 := freeThreads s0 g (signers s g w x.c)
    if gs.isEmpty then s1
    else
      let fw := rdV s (gs.headD (0, 0)) x.vf
      let rows := latchRows (s.wave g w) x.form.m
      startMatrix (takeUnit s1 g w (x.form.m * x.form.n * x.form.k / (if x.form.w = 8 then 8192 else if x.form.w = 4 then 16384 else 4096)))
        g w ((List.range x.form.accRegs).map fun i => x.va + i) (gs.flatMap (laneColumns s x rows fw)) false

/-- What refuses the signatures of a home wave at a signing point (R114, Table 9-3). -/
def signFail (s : State) (g w c : Nat) : Option (Nat × Nat) :=
  let x := s.conv g w c
  if x.set ≠ 0xFFFFFFFF ∨ (s.wave g w).threads.length < 32 then some (6, 0)
  else if x.kind = 1 then some (0x0C, 10)
  else none

/-- The issuing threads of each home wave sign and are held; a set that is complete executes. -/
def signAll (x : MArgs) (s : State) : Out :=
  let g := s.cur.g
  let fs := (wavesOf s.cur.members).flatMap fun w =>
    match signFail s g w x.c with
    | some (c, sub) => (s.cur.members.filter fun m => m.2 == w).map fun m => (⟨m, c, sub, 0⟩ : LaneFail)
    | none => []
  if !fs.isEmpty then .next (trapFails s fs [])
  else
    let t := s.cur.members.foldl (fun t m => holdAt t m (.sign x.c)) s
    .next ((wavesOf s.cur.members).foldl (fun t w =>
      let t1 := modConv t g w x.c fun y => { y with sgn := y.sgn ||| activeMask s w, kind := 2 }
      if (t1.conv g w x.c).sgn = (t1.conv g w x.c).set then runMma t1 g w s.cur.pc s.cur.word x else t1) t)

def mmaOf (f : MForm) (k : Ctl) (a b c d : Opnd) : MArgs := ⟨f, k, opndV a, opndV b, condex c, opndV d⟩

def execMma8a (k : Ctl) (a b c d : Opnd) (s : State) : Out := signAll (mmaOf ⟨32, 32, 64, 8⟩ k a b c d) s
def execMma8b (k : Ctl) (a b c d : Opnd) (s : State) : Out := signAll (mmaOf ⟨64, 32, 64, 8⟩ k a b c d) s
def execMma8c (k : Ctl) (a b c d : Opnd) (s : State) : Out := signAll (mmaOf ⟨64, 64, 64, 8⟩ k a b c d) s
def execMma4a (k : Ctl) (a b c d : Opnd) (s : State) : Out := signAll (mmaOf ⟨32, 32, 128, 4⟩ k a b c d) s
def execMma4b (k : Ctl) (a b c d : Opnd) (s : State) : Out := signAll (mmaOf ⟨64, 32, 128, 4⟩ k a b c d) s
def execMma4c (k : Ctl) (a b c d : Opnd) (s : State) : Out := signAll (mmaOf ⟨64, 64, 128, 4⟩ k a b c d) s
def execMma16a (k : Ctl) (a b c d : Opnd) (s : State) : Out := signAll (mmaOf ⟨32, 32, 32, 16⟩ k a b c d) s
def execMma16b (k : Ctl) (a b c d : Opnd) (s : State) : Out := signAll (mmaOf ⟨64, 32, 32, 16⟩ k a b c d) s
def execMma16c (k : Ctl) (a b c d : Opnd) (s : State) : Out := signAll (mmaOf ⟨64, 64, 32, 16⟩ k a b c d) s

/-! ### MMAZ (R120) -/

/-- Registers that R112 gives a lane's columns in a shape, with row and column block. -/
def shapeRegs (sh : Shape) (va : Nat) : List (Nat × Nat × Nat) :=
  (List.range (shapeN sh / 32)).flatMap fun q => (List.range (shapeM sh)).map fun i => (va + i + shapeM sh * q, i, q)

/-- Start one operation for each home wave of the lanes. -/
def perWave (s : State) (act : List (Nat × Nat)) (f : State → Nat → List (Nat × Nat) → State) : State :=
  (wavesOf act).foldl (fun t w => f t w (act.filter fun m => m.2 == w)) (advance s)

def execMmaz (k : Ctl) (a : Opnd) (sh : Shape) (s : State) : Out :=
  let g := s.cur.g
  let regs := (shapeRegs sh (opndV a)).map (·.1)
  .next (perWave s (actives k s) fun t w ms =>
    startMatrix (takeUnit t g w (sh.accRegs / 32)) g w regs (ms.flatMap fun m => regs.map fun r => (m.1, r, 0)) false)

/-! ### The operand latch (R121 to R123, R125) -/

def unitScales : BitVec 32 := 0x78787878

/-- A scratchpad range that is refused: range first, then poisoned words (R234). -/
def rangeFail (x : Group) (o n : Nat) : Option (Nat × Nat) :=
  if o + n > x.hdr.scratch then some (0x14, 0)
  else (scratchPoisoned x o n).map fun sub => (0x15, sub)

def latchRow (x : Group) (o : Nat) (scale : Option Nat) : LatchRow :=
  { data := BitVec.ofNat 512 (ofBytes (scratchRead x o 64)),
    scales := match scale with | some q => BitVec.ofNat 32 (ofBytes (scratchRead x q 4)) | none => unitScales }

def setLatch (s : State) (g w : Nat) (rows : List (Nat × LatchRow)) : State :=
  s.modWave g w fun v => { v with latch := rows.foldl (fun l r => msetD l r.1 r.2 {}) v.latch }

def execLatchl (k : Ctl) (b : Opnd) (rows64 sc : Bool) (s : State) : Out :=
  let g := s.cur.g
  let act := actives k s
  let n := if rows64 then 64 else 32
  let off (w : Nat) : Nat := (src s (leadOf act w) b).toNat
  let fails := (wavesOf act).flatMap fun w =>
    let f := if off w % 64 ≠ 0 then some (0x10, 0) else rangeFail s.cg (off w) (if sc then 68 * n else 64 * n)
    match f with
    | some (c, sub) => (s.cur.members.filter fun m => m.2 == w).map fun m => (⟨m, c, sub, 0⟩ : LaneFail)
    | none => []
  if !fails.isEmpty then .next (trapFails s fails [])
  else
    .next (perWave s act fun t w _ =>
      let o := off w
      startMatrix (setLatch t g w ((List.range n).map fun i =>
        (i, latchRow s.cg (o + 64 * i) (if sc then some (o + 64 * n + 4 * i) else none)))) g w [] [] true)

/-- Rows that a lane of LATCHG fills: row, data offset, scale offset. -/
def gatherRows (s : State) (b c d : Opnd) (rows64 : Bool) (m : Nat × Nat) : List (Nat × Nat × Nat) :=
  let one (q : Nat) : Nat × Nat × Nat :=
    let x := rdV s m (opndV b + q)
    (m.1 + 32 * q, (src s m c + 64 * x).toNat, (src s m d + 4 * x).toNat)
  if rows64 then [one 0, one 1] else [one 0]

def execLatchg (k : Ctl) (b c d : Opnd) (rows64 sc : Bool) (s : State) : Out :=
  let g := s.cur.g
  let act := actives k s
  let bent := act.any fun m => (src s m c).toNat % 64 != 0 || (src s m d).toNat % 4 != 0
  let fails := act.flatMap fun m =>
    if bent then [(⟨m, 0x10, 0, 0⟩ : LaneFail)]
    else
      let fs := (gatherRows s b c d rows64 m).flatMap fun r =>
        (rangeFail s.cg r.2.1 64).toList ++ (if sc then (rangeFail s.cg r.2.2 4).toList else [])
      match fs.find? (fun f => f.1 == 0x14) with
      | some f => [⟨m, f.1, f.2, 0⟩]
      | none => (fs.head?.map fun f => (⟨m, f.1, f.2, 0⟩ : LaneFail)).toList
  if !fails.isEmpty then .next (trapFails s fails [])
  else
    .next (perWave s act fun t w ms =>
      startMatrix (setLatch t g w (ms.flatMap fun m => (gatherRows s b c d rows64 m).map fun r =>
        (r.1, latchRow s.cg r.2.1 (if sc then some r.2.2 else none)))) g w [] [] true)

def execLatchclr (k : Ctl) (s : State) : Out :=
  .next (perWave s (actives k s) fun t w _ => t.modWave s.cur.g w fun v => { v with latch := [] })

/-! ### Accumulator moves (R124) -/

/-- Where a lane's elements lie in the tile: register and scratchpad offset. -/
def tileCells (sh : Shape) (va base : Nat) (m : Nat × Nat) : List (Nat × Nat) :=
  (shapeRegs sh va).map fun r => (r.1, base + 4 * (r.2.1 * shapeN sh + m.1 + 32 * r.2.2))

/-- The checks of ACCST and ACCLD: all of a home wave's active lanes see one base. -/
def tileFails (s : State) (act : List (Nat × Nat)) (b : Opnd) (sh : Shape) (va : Nat) (reads : Bool) : List LaneFail :=
  let off (m : Nat × Nat) : Nat := (src s m b).toNat
  let bent := act.any fun m => off m % 16 != 0
  let long := act.any fun m => off m + 4 * shapeM sh * shapeN sh > s.cg.hdr.scratch
  act.flatMap fun m =>
    let o := off m
    let poison := if reads then (tileCells sh va o m).findSome? fun c => scratchPoisoned s.cg c.2 4 else none
    if bent then [⟨m, 0x10, 0, 0⟩]
    else if long then [⟨m, 0x14, 0, 0⟩]
    else match poison with | some sub => [⟨m, 0x15, sub, 0⟩] | none => []

def execAccst (k : Ctl) (a b : Opnd) (sh : Shape) (s : State) : Out :=
  let g := s.cur.g
  let act := actives k s
  let fails := tileFails s act b sh (opndV a) false
  if !fails.isEmpty then .next (trapFails s fails [])
  else
    .next (perWave s act fun t w ms =>
      startMatrix (ms.foldl (fun t m =>
        (tileCells sh (opndV a) (src s m b).toNat m).foldl (fun t c => scratchWrite t g c.2 (toBytes 4 (rdV s m c.1).toNat)) t) t)
        g w [] [] true)

def execAccld (k : Ctl) (a b : Opnd) (sh : Shape) (s : State) : Out :=
  let g := s.cur.g
  let act := actives k s
  let fails := tileFails s act b sh (opndV a) true
  if !fails.isEmpty then .next (trapFails s fails [])
  else
    .next (perWave s act fun t w ms =>
      startMatrix t g w ((shapeRegs sh (opndV a)).map (·.1))
        (ms.flatMap fun m => (tileCells sh (opndV a) (src s m b).toNat m).map fun c =>
          (m.1, c.1, BitVec.ofNat 32 (ofBytes (scratchRead s.cg c.2 4)))) true)

end Sys2Proof.Machine
end

