-- ==== Sys2Proof/Machine/Converge.lean ====
section
/-! DEFINITION. CSET, CSIGN and CWAIT (09 R187, R193). -/

namespace Sys2Proof.Machine

/-- CSET refuses a register that is signing; else the set is the home wave's threads whose guard is true. -/
def execCset (k : Ctl) (a : Opnd) (s : State) : Out :=
  let g := s.cur.g
  let c := condex a
  let act := actives k s
  let bad := (wavesOf act).filter fun w => (s.conv g w c).sgn != 0
  if !bad.isEmpty then .next (trapFails s (misuse (act.filter fun m => bad.contains m.2) 10) [])
  else .next (perWave s act fun t w ms => modConv t g w c fun _ => { set := maskOf (ms.map (·.1)) })

/-- What refuses a signature of CSIGN or CWAIT: an idle register, a lane outside the set, a holding signer of the other
kind. -/
def csFail (s : State) (g c : Nat) (holds : Bool) (m : Nat × Nat) : Bool :=
  let x := s.conv g m.2 c
  x.set == 0 || !x.set.getLsbD m.1 || (holds && x.kind == 2)

/-- The set of a home wave is complete: its held threads go on, or the matrix form that they hold executes; the register
is armed with the same set. Signers that a handler has entered execute theirs after RTE. -/
def completeConv (t : State) (g w c : Nat) : State :=
  let x := t.conv g w c
  if x.sgn ≠ x.set ∨ (x.kind = 2 ∧ (signers t g w c).isEmpty) then t
  else if x.kind = 2 then
    let pc := ((signers t g w c).map fun m => (t.thread g w m.1).pc).headD 0
    let word := wordAt t g w pc
    match (match decode word with | .ok i => margsOf i | .error _ => none) with
    | some y => runMma t g w pc word y
    | none => t
  else
    freeWaiters (modConv t g w c fun x => { x with sgn := 0, kind := 0 }) g w (holdsCwait c)

/-- The lanes of CSIGN or CWAIT sign, and CWAIT holds them. -/
def csSign (k : Ctl) (a : Opnd) (holds : Bool) (s : State) : Out :=
  let g := s.cur.g
  let c := condex a
  let act := actives k s
  let bad := act.filter (csFail s g c holds)
  if !bad.isEmpty then .next (trapFails s (misuse bad 10) [])
  else
    .next (perWave s act fun t w ms =>
      let t1 := modConv t g w c fun x =>
        { x with sgn := x.sgn ||| maskOf (ms.map (·.1)), kind := if holds then 1 else x.kind }
      completeConv (if holds then ms.foldl (fun t m => holdAt t m (.cwait c)) t1 else t1) g w c)

/-- The end of a clock: sets that were completed while their signers were at handler level execute (14 R316). -/
def sweepConv (s : State) : State :=
  s.groups.foldl (fun s x =>
    if x.2.place ≠ .active then s
    else x.2.waves.zipIdx.foldl (fun s v =>
      if v.1.handler then s
      else v.1.conv.foldl (fun s c =>
        if c.2.kind = 2 ∧ c.2.sgn = c.2.set ∧ !signersWait s x.1 c.1 v.2 then completeConv s x.1 v.2 c.1 else s) s) s) s

def execCsign (k : Ctl) (a : Opnd) (s : State) : Out := csSign k a false s
def execCwait (k : Ctl) (a : Opnd) (s : State) : Out := csSign k a true s

end Sys2Proof.Machine
end

