-- ==== Sys2Proof/Machine/Float.lean ====
section
/-! DEFINITION. Groups 0x03 (FP32), 0x04 (packed FP16 and BF16) and 0x05 (FP64) (06 R96 to R99). -/

namespace Sys2Proof.Machine

/-- One result for each half of packed operands. -/
def halves (f : Nat → Nat → Nat → Nat × FFlags) (x y z : Nat) : Nat × FFlags :=
  let lo := f (x % 65536) (y % 65536) (z % 65536)
  let hi := f (x / 65536) (y / 65536) (z / 65536)
  (lo.1 + 65536 * hi.1, lo.2 ||| hi.2)

/-- A packed compare: the lower element's result, then the upper's. -/
def cmpHalves (fm : Fmt) (cc : FCond) (x y : Nat) : List Bool :=
  [fpCmp fm cc (x % 65536) (y % 65536), fpCmp fm cc (x / 65536) (y / 65536)]

def execFadd (k : Ctl) (a b c : Opnd) (rm : Rnd) (sat : Bool) (s : State) : Out :=
  .next (computeF k 4 a (fun s m => fpAdd .fp32 rm sat (srcF s m b) (srcF s m c)) s)
def execFsub (k : Ctl) (a b c : Opnd) (rm : Rnd) (sat : Bool) (s : State) : Out :=
  .next (computeF k 4 a (fun s m => fpSub .fp32 rm sat (srcF s m b) (srcF s m c)) s)
def execFmul (k : Ctl) (a b c : Opnd) (rm : Rnd) (sat : Bool) (s : State) : Out :=
  .next (computeF k 4 a (fun s m => fpMul .fp32 rm sat (srcF s m b) (srcF s m c)) s)
def execFfma (k : Ctl) (a b c d : Opnd) (rm : Rnd) (sat : Bool) (s : State) : Out :=
  .next (computeF k 4 a (fun s m => fpFma .fp32 rm sat (srcF s m b) (srcF s m c) (srcF s m d)) s)
def execFmin (k : Ctl) (a b c : Opnd) (s : State) : Out :=
  .next (computeF k 4 a (fun s m => (fpMinMax .fp32 false (srcF s m b) (srcF s m c), 0)) s)
def execFmax (k : Ctl) (a b c : Opnd) (s : State) : Out :=
  .next (computeF k 4 a (fun s m => (fpMinMax .fp32 true (srcF s m b) (srcF s m c), 0)) s)
def execFrcp (k : Ctl) (a b : Opnd) (rm : Rnd) (sat : Bool) (s : State) : Out :=
  .next (computeF k 18 a (fun s m => fpRcp .fp32 rm sat (srcF s m b)) s)
def execFrsq (k : Ctl) (a b : Opnd) (s : State) : Out :=
  .next (computeF k 18 a (fun s m => fpRsq (srcF s m b)) s)
def execFsqrt (k : Ctl) (a b : Opnd) (rm : Rnd) (sat : Bool) (s : State) : Out :=
  .next (computeF k 18 a (fun s m => fpSqrt rm sat (srcF s m b)) s)
def execFdiv (k : Ctl) (a b c : Opnd) (rm : Rnd) (sat : Bool) (s : State) : Out :=
  .next (computeF k 18 a (fun s m => fpDiv .fp32 rm sat (srcF s m b) (srcF s m c)) s)
def execFexp2 (k : Ctl) (a b : Opnd) (s : State) : Out :=
  .next (computeF k 18 a (fun s m => fpExp2 (srcF s m b)) s)
def execFlog2 (k : Ctl) (a b : Opnd) (s : State) : Out :=
  .next (computeF k 18 a (fun s m => fpLog2 (srcF s m b)) s)
def execFsin (k : Ctl) (a b : Opnd) (s : State) : Out :=
  .next (computeF k 18 a (fun s m => fpSin (srcF s m b)) s)
def execFcos (k : Ctl) (a b : Opnd) (s : State) : Out :=
  .next (computeF k 18 a (fun s m => fpCos (srcF s m b)) s)
def execFtanh (k : Ctl) (a b : Opnd) (s : State) : Out :=
  .next (computeF k 18 a (fun s m => fpTanh (srcF s m b)) s)
def execFfrac (k : Ctl) (a b : Opnd) (rm : Rnd) (sat : Bool) (s : State) : Out :=
  .next (computeF k 4 a (fun s m => fpFrac rm sat (srcF s m b)) s)
def execHadd2 (k : Ctl) (a b c : Opnd) (rm : Rnd) (sat : Bool) (s : State) : Out :=
  .next (computeF k 4 a (fun s m => halves (fun x y _ => fpAdd .fp16 rm sat x y) (srcH .fp16 s m b) (srcH .fp16 s m c) 0) s)
def execHmul2 (k : Ctl) (a b c : Opnd) (rm : Rnd) (sat : Bool) (s : State) : Out :=
  .next (computeF k 4 a (fun s m => halves (fun x y _ => fpMul .fp16 rm sat x y) (srcH .fp16 s m b) (srcH .fp16 s m c) 0) s)
def execHfma2 (k : Ctl) (a b c d : Opnd) (rm : Rnd) (sat : Bool) (s : State) : Out :=
  .next (computeF k 4 a (fun s m => halves (fpFma .fp16 rm sat) (srcH .fp16 s m b) (srcH .fp16 s m c) (srcH .fp16 s m d)) s)
def execHmin2 (k : Ctl) (a b c : Opnd) (s : State) : Out :=
  .next (computeF k 4 a (fun s m => halves (fun x y _ => (fpMinMax .fp16 false x y, 0)) (srcH .fp16 s m b) (srcH .fp16 s m c) 0) s)
def execHmax2 (k : Ctl) (a b c : Opnd) (s : State) : Out :=
  .next (computeF k 4 a (fun s m => halves (fun x y _ => (fpMinMax .fp16 true x y, 0)) (srcH .fp16 s m b) (srcH .fp16 s m c) 0) s)
def execHcmp2 (k : Ctl) (a b c : Opnd) (cc : FCond) (s : State) : Out :=
  .next (computeP k 4 a (fun s m => cmpHalves .fp16 cc (srcH .fp16 s m b) (srcH .fp16 s m c)) s)
def execBadd2 (k : Ctl) (a b c : Opnd) (rm : Rnd) (sat : Bool) (s : State) : Out :=
  .next (computeF k 4 a (fun s m => halves (fun x y _ => fpAdd .bf16 rm sat x y) (srcH .bf16 s m b) (srcH .bf16 s m c) 0) s)
def execBmul2 (k : Ctl) (a b c : Opnd) (rm : Rnd) (sat : Bool) (s : State) : Out :=
  .next (computeF k 4 a (fun s m => halves (fun x y _ => fpMul .bf16 rm sat x y) (srcH .bf16 s m b) (srcH .bf16 s m c) 0) s)
def execBfma2 (k : Ctl) (a b c d : Opnd) (rm : Rnd) (sat : Bool) (s : State) : Out :=
  .next (computeF k 4 a (fun s m => halves (fpFma .bf16 rm sat) (srcH .bf16 s m b) (srcH .bf16 s m c) (srcH .bf16 s m d)) s)
def execBmin2 (k : Ctl) (a b c : Opnd) (s : State) : Out :=
  .next (computeF k 4 a (fun s m => halves (fun x y _ => (fpMinMax .bf16 false x y, 0)) (srcH .bf16 s m b) (srcH .bf16 s m c) 0) s)
def execBmax2 (k : Ctl) (a b c : Opnd) (s : State) : Out :=
  .next (computeF k 4 a (fun s m => halves (fun x y _ => (fpMinMax .bf16 true x y, 0)) (srcH .bf16 s m b) (srcH .bf16 s m c) 0) s)
def execBcmp2 (k : Ctl) (a b c : Opnd) (cc : FCond) (s : State) : Out :=
  .next (computeP k 4 a (fun s m => cmpHalves .bf16 cc (srcH .bf16 s m b) (srcH .bf16 s m c)) s)
def execDadd (k : Ctl) (a b c : Opnd) (rm : Rnd) (sat : Bool) (s : State) : Out :=
  .next (computeF64 k 8 a (fun s m => fpAdd .fp64 rm sat (srcD s m b) (srcD s m c)) s)
def execDmul (k : Ctl) (a b c : Opnd) (rm : Rnd) (sat : Bool) (s : State) : Out :=
  .next (computeF64 k 8 a (fun s m => fpMul .fp64 rm sat (srcD s m b) (srcD s m c)) s)
def execDfma (k : Ctl) (a b c d : Opnd) (rm : Rnd) (sat : Bool) (s : State) : Out :=
  .next (computeF64 k 8 a (fun s m => fpFma .fp64 rm sat (srcD s m b) (srcD s m c) (srcD s m d)) s)
def execDmin (k : Ctl) (a b c : Opnd) (s : State) : Out :=
  .next (computeF64 k 8 a (fun s m => (fpMinMax .fp64 false (srcD s m b) (srcD s m c), 0)) s)
def execDmax (k : Ctl) (a b c : Opnd) (s : State) : Out :=
  .next (computeF64 k 8 a (fun s m => (fpMinMax .fp64 true (srcD s m b) (srcD s m c), 0)) s)
def execDcmp (k : Ctl) (a b c : Opnd) (cc : FCond) (s : State) : Out :=
  .next (computeP k 8 a (fun s m => [fpCmp .fp64 cc (srcD s m b) (srcD s m c)]) s)
def execDrcp (k : Ctl) (a b : Opnd) (rm : Rnd) (sat : Bool) (s : State) : Out :=
  .next (computeF64 k 18 a (fun s m => fpRcp .fp64 rm sat (srcD s m b)) s)

end Sys2Proof.Machine
end

