-- ==== Sys2Proof/Machine/Convert.lean ====
section
/-! DEFINITION. Group 0x06, conversion (06 R100 to R102). -/

namespace Sys2Proof.Machine

/-- The 32 bits that hold the source elements of a CVT: a small constant is converted for FP32, FP16 and BF16 and is raw
for every other format (03 R37). -/
def cvtSrc (fm : Fmt) (s : State) (m : Nat × Nat) (b : Opnd) : Nat :=
  match fm with
  | .fp32 => srcF s m b
  | .fp16 => srcH .fp16 s m b
  | .bf16 => srcH .bf16 s m b
  | .fp64 => srcD s m b
  | _ => (src s m b).toNat

/-- INT8 and INT4 results are sign-extended, the others zero-extended (R100). -/
def cvtPlace (dst : Fmt) (code : Nat) : Nat :=
  match dst with
  | .int8 => ((BitVec.ofNat 8 code).signExtend 32).toNat
  | .int4 => ((BitVec.ofNat 4 code).signExtend 32).toNat
  | _ => code

def cvt (dst sf : Fmt) (rm : Rnd) (sat : Bool) (el x : Nat) : Nat × FFlags :=
  let r := convert dst sf rm sat (x / 2 ^ (fmtBits sf * el) % 2 ^ fmtBits sf)
  (cvtPlace dst r.1, r.2)

def execCvt (k : Ctl) (a b : Opnd) (dst sf : Fmt) (rm : Rnd) (sat : Bool) (el : BitVec 3) (s : State) : Out :=
  .next (
    if dst = .fp64 then computeF64 k 4 a (fun s m => cvt dst sf rm sat el.toNat (cvtSrc sf s m b)) s
    else computeF k 4 a (fun s m => cvt dst sf rm sat el.toNat (cvtSrc sf s m b)) s)

/-- The multiplier of a pack or unpack: 1.0 when OPC holds class 7. -/
def multiplier (s : State) (m : Nat × Nat) (c : Opnd) : Nat :=
  match c with
  | .null => 0x3F800000
  | c => srcF s m c

/-- Elements packed from consecutive registers. -/
def packAll (fmt : Fmt) (rm : Rnd) (sat : Bool) (xs : List Nat) (c : Nat) : Nat × FFlags :=
  let w := fmtBits fmt
  let es := xs.map fun x => packElem fmt rm sat x c
  (es.foldr (fun e acc => e.1 % 2 ^ w + 2 ^ w * acc) 0, es.foldl (fun f e => f ||| e.2) 0)

def unpackAll (fmt : Fmt) (rm : Rnd) (n x c : Nat) : List Nat × FFlags :=
  let w := fmtBits fmt
  let es := (List.range n).map fun i => unpackElem fmt rm (x / 2 ^ (w * i) % 2 ^ w) c
  (es.map (·.1), es.foldl (fun f e => f ||| e.2) 0)

/-- The FP32 codes in n consecutive vector registers. -/
def spanF (s : State) (m : Nat × Nat) (b : Opnd) (n : Nat) : List Nat :=
  match b with
  | .v r => (List.range n).map fun i => (rdV s m (r.toNat + i)).toNat
  | _ => []

def execPack8 (k : Ctl) (a b c : Opnd) (fmt : Fmt) (rm : Rnd) (sat : Bool) (s : State) : Out :=
  .next (computeF k 4 a (fun s m => packAll fmt rm sat (spanF s m b 4) (multiplier s m c)) s)
def execUnpack8 (k : Ctl) (a b c : Opnd) (fmt : Fmt) (rm : Rnd) (s : State) : Out :=
  .next (computeSpan k 4 a (fun s m => unpackAll fmt rm 4 (src s m b).toNat (multiplier s m c)) s)
def execPack4 (k : Ctl) (a b c : Opnd) (fmt : Fmt) (rm : Rnd) (sat : Bool) (s : State) : Out :=
  .next (computeF k 4 a (fun s m => packAll fmt rm sat (spanF s m b 8) (multiplier s m c)) s)
def execUnpack4 (k : Ctl) (a b c : Opnd) (fmt : Fmt) (rm : Rnd) (s : State) : Out :=
  .next (computeSpan k 4 a (fun s m => unpackAll fmt rm 8 (src s m b).toNat (multiplier s m c)) s)
def execScaleq (k : Ctl) (a b : Opnd) (fmt : Fmt) (s : State) : Out :=
  .next (computeF64 k 4 a (fun s m =>
    let r := scaleq fmt (srcF s m b)
    (r.1 + 2 ^ 32 * r.2.1, r.2.2)) s)

end Sys2Proof.Machine
end

