-- ==== Sys2Proof/Machine/Migrate.lean ====
section
/-! DEFINITION. The page service's events: resolution of faults, residence, migration of pages (12 R226, R228, R240 to
R244), and the completion of accesses (03 R47, 15 R339). -/

namespace Sys2Proof.Machine

/-! ### Resolution of a logged fault (R242) -/

/-- The access that a log entry's lanes make. -/
def logAcc (le : LogEntry) : Acc :=
  match decode le.word with
  | .ok i => (match loggedAccess i with | some (inf, _) => accOf inf.kind | none => .r)
  | .error _ => .r

/-- The bytes that a lane of an entry needs, as addresses of one byte in each page; a JTAB needs its header word first. -/
def logPages (s : State) (g : Nat) (le : LogEntry) (lane : Nat) : List Nat :=
  let a := ((mget le.addrs lane).getD 0).toNat
  let x := s.group g
  match decode le.word with
  | .ok (.jtab _ _ tab) =>
    let base := (x.cnst.toNat + tab.toNat) % 2 ^ 64
    (match check s x.ctx x.core base 4 .r with
     | .park _ => [base]
     | _ => [base, a])
  | .ok (.ldto ..) => (spansOf a ((ldtoOfVals 0 ((mget le.vals lane).getD [])).n)).map (·.1)
  | _ => [a]

def logLanes (le : LogEntry) : List Nat := le.addrs.map (·.1)

/-- The lanes of an entry that still wait for a page: those that no trap has taken and that have not been issued again. -/
def waitingLanes (s : State) (g w e : Nat) (le : LogEntry) : List Nat :=
  match decode le.word with
  | .ok (.ldto ..) => logLanes le
  | _ => (logLanes le).filter fun l => s.accesses.any fun a => a.g == g && a.w == w && a.id == le.opOf l &&
      a.lanes.any fun o => o.stage == .parked e && (a.uni || o.lane == l)

/-- A page that an access of a core waits for. -/
structure PageWant where
  ctx : Nat
  core : Nat
  va : Nat
  acc : Acc
  deriving DecidableEq, Repr

def entryWants (s : State) (g : Nat) (le : LogEntry) : List PageWant :=
  let x := s.group g
  (logLanes le).flatMap fun l => (logPages s g le l).map fun va => { ctx := x.ctx, core := x.core, va := va, acc := logAcc le }

/-- The page of an address, by the entry that maps it. -/
def leafOf (s : State) (ctx va : Nat) : Option Nat :=
  match walk s (s.ctx ctx) va with
  | .ok t => some t.leaf
  | .error _ => none

/-- What the other faults of the clock of an entry want of its pages (12 R228). -/
def clockWants (s : State) (g e : Nat) (le : LogEntry) : List PageWant :=
  let mine := (entryWants s g le).filterMap fun p => leafOf s p.ctx p.va
  s.groups.flatMap fun x => x.2.waves.flatMap fun v => v.log.flatMap fun y =>
    if y.2.clock = le.clock ∧ !(x.1 = g ∧ y.1 = e) ∧ !y.2.late then
      (entryWants s x.1 y.2).filter fun p => (leafOf s p.ctx p.va).any mine.contains
    else []

/-- The page service does for a page what one kind of fault asks. -/
def serveKind (k : ParkWhy) (s : State) (p : PageWant) : State :=
  match check s p.ctx p.core p.va 1 p.acc with
  | .park .notPresent => if k = .notPresent then requestPage s p.ctx p.va else s
  | .park .migrating => s
  | .park w => if w = k then resolve s p.ctx p.core p.va p.acc else s
  | _ => s

/-- Faults of one clock on a page are resolved one kind after the other: migration, upgrade, logging, ownership (12 R228). -/
def serveWants (s : State) (ps : List PageWant) : State :=
  [ParkWhy.notPresent, .upgrade, .log, .ownership].foldl (fun s k => ps.foldl (serveKind k) s) s

/-- The page service does for every logged lane what its check asks, together with the other faults of that clock on its pages. -/
def serveEntry (s : State) (g e : Nat) (le : LogEntry) : State := serveWants s (clockWants s g e le ++ entryWants s g le)

/-- Whether a lane of an entry waits for the end of a move: a JTAB, which is decided for all of its lanes, where one of them does. -/
def heldLane (s : State) (g : Nat) (le : LogEntry) (l : Nat) : Bool :=
  let ctx := (s.group g).ctx
  let away (va : Nat) : Bool := s.migrating.contains (ctx, va - va % 4096)
  match decode le.word, s.accesses.find? fun a => a.id == le.opOf l with
  | .ok (.jtab _ _ tab), some a =>
    let base := ((s.group g).cnst.toNat + tab.toNat) % 2 ^ 64
    away base || (jtabLanes s a.joint).any fun x => away x.2.addr.toNat
  | _, _ => (logPages s g le l).any away

/-- A fault is resolved, and the logged instruction re-issues for the lanes whose pages can be used. A group that is saved
re-issues after its restore. -/
def execFaultResolved (g w e : Nat) (s : State) : Out :=
  match mget (s.wave g w).log e with
  | none => .next s
  | some le =>
    let s1 := serveEntry s g e le
    let x := s1.group g
    let ls := (logLanes le).filter fun l => !heldLane s1 g le l
    if x.place = .active ∨ x.place = .shadow then redoEntry g w e ls (uniq (ls.map le.opOf)) s1 else .next s1

/-- What lanes that wait for a page do at the end of a step: a page that is not present is asked for (R243), and one that is
migrating is noted, so that they wait for its invalidation too (R226). -/
def waitFor (s : State) (ctx core va : Nat) : State :=
  match lookup s ctx core va with
  | .error (.npk false _) => requestPage s ctx va
  | .error (.npk true _) =>
    let p := (ctx, va - va % 4096)
    if s.migrating.contains p then s else { s with migrating := s.migrating ++ [p] }
  | _ => s

/-- The pages that the threads of a group wait for. -/
def waitPages (s : State) (g : Nat) (x : Group) : List Nat :=
  (x.waves.zipIdx).flatMap fun v =>
    (v.1.log.flatMap fun e => if e.2.late then [] else (waitingLanes s g v.2 e.1 e.2).flatMap (logPages s g e.2)) ++
    (v.1.fetchWait.flatMap fun p => let va := codeBase s g v.2 + p.1; [va % 2 ^ 64, (va + 11) % 2 ^ 64])

def sweepWaits (s : State) : State :=
  s.groups.foldl (fun s x => (waitPages s x.1 x.2).foldl (fun s va => waitFor s x.2.ctx x.2.core va) s) s

/-- Threads that wait for the page of their instruction go on once it can be used, and trap where it cannot; the other actions that
the fetch asks of the page service are done. A saved group waits for its restore. -/
def fetchResolve (s : State) (g w : Nat) (p : Nat × Word) : State :=
  let x := s.group g
  let va := codeBase s g w + p.1
  let held := [va, va + 11].any fun a => s.migrating.contains (x.ctx, a % 2 ^ 64 - a % 4096)
  let s1 := servePage (servePage s x.ctx x.core (va % 2 ^ 64) .x) x.ctx x.core ((va + 11) % 2 ^ 64) .x
  let free (s : State) : State :=
    (lanesOf p.2).foldl (fun s l => s.modThread g w l fun t => if t.st = .faultParked then { t with st := .ready, pc := p.1 } else t)
      (s.modWave g w fun v => { v with fetchWait := v.fetchWait.filter (· != p) })
  let go := !held && match fetchAt s1 g w p.1 with | .park a => refusedPage s1 x.ctx a | _ => true
  if (x.place = .active ∨ x.place = .shadow) ∧ go then free s1 else s1

def sweepFetch (s : State) : State :=
  s.groups.foldl (fun s x => (x.2.waves.zipIdx).foldl (fun s v => v.1.fetchWait.foldl (fun s p => fetchResolve s x.1 v.2 p) s) s) s

/-- The lanes of an entry that wait for a page that the host driver has refused. -/
def refusedLanes (s : State) (g w e : Nat) (le : LogEntry) : List (Nat × Nat) :=
  (waitingLanes s g w e le).filterMap fun l => ((logPages s g le l).find? (refusedPage s (s.group g).ctx)).map fun va => (l, va)

/-- Resolution fails: the lanes of the refused page trap with TRANSLATION_INVALID, subcode 5. The other lanes of a JTAB stand at it
again. -/
def execFaultResolutionFail (g w e : Nat) (s : State) : Out :=
  match mget (s.wave g w).log e with
  | none => .next s
  | some le =>
    let x := s.group g
    let bad := refusedLanes s g w e le
    if bad.isEmpty ∨ (x.place ≠ .active ∧ x.place ≠ .shadow) then .next s
    else
      let fail (l : Nat) (va : Nat) : LaneFail := ⟨(l, w), 0x11, 5, (mget le.addrs l).getD (BitVec.ofNat 64 va)⟩
      let done (t : State) : State := bad.foldl (fun t b => clearRefused t x.ctx b.2) t
      let fs := bad.map fun b => fail b.1 b.2
      match decode le.word with
      | .ok (.ldto ..) => .next (done (trapLogged (bad.foldl (fun s b => opEnds s (le.opOf b.1)) s) g w e le fs))
      | .ok (.jtab ..) =>
        (match s.accesses.find? fun a => bad.any fun b => le.opOf b.1 == a.id with
         | some a => .next (done (jtabTrap s a.joint fs []))
         | none => .next s)
      | _ =>
        let mine (a : Access) : List Nat := (a.lanes.filter fun o => o.stage == .parked e &&
          (a.uni || bad.any fun b => b.1 == o.lane && le.opOf b.1 == a.id)).map (·.lane)
        let as := s.accesses.filter fun a => a.g == g && a.w == w && (bad.any fun b => le.opOf b.1 == a.id) && !(mine a).isEmpty
        let uni := as.any (·.uni)
        let fs := if uni then (lanesOf le.mask).map fun l => { fail (bad.headD (0, 0)).1 (bad.headD (0, 0)).2 with at_ := (l, w) } else fs
        if as.isEmpty then .next s
        else .next (done (trapLogged (as.foldl (fun s a => abandonLanes s a (mine a)) s) g w e le fs))

/-! ### Page entries (R225, R243) -/

/-- The address of the entry at which the walk of one table ends; where a table page is itself not mapped, what `bad`
answers for it. -/
def entryGo (s : State) (tr : Nat → Except WalkErr Nat) (bad : Nat → Option Nat) (va : Nat) : Nat → Nat → Nat → Option Nat
  | 0, _, _ => none
  | n + 1, level, page =>
    let gpa := page + 16 * (va / 2 ^ (12 + 9 * (4 - level)) % 512)
    match tr gpa with
    | .error _ => bad gpa
    | .ok at_ =>
      let e := pteAt s at_
      if e.v && !e.leaf && level < 4 then entryGo s tr bad va n (level + 1) e.page else some at_

def entry2 (s : State) (c : Ctx) (gpa : Nat) : Option Nat :=
  entryGo s (fun p => .ok (p % 2 ^ 60)) (fun _ => none) gpa 4 1 c.s2root.toNat

/-- The entry at which the first stage ends. -/
def entry1 (s : State) (c : Ctx) (va : Nat) : Option Nat := entryGo s (gpaToPa s c) (entry2 s c) va 4 1 c.ptroot.toNat

/-- The entry that decides a page: of the first stage, or of the second where the first has a leaf. -/
def walkEnd (s : State) (c : Ctx) (va : Nat) : Option Nat :=
  (entry1 s c va).bind fun at_ =>
    let e := pteAt s at_
    if c.nest && e.v && e.leaf then entry2 s c (e.page + va % pageBytes e.size) else some at_

/-- Whether the entry that decides a page gives a guest-physical PAGE: that of a first stage under a second (R238). -/
def guestEntry (s : State) (c : Ctx) (va : Nat) : Bool :=
  c.nest && (entryGo s (gpaToPa s c) (fun _ => none) va 4 1 c.ptroot.toNat).any fun at_ => !((pteAt s at_).v && (pteAt s at_).leaf)

/-- Drop the translations of a page; under a second stage, all of the context, as an invalidation of that stage (R239). -/
def dropPage (s : State) (ctx va size : Nat) : State :=
  if (s.ctx ctx).nest then dropTlb (bumpS2 s) ctx 0 none else dropTlb s ctx va (some size)

/-- Copy `n` bytes between memories: what is listed of the source, over what is listed of the destination. -/
def copyCells (src dst : List Host.Cell) (a b n : Nat) : List Host.Cell :=
  (src.filter fun c => a ≤ c.1 && c.1 < a + n).foldl (fun m c => memWrite m (b + (c.1 - a)) c.2)
    (dst.filter fun c => !(b ≤ c.1 && c.1 < b + n))

/-- The data of a page that comes in: to the place that its entry names, through the second stage where the entry is the first
stage's; what that stage does not map is not copied (log 86). -/
def copyIn (s : State) (c : Ctx) (guest : Bool) (src : Nat) (new : Pte) (n : Nat) : State :=
  if guest then
    (List.range (n / 4096)).foldl (fun s i =>
      match walk2 s c (new.page + 4096 * i) with
      | .ok x => let sp := spaceOf x.kind x.dev; s.setMem sp (copyCells s.hostMem (s.mem sp) (src + 4096 * i) x.pa 4096)
      | .error _ => s) s
  else if new.kind = 0 then { s with hbm := copyCells s.hostMem s.hbm src new.page n }
  else s

/-! ### Requests and the lock (R243, R244) -/

def setMove (s : State) (id : Nat) (f : PageMove → PageMove) : State :=
  { s with moves := s.moves.map fun m => if m.id = id then f m else m }
def dropMove (s : State) (id : Nat) : State := { s with moves := s.moves.filter fun m => m.id != id }

/-- A host request to take a page reaches the lock. -/
def execHostPageRequest (ctx : BitVec 16) (va : DWord) (s : State) : Out :=
  .next { s with
    nextId := s.nextId + 1
    moves := s.moves ++ [{ id := s.nextId, ctx := ctx.toNat, va := va.toNat - va.toNat % 4096, toHost := true, asked := s.clock }] }

/-- The host driver answers a residence request: it supplies the page, or refuses. -/
def answerResidence (s : State) (ctx va : Nat) (supply : Option (BitVec 128 × DWord)) : Option State :=
  (s.moves.find? fun m => m.ctx == ctx && m.va == va - va % 4096 && !m.toHost && m.ended.isNone && !m.started && m.entry.isNone).map
    fun m => setMove s m.id fun m =>
      match supply with
      | some e => { m with entry := some e.1, src := e.2.toNat }
      | none => { m with refused := true, ended := some s.ns }

/-- The bytes that a move concerns: those of the page that its entry gives, or that the driver has supplied. A page of local memory has
64 KiB at least (R226). -/
def moveSpan (s : State) (m : PageMove) : Nat × Nat :=
  if m.started then (m.va, m.size)
  else
    let size := match m.entry, walkEnd s (s.ctx m.ctx) m.va with
      | some e, _ => pageBytes (Pte.size ⟨e.toNat⟩)
      | none, some at_ => let e := pteAt s at_; if e.v && e.leaf then pageBytes e.size else 65536
      | none, none => 65536
    (m.va - m.va % size, size)

/-- Two moves concern one page: common addresses, or under a second stage one deciding entry. -/
def samePage (s : State) (a b : PageMove) : Bool :=
  let p := moveSpan s a
  let q := moveSpan s b
  a.ctx == b.ctx && ((p.1 < q.1 + q.2 && q.1 < p.1 + p.2) ||
    ((s.ctx a.ctx).nest && walkEnd s (s.ctx a.ctx) a.va == walkEnd s (s.ctx a.ctx) b.va))

/-- The lock is free, the page's minimum residency is over, and no earlier request is before this one: of one clock, the
device's comes first, whether or not the host driver has answered it; a host request waits for the end of its clock. Accesses
with a translation of the page have performed. -/
def lockFree (s : State) (m : PageMove) : Bool :=
  (!m.toHost || m.asked < s.clock) &&
  (accessesIn s m.ctx (moveSpan s m).1 (if (s.ctx m.ctx).nest then none else some (moveSpan s m).2)).isEmpty &&
  s.moves.all fun x => x.id == m.id || !samePage s x m || x.refused ||
    (!x.started &&
      (m.asked < x.asked || (m.asked == x.asked && ((!m.toHost && x.toHost) || (m.toHost == x.toHost && m.id < x.id)))))

def npkSet (e npk : Nat) : Nat := setBits (setBits e 0 1 0) 1 3 npk

/-- A migration starts: the entry becomes migrating, the translations are dropped on every die and copies written back. A
page that is where it is asked to be completes at once. -/
def execMigrationStart (id : Nat) (s : State) : Out :=
  match s.moves.find? fun m => m.id == id && !m.started && m.ended.isNone with
  | none => .next s
  | some m =>
    if !lockFree s m ∨ (!m.toHost ∧ m.entry.isNone) then .next s
    else
      match walkEnd s (s.ctx m.ctx) m.va with
      | none => .next (dropMove s id)
      | some at_ =>
        let e := pteAt s at_
        let there := if m.toHost then !(e.v && e.leaf && e.kind == 0) else e.v
        if there then .next (dropMove s id)
        else
          let code := if m.toHost then e.size else Pte.size ⟨(m.entry.getD 0).toNat⟩
          let size := pageBytes code
          let va := if (s.ctx m.ctx).nest && !guestEntry s (s.ctx m.ctx) m.va then m.va else m.va - m.va % size
          let s1 := if m.toHost then
              (s.cores.map (·.1)).foldl (fun s c => writeBack s c fun k => placeKey .hbm e.page ≤ k && k < placeKey .hbm e.page + size) s
            else s
          let s2 := dropPage (writeLeaf s1 at_ (leafCount code) fun x => npkSet x 2) m.ctx va size
          .next (setMove s2 id fun m => { m with started := true, va := va, size := size, old := e.raw })

/-- A move ends: the data stand at the destination, the entry says so, and the minimum residency starts. The page's place in
host memory is the host driver's: named by its answer for a page that comes in, free for one that goes (log 32). -/
def execMigrationComplete (id : Nat) (s : State) : Out :=
  match s.moves.find? fun m => m.id == id && m.started && m.ended.isNone with
  | none => .next s
  | some m =>
    match walkEnd s (s.ctx m.ctx) m.va with
    | none => .next (setMove s id fun m => { m with ended := some s.ns })
    | some at_ =>
      let old : Pte := ⟨m.old⟩
      let new : Pte := ⟨(m.entry.getD 0).toNat⟩
      let (x, s0) := s.freeWord
      let host := x.toNat % 2 ^ 42 * 4096 / m.size * m.size
      let s1 :=
        if m.toHost then { s0 with hostMem := copyCells s0.hbm s0.hostMem old.page host m.size }
        else copyIn s0 (s.ctx m.ctx) (guestEntry s (s.ctx m.ctx) m.va) m.src new m.size
      let code := if m.toHost then old.size else new.size
      let s2 := writeLeaf s1 at_ (leafCount code) fun _ => if m.toHost then setBits (npkSet m.old 1) 64 42 (host / 4096) else new.raw
      .next (setMove (dropPage s2 m.ctx m.va m.size) id fun m => { m with ended := some s.ns })

/-- The minimum residency of 50 µs is over. -/
def execResidencyExpiry (id : Nat) (s : State) : Out :=
  match s.moves.find? fun m => m.id == id && m.started with
  | none => .next s
  | some m =>
    match m.ended with
    | some t => if t + 50000 ≤ s.ns then .next (dropMove s id) else .next s
    | none => .next s

/-! ### Accesses complete -/

/-- Streams of a home wave that an access has poisoned: their later writes and their fences follow (13 R289, 20 R397). -/
def spreadFrom (s t : State) (a : Access) : State :=
  ((t.wave a.g a.w).streams.filter fun x => x.2.poison.isSome && (streamOf (s.wave a.g a.w) x.1).poison.isNone).foldl
    (fun t x => spreadPoison t a.g a.w x.1 fun q => a.id < q.acc) t

/-- Lanes of an access complete: values reach registers, and the counter falls with the last of them. -/
def execAccessComplete (id : Nat) (lanes : Word) (s : State) : Out :=
  match s.accesses.find? fun a => a.id == id with
  | none => .next s
  | some a =>
    if a.kind = .jtab then .next (jtabProgress s id)
    else .next (sendWave (spreadFrom s (completeLanes s id (lanesOf lanes)) a) a.g a.w)

/-- Forms whose late replies are recorded (R339). -/
def returnsValue (a : Access) : Bool :=
  match a.kind with
  | .load _ => true
  | .cas => true
  | .atom _ _ => a.ctr == 0
  | _ => false

/-- 1,024 clocks after its issue, the lanes of a remote load that have their replies complete, and those that wait are
recorded in a free log entry as late. -/
def execLateLaneRecord (id : Nat) (s : State) : Out :=
  match s.accesses.find? fun a => a.id == id with
  | none => .next s
  | some a =>
    if s.clock < a.clock + 1024 ∨ !returnsValue a then .next s
    else
      let waits := a.lanes.filter fun o => o.got.isNone && o.crosses && o.entry.isNone &&
        (match o.stage with | .pending => true | .sent _ => true | _ => false)
      match freeEntry (s.wave a.g a.w) with
      | none => .next s
      | some e =>
        if waits.isEmpty then .next s
        else
          let ls := waits.map (·.lane)
          let le : LogEntry :=
            { word := a.word, pc := a.pc, mask := maskOf ls, late := true, op := id, addrs := waits.map fun o => (o.lane, o.addr),
              vals := waits.map fun o => (o.lane, o.vals), issued := a.issued, clock := s.clock }
          let s1 := putEntry (setAccess s id fun a =>
            { a with lanes := a.lanes.map fun o => if ls.contains o.lane then { o with stage := .late e } else o }) a.g a.w e le
          let ready := (a.lanes.filter fun o => o.got.isSome && (match o.stage with | .parked _ => false | _ => true)).map (·.lane)
          .next (ready.foldl (fun s l => completeLane s id l) s1)

/-! ### Completion events (11 R217, R220) -/

def execCompletionEvent (g : Nat) (s : State) : Out := .next (publish s g)

end Sys2Proof.Machine
end

