-- ==== Sys2Proof/Machine/Third.lean ====
section
/-! DEFINITION. Third-party reads after LDTO has sent them: the owner's read, the delivery at the recipient's window, the report
(12 R257, R259, 15 R351). -/

namespace Sys2Proof.Machine

def dropLdto (s : State) (id : Nat) : State := { s with ldtos := s.ldtos.filter fun o => o.id != id }
def setLdto (s : State) (id : Nat) (st : LdtoStage) : State :=
  { s with ldtos := s.ldtos.map fun o => if o.id = id then { o with stage := st } else o }

/-- What the owner finds in the source: its bytes, a refusal, or a page that is not ready. -/
inductive OwnerRes where
  | data (bs : List Byte) | refuse (code sub : Nat) | stall (va : Nat) | absent (pa : Nat)
  deriving DecidableEq, Repr

/-- The owner translates and checks the source under the requester's credentials, page by page, and reads it. -/
def ownerRuns (s : State) (ctx core : Nat) : List (Nat × Nat) → OwnerRes
  | [] => .data []
  | (va, n) :: rest =>
    match check s ctx core (va % 2 ^ 64) 1 .r with
    | .fail c sub => .refuse c sub
    | .park _ => if refusedPage s ctx va then .refuse 0x11 5 else .stall va
    | .absent pa => .absent pa
    | .ok t =>
      match farFail s ctx t false, poisoned s t.space t.pa n with
      | some (c, sub), _ => .refuse c sub
      | none, some sub => .refuse 0x15 sub
      | none, none =>
        match ownerRuns s ctx core rest with
        | .data bs => .data ((List.range n).map (fun i => viewByte s t.space (t.pa + i)) ++ bs)
        | r => r

/-- A report of a request, where its group still lives. -/
def ldtoReport (s : State) (o : LdtoOp) (code : Nat) : State :=
  if (mget s.groups o.g).isNone ∨ (s.group o.g).place = .dead then s
  else
    let s1 := if code = 0 then s
      else report s o.g code o.lane (o.ack.isSome.toNat + o.tl * 2) o.pc o.src.toNat ((o.ack.map (·.2)).getD 0) o.ref.toNat
    match o.ack with
    | some (k, seq) => tlDone s1 o.g k seq
    | none => s1

/-- Whether a request or its data have been on the fabric for 4 ms: they have failed (15 R347). -/
def tooLate (s : State) (o : LdtoOp) : Bool := o.sent + 4000000 ≤ s.ns

/-- The owner reads and sends, or refuses; rm falls for the lane. -/
def execOwnerRead (id : Nat) (s : State) : Out :=
  match s.ldtos.find? fun o => o.id == id && o.stage == .owner with
  | none => .next s
  | some o =>
    let core := (s.group o.g).core
    match ownerRuns s o.ctx core (spansOf o.src.toNat o.n) with
    | .data bs =>
      .next (opEnds { s with ldtos := s.ldtos.map fun x => if x.id = id then { x with stage := .delivery bs, sent := s.ns } else x } o.op)
    | .refuse code _ => .next (opEnds (ldtoReport (dropLdto s id) o code) o.op)
    | .stall va => .next (servePage s o.ctx core va .r)
    | .absent pa => .fault (.absentMemory pa)

/-- The window's answer to a delivery: 0 accepted, else a report code of Table 12-18. -/
def windowCode (s : State) (r : Nat) (o : LdtoOp) : Nat :=
  let x := s.group r
  let w := s.win r o.win
  if !w.opened then 1
  else if !(o.ctx == x.ctx || bit w.acc.toNat 31 || (bit w.acc.toNat 30 && w.acc.toNat % 65536 == o.ctx)) then 3
  else if o.off + o.n > w.len then 2 else 0

/-- The last byte of a delivery is placed: the timeline advances, then the barrier is credited, with a credit behind those of channels 0
to 7 of the clock (log 128). -/
def finishDelivery (s : State) (r : Nat) (o : LdtoOp) : State :=
  let w := s.win r o.win
  let s2 := modTl s r w.tl fun x => { x with issued := x.issued + 1, value := x.value + 1 }
  match w.bar with
  | some b => creditBar (stamp s2 r b (placeOf 2 8)) r b o.n
  | none => s2

/-- Whether the barrier of the window has seen events of this clock that come behind the credit (09 R183). -/
def lateCredit (s : State) (r : Nat) (o : LdtoOp) : Bool :=
  match (s.win r o.win).bar with | some b => !inOrder s r b (placeOf 2 8) | none => false

/-- The packets of a delivery, of 128 bytes each. -/
def packetsOf (bs : List Byte) : List Nat := List.range (max 1 ((bs.length + 127) / 128))

/-- One packet of an accepted delivery arrives, whichever of those that are on their way: its bytes are placed, and the last one ends the
delivery (21 R401). -/
def placePacket (s : State) (r : Nat) (o : LdtoOp) (bs : List Byte) (left : List Nat) : State :=
  let (j, s0) : Nat × State := match left with
    | [i] => (i, s)
    | _ => let (x, t) := s.freeWord; (left.getD (x.toNat % left.length) 0, t)
  let rest := left.filter (· != j)
  let s1 := scratchWrite s0 r ((s0.win r o.win).base + o.off + 128 * j) ((bs.drop (128 * j)).take 128)
  if rest.isEmpty then finishDelivery (setLdto s1 o.id (.report 0)) r o else setLdto s1 o.id (.placing bs rest)

/-- The recipient of a request, while it can take anything. -/
def recipient (s : State) (o : LdtoOp) : Option Nat :=
  match o.target with
  | .group c n _ _ =>
    if (s.ctx c).torn then none
    else (groupAt s c n).filter fun r => (s.group r).place != .dead
  | .notify _ => none

/-- A packet of a delivery reaches the recipient's core, or its image; a group that migrates takes it after its move. The first one
decides whether the delivery is accepted (R257, 21 R401). A recipient on another device is checked there, and its answer is that
device's to give (15 R351, log 1); data that do not reach it fail (R347). -/
def execDeliveryArrival (id : Nat) (s : State) : Out :=
  match s.ldtos.find? fun o => o.id == id with
  | none => .next s
  | some o =>
    match o.stage with
    | .delivery bs =>
      (match o.far, recipient s o with
       | some d, _ =>
         if tooLate s o || (chooseStreet s (.peer (BitVec.ofNat 22 d))).isNone then .next (setLdto s id (.report 0x15))
         else let (x, s1) := s.freeWord; .next (setLdto s1 id (.report (x.toNat % 5)))
       | none, none => .next (setLdto s id (.report 4))
       | none, some r =>
         if (s.group r).place = .migrating ∨ lateCredit s r o then .next s
         else
           match windowCode s r o with
           | 0 => .next (placePacket s r o bs (packetsOf bs))
           | c =>
             .next (modWin (setLdto s id (.report c)) r o.win fun w => { w with drop := min (2 ^ 32 - 1) (w.drop + 1) }))
    | .placing bs left =>
      (match recipient s o with
       | none => .next (setLdto s id (.report 4))
       | some r => if (s.group r).place = .migrating ∨ lateCredit s r o then .next s else .next (placePacket s r o bs left))
    | _ => .next s

/-- The delivery report reaches the requester. -/
def execDeliveryReport (id : Nat) (s : State) : Out :=
  match s.ldtos.find? fun o => o.id == id with
  | none => .next s
  | some o =>
    match o.stage with
    | .report code => .next (ldtoReport (dropLdto s id) o code)
    | _ => .next s

end Sys2Proof.Machine
end

