-- ==== Sys2Proof/Machine/Fabric.lean ====
section
/-! DEFINITION. Events of the fabric: requests and answers, resends and failures, links, streets, virtual functions
(15 R333 to R350). -/

namespace Sys2Proof.Machine

/-! ### Requests and answers (R337 to R340) -/

/-- The name operation or the third-party read that a packet carries. -/
def packetName (p : Packet) : Option Nat := p.parts.findSome? fun x => match x.2.2 with | .name op => some op | _ => none
def packetThird (p : Packet) : Option Nat := p.parts.findSome? fun x => match x.2.2 with | .third id => some id | _ => none

/-- The performed answers of a stream at its destination. -/
def keepAnswer (s : State) (p : Packet) (a : PktAns) : State :=
  answerPacket (s.modRemote p.dest fun r =>
    let x := rstream r p.g p.w
    setRStream r { x with performed := x.performed ++ [(p.seq.toNat, a)] }) p.id a

/-- A name operation reaches the device of its target, which applies those of one stream in stream sequence and gives its status
(R340, log 1); a third-party read reaches its owner (R351). -/
def arriveCarrier (s : State) (p : Packet) : State :=
  let r := s.remote p.dest
  let x := rstream r p.g p.w
  let early : Bool := (packetName p).isSome && s.packets.any fun z =>
    z.g == p.g && z.w == p.w && z.dest == p.dest && (packetName z).isSome && z.id < p.id && !performed x z
  if p.gen < heldGen r p.fn ∨ !allowed s p false ∨ early then s
  else
    match x.performed.find? fun y => y.1 == p.seq.toNat with
    | some y => answerPacket s p.id y.2
    | none =>
      match packetThird p with
      | some id => keepAnswer (setLdto s id .owner) p (.status 0)
      | none => let (v, s1) := s.freeWord; keepAnswer s1 p (.status (v.toNat % 3))

/-- Whether a packet is on its way: one that is lost or older than 500 µs no longer is (R348). -/
def underWay (s : State) (p : Packet) : Bool := !p.lost && !p.reached && s.ns ≤ p.sent + 500000

/-- Whether an earlier packet of the same street is still on its way: packets of a street arrive in the order sent (R336). -/
def streetBehind (s : State) (p : Packet) : Bool :=
  s.packets.any fun q => q.dest == p.dest && q.street == p.street && q.ord < p.ord && underWay s q

/-- A request arrives at its node or peer, or is looked at again where it waits there. -/
def execRemoteRequestArrival (id : Nat) (s : State) : Out :=
  match s.packets.find? fun p => p.id == id with
  | none => .next s
  | some p =>
    if !(p.reached || underWay s p) || streetBehind s p then .next s
    else
      let s1 := { s with
        packets := s.packets.map fun q => if q.id = id then { q with reached := true } else q
        allowances := s.allowances.map fun a =>
          if a.dest = p.dest ∧ a.fn = p.fn ∧ a.gen = p.gen ∧ a.g = p.g ∧ a.w = p.w ∧ !a.reply then { a with used := s.ns } else a }
      .next (if (packetName p).isSome || (packetThird p).isSome then arriveCarrier s1 p else arrive s1 p)

/-- The answer of a target's device to a name operation: a probe's word, or a status, of a cancel 0 or 1 (11 R223). -/
def nameAnswered (s : State) (o : NameOp) (n : Nat) : State :=
  match o.status with
  | some w => let x := farProbe s (!o.probe) w; nameStatus x.2 o x.1
  | none => nameStatus s o (BitVec.ofNat 32 (if o.cancel then n % 2 else n))

/-- A join has reached its target's device: it ends once that device has answered for the target (log 1). -/
def joinAnswered (s : State) (j : JoinOp) : State :=
  let r := farJoin s j
  { r.2 with joins := r.2.joins.map fun x => if x.id = j.id then { x with result := some r.1 } else x }

/-- Lanes of a JTAB fail: none transfers (02 R25), and its other packets are of no use. -/
def failJtab (s : State) (a : Access) (ps : List Packet) (cause sub : Nat) : State :=
  let fs := (ps.flatMap (packetLanes s)).map fun o => (⟨(o.lane, a.w), cause, sub, o.addr⟩ : LaneFail)
  let s1 := jtabTrap s a.joint fs []
  (s.packets.filter fun q => s.accesses.any fun x => x.id == q.acc && x.kind == .jtab && x.joint == a.joint).foldl (fun s q => dropPacket s q.id) s1

/-- Packets of one access fail together. -/
def failAccess (s : State) (ps : List Packet) (refused : Bool) : State :=
  match ps.head?.bind fun p => s.accesses.find? fun a => a.id == p.acc && a.kind == .jtab with
  | some a => failJtab s a ps (if refused then 0x12 else 0x15) (if refused then 1 else 3)
  | none => failPackets s ps refused

/-- An answer that is dropped on its way: the request is sent again (R347). -/
def loseAnswer (s : State) (id : Nat) : State :=
  { s with packets := s.packets.map fun q => if q.id = id then { q with answer := none, lost := true, reached := false } else q }

/-- An answer returns to its source, not in the clock in which it was made, and frees its buffer slot. One whose reservation has lapsed
is dropped (R349), and so is one that is older than 500 µs (R348). -/
def execRemoteAnswerArrival (id : Nat) (s0 : State) : Out :=
  match s0.packets.find? fun p => p.id == id with
  | none => .next s0
  | some p =>
    if p.answer.isNone ∨ p.doneAt = some s0.clock then .next s0
    else if !allowed s0 p true ∨ p.replied + 500000 < s0.ns then .next (loseAnswer s0 id)
    else
      let s := freeReplySlot s0 p.dest p.street
      match p.answer, packetName p with
      | some (.status n), some op =>
        let s1 := dropPacket s id
        (match s.nameOps.find? (fun o => o.id == op), s.joins.find? (fun j => j.id == op) with
         | some o, _ => .next (sendWave (nameAnswered (dropName s1 op) o n) p.g p.w)
         | none, some j => .next (sendWave (joinAnswered s1 j) p.g p.w)
         | none, none => .next (sendWave s1 p.g p.w))
      | some .refused, _ => .next (failAccess s [p] true)
      | _, _ =>
        let s1 := answered s p
        .next (if s1.accesses.any (fun a => a.id == p.acc && a.kind == .jtab) then jtabProgress s1 p.acc else s1)

/-! ### Resends and failures (R347, R348) -/

/-- A request without an answer after 64 µs, or whose link has left Up, is sent again within 4 ms of its first send, once its street
has a free slot. The event names the street that R336 and R347 give. -/
def execResendTimeout (id : Nat) (street : BitVec 2) (s : State) : Out :=
  match s.packets.find? fun p => p.id == id with
  | none => .next s
  | some p =>
    let n := street.toNat
    let due := p.sent + 64000 ≤ s.ns || p.lost || !usable s p.dest p.street
    if !due ∨ p.first + 4000000 ≤ s.ns ∨ resendStreet s p ≠ some n ∨ !hasSlot s p.dest n then .next s
    else
      let again (q : Packet) : Packet :=
        if q.id = id then { q with street := n, sent := s.ns, lost := false, ord := s.nextId, reached := false } else q
      let s1 := spendSlot { s with packets := s.packets.map again, nextId := s.nextId + 1 } p.dest n
      .next (if p.gen = fnGen s p.fn then useAllow s1 p.dest p.fn p.gen p.g p.w else s1)

/-- A name operation whose request fails: status 3, or NAME_UNBOUND under .trap; a probe writes the word of an unbound reference
(08 R174). -/
def failName (s : State) (o : NameOp) : State :=
  match o.trap, o.sender with
  | true, .thread g w l =>
    let s1 := opEnds (dropName s o.id) o.op
    if (s1.thread g w l).st = .exited then s1
    else takeTrap s1 g { cause := 0x18, lanes := [(l, w)], pc := o.pc, word := o.word }
  | _, _ => nameStatus (dropName s o.id) o (if o.status.isSome then 0 else 3)

/-- A join whose request fails, likewise; its lane is no longer parked in it. -/
def failJoin (s : State) (j : JoinOp) : State :=
  match j.trap, j.sender with
  | true, .thread g w l =>
    let s1 := opEnds { s with joins := s.joins.filter fun x => x.id != j.id } j.op
    let s2 := s1.modThread g w l fun t =>
      if t.joinOp = some j.id ∧ t.st = .parkedJoin then { t with st := .ready, joinOp := none, pc := j.pc } else t
    if (s1.thread g w l).st = .exited then s1
    else takeTrap s2 g { cause := 0x18, lanes := [(l, w)], pc := j.pc, word := j.word }
  | _, _ => endJoin s j none 3

/-- A third-party request fails before its owner has it: the report of R351. -/
def failThird (s : State) (id : Nat) : State :=
  match s.ldtos.find? fun o => o.id == id && o.stage == .request with
  | none => s
  | some o => opEnds (ldtoReport (dropLdto s id) o 0x15) o.op

/-- Requests of one access fail, or one that carries a name operation, a join or a third-party read. -/
def failRequests (s : State) (p : Packet) (ps : List Packet) : State :=
  match packetName p, packetThird p with
  | some op, _ =>
    let s1 := dropPacket s p.id
    sendWave (match s.nameOps.find? (fun o => o.id == op), s.joins.find? (fun j => j.id == op) with
      | some o, _ => failName s1 o
      | none, some j => failJoin s1 j
      | none, none => s1) p.g p.w
  | none, some id => sendWave (failThird (dropPacket s p.id) id) p.g p.w
  | none, none => failAccess s ps false

/-- The packets of a request's access that have failed with it: 4 ms after the first send, or without a usable street (R347). -/
def failedWith (s : State) (p : Packet) : List Packet :=
  s.packets.filter fun q => q.acc == p.acc && q.acc != 0 && q.dest == p.dest && q.answer.isNone &&
    (q.first + 4000000 ≤ s.ns || (chooseStreet s q.dest).isNone)

/-- A request without an answer 4 ms after its first send has failed, or one with no usable street. -/
def execRequestFail (id : Nat) (s : State) : Out :=
  match s.packets.find? fun p => p.id == id with
  | none => .next s
  | some p =>
    if s.ns < p.first + 4000000 ∧ (chooseStreet s p.dest).isSome then .next s
    else .next (failRequests s p (p :: (failedWith s p).filter fun q => q.id != p.id))

/-- Requests that are left without a usable street have failed (R347). -/
def sweepFabric (s : State) : State :=
  (s.packets.filter fun p => p.answer.isNone && (chooseStreet s p.dest).isNone).foldl (fun s p =>
    if s.packets.any (fun q => q.id == p.id) then failRequests s p (p :: (failedWith s p).filter fun q => q.id != p.id) else s) s

/-- A cellar node discards a packet, a request or an answer, older than 500 µs: its source sees only that no answer comes. -/
def execPacketAgeDiscard (id : Nat) (s : State) : Out :=
  .next { s with packets := s.packets.map fun p =>
    if p.id = id ∧ p.sent + 500000 < s.ns ∧ p.answer.isNone ∧ !p.reached then { p with lost := true }
    else if p.id = id ∧ p.answer.isSome ∧ p.replied + 500000 < s.ns then { p with answer := none, lost := true, reached := false }
    else p }

/-! ### Links (R341 to R346) -/

/-- A packet is lost with its street, and with it the answer, which a request that is sent again gets anew (R347, log 1). -/
def losePacket (p : Packet) : Packet := { p with lost := true, answer := none }

/-- Packets on a link that leaves Up are lost with it. -/
def loseLink (s : State) (n : Nat) : State :=
  { s with packets := s.packets.map fun p =>
      if ((streetsOf s p.dest)[p.street]?).any fun x => x.1 == n then losePacket p else p }

/-- EN written 1: the counts are cleared, and a link that is Down trains. -/
def execLinkEnable (n : BitVec 5) (s : State) : Out :=
  if s.phase = 3 then .next s
  else .next (s.modLink n.toNat fun l =>
    { l with en := true, rtrn := 0, rply := 0, tagf := 0, state := if l.state = 0 then 1 else l.state, since := if l.state = 0 then s.ns else l.since })

/-- EN written 0: the link goes Down, and its packets are lost as when it fails. -/
def execLinkDisable (n : BitVec 5) (s : State) : Out :=
  if s.phase = 3 then .next s
  else .next ((loseLink s n.toNat).modLink n.toNat fun l => { l with en := false, state := 0, retrains := [], replays := 0 })

/-- The third retrain within 1 s fails its link (Table 15-2). -/
def thirdRetrain (s : State) (l : Link) : Bool := 3 ≤ (l.retrains.filter fun t => s.ns ≤ t + 1000000000).length

/-- A link that has trained. -/
def trainUp (l : Link) (node : BitVec 22) (port : BitVec 7) (limReq limRep : BitVec 16) (salt : Word) : Link :=
  { l with state := 2, node := node.toNat, port := port.toNat, limReq := min limReq.toNat 4096, limRep := min limRep.toNat 4096, salt := salt,
           keys := l.keys + 1, txSlot := 0, rxSlot := 0, replays := 0 }

/-- Training is complete: the far end, the slot limits and the salt of the new keys, with which both slot counters start at 0 (R343);
waiting packets may go. -/
def execLinkTrained (n : BitVec 5) (node : BitVec 22) (port : BitVec 7) (limReq limRep : BitVec 16) (salt : Word) (s : State) : Out :=
  let l := s.link n.toNat
  let up (re : Bool) : State := s.modLink n.toNat fun l =>
    trainUp { l with rtrn := if re then min 255 (l.rtrn + 1) else l.rtrn } node port limReq limRep salt
  if l.state = 1 ∧ s.ns ≤ l.since + 100000000 then .next (sendAll (up false))
  else if l.state = 3 ∧ s.ns ≤ l.since + 10000000 then
    (if thirdRetrain s l then .next ((loseLink s n.toNat).modLink n.toNat fun l => { l with state := 4 }) else .next (sendAll (up true)))
  else .next s

/-- Training that is not done within 100 ms fails the link. -/
def execLinkTrainingTimeout (n : BitVec 5) (s : State) : Out :=
  let l := s.link n.toNat
  if l.state = 1 ∧ l.since + 100000000 ≤ s.ns then .next (s.modLink n.toNat fun l => { l with state := 4 }) else .next s

/-- A retrain starts: the link's streets are unusable. -/
def startRetrain (s : State) (n : Nat) : State :=
  if (s.link n).state = 2 then (loseLink s n).modLink n fun l => { l with state := 3, since := s.ns, retrains := l.retrains ++ [s.ns] } else s

/-- Eight replays of one group, or a lane without lock, start a retrain. -/
def execLinkRetrain (n : BitVec 5) (s : State) : Out := .next (startRetrain s n.toNat)

/-- A retrain that is not done within 10 ms, or the third within 1 s, fails the link. -/
def execRetrainTimeout (n : BitVec 5) (s : State) : Out :=
  let l := s.link n.toNat
  if l.state = 3 ∧ (l.since + 10000000 ≤ s.ns ∨ thirdRetrain s l) then .next ((loseLink s n.toNat).modLink n.toNat fun l => { l with state := 4 })
  else .next s

/-- A cumulative return of slots, where it is accepted (R346). -/
def takeReturn (l : Link) (rep : Bool) (c : BitVec 16) : Link :=
  if rep then (if (c - l.retRep).toNat ≤ (l.sentRep - l.retRep).toNat then { l with retRep := c } else l)
  else (if (c - l.retReq).toNat ≤ (l.sentReq - l.retReq).toNat then { l with retReq := c } else l)

/-- A copy whose bytes have failed their check stops: what a poisoned source byte does (12 R262, 15 R345). -/
def stopDelivered (s : State) (g o : Nat) : State :=
  (s.group g).wps.foldl (fun s c =>
    match headCopy s g c.1 with
    | some h => if h.kind ≠ .cpys ∧ h.first ≤ o ∧ o < (s.chan g c.1).ptr ∧ !h.ops.isEmpty then stopCopy s g c.1 h 0x15 3 (BitVec.ofNat 64 o) else s
    | none => s) s

/-- A delivery whose bytes have failed their check is reported with DATA_POISON (12 R259, 15 R345). -/
def reportDelivered (s : State) (g o : Nat) : State :=
  { s with ldtos := s.ldtos.map fun x =>
      let w := s.win g x.win
      let stood : Bool := match x.stage with
        | .report c => c == 0
        | .placing _ left => !left.contains ((o - (w.base + x.off)) / 128)
        | _ => false
      if stood ∧ recipient s x = some g ∧ w.base + x.off ≤ o ∧ o < w.base + x.off + x.n then { x with stage := .report 0x15 } else x }

/-- Bytes that skid mode released before a check that fails are poisoned; copies and deliveries that placed them stop or are
reported (R345). A read made before this had the unchecked bytes. -/
def poisonReleased (s : State) (x : Nat × Nat) : State :=
  match x.1 with
  | 0 => { s with poison := (x.2, 3) :: s.poison.filter fun l => l.1 != x.2 }
  | g + 1 =>
    reportDelivered (stopDelivered (s.modGroup g fun y =>
      { y with scratchPoison := (x.2, 3) :: y.scratchPoison.filter fun p => p.1 != x.2 }) g x.2) g x.2

/-- A group of five flits is received (R343, R344): its tag is checked; a group that fails is replayed, its return discarded, and the
eighth replay retrains the link. In containment mode no byte of it was released; in skid mode those that were are poisoned. -/
def execFlitGroupReceive (n : BitVec 5) (tagOk : Bool) (released : List (Nat × Nat)) (ret : Option (Bool × BitVec 16)) (s : State) : Out :=
  let l := s.link n.toNat
  if l.state ≠ 2 then .next s
  else if tagOk then
    let s1 := s.modLink n.toNat fun l =>
      let l1 := { l with rxSlot := l.rxSlot + groupSlots, replays := 0 }
      match ret with | some (rep, c) => takeReturn l1 rep c | none => l1
    .next (if ret.isSome then sendAll s1 else s1)
  else
    let s1 := s.modLink n.toNat fun l =>
      { l with rxSlot := l.rxSlot + groupSlots, replays := l.replays + 1, rply := min (2 ^ 32 - 1) (l.rply + 1), tagf := min (2 ^ 32 - 1) (l.tagf + 1) }
    let s2 := if l.mode then released.foldl poisonReleased s1 else s1
    .next (if 8 ≤ l.replays + 1 then startRetrain s2 n.toNat else s2)

/-- A node on a street's route reports the street failed (R335, R342). -/
def execStreetFailureReport (cls : BitVec 16) (street : BitVec 2) (s : State) : Out :=
  let k := (cls.toNat, street.toNat)
  .next { s with
    deadStreets := if s.deadStreets.contains k then s.deadStreets else s.deadStreets ++ [k]
    packets := s.packets.map fun p => if routeClass p.dest = k.1 ∧ p.street = k.2 then losePacket p else p }

/-! ### Allowances and virtual functions (R349, R350) -/

def execAllowanceLapse (id : Nat) (s : State) : Out :=
  .next { s with allowances := s.allowances.filter fun a => !(a.id == id && a.used + 1000000 ≤ s.ns) }

def modVf (s : State) (fn : Nat) (f : VFn → VFn) : State := { s with vfs := mput s.vfs fn (f (mgetD s.vfs fn {})) }

/-- Teardown starts: the context stops issuing and the generation rises. -/
def execVfTeardown (fn : BitVec 8) (s : State) : Out :=
  let v := mgetD s.vfs fn.toNat {}
  match v.ctx with
  | none => .next s
  | some c =>
    if v.tearing.isSome then .next s
    else .next (modVf ((haltCtx s c).modCtx c fun c => { c with torn := true }) fn.toNat fun v =>
      { v with gen := v.gen + 1, tearing := some s.ns, noticed := [] })

/-- A destination learns a function's new generation, and discards what carries a lower one. -/
def execGenerationNotice (d : Dest) (fn : BitVec 8) (s : State) : Out :=
  let v := mgetD s.vfs fn.toNat {}
  if v.tearing.isNone then .next s
  else
    .next (modVf (s.modRemote d fun r => { r with gens := mput r.gens fn.toNat (max (heldGen r fn.toNat) v.gen.toNat) }) fn.toNat fun v =>
      { v with noticed := if v.noticed.contains d then v.noticed else v.noticed ++ [d] })

/-- Teardown is complete 1 ms after it started: what the old generation held has lapsed, and the function may be assigned. -/
def execTeardownComplete (fn : BitVec 8) (s : State) : Out :=
  let v := mgetD s.vfs fn.toNat {}
  match v.tearing with
  | none => .next s
  | some t =>
    if s.ns < t + 1000000 then .next s
    else
      let s1 := match v.ctx with | some c => s.modCtx c fun c => { c with fn := none } | none => s
      let s2 := { s1 with allowances := s1.allowances.filter fun a => !(a.fn == fn.toNat && a.gen < v.gen.toNat) }
      .next (modVf s2 fn.toNat fun v => { v with tearing := none, ctx := none })

end Sys2Proof.Machine
end

