-- ==== Sys2Proof/Machine/Ports.lean ====
section
/-! DEFINITION. Name operations from harts and from the host, notify registers, and the accesses of the cluster and of the host's
coherence (08 R177 to R179, 16 R364, R368 to R370). -/

namespace Sys2Proof.Machine

/-- The hub looks a name up by a walk: it is no die, and has no name TLB. -/
def hubDie : Nat := 4

/-! ### Xsknm (R177) -/

/-- The context whose name space a hart may use: bound, and below M mode. -/
def hartSpace (s : State) (h : Nat) : Option Nat := if (s.hart h).mode = .m then none else (s.hart h).bound

/-- An operation that a hart or a name port sends. -/
def hubOp (s : State) (sender : Sender) (op : Nat) (act : NameAct) (ref : DWord) (trap : Bool) (f : Option (Found × Target × Option Nat))
    (status : Option Word) : NameOp :=
  let e := (f.map fun x => x.1.entry).getD 0
  { id := 0, sender := sender, op := op, act := act, target := f.map (·.2.1), remote := f.bind (·.2.2), dst := .null, status := status,
    trap := trap, pc := 0, word := 0, vfirst := e / 2 ^ 64 % 256, sfirst := e / 2 ^ 77 % 64, ref := ref, asked := s.ns }

/-- The name instructions of a hart: an exception, or an operation for whose status the hart waits. -/
def hartName (s : State) (trap grp : Bool) (rs1 rd : BitVec 5) (act : NameAct) : Out :=
  let h := s.cur.hart
  let r := rdX s h rs1.toNat
  match hartSpace s h with
  | none => .next (hartTrap s h 2 (s.cur.word.truncate 64))
  | some ctx =>
    let wait (o : NameOp) : State := (postName s o).modHart h fun y => { y with stall := some s.nextId }
    match nameCheck s hubDie ctx r grp trap act with
    | .trap _ _ => .next (hartTrap s h 7 r)
    | .status n => .next (wait (hubOp s (.hart h) rd.toNat act r trap none (some (BitVec.ofNat 32 n))))
    | .go f t rem => .next (wait (hubOp s (.hart h) rd.toNat act r trap (some (f, t, rem)) none))

def execNwake (trap grp : Bool) (rs1 rd : BitVec 5) (s : State) : Out := hartName s trap grp rs1 rd .wake
def execNsig (trap grp : Bool) (rs1 rd : BitVec 5) (s : State) : Out := hartName s trap grp rs1 rd .signal
def execNdep (trap grp : Bool) (slot rs2 rs1 rd : BitVec 5) (s : State) : Out :=
  hartName s trap grp rs1 rd (.deposit slot ((rdX s s.cur.hart rs2.toNat).truncate 32))

/-- NJOIN stalls its hart until the join completes. -/
def execNjoin (trap grp : Bool) (rs1 rd : BitVec 5) (s : State) : Out :=
  let h := s.cur.hart
  let r := rdX s h rs1.toNat
  match hartSpace s h with
  | none => .next (hartTrap s h 2 (s.cur.word.truncate 64))
  | some ctx =>
    let base : JoinOp :=
      { id := s.nextId, sender := .hart h, op := 0, target := .notify 0, dst := .null, sdst := .null, rd := rd.toNat, result := none,
        parked := false, notify := none, trap := trap, ref := r, asked := s.ns }
    let wait (j : JoinOp) : State :=
      ({ s with nextId := s.nextId + 1, joins := s.joins ++ [j] }).modHart h fun y => { y with stall := some s.nextId }
    match joinCheck s hubDie ctx r grp trap with
    | .trap _ _ => .next (hartTrap s h 7 r)
    | .now v st => .next (wait { base with result := some (v, st) })
    | .wait t n => .next (wait { base with target := t, parked := true, notify := n })
    | .late t v => .next (wait { base with target := t, parked := true, result := some (some v, 0) })
    | .far t dev => .next (wait { base with target := t, parked := true, remote := some dev })

/-- An interrupt that a hart takes while NJOIN stalls it abandons the join; xepc stays at NJOIN. Which interrupt it is, is free. -/
def execHartInterrupt (h : BitVec 5) (s : State) : Out :=
  let y := s.hart h.toNat
  match y.stall with
  | none => .next s
  | some id =>
    if s.joins.any fun j => j.id == id then
      let (c, s1) := s.freeWord
      .next ({ s1 with joins := s1.joins.filter fun j => j.id != id }.modHart h.toNat fun y =>
        enterHart y (if y.mode = HMode.m then HMode.m else HMode.hs) (c.zeroExtend 64 ||| 0x8000000000000000) 0)
    else .next s

/-! ### Name port pages (R179, Table 8-11) -/

/-- The name space of a port page: that of its function's context. -/
def portSpace (s : State) (fn : Nat) : Option Nat := (mgetD s.vfs fn {}).ctx

def portRej (s : State) (fn k : Nat) : State := modPort s fn k fun p => { p with rej := true }

/-- A command written while BUSY, or while the part answers only its start registers, has no other effect (16 R374). -/
def portCommand (fn k : BitVec 8) (s : State) (f : State → Nat → Nat → DWord → State) : Out :=
  let p := s.port fn.toNat k.toNat
  if s.phase = 3 then .next s
  else if p.busy then .next (portRej s fn.toNat k.toNat) else .next (f s fn.toNat k.toNat p.npref)

def portBusy (s : State) (fn k : Nat) (join : Bool) : State := modPort s fn k fun p => { p with busy := true, joining := join }

/-- A wake, signal or deposit of a port; every failure shows in STATUS. -/
def portName (s : State) (fn k : Nat) (r : DWord) (grp : Bool) (act : NameAct) : State :=
  match portSpace s fn with
  | none => portDone s fn k 3 none
  | some ctx =>
    match nameCheck s hubDie ctx r grp false act with
    | .trap _ _ => portDone s fn k 7 none
    | .status n => portDone s fn k n none
    | .go f t rem => postName (portBusy s fn k false) (hubOp s (.port fn k) 0 act r false (some (f, t, rem)) none)

def execNamePortWake (fn k : BitVec 8) (grp : Bool) (s : State) : Out :=
  portCommand fn k s fun s fn k r => portName s fn k r grp .wake
def execNamePortSignal (fn k : BitVec 8) (grp : Bool) (s : State) : Out :=
  portCommand fn k s fun s fn k r => portName s fn k r grp .signal
def execNamePortDeposit (fn k : BitVec 8) (grp : Bool) (slot : BitVec 5) (s : State) : Out :=
  portCommand fn k s fun s fn k r =>
    portName s fn k r grp (.deposit slot (s.port fn k).npval)

def portJoin (s : State) (fn k : Nat) (j : JoinOp) : State :=
  portBusy { s with nextId := s.nextId + 1, joins := s.joins ++ [j] } fn k true

/-- A join of a port keeps BUSY set while it waits. -/
def execNamePortJoin (fn k : BitVec 8) (grp : Bool) (s : State) : Out :=
  portCommand fn k s fun s fn k r =>
    match portSpace s fn with
    | none => portDone s fn k 3 none
    | some ctx =>
      let base : JoinOp :=
        { id := s.nextId, sender := .port fn k, op := 0, target := .notify 0, dst := .null, sdst := .null, rd := 0, result := none,
          parked := true, notify := none, ref := r, asked := s.ns }
      match joinCheck s hubDie ctx r grp false with
      | .trap _ _ => portDone s fn k 7 none
      | .now v st => portDone s fn k st v
      | .wait t n => portJoin s fn k { base with target := t, notify := n }
      | .late t v => portJoin s fn k { base with target := t, result := some (some v, 0) }
      | .far t dev => portJoin s fn k { base with target := t, remote := some dev }

def execNamePortProbe (fn k : BitVec 8) (grp : Bool) (s : State) : Out :=
  portCommand fn k s fun s fn k r =>
    match portSpace s fn with
    | none => portDone s fn k 3 (some 0)
    | some ctx =>
      match nameFound s hubDie ctx r .probe false, probeWord s hubDie ctx r grp false with
      | .inl (.status n), _ => portDone s fn k n (some 0)
      | _, .inl _ => portDone s fn k 7 none
      | _, .inr w =>
        match probeFar s hubDie ctx r false with
        | some dev => if farLost s dev s.ns then portDone s fn k 3 (some 0) else let x := farProbe s grp w; portDone x.2 fn k 0 (some x.1)
        | none => portDone s fn k 0 (some w)

/-- OP 0 cancels a waiting join with STATUS 3, and sets REJ at any other time. -/
def execNamePortCancel (fn k : BitVec 8) (s : State) : Out :=
  let p := s.port fn.toNat k.toNat
  if s.phase = 3 then .next s
  else if p.busy ∧ p.joining then
    .next (portDone { s with joins := s.joins.filter fun j => j.sender != .port fn.toNat k.toNat } fn.toNat k.toNat 3 none)
  else .next (portRej s fn.toNat k.toNat)

def execNamePortBadOp (fn k : BitVec 8) (s : State) : Out := if s.phase = 3 then .next s else .next (portRej s fn.toNat k.toNat)

/-- A write to WAKE of a notify register clears the bits that it holds as ones. -/
def execNotifyWakeClear (i : BitVec 12) (v : BitVec 16) (s : State) : Out :=
  if s.phase = 3 then .next s
  else .next { s with notifies := mput s.notifies i.toNat (wakeClear s (mgetD s.notifies i.toNat {}) v) }

/-! ### Memory accesses of harts, and snoops (16 R364, R368) -/

/-- A write of the cluster or of the host to local memory. -/
def outerWrite (s : State) (pa : Nat) (bs : List Byte) : State := unpoison (s.memoryWrite .hbm pa bs) .hbm pa bs.length

/-- A load (kind 0), store (1), fetch (2) or AMO (3, with the value that it writes) of a hart: regions of code weights raise an
access fault. What a load brings to a register is the base instruction set's. -/
def execHartMemoryAccess (h : BitVec 5) (kind : BitVec 2) (addr : DWord) (w : Width) (data : DWord) (s : State) : Out :=
  let a := addr.toNat
  if !hartRuns s h.toNat then .next s
  else if hbmSize < a + w.bytes then .fault (.absentMemory a)
  else if sealCode s a = 1 ∨ sealCode s (a + w.bytes - 1) = 1 then
    .next (hartTrap s h.toNat (match kind.toNat with | 0 => 5 | 2 => 1 | _ => 7) addr)
  else if kind = 1 ∨ kind = 3 then .next (outerWrite s a ((toBytes 16 data.toNat).take w.bytes))
  else .next s

/-- A coherence request for a host line that the device holds: the model keeps the bytes of coherent host lines at home, so
nothing changes (12 R229). -/
def execCxlCacheSnoop (_addr : DWord) (_invalidate : Bool) (s : State) : Out := .next s

end Sys2Proof.Machine
end

