-- ==== Sys2Proof/Machine/Host.lean ====
section
/-! DEFINITION. The host port: the rest of the firmware mailbox, start and stop, the ring registers, register writes, host
accesses to local memory, identity, monitors (16 R363 to R379; 14 Table 14-16; 15 R334, R349, R353). -/

namespace Sys2Proof.Machine

/-! ### Mailbox commands (Table 16-3) -/

def ctxLoaded (s : State) (c : Nat) : Bool := (mget s.ctxs c).isSome && (s.ctx c).state != .killing

/-- Command 6: an NJOIN that stalls the hart completes with status 3 before the binding changes; context 0 unbinds. -/
def execBindHart (h : BitVec 5) (ctx : BitVec 16) (s : State) : Out :=
  mailbox 6 s fun s =>
    if ctx ≠ 0 ∧ !ctxLoaded s ctx.toNat then (s, 2)
    else
      let s1 := match s.joins.find? fun j => j.sender == .hart h.toNat with
        | some j => endJoin s j none 3
        | none => s
      (s1.modHart h.toNat fun y => { y with bound := if ctx = 0 then none else some ctx.toNat }, 0)

/-- Command 7: the grant list of a region of a node, or of local memory for peers (15 R334). -/
def execGrantList (owner : Option (BitVec 22)) (region : BitVec 20) (list : List Grantee) (s : State) : Out :=
  mailbox 7 s fun s =>
    if 16 < list.length then (s, 2)
    else
      match owner with
      | none =>
        if 3072 ≤ region.toNat then (s, 2) else ({ s with peerGrants := mput s.peerGrants region.toNat list }, 0)
      | some n =>
        if 24576 ≤ region.toNat then (s, 2)
        else (s.modRemote (.node n) fun r => { r with grants := mput r.grants region.toNat list }, 0)

/-- Command 8: a registration of the network engine (15 R353). -/
def execRegistration (ctx : BitVec 16) (idx : BitVec 12) (r : Registration) (s : State) : Out :=
  mailbox 8 s fun s =>
    let bad : Bool := match r with | .ring _ _ k _ _ _ => 12 < k.toNat | _ => false
    if !ctxLoaded s ctx.toNat ∨ bad then (s, 2)
    else
      (s.modCtx ctx.toNat fun c =>
        { c with regs := match r with
            | .none => mdel c.regs idx.toNat
            | .region .. => mput c.regs idx.toNat r
            | .ring tag base k cc _ _ => mput c.regs idx.toNat (.ring tag base k cc 0 0) }, 0)

/-- Command 9: the host driver supplies a page that a request waits for, by its new entry and the host-physical address from
which it is copied (log 32), or refuses it (12 R228, R243). -/
def execResidenceAnswer (ctx : BitVec 16) (va : DWord) (supply : Option (BitVec 128 × DWord)) (s : State) : Out :=
  mailbox 9 s fun s => match answerResidence s ctx.toNat va.toNat supply with | some t => (t, 0) | none => (s, 2)

/-- Command 10: the seal code of a 2 MiB region and its host-writable mark; at most 96 GiB of sandbox (R365, R368). -/
def execSealRegion (region : BitVec 19) (code : BitVec 2) (hostWritable : Bool) (s : State) : Out :=
  mailbox 10 s fun s =>
    let r := region.toNat
    let others := (s.sealMap.filter fun x => x.2 == 2 && x.1 != r).length
    if code = 3 ∨ 393216 ≤ r ∨ (code = 2 ∧ 49152 ≤ others) then (s, 2)
    else
      ({ s with sealMap := msetD s.sealMap r code.toNat 0
                hostWritable := (s.hostWritable.filter (· < r)) ++ (if hostWritable then [r] else []) ++ s.hostWritable.filter (r < ·) }, 0)

/-- The first `n` bytes of a list, zeros beyond its end. -/
def fit (n : Nat) (bs : List Byte) : List Byte := (List.range n).map fun i => bs.getD i 0

/-- The image of the control processor (0) or of the cluster (1). -/
def firmwareAt (s : State) (i : Nat) : Firmware := s.firmware.getD i { image := i + 1 }

/-- The report of Table 16-9 and its signature. -/
def attestBody (s : State) (nonce : BitVec 256) : List Byte :=
  toBytes 32 nonce.toNat ++ fit 64 (Config.digest 0) ++ fit 64 (Config.digest (firmwareAt s 0).image) ++
    fit 64 (Config.digest (firmwareAt s 1).image) ++
    fit 64 (Config.sealDigest s.sealMap s.hostWritable) ++ toBytes 4 s.fusedMin ++ toBytes 4 0

/-- Command 11, which a part answers in every phase. -/
def execAttest (nonce : BitVec 256) (s : State) : Out :=
  mbTake 11 s fun s =>
    let b := attestBody s nonce
    mbStatusIs { s with mbReply := b ++ fit 114 (Config.identitySignature b) } 0

/-- Command 12: the 64 completion counters of a context (15 R357). -/
def execReadCounters (ctx : BitVec 16) (s : State) : Out :=
  mailbox 12 s fun s =>
    if !ctxLoaded s ctx.toNat then (s, 2)
    else ({ s with mbReply := (List.range 64).flatMap fun i => toBytes 8 (ccOf s ctx.toNat i) }, 0)
where
  ccOf (s : State) (c i : Nat) : Nat := mgetD (s.ctx c).cc i 0

/-- Command 13: a context runs under one virtual function; one that is torn down is assigned again only afterwards. -/
def execAssignFunction (fn : BitVec 8) (ctx : BitVec 16) (s : State) : Out :=
  mailbox 13 s fun s =>
    let v := mgetD s.vfs fn.toNat {}
    if fn = 0 ∨ !ctxLoaded s ctx.toNat ∨ v.tearing.isSome ∨ v.ctx.isSome ∨ (s.ctx ctx.toNat).fn.isSome then (s, 2)
    else ((modVf s fn.toNat fun v => { v with ctx := some ctx.toNat }).modCtx ctx.toNat fun c => { c with fn := some fn.toNat, torn := false }, 0)

/-- Command 14 fuses a higher minimum whose signature verifies (R375). -/
def execRaiseSecurityFloor (min : Word) (sigOk : Bool) (s : State) : Out :=
  mailbox 14 s fun s => if sigOk ∧ s.fusedMin < min.toNat then ({ s with fusedMin := min.toNat }, 0) else (s, 2)

/-! ### Start and stop (R371 to R374) -/

/-- The step of Table 16-8 that fails with a code; none for a code that no step of the column gives. -/
def failStep (cold : Bool) (code : Nat) : Option Nat :=
  if code = 0x10 then some 1
  else if code = 0x11 ∨ code = 0x12 then some 2
  else if 0x20 ≤ code ∧ code ≤ 0x2B then some 3
  else if code = 0x30 ∧ cold then some 4
  else if code = 0x40 then some 6
  else if code = 0x41 ∧ cold then some 7
  else none

/-- One record for each step that ran; the step's detail word is open (log 1). -/
def logStart (s : State) (cold : Bool) (upto result : Nat) : State :=
  let steps := if cold then [1, 2, 3, 4, 5, 6, 7] else [1, 2, 3, 5, 6]
  let (w, s1) := s.freeWord
  let recs := (steps.filter (· ≤ upto)).map fun n => (n, if n = upto then result else 0, s.clock, (w.toNat + n) % 2 ^ 64)
  let all := s.startLog ++ recs
  { s1 with startLog := all.drop (all.length - 64) }

/-- Link training of a start: every enabled link, or in the warm column those that are Down or Failed. One that trains is Up, with a
far end, slot limits and a salt that are free values (log 120); one that does not is Failed, and LINKS has its pair. -/
def startLinks (s : State) (cold : Bool) (failed : List (BitVec 5)) : State :=
  let bad (n : Nat) : Bool := failed.any fun f => f.toNat == n
  let due (l : Link) : Bool := l.en && (cold || l.state == 0 || l.state == 4)
  let hit := s.links.filter fun x => due x.2
  let s1 := hit.foldl (fun (s : State) (x : Nat × Link) =>
    if bad x.1 then s.modLink x.1 fun l => { l with state := 4, since := s.ns }
    else
      let (a, s1) := s.freeWord
      let (b, s2) := s1.freeWord
      s2.modLink x.1 fun l => trainUp { l with since := s.ns } (a.truncate 22) (b.truncate 7) ((a >>> 32).truncate 16) ((b >>> 32).truncate 16) ((a >>> 16).truncate 32)) s
  { s1 with linksBad := (hit.filter fun x => bad x.1).foldl (fun m x => m ||| (1#16 <<< (x.1 / 2))) 0 }

/-- The safe state after a failing step: links Down, nothing runs. -/
def failSafe (s : State) : State :=
  { s with phase := 3, links := s.links.map fun (x : Nat × Link) => (x.1, { x.2 with state := 0 }) }

def dropAllTlbs (s : State) : State :=
  { s with
    cores := s.cores.map fun (x : Nat × Core) => (x.1, { x.2 with tlb := [] })
    dies := s.dies.map fun (x : Nat × Die) => (x.1, { x.2 with tlb := [], nested := [], names := [] }) }

/-- The code of the first failing step: step 2 fails by the images that are held (R375), the others as the event says. -/
def startFail (s : State) (fail : Option (BitVec 8)) : Option Nat :=
  if fail = some 0x10 then some 0x10
  else if fail = some 0x11 ∨ s.firmware.any fun f => !f.valid then some 0x11
  else if fail = some 0x12 ∨ s.firmware.any fun f => f.version < s.fusedMin then some 0x12
  else fail.map (·.toNat)

/-- A start: the steps run in order, and the first failing one ends it. -/
def start (s0 : State) (cold : Bool) (fail : Option (BitVec 8)) (linksFailed : List (BitVec 5)) (retrained : BitVec 12) : State :=
  let s := { s0 with starting := none, logAt := 0x800 }
  let stop := (startFail s fail).map fun c => (c, failStep cold c)
  match stop with
  | some (_, none) => s0
  | some (code, some step) =>
    let s1 := if 5 < step then startLinks s cold linksFailed else s
    { failSafe (logStart s1 cold step code) with result := code, retrain := if cold ∨ step < 3 then 0 else retrained }
  | none =>
    let s1 := dropAllTlbs (logStart (startLinks s cold linksFailed) cold 7 0)
    let s2 := { s1 with phase := 2, result := 0, retrain := if cold then 0 else retrained,
                        dies := s1.dies.map fun (x : Nat × Die) => (x.1, { x.2 with bins := [], served := (0, []) }) }
    if cold then { s2 with coldDone := true, clock := 0, quadNext := [], unitBusy := [],
                           notifies := s2.notifies.map fun (n : Nat × Notify) => (n.1, { n.2 with fresh := none }),
                           cores := s2.cores.map fun (c : Nat × Core) => (c.1, { c.2 with switchEnd := 0 }),
                           hbm := [], poison := s2.poison.filter fun l => keySpace (128 * l.1) != .hbm } else s2

def execColdStart (fail : Option (BitVec 8)) (linksFailed : List (BitVec 5)) (s : State) : Out :=
  if s.phase = 1 then .next { s with result := 2 }
  else if s.phase = 2 then .next { s with result := 1 }
  else .next (start s true fail linksFailed 0)

/-- A warm start from PHASE 3, or where no cold start has completed, behaves as a cold start. -/
def execWarmStart (fail : Option (BitVec 8)) (linksFailed : List (BitVec 5)) (retrained : BitVec 12) (s : State) : Out :=
  if s.phase = 1 then .next { s with result := 2 }
  else if s.phase = 2 then .next { s with result := 1 }
  else .next (start s (s.phase == 3 || !s.coldDone) fail linksFailed retrained)

/-- The end of a start that a write of CMD began. -/
def startEnd (fail : Option (BitVec 8)) (linksFailed : List (BitVec 5)) (retrained : BitVec 12) (s : State) : State :=
  match s.phase, s.starting with
  | 1, some cold => start s cold fail linksFailed retrained
  | _, _ => s

/-- A write of CMD of the start registers (R371 to R374): a start goes to PHASE 1 until its end. -/
def startCmd (n : Nat) (s : State) : State :=
  if n = 0 ∨ 3 < n then s
  else if s.phase = 1 then { s with result := 2 }
  else if s.phase = 2 then { s with result := 1 }
  else { s with phase := 1, starting := some (n == 1 || s.phase == 3 || !s.coldDone) }

/-- Stop kills every context, drops every TLB and goes to PHASE 0. -/
def execStop (s : State) : Out :=
  if s.phase = 1 then .next { s with result := 2 }
  else
    let live := (s.ctxs.filter fun c => c.2.state != .killing).map (·.1)
    let s1 := live.foldl (fun s c => killContext s c 2) s
    let s2 := (s1.ctxs.map (·.1)).foldl unloadKilled s1
    .next { dropAllTlbs s2 with phase := 0, result := 3 }

/-- Power-on: every register at its reset value. What stands outside the package, the fuses, the street map and the schedule
stay. -/
def execPowerOn (s : State) : Out :=
  .next { State.reset with
    inbox := s.inbox, freeIdx := s.freeIdx, hostMem := s.hostMem, remotes := s.remotes, streets := s.streets, fusedMin := s.fusedMin,
    firmware := s.firmware, device := s.device
    dies := s.dies.map fun (x : Nat × Die) => (x.1, { temps := x.2.temps, procs := x.2.procs }) }

/-! ### Ring registers (14 Table 14-16) -/

/-- The registers of a record's home wave take the answer and its threads go on (R329). -/
def answerSvc (s : State) (v : DWord) (e : Nat × Nat × Nat × Nat) : State :=
  let (g, w, dst, idx) := e
  s.modWave g w fun x =>
    { putS dst (v.truncate 32) (putS (dst + 1) ((v >>> 32).truncate 32) x) with
      threads := x.threads.map fun t => resumeAt t (.svc idx) (waitPc t (.svc idx) + 12) }

/-- Writing SVCVAL answers record SVCIDX; the answer to a record whose threads have ended is discarded. -/
def execSvcval (ctx : BitVec 16) (v : DWord) (s : State) : Out :=
  let c := ctx.toNat
  let mine := (s.ctx c).svcWait.filter fun e => e.2.2.2 == (s.ctx c).svcIdx.toNat
  let live (e : Nat × Nat × Nat × Nat) : Bool := ((s.wave e.1 e.2.1).threads.any fun t => waitsFor t (.svc e.2.2.2))
  if !paged s c then .next s
  else .next ((mine.filter live).foldl (fun s e => answerSvc s v e)
    (s.modCtx c fun c => { c with svcWait := c.svcWait.filter fun e => !mine.contains e }))

/-- Writing SVCTAIL makes room in the ring for requests that wait. -/
def execSvctail (ctx : BitVec 16) (v : Word) (s : State) : Out :=
  .next (if paged s ctx.toNat then s.modCtx ctx.toNat fun c => { c with svcTail := v } else s)

def execErrtail (ctx : BitVec 16) (v : Word) (s : State) : Out :=
  .next (if paged s ctx.toNat then setErrTail s ctx.toNat v else s)

/-! ### Registers without a behaviour of their own (R5) -/

def modNotify (s : State) (i : Nat) (f : Notify → Notify) : State := { s with notifies := mput s.notifies i (f (mgetD s.notifies i {})) }
def modDlog (s : State) (c : Nat) (second : Bool) (f : Dlog → Dlog) : State :=
  s.modCtx c fun x => if second then { x with dlog2 := f x.dlog2 } else { x with dlog1 := f x.dlog1 }

/-- The effect of a write: fields take the bits that the register has, W1C bits clear, other bits are not kept. -/
def writeReg (s : State) (r : HostReg) (v : DWord) : State :=
  let n := v.toNat
  match r with
  | .mailboxArg i => { s with mbArgs := s.mbArgs.set i.toNat v }
  | .mailboxRej => if bit n 62 then { s with mbRej := false } else s
  | .notifyValue i => modNotify s i.toNat fun x => { x with value := v.truncate 32 }
  | .notifySig i => modNotify s i.toNat fun x => { x with sig := v.truncate 16 }
  | .notifyRoute i => modNotify s i.toNat fun x => { x with route := v.truncate 32 &&& 0x807F07FF }
  | .npRef fn k => modPort s fn.toNat k.toNat fun p => { p with npref := v }
  | .npVal fn k => modPort s fn.toNat k.toNat fun p => { p with npval := v.truncate 32 }
  | .npRej fn k => if bit n 62 then modPort s fn.toNat k.toNat fun p => { p with rej := false } else s
  | .svcIdx c => if paged s c.toNat then s.modCtx c.toNat fun x => { x with svcIdx := v.truncate 32 } else s
  | .queueBase c q => modQueue s c.toNat q.toNat fun x => if x.en then x else { x with base := v }
  | .queueLogsz c q => modQueue s c.toNat q.toNat fun x => if x.en then x else { x with logsz := n % 16 }
  | .queuePrio c q => modQueue s c.toNat q.toNat fun x => if x.en then x else { x with prio := n % 8 }
  | .dlogBmap c b => modDlog s c.toNat b fun d => { d with bmap := v }
  | .dlogBase c b => modDlog s c.toNat b fun d => { d with base := v }
  | .dlogTail c b => modDlog s c.toNat b fun d => { d with tail := v.truncate 32 }
  | .dlogOvf c b => if bit n 5 then modDlog s c.toNat b fun d => { d with ovf := false } else s
  | .dlogSize c b => modDlog s c.toNat b fun d => { d with size := n % 32 }
  | .linkMode l => s.modLink l.toNat fun x => if x.en then x else { x with mode := bit n 0 }
  | .monThresholds d =>
    s.modDie d.toNat fun x =>
      { x with twarn := n / 2 ^ 24 % 256, ttrip := n / 2 ^ 16 % 256, floor := n / 256 % 256, pmin := n % 256 }
  | .reserved => s

/-- In PHASE 3 only the start registers, the start log and command 11 are answered. -/
def execRegisterWrite (r : HostReg) (v : DWord) (s : State) : Out := if s.phase = 3 then .next s else .next (writeReg s r v)

/-! ### Host accesses to local memory (R365) -/

/-- Whether the host may reach a byte of local memory. -/
def hostMay (s : State) (pa : Nat) : Bool := (sealCode s pa != 1 && sealCode s pa != 2) || s.hostWritable.contains (pa / 2 ^ 21)

/-- A host access: where the seal map does not permit it, a read completes with data poison, a write is dropped and recorded. A read
leaves what it returns in `hostData`, and in `hostPoison` whether that is poison. One outside the ranges of `State.hdm` travels over
PCIe, with the same checks (R364, R365). -/
def execHostMemoryAccess (addr : DWord) (w : Width) (data : Option (BitVec 128)) (s : State) : Out :=
  let a := addr.toNat
  let may := hostMay s a && hostMay s (a + w.bytes - 1)
  if s.phase = 3 then .next s
  else if hbmSize < a + w.bytes then .fault (.absentMemory a)
  else
    match data with
    | none =>
      if !may ∨ (poisoned s .hbm a w.bytes).isSome then .next { s with hostData := [], hostPoison := true }
      else .next { s with hostData := (List.range w.bytes).map fun i => viewByte s .hbm (a + i), hostPoison := false }
    | some v =>
      if may then .next (outerWrite s a ((toBytes 16 v.toNat).take w.bytes))
      else .next { s with mgmtLog := s.mgmtLog ++ [addr] }

/-! ### Monitors and throttling (R377 to R379) -/

/-- FLOOR is 12 to 27; the package's lowest clock is the highest of the dies. -/
def topFloor (s : State) : Nat := ((fourDies s).map fun d => min 27 (max 12 d.floor)).foldl max 12
def tripAt (d : Die) : Nat := max d.ttrip (d.twarn + 5)
def slowProc (d : Die) : Bool := d.pmin != 0 && (dieProcs d).any fun p => p < d.pmin
def wantsDown (d : Die) : Bool := (dieTemps d).any (fun t => d.twarn ≤ t) || slowProc d
def wantsUp (d : Die) : Bool := (dieTemps d).all (fun t => t + 5 ≤ d.twarn) && !slowProc d
def stepDown (s : State) : State := { s with clk := if topFloor s < s.clk then s.clk - 1 else s.clk }

/-- One evaluation of the four dies for each millisecond of the reference timer. -/
def execMonitorEvaluation (s : State) : Out :=
  if s.ns < s.evalAt then .next s
  else
    let t := { s with evalAt := s.evalAt + 1000000 }
    if (fourDies s).any wantsDown then .next (stepDown t)
    else if (fourDies s).all wantsUp ∧ s.clk < 27 ∧ s.noUp ≤ s.ns then .next { t with clk := s.clk + 1 }
    else .next t

/-- A droop detector steps the clock down and blocks steps up for 1 ms. -/
def execDroopEvent (die : BitVec 2) (s : State) : Out :=
  let t := s.modDie die.toNat fun d => { d with droops := min (2 ^ 32 - 1) (d.droops + 1) }
  .next { stepDown t with noUp := s.ns + 1000000 }

/-- One context trips: it halts, with a record where it was not halted, and stays so until the part is cool. -/
def tripCtx (die sensor t : Nat) (s : State) (c : Nat) : State :=
  match (s.ctx c).state with
  | .killing => s
  | .halted => s.modCtx c fun x => { x with tripped := true }
  | .runnable => ctxErr ((haltCtx s c).modCtx c fun x => { x with tripped := true }) c 0x0107 die sensor t 0 0 0

/-- A sensor at its trip threshold halts every context, and the clock drops to FLOOR. -/
def execThermalTrip (die : BitVec 2) (sensor : BitVec 6) (s : State) : Out :=
  let d := s.die die.toNat
  let t := mgetD d.temps sensor.toNat 0
  if t < tripAt d then .next s
  else
    let s1 := (s.ctxs.map (·.1)).foldl (tripCtx die.toNat sensor.toNat t) s
    .next { s1 with clk := min s1.clk (topFloor s1) }

/-! ### The regions of the host port (R363, Table 16-1) -/

/-- A write to a register of BAR0 of function 0. A write of MODE counts before one of EN in the same word. -/
def bar0Write (off : Nat) (v : DWord) (s : State) : Out :=
  let n := v.toNat
  let r := off % 4096
  if off = 0 then (if n % 4 = 3 then execStop s else .next (startCmd (n % 4) s))
  else if off = 0x30000 ∧ n % 65536 = 11 ∧ !s.mbBusy then .next { s with mbBusy := true, mbCmd := 11 }
  else if s.phase = 3 then .next s
  else if 0x10000 ≤ off ∧ off < 0x14000 then
    .next (if r = 0 then writeReg s (.monThresholds (BitVec.ofNat 2 ((off - 0x10000) / 4096))) v else s)
  else if 0x20000 ≤ off ∧ off < 0x20800 then
    (if off % 64 ≠ 0 then .next s
     else
       let l := BitVec.ofNat 5 ((off - 0x20000) / 64)
       let s1 := writeReg s (.linkMode l) (BitVec.ofNat 64 (n / 2))
       if bit n 0 then execLinkEnable l s1 else execLinkDisable l s1)
  else if off = 0x30000 then
    .next (if s.mbBusy ∨ n % 65536 = 0 ∨ 14 < n % 65536 then { s with mbRej := true } else { s with mbBusy := true, mbCmd := n % 65536 })
  else if 0x30008 ≤ off ∧ off ≤ 0x30020 then .next (writeReg s (.mailboxArg (BitVec.ofNat 2 ((r - 8) / 8))) v)
  else if off = 0x30028 then .next (writeReg s .mailboxRej v)
  else if 0x40000 ≤ off ∧ off < 0x48000 then
    let i := BitVec.ofNat 12 ((off - 0x40000) / 8)
    execNotifyWakeClear i (v.truncate 16)
      (writeReg (writeReg s (.notifyValue i) (v >>> 32)) (.notifySig i) (v >>> 16))
  else if 0x50000 ≤ off ∧ off < 0x54000 then .next (writeReg s (.notifyRoute (BitVec.ofNat 12 ((off - 0x50000) / 4))) v)
  else .next s

/-- A write to a register of BAR2 of a function: the doorbell page of its context, or the name port page of host thread k. -/
def bar2Write (fn : Nat) (off : Nat) (v : DWord) (s : State) : Out :=
  let n := v.toNat
  let r := off % 4096
  let f := BitVec.ofNat 8 fn
  let k := BitVec.ofNat 8 (off / 4096 - 1)
  if s.phase = 3 ∨ 0x101000 ≤ off then .next s
  else if off < 0x1000 then
    match portSpace s fn with
    | none => .next s
    | some c =>
      let c := BitVec.ofNat 16 c
      if off < 0x200 then execDoorbell c (BitVec.ofNat 6 (off / 8)) (v.truncate 32) s
      else if off = 0x200 then .next (writeReg s (.svcIdx c) v)
      else if off = 0x208 then execSvcval c v s
      else if off = 0x210 then execErrtail c (v.truncate 32) s
      else if off = 0x218 then execSvctail c (v.truncate 32) s
      else .next s
  else if r = 0 then .next (writeReg s (.npRef f k) v)
  else if r = 8 then .next (writeReg s (.npVal f k) v)
  else if r = 0x18 then .next (writeReg s (.npRej f k) v)
  else if r = 0x10 then
    match n % 8 with
    | 0 => execNamePortCancel f k s
    | 1 => execNamePortWake f k (bit n 4) s
    | 2 => execNamePortSignal f k (bit n 4) s
    | 3 => execNamePortDeposit f k (bit n 4) (BitVec.ofNat 5 (n / 32)) s
    | 4 => execNamePortJoin f k (bit n 4) s
    | 5 => execNamePortProbe f k (bit n 4) s
    | _ => execNamePortBadOp f k s
  else .next s

/-- A write of a whole register: of 8 bytes, or of 4 bytes for a notify route (log 119). -/
def hostWrite (fn bar off : Nat) (v : DWord) (s : State) : Out :=
  if off % 8 ≠ 0 ∧ !(bar = 0 ∧ off % 4 = 0 ∧ 0x50000 ≤ off) then .next s
  else if bar = 0 ∧ fn = 0 then bar0Write off v s
  else if bar = 2 ∧ fn < 256 then bar2Write fn off v s
  else .next s

/-- Four readings of a monitor block, 16 bits apart. -/
def four (l : List Nat) (i : Nat) : Nat := ofBytes ((List.range 4).flatMap fun j => toBytes 2 (l.getD (4 * i + j) 0))

/-- What a register of BAR0 of function 0 reads as; none in the start log, whose records have no stated layout, and where the part
does not answer (R374). -/
def bar0Read (off : Nat) (s : State) : Option Nat :=
  let r := off % 4096
  if off = 0x08 then some (s.linksBad.toNat * 2 ^ 48 + s.result % 256 * 2 ^ 40 + s.retrain.toNat * 2 ^ 28 + s.phase)
  else if off = 0x10 then some s.logAt
  else if off < 0x800 then some 0
  else if off < 0xC00 ∨ s.phase = 3 then none
  else if 0x10000 ≤ off ∧ off < 0x14000 then
    let d := s.die ((off - 0x10000) / 4096)
    some (if r = 0 then d.twarn * 2 ^ 24 + d.ttrip * 2 ^ 16 + d.floor * 256 + d.pmin
      else if r = 8 then s.clk else if r = 16 then d.droops
      else if 0x100 ≤ r ∧ r < 0x180 then four (dieTemps d) ((r - 0x100) / 8)
      else if 0x180 ≤ r ∧ r < 0x1A0 then four (dieProcs d) ((r - 0x180) / 8) else 0)
  else if 0x20000 ≤ off ∧ off < 0x20800 then
    let l := s.link ((off - 0x20000) / 64)
    some (match off % 64 with
      | 0 => l.en.toNat + 2 * l.mode.toNat
      | 8 => l.node * 2 ^ 42 + l.port * 2 ^ 35 + l.rtrn * 2 ^ 27 + l.state
      | 16 => l.rply * 2 ^ 32 + l.tagf
      | _ => 0)
  else if 0x30008 ≤ off ∧ off ≤ 0x30020 then some (s.mbArgs.getD ((r - 8) / 8) 0).toNat
  else if off = 0x30028 then some (s.mbBusy.toNat * 2 ^ 63 + s.mbRej.toNat * 2 ^ 62 + s.mbStatus)
  else if 0x40000 ≤ off ∧ off < 0x48000 then
    let x := mgetD s.notifies ((off - 0x40000) / 8) {}
    some (x.value.toNat * 2 ^ 32 + x.sig.toNat * 2 ^ 16 + x.wake.toNat)
  else if 0x50000 ≤ off ∧ off < 0x54000 then some (mgetD s.notifies ((off - 0x50000) / 4) {}).route.toNat
  else some 0

/-- What a register of BAR2 of a function reads as. -/
def bar2Read (fn off : Nat) (s : State) : Option Nat :=
  if s.phase = 3 then none
  else if off < 0x1000 then
    match portSpace s fn with
    | none => some 0
    | some c =>
      let x := s.ctx c
      some (if off < 0x200 then (s.queue c (off / 8)).wridx.toNat else if off = 0x200 then x.svcIdx.toNat
        else if off = 0x210 then x.errTail.toNat else if off = 0x218 then x.svcTail.toNat else 0)
  else if 0x101000 ≤ off then some 0
  else
    let p := s.port fn (off / 4096 - 1)
    some (match off % 4096 with
      | 0 => p.npref.toNat
      | 8 => p.npval.toNat
      | 0x18 => p.busy.toNat * 2 ^ 63 + p.rej.toNat * 2 ^ 62 + p.status % 8 * 2 ^ 32 + p.result.toNat
      | _ => 0)

/-- A read of a whole register leaves its value in `hostData`; a value that the spec does not state is free. -/
def hostRead (fn bar off : Nat) (s : State) : State :=
  let r := if bar = 0 ∧ fn = 0 then bar0Read off s else if bar = 2 ∧ fn < 256 then bar2Read fn off s else some 0
  match r with
  | some v => { s with hostData := toBytes 8 v, hostPoison := false }
  | none => let (w, s1) := s.freeWord; { s1 with hostData := toBytes 8 w.toNat, hostPoison := false }

/-- The storage takes an image of the control processor (0) or of the cluster (1). -/
def setFirmware (which image : Nat) (valid : Bool) (version : Nat) (s : State) : State :=
  { s with firmware := (List.range 2).map fun i => if i = which then { image := image, valid := valid, version := version } else firmwareAt s i }

/-- The driver designates 256 MiB units of HBM, at most 512 GiB (Table 16-2). -/
def designate (unit : Nat) (on : Bool) (s : State) : State :=
  let rest := s.hdm.filter (· != unit)
  if !on then { s with hdm := rest }
  else if 3072 ≤ unit ∨ 2048 ≤ rest.length then s
  else { s with hdm := (s.hdm.filter (· < unit)) ++ unit :: s.hdm.filter (unit < ·) }

end Sys2Proof.Machine
end

