-- ==== Sys2Proof/Machine/Invert.lean ====
section
/-! DEFINITION. Group 0x1C, brackets and the invert pair (07 R126 to R132). -/

namespace Sys2Proof.Machine

/-! ### Brackets (R126, R127) -/

def brIndex : Opnd → Nat
  | .res (.b n) => n.toNat
  | _ => 0

def State.bracket (s : State) (g : Nat) (m : Nat × Nat) (n : Nat) : Bracket := mgetD (s.thread g m.2 m.1).br n {}
def isBracket (n key : Nat) : Bool := bracketKey n 0 ≤ key && key ≤ bracketKey n 4
def setBracket (s : State) (g : Nat) (m : Nat × Nat) (n : Nat) (b : Bracket) : State :=
  s.modThread g m.2 m.1 fun t => { t with br := msetD t.br n b {}, hazards := t.hazards.filter fun h => !isBracket n h.key }

/-- A bracket as an instruction reads it: within BRSET's latency all its words are the old ones or the new (R127, 03 R42). -/
def readBr (s : State) (m : Nat × Nat) (n : Nat) : Bracket :=
  let t := s.thread s.cur.g m.2 m.1
  let b := mgetD t.br n {}
  let rd (i : Nat) (x : Word) : Word := readHazAs (bracketKey n 0) t.hazards s.now s.freeIdx (saltOf m) (bracketKey n i) x
  ⟨rd 0 b.lo, rd 1 b.hi, rd 2 b.flo, rd 3 b.fhi, rd 4 b.st⟩

/-- BRSET's write, of latency 4. -/
def wrBr (s : State) (m : Nat × Nat) (n : Nat) (b : Bracket) : State :=
  s.modThread s.cur.g m.2 m.1 fun t =>
    let o := mgetD t.br n {}
    { t with br := msetD t.br n b {}
             hazards := ([o.lo, o.hi, o.flo, o.fhi, o.st].zipIdx).foldl (fun hs x => addHaz hs s.now 4 (bracketKey n x.2) x.1) t.hazards }

def stAct : Nat := 15
def stFhv : Nat := 14
def stFlv : Nat := 13

def execBrset (k : Ctl) (a b c d : Opnd) (fv : Bool) (s : State) : Out :=
  let one (m : Nat × Nat) : Bracket :=
    { lo := src s m b, hi := src s m c, flo := if fv then rdV s m (vregNum d) else 0,
      fhi := if fv then rdV s m (vregNum d + 1) else 0, st := if fv then 0x6000 else 0 }
  .next ((actives k s).foldl (fun t m => wrBr t m (brIndex a) (one m)) (advance s))
where
  vregNum : Opnd → Nat
    | .v n => n.toNat
    | _ => 0

def brField (b : Bracket) : BrField → Word
  | .lo => b.lo | .hi => b.hi | .flo => b.flo | .fhi => b.fhi | .st => b.st

def execBrget (k : Ctl) (a b : Opnd) (f : BrField) (s : State) : Out :=
  .next (compute k 4 a (fun s m => brField (readBr s m (brIndex b)) f) s)

/-! ### The routine (03 R58, R129) -/

/-- The first 82 forms and LDS, which a body may hold: what each does. None for any other instruction. -/
def bodyExec (i : Instr) (s : State) : Option Out :=
  match i with
  | .iadd k a b c => some (execIadd k a b c s)
  | .isub k a b c => some (execIsub k a b c s)
  | .imul k a b c => some (execImul k a b c s)
  | .imulhi k a b c u => some (execImulhi k a b c u s)
  | .imad k a b c d => some (execImad k a b c d s)
  | .imin k a b c u => some (execImin k a b c u s)
  | .imax k a b c u => some (execImax k a b c u s)
  | .iabs k a b => some (execIabs k a b s)
  | .ineg k a b => some (execIneg k a b s)
  | .iaddc k a b c d => some (execIaddc k a b c d s)
  | .isubb k a b c d => some (execIsubb k a b c d s)
  | .iaddsat k a b c u => some (execIaddsat k a b c u s)
  | .idot4 k a b c d u sat => some (execIdot4 k a b c d u sat s)
  | .isad k a b c d u => some (execIsad k a b c d u s)
  | .iadd64 k a b c => some (execIadd64 k a b c s)
  | .imad64 k a b c d u => some (execImad64 k a b c d u s)
  | .and k a b c => some (execAnd k a b c s)
  | .or k a b c => some (execOr k a b c s)
  | .xor k a b c => some (execXor k a b c s)
  | .not k a b => some (execNot k a b s)
  | .andn k a b c => some (execAndn k a b c s)
  | .shl k a b c => some (execShl k a b c s)
  | .shr k a b c => some (execShr k a b c s)
  | .sar k a b c => some (execSar k a b c s)
  | .rot k a b c r => some (execRot k a b c r s)
  | .bfe k a b c sx => some (execBfe k a b c sx s)
  | .bfi k a b c d => some (execBfi k a b c d s)
  | .popc k a b => some (execPopc k a b s)
  | .clz k a b => some (execClz k a b s)
  | .brev k a b => some (execBrev k a b s)
  | .tern k a b c d tt => some (execTern k a b c d tt s)
  | .perm k a b c d => some (execPerm k a b c d s)
  | .icmp k a b c cc u => some (execIcmp k a b c cc u s)
  | .fcmp k a b c cc => some (execFcmp k a b c cc s)
  | .sel k a b c d => some (execSel k a b c d s)
  | .ptern k a b c d tt => some (execPtern k a b c d tt s)
  | .p2v k a b n => some (execP2v k a b n s)
  | .v2p k a b n => some (execV2p k a b n s)
  | .mov k a b => some (execMov k a b s)
  | .movx k a b => some (execMovx k a b s)
  | .fclass k a b w => some (execFclass k a b w s)
  | .fadd k a b c rm sat => some (execFadd k a b c rm sat s)
  | .fsub k a b c rm sat => some (execFsub k a b c rm sat s)
  | .fmul k a b c rm sat => some (execFmul k a b c rm sat s)
  | .ffma k a b c d rm sat => some (execFfma k a b c d rm sat s)
  | .fmin k a b c => some (execFmin k a b c s)
  | .fmax k a b c => some (execFmax k a b c s)
  | .frcp k a b rm sat => some (execFrcp k a b rm sat s)
  | .frsq k a b => some (execFrsq k a b s)
  | .fsqrt k a b rm sat => some (execFsqrt k a b rm sat s)
  | .fdiv k a b c rm sat => some (execFdiv k a b c rm sat s)
  | .fexp2 k a b => some (execFexp2 k a b s)
  | .flog2 k a b => some (execFlog2 k a b s)
  | .fsin k a b => some (execFsin k a b s)
  | .fcos k a b => some (execFcos k a b s)
  | .ftanh k a b => some (execFtanh k a b s)
  | .ffrac k a b rm sat => some (execFfrac k a b rm sat s)
  | .hadd2 k a b c rm sat => some (execHadd2 k a b c rm sat s)
  | .hmul2 k a b c rm sat => some (execHmul2 k a b c rm sat s)
  | .hfma2 k a b c d rm sat => some (execHfma2 k a b c d rm sat s)
  | .hmin2 k a b c => some (execHmin2 k a b c s)
  | .hmax2 k a b c => some (execHmax2 k a b c s)
  | .hcmp2 k a b c cc => some (execHcmp2 k a b c cc s)
  | .badd2 k a b c rm sat => some (execBadd2 k a b c rm sat s)
  | .bmul2 k a b c rm sat => some (execBmul2 k a b c rm sat s)
  | .bfma2 k a b c d rm sat => some (execBfma2 k a b c d rm sat s)
  | .bmin2 k a b c => some (execBmin2 k a b c s)
  | .bmax2 k a b c => some (execBmax2 k a b c s)
  | .bcmp2 k a b c cc => some (execBcmp2 k a b c cc s)
  | .dadd k a b c rm sat => some (execDadd k a b c rm sat s)
  | .dmul k a b c rm sat => some (execDmul k a b c rm sat s)
  | .dfma k a b c d rm sat => some (execDfma k a b c d rm sat s)
  | .dmin k a b c => some (execDmin k a b c s)
  | .dmax k a b c => some (execDmax k a b c s)
  | .dcmp k a b c cc => some (execDcmp k a b c cc s)
  | .drcp k a b rm sat => some (execDrcp k a b rm sat s)
  | .cvt k a b d f rm sat el => some (execCvt k a b d f rm sat el s)
  | .pack8 k a b c f rm sat => some (execPack8 k a b c f rm sat s)
  | .unpack8 k a b c f rm => some (execUnpack8 k a b c f rm s)
  | .pack4 k a b c f rm sat => some (execPack4 k a b c f rm sat s)
  | .unpack4 k a b c f rm => some (execUnpack4 k a b c f rm s)
  | .scaleq k a b f => some (execScaleq k a b f s)
  | _ => none

/-- Groups whose instructions a body may hold. -/
def bodyGroup (i : Instr) : Bool :=
  match formOf i with
  | some f => f.maj.toNat ≤ 6 || (f.maj.toNat == 0x14 && f.mn.toNat == 2)
  | none => false

/-- An operand that a body instruction may name: no predicate register, no special register that differs from lane to lane, and
no register of the link pair (03 R58). -/
def bodyOpnd (link : Nat) (x : Kd × Opnd) : Bool :=
  (match x.2 with | .sr r => r.uniform | .p _ => false | _ => true) &&
    !((spanV x).any fun n => n == link || n == link + 1)

/-- A legal body instruction: the groups of R58, guard pT, and a destination that is neither uniform nor special. -/
def bodyOk (link : Nat) (i : Instr) : Bool :=
  let k := ctlOf i
  bodyGroup i && !k.gn && k.gp == 63 &&
    (match (sig i).head? with | some (_, .s _) => !opaDest i | some (_, .sr _) => !opaDest i | _ => true) &&
    (sig i).all (bodyOpnd link)

/-- What the check of a routine answers: its body, or the cause of the trap. -/
inductive RoutineRes where
  | bad (cause : Nat)
  | ok (body len inReg outReg : Nat)
  deriving DecidableEq, Repr

/-- A decoding fault of a body word, if it has one. -/
def wordFault (s : State) (g w pc : Nat) : Option Nat :=
  match decodeWord s g w pc (wordAt s g w pc) with
  | .error e => some (decCause e)
  | .ok _ => none

/-- A link pair: class 0, even, legal. -/
def linkOk (s : State) (g w : Nat) : Opnd → Bool
  | .v n => n.toNat % 2 == 0 && n.toNat + 2 ≤ ((s.group g).hdr.limits (s.wave g w).handler).vtop
  | _ => false

/-- The register of a vector operand. -/
def opndReg : Opnd → Nat
  | .v n => n.toNat
  | _ => 0

/-- Check the routine at a CALLM's target (R129). -/
def routine (s : State) (g w : Nat) (target : Int) (fall : Bool) : RoutineRes :=
  if !(target % 12 == 0 && inCode s g w target) then .bad 0x0A
  else
    let t := target.toNat
    match decodeAt s g w t with
    | some (.land _ (.v out) (.v inn) (.imm n) link _ true dir) =>
      let len := n.toNat
      let body := t + 12
      let pcs := (List.range len).map fun i => body + 12 * i
      if dir ≠ fall ∨ len < 1 ∨ 48 < len ∨ !linkOk s g w link ∨ !inCode s g w ((body + 12 * len : Nat) : Int) then .bad 0x0A
      else
        match (pcs.filterMap fun pc => wordFault s g w pc) with
        | c :: cs => .bad (cs.foldl min c)
        | [] =>
          let legal := pcs.all fun pc => (decodeAt s g w pc).any (bodyOk (opndReg link))
          let ret := match decodeAt s g w (body + 12 * len) with
            | some (.ret _ b) => b == link
            | _ => false
          if legal && ret then .ok body len inn.toNat out.toNat else .bad 0x0A
    | _ => .bad 0x0A

/-- CALLM by itself: the link pair takes the return address, as CALL's does (R129). -/
def execCallm (k : Ctl) (off : Word) (s : State) : Out :=
  let g := s.cur.g
  let act := actives k s
  let t := branchTo s.cur.pc off
  let w0 := (act.headD (0, s.cur.w)).2
  if act.isEmpty then .next (advance s)
  else
    match (if t % 12 == 0 && inCode s g w0 t then decodeAt s g w0 t.toNat else none) with
    | some (.land _ _ _ _ link _ true _) =>
      if linkOk s g w0 link then
        .next (act.foldl (fun u m => setPc (wrDst64 u 1 m link (BitVec.ofNat 64 (s.cur.pc + 12))) m t.toNat) (advance s))
      else .next (trapNow s 0x0A 0 act)
    | _ => .next (trapNow s 0x0A 0 act)

/-! ### The order of values (R130) -/

def image (d : Dom) (x : Word) : Word :=
  match d with
  | .u32 => x
  | .s32 => x ^^^ 0x80000000
  | .f32 => if x.getLsbD 31 then ~~~x else x ||| 0x80000000
def unimage (d : Dom) (y : Word) : Word :=
  match d with
  | .u32 => y
  | .s32 => y ^^^ 0x80000000
  | .f32 => if y.getLsbD 31 then y &&& 0x7FFFFFFF else ~~~y

/-- F: the image of a value of the routine, turned over where it falls. -/
def fImage (d : Dom) (fall : Bool) (y : Word) : Nat := (if fall then ~~~(image d y) else image d y).toNat

def isNanOf (d : Dom) (y : Word) : Bool := d == .f32 && (y.toNat % 2 ^ 31 > 0x7F800000)

/-! ### A step of a lane -/

/-- What a lane does next: trap, evaluate a point, or finish with a result, predicate, outcome and side. -/
inductive NextPoint where
  | trap
  | eval (x : Word)
  | finish (r : Word) (p : Bool) (outc side : Nat)
  deriving DecidableEq, Repr

def stBit (b : Bracket) (i : Nat) : Bool := b.st.getLsbD i
def stIter (b : Bracket) : Nat := b.st.toNat % 64
def stOutc (b : Bracket) : Nat := b.st.toNat / 2 ^ 11 % 4
def setSt (b : Bracket) (lo n v : Nat) : Bracket := { b with st := BitVec.ofNat 32 (setBits b.st.toNat lo n v) }

/-- R130 for one lane, from its bracket and its target. -/
def nextPoint (d : Dom) (fall : Bool) (tol budget : Nat) (b : Bracket) (target : Word) : NextPoint :=
  let f := fImage d fall
  let t := f target
  let ilo := image d b.lo
  let ihi := image d b.hi
  if ihi.toNat < ilo.toNat then .trap
  else if !stBit b stFlv then .eval b.lo
  else if !stBit b stFhv then .eval b.hi
  else if isNanOf d b.flo || isNanOf d b.fhi || f b.fhi < f b.flo then .trap
  else if t < f b.flo then .finish b.lo false 3 0
  else if t = f b.flo then .finish b.lo true 1 0
  else if f b.fhi < t then .finish b.hi false 3 1
  else if (ihi - ilo).toNat ≤ max tol 1 then .finish b.hi true 1 0
  else if budget ≤ stIter b then .finish b.hi false 2 0
  else .eval (unimage d (ilo + ((ihi - ilo) >>> 1)))

/-- The bracket after an evaluation of x gave y; none where the routine is not monotone there. -/
def evalled (d : Dom) (fall : Bool) (b : Bracket) (target x y : Word) : Option Bracket :=
  let f := fImage d fall
  if !stBit b stFlv then some (setSt { b with flo := y } stFlv 1 1)
  else if !stBit b stFhv then
    let c := setSt { b with fhi := y } stFhv 1 1
    if isNanOf d c.flo || isNanOf d c.fhi || f c.fhi < f c.flo then none else some c
  else if isNanOf d y || f y < f b.flo || f b.fhi < f y then none
  else
    let c := if f target ≤ f y then { b with hi := x, fhi := y } else { b with lo := x, flo := y }
    some (setSt c 0 6 (stIter b + 1))

/-! ### Issue of the pair -/

def predNum (pd : BitVec 6) : Nat := pd.toNat

/-- Members of the pair continue after the CALLM. -/
def skipPair (s : State) : State :=
  s.cur.members.foldl (fun s m => s.modThread s.cur.g m.2 m.1 fun t => { t with pc := s.cur.pc + 24 }) s

/-- A search begins, or one that was interrupted goes on. -/
def startSearch (fall : Bool) (dom : Dom) (b : Bracket) : Bracket :=
  if stBit b stAct then b
  else setSt (setSt (setSt (setSt (setSt b 0 6 0) 11 2 0) stAct 1 1) 7 2 dom.code) 9 1 fall.toNat

/-- INV checks its routine and begins; its rounds are events of the pair (R130, R132). -/
def execInv (k : Ctl) (a b c : Opnd) (fall : Bool) (dom : Dom) (pd budget : BitVec 6) (tol : BitVec 12) (s : State) : Out :=
  let g := s.cur.g
  let act := actives k s
  if act.isEmpty then .next (skipPair s)
  else
    let w := (act.headD (0, s.cur.w)).2
    let off := match decodeAt s g w (s.cur.pc + 12) with | some (.callm _ off) => off | _ => 0
    match routine s g w (branchTo (s.cur.pc + 12) off) fall with
    | .bad cause => .next (trapNow s cause 0 act)
    | .ok body len inReg outReg =>
      let t := act.foldl (fun t m => setBracket t g m (brIndex c) (startSearch fall dom (readBr s m (brIndex c)))) s
      let run : InvRun :=
        { id := s.nextId, w := s.cur.w, fid := if s.cur.formed then some s.cur.fid else none, pc := s.cur.pc, word := s.cur.word,
          body := body, len := len, inReg := inReg, outReg := outReg, vd := opndReg a, brk := brIndex c, pd := predNum pd,
          budget := budget.toNat, tol := tol.toNat, fall := fall, dom := dom, issue := s.cur.members, active := act,
          lanes := (act.filter fun m => stOutc (t.bracket g m (brIndex c)) == 0).map fun m => (m.1, m.2, src s m b) }
      .next ({ t with nextId := s.nextId + 1 }.modGroup g fun x => { x with invs := x.invs ++ [run] })

/-! ### A round -/

/-- Evaluate the body for some members: each instruction in turn, `cur.ahead` clocks after the round's clock. Lanes whose LDS
fails take no further part. -/
def runBody (g w : Nat) : Nat → Nat → List (Nat × Nat) → List LaneFail → State → State × List LaneFail
  | 0, _, _, fs, s => (s, fs)
  | n + 1, pc, ms, fs, s =>
    let word := wordAt s g w pc
    let cur : Issue := { s.cur with g := g, w := w, members := ms, positions := ms, pc := pc, word := word }
    let s0 := { s with cur := cur }
    match decode word with
    | .error _ => (s, fs)
    | .ok i =>
      let gap := gapOf (s.group g) (ctlOf i).stall.toNat
      let next (s : State) : State := { s with cur := { s.cur with ahead := s.cur.ahead + gap + 1 } }
      match i with
      | .lds _ a b wd sx off _ =>
        let bad := ms.filterMap fun m =>
          let o := (offsetOf s0 m b off).toNat
          (scratchCheck (s.group g) o wd.bytes true).map fun f => (⟨m, f.1, f.2, BitVec.ofNat 64 o⟩ : LaneFail)
        let good := ms.filter fun m => !(bad.any fun f => f.at_ == m)
        let s1 := good.foldl (fun t m =>
          let ws := wordsOf sx (scratchRead (s.group g) (offsetOf s0 m b off).toNat wd.bytes)
          ((vregsOf a wd.regs).zip ws).foldl (fun t x => t.modThread g m.2 m.1 (putV x.1 x.2)) t) s0
        runBody g w n (pc + 12) good (fs ++ bad) (next s1)
      | i =>
        match bodyExec i s0 with
        | some (.next s1) => runBody g w n (pc + 12) ms fs (next s1)
        | _ => (s, fs)

/-- What an evaluation gives: the state, what each lane read out, the lanes that failed, and the clocks of the body's issues. -/
structure Evaluated where
  st : State
  vals : List ((Nat × Nat) × Word)
  fails : List LaneFail
  clocks : Nat
  deriving DecidableEq, Repr

/-- Evaluate f at one point in each of some lanes. The pair reads out after the body's last instruction has written it (log 83). -/
def evaluate (s : State) (g : Nat) (r : InvRun) (pts : List ((Nat × Nat) × Word)) : Evaluated :=
  let ms := pts.map (·.1)
  if pts.isEmpty then ⟨s, [], [], 0⟩ else
  let w := (r.active.headD (0, r.w)).2
  let pcs := ms.map fun m => (m, (s.thread g m.2 m.1).pc)
  let s1 := pts.foldl (fun s p => s.modThread g p.1.2 p.1.1 (putV r.inReg p.2)) s
  let (s2, fs) := runBody g w r.len r.body ms [] { s1 with cur := { s.cur with g := g, ahead := 0 } }
  let s3 := pcs.foldl (fun s p => setPcOf s g p.1 p.2) { s2 with cur := s.cur }
  ⟨s3, (ms.filter fun m => !(fs.any fun f => f.at_ == m)).map (fun m => (m, vraw (s3.thread g m.2 m.1) r.outReg)), fs, s2.cur.ahead⟩
where
  setPcOf (s : State) (g : Nat) (m : Nat × Nat) (pc : Nat) : State := s.modThread g m.2 m.1 fun t => { t with pc := pc }

/-- A lane finishes (R130). -/
def finishLane (s : State) (g : Nat) (r : InvRun) (m : Nat × Nat) (x : Word) (p : Bool) (outc side : Nat) : State :=
  let s1 := s.modThread g m.2 m.1 fun t => putP r.pd p (putV r.vd x t)
  setBracket s1 g m r.brk (setSt (setSt (s1.bracket g m r.brk) 11 2 outc) 10 1 side)

/-- Lanes that have nothing more to evaluate finish. -/
def finishSome (s : State) (g : Nat) (r : InvRun) : State × List (Nat × Nat × Word) :=
  r.lanes.foldl (fun q x =>
    match nextPoint r.dom r.fall r.tol r.budget (q.1.bracket g (x.1, x.2.1) r.brk) x.2.2 with
    | .finish y p o sd => (finishLane q.1 g r (x.1, x.2.1) y p o sd, q.2)
    | _ => (q.1, q.2 ++ [x])) (s, [])

def setRun (s : State) (g : Nat) (r : InvRun) : State :=
  s.modGroup g fun x => { x with invs := x.invs.map fun y => if y.id = r.id then r else y }
def dropRun (s : State) (g id : Nat) : State := s.modGroup g fun x => { x with invs := x.invs.filter fun y => y.id != id }

/-- The clocks of a round: the body's issues, and 4 for the compare and the update (R132). -/
def roundClocks (s : State) (body : Nat) : Nat := s.clock + body + 4

/-- The wave of a pair issues nothing before a clock. -/
def holdPair (s : State) (g : Nat) (r : InvRun) (next : Nat) : State :=
  modSel s g r.w r.fid fun y => { y with next := max y.next next }

/-- The pair completes: ACT clears in every lane, and the issuing threads go on after the CALLM. -/
def endPair (s : State) (g : Nat) (r : InvRun) : State :=
  let s1 := r.active.foldl (fun s m => setBracket s g m r.brk (setSt (s.bracket g m r.brk) stAct 1 0)) (dropRun s g r.id)
  r.issue.foldl (fun s m => s.modThread g m.2 m.1 fun t => if t.st = .ready ∧ t.pc = r.pc then { t with pc := r.pc + 24 } else t) s1

/-- One round of a pair: every lane that searches evaluates f at most once; a trap ends the pair with the round (R131). -/
def invRound (s : State) (g : Nat) (r : InvRun) : State :=
  let at_ (x : Nat × Nat × Word) : Nat × Nat := (x.1, x.2.1)
  let point (x : Nat × Nat × Word) : NextPoint := nextPoint r.dom r.fall r.tol r.budget (s.bracket g (at_ x) r.brk) x.2.2
  let pts := r.lanes.filterMap fun x => match point x with | .eval p => some (at_ x, p) | _ => none
  let early := r.lanes.filter fun x => point x == .trap
  let ev := evaluate s g r pts
  let s1 := ev.st
  let fs := ev.fails
  let next := roundClocks s ev.clocks
  let upd := r.lanes.filterMap fun x =>
    (aget ev.vals (at_ x)).bind fun y => (aget pts (at_ x)).map fun p =>
      (at_ x, p, y, evalled r.dom r.fall (s1.bracket g (at_ x) r.brk) x.2.2 p y)
  let s2 := upd.foldl (fun s u => match u.2.2.2 with | some b => setBracket s g u.1 r.brk b | none => s) s1
  let bad := upd.filter fun u => u.2.2.2.isNone
  let (fw, s3) := s2.freeWord
  let mono := early.map (fun x => (⟨at_ x, 0x0B, r.brk, fw⟩ : LaneFail)) ++
    bad.map fun u => ⟨u.1, 0x0B, r.brk, (u.2.2.1 ++ u.2.1 : DWord)⟩
  let fails := mono ++ fs.map fun f => { f with sub := r.brk }
  let gone := fails.map (·.at_)
  let (s4, rest) := finishSome (if early.isEmpty then s2 else s3) g { r with lanes := r.lanes.filter fun x => !gone.contains (at_ x) }
  if !fails.isEmpty then
    let t := failTrap s4 fails []
    takeTrap (dropRun s4 g r.id) g { t with inv := true, sub := r.brk, pc := r.pc, word := r.word, frm := r.fid.isSome }
  else if rest.isEmpty then endPair (if pts.isEmpty then s4 else holdPair s4 g r next) g r
  else setRun s4 g { r with lanes := rest, next := next }

/-- A round waits for scalar loads and matrix operations that still write what its body reads (03 R43, R117). -/
def bodyWaits (s : State) (g : Nat) (r : InvRun) : Bool :=
  (wavesOf r.active).any fun w =>
    let v := s.wave g w
    (List.range r.len).any fun i =>
      match decodeAt s g w (r.body + 12 * i) with
      | some j => v.sPending.any (fun p => (readsS j).contains p.1) || v.accPending.any fun p => (readsV j).contains p.1
      | none => false

def execInvRound (g i : Nat) (s : State) : Out :=
  match (s.group g).invs.find? fun r => r.id == i with
  | some r => if s.clock < r.next ∨ bodyWaits s g r then .next s else .next (invRound s g r)
  | none => .next s

end Sys2Proof.Machine
end

