-- ==== Sys2Proof/Machine/Lane.lean ====
section
/-! DEFINITION. Group 0x07, lane instructions (06 R103 to R106, Table 6-7). -/

namespace Sys2Proof.Machine

/-- Operand x at position Q of the issuing wave; a position with no thread reads 0 (R103). -/
def posSrc (s : State) (q : Nat) (x : Opnd) : Word :=
  match s.cur.positions.find? fun m => m.1 == q with
  | some m => src s m x
  | none => 0

/-- The mask over which a lane instruction combines (R104): with a uniform destination, the home wave's own lanes. -/
def combining (a : Opnd) (act : List (Nat × Nat)) (m : Nat × Nat) : List (Nat × Nat) :=
  if isUniform a then act.filter fun x => x.2 == m.2 else act

/-- Write the result of a lane instruction, latency 8 on either datapath. -/
def computeL (k : Ctl) (a : Opnd) (f : State → Nat × Nat → Word) (s : State) : State :=
  let act := actives k s
  if isUniform a then (wavesOf act).foldl (fun t w => wrDst t 8 (0, w) a (f s (leadOf act w))) (advance s)
  else act.foldl (fun t m => wrDst t 8 m a (f s m)) (advance s)

def execShfl (k : Ctl) (a b c : Opnd) (s : State) : Out :=
  .next (computeL k a (fun s m => posSrc s ((src s m c).toNat % 32) b) s)
def execShflup (k : Ctl) (a b c : Opnd) (s : State) : Out :=
  .next (computeL k a (fun s m =>
    if (src s m c).toNat ≤ m.1 then posSrc s (m.1 - (src s m c).toNat) b else src s m b) s)
def execShfldn (k : Ctl) (a b c : Opnd) (s : State) : Out :=
  .next (computeL k a (fun s m =>
    if m.1 + (src s m c).toNat ≤ 31 then posSrc s (m.1 + (src s m c).toNat) b else src s m b) s)
def execShflx (k : Ctl) (a b c : Opnd) (s : State) : Out :=
  .next (computeL k a (fun s m => posSrc s (m.1 ^^^ ((src s m c).toNat % 32)) b) s)
def execBcast (k : Ctl) (a b c : Opnd) (s : State) : Out :=
  .next (computeL k a (fun s m => posSrc s ((src s m c).toNat % 32) b) s)

def vote (mode : VoteMode) (ps : List Bool) : Bool :=
  match mode with
  | .all => ps.all id
  | .any => ps.any id
  | .uni => ps.all id || !(ps.any id)

def execVote (k : Ctl) (a b : Opnd) (mode : VoteMode) (s : State) : Out :=
  .next (computeL k a (fun s m => wordOfBool (vote mode ((combining a (actives k s) m).map fun x => srcP s x b))) s)
def execBallot (k : Ctl) (a b : Opnd) (s : State) : Out :=
  .next (computeL k a (fun s m => maskOf (((combining a (actives k s) m).filter fun x => srcP s x b).map (·.1))) s)
def execRfl (k : Ctl) (a b : Opnd) (s : State) : Out :=
  .next (computeL k a (fun s m => src s ((combining a (actives k s) m).headD m) b) s)
def execRlane (k : Ctl) (a b c : Opnd) (s : State) : Out :=
  .next (computeL k a (fun s m =>
    let l := (src s m c).toNat % 32
    if l < (s.wave s.cur.g m.2).threads.length then src s (l, m.2) b else 0) s)

/-- The home lane that a lane of WLANE names. -/
def wlaneTarget (c : Opnd) (s : State) (m : Nat × Nat) : Nat := (src s m c).toNat % 32

/-- The lanes of WLANE whose write stands: of several with one target, the highest position; none at or above sr.wsize. -/
def wlaneWinners (c : Opnd) (act : List (Nat × Nat)) (s : State) : List (Nat × Nat) :=
  act.filter fun m =>
    wlaneTarget c s m < (s.wave s.cur.g m.2).threads.length &&
      !(act.any fun x => x.2 == m.2 && m.1 < x.1 && wlaneTarget c s x == wlaneTarget c s m)

/-- A register that an operation of the other path, issued in this clock, has still to write keeps WLANE's value. -/
def loseRow (s : State) (m : Nat × Nat) (n : Nat) : State :=
  let mine (x : Sender) : Bool := x == .thread s.cur.g m.2 m.1
  { s with
    accesses := s.accesses.map fun a =>
      if a.g = s.cur.g ∧ a.w = m.2 ∧ a.clock = s.clock ∧ a.kind ≠ .sload then
        { a with lanes := a.lanes.map fun o => if o.lane = m.1 then { o with dst := dropRow n o.dst } else o }
      else a
    nameOps := s.nameOps.map fun o => if mine o.sender ∧ o.born = s.clock then { o with dst := dropDst n o.dst } else o
    joins := s.joins.map fun j => if mine j.sender ∧ j.born = s.clock then { j with dst := dropDst n j.dst, sdst := dropDst n j.sdst } else j
    takes := s.takes.map fun o =>
      if o.g = s.cur.g ∧ o.born = s.clock ∧ o.lanes.contains m then { o with spared := o.spared ++ [(m.1, m.2, n)] } else o
    matrix := s.matrix.map fun o =>
      if o.g = s.cur.g ∧ o.w = m.2 ∧ o.fresh.any (fun x => x.1 == s.clock && x.2.contains m.1) then
        { o with writes := o.writes.filter fun x => !(x.1 == m.1 && x.2.1 == n) }
      else o }

/-- Keep what WLANE writes into a row, for the rest of the clock (R106). -/
def keepLaneW (s : State) (m : Nat × Nat) (n : Nat) (x : Word) : State :=
  (loseRow s m n).modThread s.cur.g m.2 m.1 fun t =>
    { t with laneW := (t.laneW.filter fun e => e.2.2 == s.clock && e.1 != n) ++ [(n, x, s.clock)] }

/-- WLANE: each lane writes the row of home lane c<4:0> of its own home wave (R106). -/
def wlane (k : Ctl) (a b c : Opnd) (s : State) : State :=
  match a with
  | .v n => (wlaneWinners c (actives k s) s).foldl
      (fun t m => keepLaneW (wrV t 8 (wlaneTarget c s m, m.2) n.toNat (src s m b)) (wlaneTarget c s m, m.2) n.toNat (src s m b)) (advance s)
  | _ => advance s

def execWlane (k : Ctl) (a b c : Opnd) (s : State) : Out := .next (wlane k a b c s)

def redOp (op : RedOp) (u : Bool) (x y : Word) : Word :=
  match op with
  | .add => x + y
  | .min => minW u x y
  | .max => maxW u x y
  | .and => x &&& y
  | .or => x ||| y
  | .xor => x ^^^ y

/-- The combination of a list that holds at least one value. -/
def reduce (op : RedOp) (u : Bool) : List Word → Word
  | [] => 0
  | x :: rest => rest.foldl (redOp op u) x

def execRedux (k : Ctl) (a b : Opnd) (op : RedOp) (u : Bool) (s : State) : Out :=
  .next (computeL k a (fun s m => reduce op u ((combining a (actives k s) m).map fun x => src s x b)) s)

def matching (all : Bool) (s : State) (ms : List (Nat × Nat)) (m : Nat × Nat) (b : Opnd) : Word :=
  if all then
    (if ms.all (fun x => src s x b == src s (ms.headD m) b) then maskOf (ms.map (·.1)) else 0)
  else maskOf ((ms.filter fun x => src s x b == src s m b).map (·.1))

def execMatchLanes (k : Ctl) (a b : Opnd) (all : Bool) (s : State) : Out :=
  .next (computeL k a (fun s m => matching all s (combining a (actives k s) m) m b) s)

end Sys2Proof.Machine
end

