-- ==== Sys2Proof/Machine/Network.lean ====
section
/-! DEFINITION. The network engine: work requests, incoming packets, completion counters and armed wakes (15 R352 to R362). -/

namespace Sys2Proof.Machine

/-! ### Work requests (R354, R359, Table 15-6) -/

def wrOp (b : List Byte) : Nat := le b 0 1
def wrLsp (b : List Byte) : Bool := bit (le b 1 1) 0
def wrNcc (b : List Byte) : Bool := bit (le b 1 1) 1
def wrCc (b : List Byte) : Nat := le b 2 1
def wrLen (b : List Byte) : Nat := le b 4 4
def wrLaddr (b : List Byte) : Nat := le b 8 8
def wrRoff (b : List Byte) : Nat := le b 0x30 8
def lenMax (op : Nat) : Nat := if op = 3 then 4032 else if op = 4 then 4096 else 2 ^ 30

/-- The checks of a request's fields, in the order of R359. -/
def wrCheck (b : List Byte) (scratch : Nat) : Option (Nat × Nat) :=
  if wrOp b = 0 ∨ 4 < wrOp b ∨ 4 ≤ le b 1 1 ∨ 63 < wrCc b ∨ 2 ^ 24 ≤ le b 0x20 4 ∨ 4096 ≤ le b 0x24 2 ∨ 4096 ≤ le b 0x26 2 ∨
      (3 ≤ wrOp b ∧ (le b 0x28 8 ≠ 0 ∨ wrRoff b ≠ 0)) ∨ le b 0x38 8 ≠ 0 then some (0x1B, 5)
  else if wrLen b = 0 ∨ lenMax (wrOp b) < wrLen b then some (0x1B, 2)
  else if wrLsp b ∧ scratch < wrLaddr b + wrLen b then some (0x14, 0)
  else none

/-- The request at a scratchpad offset, or the check that refuses it. -/
def wrAt (x : Group) (o : Nat) : (Nat × Nat) ⊕ List Byte :=
  match scratchCheck x o 64 true with
  | some e => .inl e
  | none => .inr (scratchRead x o 64)

/-- One post: the lane that posts and what its checks gave. -/
structure Post where
  m : Nat × Nat
  off : Nat
  res : (Nat × Nat) ⊕ List Byte

/-- A request behind the checks of its fields. -/
def postChecked (x : Group) (r : (Nat × Nat) ⊕ List Byte) : (Nat × Nat) ⊕ List Byte :=
  match r with
  | .inl e => .inl e
  | .inr b => match wrCheck b x.hdr.scratch with | some e => .inl e | none => .inr b

/-- Hand requests to the engine; rm rises once for each home wave that posts. -/
def handOver (s : State) (ps : List Post) : State :=
  let g := s.cur.g
  let t := (wavesOf (ps.map (·.m))).foldl (fun r w =>
    let (id, u) := opStart r.1 g w 4 ((ps.filter fun p => p.m.2 == w).length)
    (u, r.2 ++ [(w, id)])) (advance s, ([] : List (Nat × Nat)))
  ps.foldl (fun u p =>
    match p.res with
    | .inr b =>
      { u with nextId := u.nextId + 1
               netReqs := u.netReqs ++ [{ id := u.nextId, ctx := s.cg.ctx, g := g, w := p.m.2, lane := p.m.1, op := nmOp t.2 p.m.2,
                                          pc := s.cur.pc, wr := b, accepted := none, placed := [] }] }
    | .inl _ => u) t.1

/-- Post, or trap for the lanes of the posts that a check refuses; `lanes` are the issuing lanes that a post stands for. -/
def postOrTrap (s : State) (ps : List Post) (lanes : Post → List (Nat × Nat)) : Out :=
  let fs := ps.flatMap fun p =>
    match p.res with
    | .inl (c, sub) => (lanes p).map fun m => (⟨m, c, sub, BitVec.ofNat 64 p.off⟩ : LaneFail)
    | .inr _ => []
  if fs.isEmpty then .next (handOver s ps) else .next (trapFails s fs [])

/-- NPOST: one post for each home wave with a uniform offset (R38: any class but a vector), one for each lane with a vector
offset. -/
def execNpost (k : Ctl) (b : Opnd) (s : State) : Out :=
  let act := actives k s
  let one (m : Nat × Nat) : Post := let o := (src s m b).toNat; { m := m, off := o, res := postChecked s.cg (wrAt s.cg o) }
  if !isVector b then
    postOrTrap s ((wavesOf act).map fun w => one (leadOf act w)) fun p => act.filter fun m => m.2 == p.m.2
  else postOrTrap s (act.map one) fun p => [p.m]

/-- The template's copy for one lane (R360). -/
def readCopy (t : List Byte) (loff : Word) (roff : DWord) (len : Option Nat) : List Byte :=
  t.take 4 ++ toBytes 4 (len.getD (wrLen t)) ++ toBytes 8 ((wrLaddr t + loff.toNat) % 2 ^ 64) ++ (t.drop 16).take 0x20 ++
    toBytes 8 ((wrRoff t + roff.toNat) % 2 ^ 64) ++ t.drop 0x38

/-- NREAD: each lane posts its own copy of the template. -/
def execNread (k : Ctl) (a b c d : Opnd) (s : State) : Out :=
  let act := actives k s
  let one (m : Nat × Nat) : Post :=
    let o := (src s m b).toNat
    let r := match wrAt s.cg o with
      | .inl e => .inl e
      | .inr t =>
        if wrOp t ≠ 2 then .inl (0x1B, 5)
        else .inr (readCopy t (src s m a) (src64 s m c) (if d = .null then none else some (src s m d).toNat))
    { m := m, off := o, res := postChecked s.cg r }
  postOrTrap s (act.map one) fun p => [p.m]

/-! ### Counters and arms (R357, R361, R362) -/

/-- The counter that a class-5 operand names. -/
def netCc : Opnd → Nat
  | .res (.cc n) => n.toNat
  | _ => 0
def ccOf (s : State) (ctx cc : Nat) : Nat := mgetD (s.ctx ctx).cc cc 0

/-- The wake of an arm: the rights were taken at arming. -/
def fireArm (s : State) (ctx : Nat) (a : Arm) : State :=
  let die := dieOf (s.group a.g)
  match nameLookup s die ctx a.ref with
  | none => armReport s a.g a.lane a.pc a.ref
  | some f =>
    if refGc a.ref ∧ refGen a.ref ≠ nteGen f.entry ∨ nteState f.entry ≠ 6 ∧ nameGone s f a.ref false then armReport s a.g a.lane a.pc a.ref
    else
      let notify := nteState f.entry = 6
      postName s
        { id := 0, sender := .arm a.g a.lane a.pc a.ref, op := 0, act := .wake
          target := some (if notify then .notify (f.entry / 2 ^ 128 % 4096) else .group f.ctx f.num (refThread a.ref) false)
          remote := if notify ∨ nteDev f.entry = s.device % 2 ^ 22 then none else some (nteDev f.entry)
          dst := .null, status := none, trap := false, pc := a.pc, word := 0, ref := a.ref, asked := s.ns }

/-- A counter rises, and the arms that it reaches send their wakes and free their slots. -/
def ccRise (s : State) (ctx cc : Nat) : State :=
  let v := ccOf s ctx cc + 1
  let hit (a : Arm) : Bool := a.cc == cc && a.n ≤ v
  let due := (s.ctx ctx).arms.filter hit
  let s1 := s.modCtx ctx fun c => { c with cc := mput c.cc cc v, arms := c.arms.filter fun a => !hit a }
  due.foldl (fun s a => fireArm s ctx a) s1

def execNwait (k : Ctl) (b c : Opnd) (s : State) : Out :=
  .next ((actives k s).foldl (fun t m =>
    let n := (src64 s m c).toNat
    if n ≤ ccOf s s.cg.ctx (netCc b) then t else holdAt t m (.net (netCc b) n)) (advance s))

/-- One lane of NARM after its lookup. -/
def armLane (s t : State) (a b c d : Opnd) (m : Nat × Nat) (r : NameRes ⊕ Found) : State :=
  let g := s.cur.g
  let put (t : State) (n : Nat) : State := putResult t g m.2 m.1 a (BitVec.ofNat 32 n)
  match r with
  | .inl (.status n) => put t n
  | .inl _ => t
  | .inr f =>
    let n := (src64 s m c).toNat
    let target := if nteState f.entry = 6 then Target.notify (f.entry / 2 ^ 128 % 4096) else .group f.ctx f.num (refThread (src64 s m d)) false
    let x : Arm := { g := g, lane := m.1, pc := s.cur.pc, cc := netCc b, n := n, target := target, ref := src64 s m d }
    if n ≤ ccOf t s.cg.ctx (netCc b) then put (fireArm t s.cg.ctx x) 1
    else if 4096 ≤ (t.ctx s.cg.ctx).arms.length then put t 5
    else put (t.modCtx s.cg.ctx fun c => { c with arms := c.arms ++ [x] }) 0

def execNarm (k : Ctl) (a b c d : Opnd) (trap : Bool) (s : State) : Out :=
  let act := actives k s
  let rs := act.map fun m => (m, nameFound s (dieOf s.cg) s.cg.ctx (src64 s m d) .wake trap)
  let fs := nameFails (rs.filterMap fun r => match r.2 with | .inl x => some (r.1, x) | .inr _ => none)
  if !fs.isEmpty then .next (trapFails s fs [])
  else .next (rs.foldl (fun t r => armLane s t a b c d r.1 r.2) (advance s))

/-! ### The engine's accesses to a context's memory (R353, R355) -/

/-- What a range of virtual memory gives the engine: its runs as (translation, bytes), or why not. -/
inductive NetRuns where
  | ok (l : List (Trans × Nat))
  | refuse
  | stall (va : Nat)
  | absent (pa : Nat)
  deriving DecidableEq, Repr

/-- The engine walks; a private page is reached at the core that owns it. -/
def netCheck (s : State) (ctx va : Nat) (acc : Acc) : Check :=
  if !canonical va then .fail 0x11 1
  else
    match walk s (s.ctx ctx) va with
    | .error (.invalid sub) => .fail 0x11 sub
    | .error (.npk false _) => .park .notPresent
    | .error (.npk true _) => .park .migrating
    | .ok t => checkTrans s ctx t.owner acc t

def netRuns (s : State) (ctx : Nat) (acc : Acc) : List (Nat × Nat) → NetRuns
  | [] => .ok []
  | (va, n) :: rest =>
    match netCheck s ctx (va % 2 ^ 64) acc with
    | .fail _ _ => .refuse
    | .park _ => if refusedPage s ctx (va % 2 ^ 64) then .refuse else .stall (va % 2 ^ 64)
    | .absent pa => .absent pa
    | .ok t =>
      if (farFail s ctx t acc.writes).isSome || (!acc.writes && (poisoned s t.space t.pa n).isSome) then .refuse
      else
        match netRuns s ctx acc rest with
        | .ok l => .ok ((t, n) :: l)
        | r => r

def netWrite (s : State) : List (Trans × Nat) → List Byte → State
  | [], _ => s
  | (t, n) :: rest, bs => netWrite (unpoison (s.memoryWrite t.space t.pa (bs.take n)) t.space t.pa n) rest (bs.drop n)

/-- A page that stalls the engine is served. -/
def netServe (s : State) (ctx va : Nat) (acc : Acc) : State :=
  match netCheck s ctx va acc with
  | .park .notPresent => requestPage s ctx va
  | .park .upgrade => upgradePage s ctx va
  | .park .log => logPage s ctx va
  | _ => s

/-! ### Requests of the context (R355, R356) -/

def setReq (s : State) (id : Nat) (f : NetReq → NetReq) : State :=
  { s with netReqs := s.netReqs.map fun r => if r.id = id then f r else r }
def dropReq (s : State) (id : Nat) : State := { s with netReqs := s.netReqs.filter fun r => r.id != id }

/-- Acceptance: while fewer than 4,096 requests of the context are accepted. -/
def execWorkRequestAccept (id : Nat) (s : State) : Out :=
  match s.netReqs.find? fun r => r.id == id && r.accepted.isNone with
  | none => .next s
  | some r =>
    if 4096 ≤ (s.netReqs.filter fun q => q.ctx == r.ctx && q.accepted.isSome).length then .next s
    else .next (opEnds (setReq s id fun q => { q with accepted := some s.ns }) r.op)

/-- The end of a request: its counter rises, unless NCC is set. -/
def endReq (s : State) (r : NetReq) : State :=
  let s1 := dropReq s r.id
  if wrNcc r.wr then s1 else ccRise s1 r.ctx (wrCc r.wr)

/-- Free bytes in place of a run. -/
def freeBytes : Nat → State → List Byte × State
  | 0, s => ([], s)
  | n + 1, s =>
    let (w, s1) := s.freeWord
    let (bs, s2) := freeBytes n s1
    (w.truncate 8 :: bs, s2)

/-- Undefined bytes at the destination of a read that failed. -/
def looseRead (s : State) (r : NetReq) : State :=
  let (bs, s1) := freeBytes (wrLen r.wr) s
  if wrLsp r.wr then
    (if (s.group r.g).place = .dead then s1 else scratchWrite s1 r.g (wrLaddr r.wr) bs)
  else
    match netRuns s1 r.ctx .w (spansOf (wrLaddr r.wr) (wrLen r.wr)) with
    | .ok l => netWrite s1 l bs
    | _ => s1

/-- The report of a request that failed (code 6) or was refused (code 7). -/
def reqReport (s : State) (r : NetReq) (code : Nat) : State :=
  if (mget s.groups r.g).isSome ∧ (s.group r.g).place ≠ .dead then report s r.g code r.lane (wrCc r.wr) r.pc (wrLaddr r.wr) 0 0
  else pushErr s r.ctx (toBytes 2 code ++ toBytes 1 r.lane ++ toBytes 1 (wrCc r.wr) ++ toBytes 4 r.pc ++ toBytes 8 (wrLaddr r.wr)) 0 none

def failReq (s : State) (r : NetReq) (code : Nat) : State :=
  endReq (reqReport (if wrOp r.wr = 2 then looseRead s r else s) r code) r

/-- Whether placed runs cover the first `n` bytes, from `p` on. -/
def covers (l : List (Nat × Nat)) (n : Nat) : Nat → Nat → Bool
  | 0, p => n ≤ p
  | f + 1, p => n ≤ p || covers l n f ((l.filter fun x => x.1 ≤ p).foldl (fun q x => max q (x.1 + x.2)) p)

/-- A ring's released count rises (op 4). -/
def releaseSlots (s : State) (r : NetReq) : Option State :=
  match mget (s.ctx r.ctx).regs (wrLaddr r.wr % 4096) with
  | some (.ring tag base k cc count rel) =>
    some (s.modCtx r.ctx fun c => { c with regs := mput c.regs (wrLaddr r.wr % 4096) (.ring tag base k cc count (rel + BitVec.ofNat 32 (wrLen r.wr))) })
  | _ => none

/-- The last acknowledgement of a request: it is complete once every byte is placed. A local buffer that a check refuses fails
the request. -/
def execNetworkAck (id : Nat) (s : State) : Out :=
  match s.netReqs.find? fun r => r.id == id && r.accepted.isSome with
  | none => .next s
  | some r =>
    if wrOp r.wr = 4 then (match releaseSlots s r with | some s1 => .next (endReq s1 r) | none => .next s)
    else if wrOp r.wr = 2 then
      (if covers r.placed (wrLen r.wr) (r.placed.length + 1) 0 then .next (endReq s r) else .next s)
    else if wrLsp r.wr then
      (if (scratchPoisoned (s.group r.g) (wrLaddr r.wr) (wrLen r.wr)).isSome then .next (failReq s r 6) else .next (endReq s r))
    else
      match netRuns s r.ctx .r (spansOf (wrLaddr r.wr) (wrLen r.wr)) with
      | .ok _ => .next (endReq s r)
      | .refuse => .next (failReq s r 6)
      | .stall va => .next (netServe s r.ctx va .r)
      | .absent pa => .fault (.absentMemory pa)

/-- A packet of a request: how often it was resent and when it was last sent. One that was never resent was sent at acceptance. -/
def NetReq.packetOf (r : NetReq) (pkt : Nat) : Nat × Nat :=
  ((r.packets.find? fun p => p.1 == pkt).map (·.2)).getD (0, r.accepted.getD 0)

/-- The packet that lacks its acknowledgement is resent; its timeout doubles. A negative acknowledgement or a trimmed packet has it
resent at once (Table 15-5). -/
def execNetworkRetransmit (id : Nat) (s : State) : Out :=
  match s.netReqs.find? fun r => r.id == id && r.accepted.isSome with
  | none => .next s
  | some r =>
    let pkt := r.lacks.1
    let (n, sent) := r.packetOf pkt
    if n < 8 ∧ (r.lacks.2 ∨ sent + 50000 * 2 ^ n ≤ s.ns) then
      .next (setReq s id fun q =>
        { q with packets := (pkt, n + 1, s.ns) :: q.packets.filter fun p => p.1 != pkt, lacks := (pkt, false) })
    else .next s

/-- A request fails after eight resends of one of its packets or 20 ms, or when its target refuses it. -/
def execNetworkRequestFail (id : Nat) (refused : Bool) (s : State) : Out :=
  match s.netReqs.find? fun r => r.id == id with
  | none => .next s
  | some r =>
    match r.accepted with
    | none => .next s
    | some t =>
      if refused then (if wrOp r.wr = 4 then .next s else .next (failReq s r 7))
      else if (r.packets.any fun p => 8 ≤ p.2.1) ∨ t + 20000000 ≤ s.ns then .next (failReq s r 6) else .next s

/-! ### Incoming packets (R353) -/

/-- The registration that a key names, with its tag. -/
def regOf (s : State) (ctx : Nat) (key : DWord) : Option (DWord × DWord × Bool × Bool × Option (BitVec 6)) :=
  match mget (s.ctx ctx).regs (key.toNat % 4096) with
  | some (.region tag base len r w cc) => if tag.toNat = key.toNat / 4096 then some (base, len, r, w, cc) else none
  | _ => none

/-- Bytes of an RMA write to a region with the right. -/
def placeWrite (s : State) (ctx : Nat) (key off : DWord) (data : List Byte) (last : Bool) : Out :=
  match regOf s ctx key with
  | some (base, len, _, true, cc) =>
    if len.toNat < off.toNat + data.length then .next s
    else
      (match netRuns s ctx .w (spansOf (base.toNat + off.toNat) data.length) with
       | .ok l =>
         let s1 := netWrite s l data
         .next (match last, cc with | true, some k => ccRise s1 ctx k.toNat | _, _ => s1)
       | .refuse => .next s
       | .stall va => .next (netServe s ctx va .w)
       | .absent pa => .fault (.absentMemory pa))
  | _ => .next s

/-- An RMA read leaves nothing behind but the service of a page that stalls it. -/
def answerRead (s : State) (ctx : Nat) (key off : DWord) (len : Nat) : Out :=
  match regOf s ctx key with
  | some (base, n, true, _, _) =>
    if n.toNat < off.toNat + len then .next s
    else
      (match netRuns s ctx .r (spansOf (base.toNat + off.toNat) len) with
       | .stall va => .next (netServe s ctx va .r)
       | .absent pa => .fault (.absentMemory pa)
       | _ => .next s)
  | _ => .next s

/-- A send to a receive ring with an unreleased slot to spare. -/
def placeSend (s : State) (ctx ri : Nat) (job : Word) (data : List Byte) : Out :=
  match mget (s.ctx ctx).regs ri with
  | some (.ring tag base k cc count rel) =>
    if 4032 < data.length ∨ 2 ^ k.toNat ≤ (count - rel).toNat then .next s
    else
      let at_ := base.toNat + 4096 * (count.toNat % 2 ^ k.toNat)
      let bs := toBytes 4 data.length ++ toBytes 4 job.toNat ++ List.replicate 56 0#8 ++ data
      (match netRuns s ctx .w (spansOf at_ bs.length) with
       | .ok l =>
         let s1 := (netWrite s l bs).modCtx ctx fun c => { c with regs := mput c.regs ri (.ring tag base k cc (count + 1) rel) }
         .next (ccRise s1 ctx cc.toNat)
       | .refuse => .next s
       | .stall va => .next (netServe s ctx va .w)
       | .absent pa => .fault (.absentMemory pa))
  | _ => .next s

/-- Bytes of a reply to a read of the context, placed at LADDR. -/
def placeReply (s : State) (ctx req off : Nat) (data : List Byte) : Out :=
  match s.netReqs.find? fun r => r.id == req && r.ctx == ctx && r.accepted.isSome && wrOp r.wr == 2 with
  | none => .next s
  | some r =>
    let done (s : State) : State := setReq s req fun q => { q with placed := q.placed ++ [(off, data.length)] }
    if data.isEmpty ∨ wrLen r.wr < off + data.length then .next s
    else if wrLsp r.wr then
      .next (if (s.group r.g).place = .dead then done s else scratchWrite (done s) r.g (wrLaddr r.wr + off) data)
    else
      match netRuns s ctx .w (spansOf (wrLaddr r.wr + off) data.length) with
      | .ok l => .next (netWrite (done s) l data)
      | .refuse => .next (failReq s r 6)
      | .stall va => .next (netServe s ctx va .w)
      | .absent pa => .fault (.absentMemory pa)

/-- A packet for a context: one that no registration admits is refused, and the context sees nothing. -/
def execNetworkPacketArrival (ctx : BitVec 16) (p : NetPacket) (s : State) : Out :=
  let c := ctx.toNat
  match p with
  | .rmaWrite key off data last => placeWrite s c key off data last
  | .rmaRead key off len => answerRead s c key off len
  | .send ri job data => placeSend s c ri.toNat job data
  | .readReply req off data => placeReply s c req off data
  | .other => .next { s with netDropped := s.netDropped + 1 }

end Sys2Proof.Machine
end

