-- ==== Sys2Proof/Machine/Dispatch.lean ====
section
/-! DEFINITION. The meaning of every step, one arm for each constructor. -/

namespace Sys2Proof.Machine

/-- What an instruction or an event does in a state. -/
def exec (i : Instr) (s : State) : Host.Outcome State Fault Refusal :=
  match i with
  | .iadd k a b c => Sys2Proof.Machine.execIadd k a b c s
  | .isub k a b c => Sys2Proof.Machine.execIsub k a b c s
  | .imul k a b c => Sys2Proof.Machine.execImul k a b c s
  | .imulhi k a b c u => Sys2Proof.Machine.execImulhi k a b c u s
  | .imad k a b c d => Sys2Proof.Machine.execImad k a b c d s
  | .imin k a b c u => Sys2Proof.Machine.execImin k a b c u s
  | .imax k a b c u => Sys2Proof.Machine.execImax k a b c u s
  | .iabs k a b => Sys2Proof.Machine.execIabs k a b s
  | .ineg k a b => Sys2Proof.Machine.execIneg k a b s
  | .iaddc k a b c d => Sys2Proof.Machine.execIaddc k a b c d s
  | .isubb k a b c d => Sys2Proof.Machine.execIsubb k a b c d s
  | .iaddsat k a b c u => Sys2Proof.Machine.execIaddsat k a b c u s
  | .idot4 k a b c d u sat => Sys2Proof.Machine.execIdot4 k a b c d u sat s
  | .isad k a b c d u => Sys2Proof.Machine.execIsad k a b c d u s
  | .iadd64 k a b c => Sys2Proof.Machine.execIadd64 k a b c s
  | .imad64 k a b c d u => Sys2Proof.Machine.execImad64 k a b c d u s
  | .and k a b c => Sys2Proof.Machine.execAnd k a b c s
  | .or k a b c => Sys2Proof.Machine.execOr k a b c s
  | .xor k a b c => Sys2Proof.Machine.execXor k a b c s
  | .not k a b => Sys2Proof.Machine.execNot k a b s
  | .andn k a b c => Sys2Proof.Machine.execAndn k a b c s
  | .shl k a b c => Sys2Proof.Machine.execShl k a b c s
  | .shr k a b c => Sys2Proof.Machine.execShr k a b c s
  | .sar k a b c => Sys2Proof.Machine.execSar k a b c s
  | .rot k a b c right => Sys2Proof.Machine.execRot k a b c right s
  | .bfe k a b c sx => Sys2Proof.Machine.execBfe k a b c sx s
  | .bfi k a b c d => Sys2Proof.Machine.execBfi k a b c d s
  | .popc k a b => Sys2Proof.Machine.execPopc k a b s
  | .clz k a b => Sys2Proof.Machine.execClz k a b s
  | .brev k a b => Sys2Proof.Machine.execBrev k a b s
  | .tern k a b c d tt => Sys2Proof.Machine.execTern k a b c d tt s
  | .perm k a b c d => Sys2Proof.Machine.execPerm k a b c d s
  | .icmp k a b c cc u => Sys2Proof.Machine.execIcmp k a b c cc u s
  | .fcmp k a b c cc => Sys2Proof.Machine.execFcmp k a b c cc s
  | .sel k a b c d => Sys2Proof.Machine.execSel k a b c d s
  | .ptern k a b c d tt => Sys2Proof.Machine.execPtern k a b c d tt s
  | .p2v k a b cnt => Sys2Proof.Machine.execP2v k a b cnt s
  | .v2p k a b cnt => Sys2Proof.Machine.execV2p k a b cnt s
  | .mov k a b => Sys2Proof.Machine.execMov k a b s
  | .movx k a b => Sys2Proof.Machine.execMovx k a b s
  | .fclass k a b w => Sys2Proof.Machine.execFclass k a b w s
  | .fadd k a b c rm sat => Sys2Proof.Machine.execFadd k a b c rm sat s
  | .fsub k a b c rm sat => Sys2Proof.Machine.execFsub k a b c rm sat s
  | .fmul k a b c rm sat => Sys2Proof.Machine.execFmul k a b c rm sat s
  | .ffma k a b c d rm sat => Sys2Proof.Machine.execFfma k a b c d rm sat s
  | .fmin k a b c => Sys2Proof.Machine.execFmin k a b c s
  | .fmax k a b c => Sys2Proof.Machine.execFmax k a b c s
  | .frcp k a b rm sat => Sys2Proof.Machine.execFrcp k a b rm sat s
  | .frsq k a b => Sys2Proof.Machine.execFrsq k a b s
  | .fsqrt k a b rm sat => Sys2Proof.Machine.execFsqrt k a b rm sat s
  | .fdiv k a b c rm sat => Sys2Proof.Machine.execFdiv k a b c rm sat s
  | .fexp2 k a b => Sys2Proof.Machine.execFexp2 k a b s
  | .flog2 k a b => Sys2Proof.Machine.execFlog2 k a b s
  | .fsin k a b => Sys2Proof.Machine.execFsin k a b s
  | .fcos k a b => Sys2Proof.Machine.execFcos k a b s
  | .ftanh k a b => Sys2Proof.Machine.execFtanh k a b s
  | .ffrac k a b rm sat => Sys2Proof.Machine.execFfrac k a b rm sat s
  | .hadd2 k a b c rm sat => Sys2Proof.Machine.execHadd2 k a b c rm sat s
  | .hmul2 k a b c rm sat => Sys2Proof.Machine.execHmul2 k a b c rm sat s
  | .hfma2 k a b c d rm sat => Sys2Proof.Machine.execHfma2 k a b c d rm sat s
  | .hmin2 k a b c => Sys2Proof.Machine.execHmin2 k a b c s
  | .hmax2 k a b c => Sys2Proof.Machine.execHmax2 k a b c s
  | .hcmp2 k a b c cc => Sys2Proof.Machine.execHcmp2 k a b c cc s
  | .badd2 k a b c rm sat => Sys2Proof.Machine.execBadd2 k a b c rm sat s
  | .bmul2 k a b c rm sat => Sys2Proof.Machine.execBmul2 k a b c rm sat s
  | .bfma2 k a b c d rm sat => Sys2Proof.Machine.execBfma2 k a b c d rm sat s
  | .bmin2 k a b c => Sys2Proof.Machine.execBmin2 k a b c s
  | .bmax2 k a b c => Sys2Proof.Machine.execBmax2 k a b c s
  | .bcmp2 k a b c cc => Sys2Proof.Machine.execBcmp2 k a b c cc s
  | .dadd k a b c rm sat => Sys2Proof.Machine.execDadd k a b c rm sat s
  | .dmul k a b c rm sat => Sys2Proof.Machine.execDmul k a b c rm sat s
  | .dfma k a b c d rm sat => Sys2Proof.Machine.execDfma k a b c d rm sat s
  | .dmin k a b c => Sys2Proof.Machine.execDmin k a b c s
  | .dmax k a b c => Sys2Proof.Machine.execDmax k a b c s
  | .dcmp k a b c cc => Sys2Proof.Machine.execDcmp k a b c cc s
  | .drcp k a b rm sat => Sys2Proof.Machine.execDrcp k a b rm sat s
  | .cvt k a b dst src rm sat el => Sys2Proof.Machine.execCvt k a b dst src rm sat el s
  | .pack8 k a b c fmt rm sat => Sys2Proof.Machine.execPack8 k a b c fmt rm sat s
  | .unpack8 k a b c fmt rm => Sys2Proof.Machine.execUnpack8 k a b c fmt rm s
  | .pack4 k a b c fmt rm sat => Sys2Proof.Machine.execPack4 k a b c fmt rm sat s
  | .unpack4 k a b c fmt rm => Sys2Proof.Machine.execUnpack4 k a b c fmt rm s
  | .scaleq k a b fmt => Sys2Proof.Machine.execScaleq k a b fmt s
  | .shfl k a b c => Sys2Proof.Machine.execShfl k a b c s
  | .shflup k a b c => Sys2Proof.Machine.execShflup k a b c s
  | .shfldn k a b c => Sys2Proof.Machine.execShfldn k a b c s
  | .shflx k a b c => Sys2Proof.Machine.execShflx k a b c s
  | .vote k a b mode => Sys2Proof.Machine.execVote k a b mode s
  | .ballot k a b => Sys2Proof.Machine.execBallot k a b s
  | .rfl k a b => Sys2Proof.Machine.execRfl k a b s
  | .rlane k a b c => Sys2Proof.Machine.execRlane k a b c s
  | .wlane k a b c => Sys2Proof.Machine.execWlane k a b c s
  | .bcast k a b c => Sys2Proof.Machine.execBcast k a b c s
  | .redux k a b op u => Sys2Proof.Machine.execRedux k a b op u s
  | .matchLanes k a b all => Sys2Proof.Machine.execMatchLanes k a b all s
  | .sld k a b w off sc => Sys2Proof.Machine.execSld k a b w off sc s
  | .sldarg k a pair off4 => Sys2Proof.Machine.execSldarg k a pair off4 s
  | .bra k off => Sys2Proof.Machine.execBra k off s
  | .bru k off => Sys2Proof.Machine.execBru k off s
  | .call k a off => Sys2Proof.Machine.execCall k a off s
  | .ret k b => Sys2Proof.Machine.execRet k b s
  | .jtab k b tab => Sys2Proof.Machine.execJtab k b tab s
  | .land k a b c d label m dir => Sys2Proof.Machine.execLand k a b c d label m dir s
  | .rcvset k n => Sys2Proof.Machine.execRcvset k n s
  | .rcvwait k n => Sys2Proof.Machine.execRcvwait k n s
  | .rcvdrop k n => Sys2Proof.Machine.execRcvdrop k n s
  | .exit k => Sys2Proof.Machine.execExit k s
  | .yield k => Sys2Proof.Machine.execYield k s
  | .nop k => Sys2Proof.Machine.execNop k s
  | .brk k code => Sys2Proof.Machine.execBrk k code s
  | .spawn k a c entry => Sys2Proof.Machine.execSpawn k a c entry s
  | .take k a b entry => Sys2Proof.Machine.execTake k a b entry s
  | .park k => Sys2Proof.Machine.execPark k s
  | .wake k a b grp trap => Sys2Proof.Machine.execWake k a b grp trap s
  | .signal k a b grp trap => Sys2Proof.Machine.execSignal k a b grp trap s
  | .deposit k a b c grp trap slot => Sys2Proof.Machine.execDeposit k a b c grp trap slot s
  | .join k a b c grp trap => Sys2Proof.Machine.execJoin k a b c grp trap s
  | .nameof k a b c grp => Sys2Proof.Machine.execNameof k a b c grp s
  | .nprobe k a b grp trap => Sys2Proof.Machine.execNprobe k a b grp trap s
  | .emit k a entry => Sys2Proof.Machine.execEmit k a entry s
  | .gdone k => Sys2Proof.Machine.execGdone k s
  | .cancel k a b lvl => Sys2Proof.Machine.execCancel k a b lvl s
  | .barinit k b d bar => Sys2Proof.Machine.execBarinit k b d bar s
  | .bararr k d bar => Sys2Proof.Machine.execBararr k d bar s
  | .barwait k d bar => Sys2Proof.Machine.execBarwait k d bar s
  | .barsync k d bar => Sys2Proof.Machine.execBarsync k d bar s
  | .barbyte k a b d bar => Sys2Proof.Machine.execBarbyte k a b d bar s
  | .bartry k a d bar => Sys2Proof.Machine.execBartry k a d bar s
  | .cset k a => Sys2Proof.Machine.execCset k a s
  | .csign k a => Sys2Proof.Machine.execCsign k a s
  | .cwait k a => Sys2Proof.Machine.execCwait k a s
  | .hbararr k h lvl => Sys2Proof.Machine.execHbararr k h lvl s
  | .hbarwait k h => Sys2Proof.Machine.execHbarwait k h s
  | .ld k a b w sx acq pol off sc => Sys2Proof.Machine.execLd k a b w sx acq pol off sc s
  | .st k a b w rel pol flag off sc => Sys2Proof.Machine.execSt k a b w rel pol flag off sc s
  | .lds k a b w sx off sc => Sys2Proof.Machine.execLds k a b w sx off sc s
  | .sts k a b w off sc => Sys2Proof.Machine.execSts k a b w off sc s
  | .atom k a b w sg op nc off sc => Sys2Proof.Machine.execAtom k a b w sg op nc off sc s
  | .cas k a b w nc off sc => Sys2Proof.Machine.execCas k a b w nc off sc s
  | .atoms k a b w sg op off sc => Sys2Proof.Machine.execAtoms k a b w sg op off sc s
  | .cass k a b w off sc => Sys2Proof.Machine.execCass k a b w off sc s
  | .ldto k a b c d ack tl win => Sys2Proof.Machine.execLdto k a b c d ack tl win s
  | .rxwin k a b c d bb bar win => Sys2Proof.Machine.execRxwin k a b c d bb bar win s
  | .rxclose k a win => Sys2Proof.Machine.execRxclose k a win s
  | .fence k sc => Sys2Proof.Machine.execFence k sc s
  | .pref k b l2 off sc => Sys2Proof.Machine.execPref k b l2 off sc s
  | .cflush k b inv off sc => Sys2Proof.Machine.execCflush k b inv off sc s
  | .cpy k a b c d tle tl => Sys2Proof.Machine.execCpy k a b c d tle tl s
  | .cpy2 k a b c d tle tl => Sys2Proof.Machine.execCpy2 k a b c d tle tl s
  | .cpyg k a b c d tle tl => Sys2Proof.Machine.execCpyg k a b c d tle tl s
  | .cpys k a b c d tle tl => Sys2Proof.Machine.execCpys k a b c d tle tl s
  | .cpym k a b c tle tl recv => Sys2Proof.Machine.execCpym k a b c tle tl recv s
  | .wpread k a b => Sys2Proof.Machine.execWpread k a b s
  | .wpwait k b c => Sys2Proof.Machine.execWpwait k b c s
  | .tlread k a b iss => Sys2Proof.Machine.execTlread k a b iss s
  | .tlwait k b c => Sys2Proof.Machine.execTlwait k b c s
  | .wait k ld st cp mx rm nm => Sys2Proof.Machine.execWait k ld st cp mx rm nm s
  | .mma8a k a b c d => Sys2Proof.Machine.execMma8a k a b c d s
  | .mma8b k a b c d => Sys2Proof.Machine.execMma8b k a b c d s
  | .mma8c k a b c d => Sys2Proof.Machine.execMma8c k a b c d s
  | .mma4a k a b c d => Sys2Proof.Machine.execMma4a k a b c d s
  | .mma4b k a b c d => Sys2Proof.Machine.execMma4b k a b c d s
  | .mma4c k a b c d => Sys2Proof.Machine.execMma4c k a b c d s
  | .mmaz k a sh => Sys2Proof.Machine.execMmaz k a sh s
  | .mma16a k a b c d => Sys2Proof.Machine.execMma16a k a b c d s
  | .mma16b k a b c d => Sys2Proof.Machine.execMma16b k a b c d s
  | .mma16c k a b c d => Sys2Proof.Machine.execMma16c k a b c d s
  | .latchl k b rows64 sc => Sys2Proof.Machine.execLatchl k b rows64 sc s
  | .latchg k b c d rows64 sc => Sys2Proof.Machine.execLatchg k b c d rows64 sc s
  | .latchclr k => Sys2Proof.Machine.execLatchclr k s
  | .accst k a b sh => Sys2Proof.Machine.execAccst k a b sh s
  | .accld k a b sh => Sys2Proof.Machine.execAccld k a b sh s
  | .inv k a b c fall dom pd budget tol => Sys2Proof.Machine.execInv k a b c fall dom pd budget tol s
  | .brset k a b c d fv => Sys2Proof.Machine.execBrset k a b c d fv s
  | .brget k a b f => Sys2Proof.Machine.execBrget k a b f s
  | .callm k off => Sys2Proof.Machine.execCallm k off s
  | .invRound g n => Sys2Proof.Machine.execInvRound g n s
  | .npost k b => Sys2Proof.Machine.execNpost k b s
  | .nwait k b c => Sys2Proof.Machine.execNwait k b c s
  | .nread k a b c d => Sys2Proof.Machine.execNread k a b c d s
  | .narm k a b c d trap => Sys2Proof.Machine.execNarm k a b c d trap s
  | .trap k code => Sys2Proof.Machine.execTrap k code s
  | .rte k => Sys2Proof.Machine.execRte k s
  | .srd k a reg => Sys2Proof.Machine.execSrd k a reg s
  | .swr k b reg => Sys2Proof.Machine.execSwr k b reg s
  | .tlbinv k b c va => Sys2Proof.Machine.execTlbinv k b c va s
  | .ntinv k b one => Sys2Proof.Machine.execNtinv k b one s
  | .svc k a code => Sys2Proof.Machine.execSvc k a code s
  | .dbghalt k => Sys2Proof.Machine.execDbghalt k s
  | .nwake trap grp rs1 rd => Sys2Proof.Machine.execNwake trap grp rs1 rd s
  | .nsig trap grp rs1 rd => Sys2Proof.Machine.execNsig trap grp rs1 rd s
  | .ndep trap grp slot rs2 rs1 rd => Sys2Proof.Machine.execNdep trap grp slot rs2 rs1 rd s
  | .njoin trap grp rs1 rd => Sys2Proof.Machine.execNjoin trap grp rs1 rd s
  | .namePortWake fn k grp => Sys2Proof.Machine.execNamePortWake fn k grp s
  | .namePortSignal fn k grp => Sys2Proof.Machine.execNamePortSignal fn k grp s
  | .namePortDeposit fn k grp slot => Sys2Proof.Machine.execNamePortDeposit fn k grp slot s
  | .namePortJoin fn k grp => Sys2Proof.Machine.execNamePortJoin fn k grp s
  | .namePortProbe fn k grp => Sys2Proof.Machine.execNamePortProbe fn k grp s
  | .namePortCancel fn k => Sys2Proof.Machine.execNamePortCancel fn k s
  | .namePortBadOp fn k => Sys2Proof.Machine.execNamePortBadOp fn k s
  | .notifyWakeClear n v => Sys2Proof.Machine.execNotifyWakeClear n v s
  | .loadContext rec => Sys2Proof.Machine.execLoadContext rec s
  | .resume ctx => Sys2Proof.Machine.execResume ctx s
  | .killCtx ctx => Sys2Proof.Machine.execKillCtx ctx s
  | .moveCores cores part margin => Sys2Proof.Machine.execMoveCores cores part margin s
  | .lendList part list => Sys2Proof.Machine.execLendList part list s
  | .bindHart h ctx => Sys2Proof.Machine.execBindHart h ctx s
  | .grantList owner region list => Sys2Proof.Machine.execGrantList owner region list s
  | .registration ctx idx r => Sys2Proof.Machine.execRegistration ctx idx r s
  | .residenceAnswer ctx va supply => Sys2Proof.Machine.execResidenceAnswer ctx va supply s
  | .sealRegion region code hostWritable => Sys2Proof.Machine.execSealRegion region code hostWritable s
  | .attest nonce => Sys2Proof.Machine.execAttest nonce s
  | .readCounters ctx => Sys2Proof.Machine.execReadCounters ctx s
  | .assignFunction fn ctx => Sys2Proof.Machine.execAssignFunction fn ctx s
  | .raiseSecurityFloor min sigOk => Sys2Proof.Machine.execRaiseSecurityFloor min sigOk s
  | .mailboxBadCmd cmd => Sys2Proof.Machine.execMailboxBadCmd cmd s
  | .coldStart fail linksFailed => Sys2Proof.Machine.execColdStart fail linksFailed s
  | .warmStart fail linksFailed retrained => Sys2Proof.Machine.execWarmStart fail linksFailed retrained s
  | .stop => Sys2Proof.Machine.execStop s
  | .doorbell ctx q v => Sys2Proof.Machine.execDoorbell ctx q v s
  | .queueEnable ctx q => Sys2Proof.Machine.execQueueEnable ctx q s
  | .queueDisable ctx q => Sys2Proof.Machine.execQueueDisable ctx q s
  | .svcval ctx v => Sys2Proof.Machine.execSvcval ctx v s
  | .svctail ctx v => Sys2Proof.Machine.execSvctail ctx v s
  | .errtail ctx v => Sys2Proof.Machine.execErrtail ctx v s
  | .linkEnable n => Sys2Proof.Machine.execLinkEnable n s
  | .linkDisable n => Sys2Proof.Machine.execLinkDisable n s
  | .registerWrite r v => Sys2Proof.Machine.execRegisterWrite r v s
  | .hostMemoryAccess addr w data => Sys2Proof.Machine.execHostMemoryAccess addr w data s
  | .queueHeadExamine ctx q => Sys2Proof.Machine.execQueueHeadExamine ctx q s
  | .groupPlace die => Sys2Proof.Machine.execGroupPlace die s
  | .groupReside core => Sys2Proof.Machine.execGroupReside core s
  | .groupSteal core => Sys2Proof.Machine.execGroupSteal core s
  | .binTimerExpiry die slot => Sys2Proof.Machine.execBinTimerExpiry die slot s
  | .binPushDeferred id => Sys2Proof.Machine.execBinPushDeferred id s
  | .takeAnswer id => Sys2Proof.Machine.execTakeAnswer id s
  | .nameDelivery id => Sys2Proof.Machine.execNameDelivery id s
  | .joinComplete id => Sys2Proof.Machine.execJoinComplete id s
  | .completionEvent g => Sys2Proof.Machine.execCompletionEvent g s
  | .accessComplete id lanes => Sys2Proof.Machine.execAccessComplete id lanes s
  | .lateLaneRecord id => Sys2Proof.Machine.execLateLaneRecord id s
  | .faultResolved g w e => Sys2Proof.Machine.execFaultResolved g w e s
  | .faultResolutionFail g w e => Sys2Proof.Machine.execFaultResolutionFail g w e s
  | .hostPageRequest ctx va => Sys2Proof.Machine.execHostPageRequest ctx va s
  | .migrationStart id => Sys2Proof.Machine.execMigrationStart id s
  | .migrationComplete id => Sys2Proof.Machine.execMigrationComplete id s
  | .residencyExpiry id => Sys2Proof.Machine.execResidencyExpiry id s
  | .groupMigration g core => Sys2Proof.Machine.execGroupMigration g core s
  | .groupMigrationComplete g => Sys2Proof.Machine.execGroupMigrationComplete g s
  | .copyDelivery g wp n => Sys2Proof.Machine.execCopyDelivery g wp n s
  | .copyComplete g wp => Sys2Proof.Machine.execCopyComplete g wp s
  | .copyStop g wp => Sys2Proof.Machine.execCopyStop g wp s
  | .hbarArrivalMessage id => Sys2Proof.Machine.execHbarArrivalMessage id s
  | .hbarReleaseMessage id => Sys2Proof.Machine.execHbarReleaseMessage id s
  | .mmaComplete id => Sys2Proof.Machine.execMmaComplete id s
  | .latchMoveComplete id => Sys2Proof.Machine.execLatchMoveComplete id s
  | .ownerRead id => Sys2Proof.Machine.execOwnerRead id s
  | .deliveryArrival id => Sys2Proof.Machine.execDeliveryArrival id s
  | .deliveryReport id => Sys2Proof.Machine.execDeliveryReport id s
  | .remoteRequestArrival id => Sys2Proof.Machine.execRemoteRequestArrival id s
  | .remoteAnswerArrival id => Sys2Proof.Machine.execRemoteAnswerArrival id s
  | .resendTimeout id street => Sys2Proof.Machine.execResendTimeout id street s
  | .requestFail id => Sys2Proof.Machine.execRequestFail id s
  | .packetAgeDiscard id => Sys2Proof.Machine.execPacketAgeDiscard id s
  | .linkTrained n node port limReq limRep salt => Sys2Proof.Machine.execLinkTrained n node port limReq limRep salt s
  | .linkTrainingTimeout n => Sys2Proof.Machine.execLinkTrainingTimeout n s
  | .linkRetrain n => Sys2Proof.Machine.execLinkRetrain n s
  | .retrainTimeout n => Sys2Proof.Machine.execRetrainTimeout n s
  | .flitGroupReceive n tagOk released ret => Sys2Proof.Machine.execFlitGroupReceive n tagOk released ret s
  | .allowanceLapse id => Sys2Proof.Machine.execAllowanceLapse id s
  | .vfTeardown fn => Sys2Proof.Machine.execVfTeardown fn s
  | .generationNotice d fn => Sys2Proof.Machine.execGenerationNotice d fn s
  | .teardownComplete fn => Sys2Proof.Machine.execTeardownComplete fn s
  | .workRequestAccept id => Sys2Proof.Machine.execWorkRequestAccept id s
  | .networkPacketArrival ctx p => Sys2Proof.Machine.execNetworkPacketArrival ctx p s
  | .networkAck id => Sys2Proof.Machine.execNetworkAck id s
  | .networkRetransmit id => Sys2Proof.Machine.execNetworkRetransmit id s
  | .networkRequestFail id refused => Sys2Proof.Machine.execNetworkRequestFail id refused s
  | .contextSchedule core ctx => Sys2Proof.Machine.execContextSchedule core ctx s
  | .contextLoadComplete core => Sys2Proof.Machine.execContextLoadComplete core s
  | .bankSwap core => Sys2Proof.Machine.execBankSwap core s
  | .spillRequest core ctx => Sys2Proof.Machine.execSpillRequest core ctx s
  | .spillComplete core => Sys2Proof.Machine.execSpillComplete core s
  | .groupRestoreComplete g => Sys2Proof.Machine.execGroupRestoreComplete g s
  | .sliceEnd core => Sys2Proof.Machine.execSliceEnd core s
  | .graceExpiry core => Sys2Proof.Machine.execGraceExpiry core s
  | .killTimerExpiry core => Sys2Proof.Machine.execKillTimerExpiry core s
  | .coreLend core part => Sys2Proof.Machine.execCoreLend core part s
  | .lendRevoke core => Sys2Proof.Machine.execLendRevoke core s
  | .partitionMoveEffect core => Sys2Proof.Machine.execPartitionMoveEffect core s
  | .debugHaltCommand g w l => Sys2Proof.Machine.execDebugHaltCommand g w l s
  | .debugResume g w l => Sys2Proof.Machine.execDebugResume g w l s
  | .debugStep g w l => Sys2Proof.Machine.execDebugStep g w l s
  | .monitorEvaluation => Sys2Proof.Machine.execMonitorEvaluation s
  | .droopEvent die => Sys2Proof.Machine.execDroopEvent die s
  | .thermalTrip die sensor => Sys2Proof.Machine.execThermalTrip die sensor s
  | .unassignedEncoding w => Sys2Proof.Machine.execUnassignedEncoding w s
  | .powerOn => Sys2Proof.Machine.execPowerOn s
  | .streetFailureReport cls street => Sys2Proof.Machine.execStreetFailureReport cls street s
  | .debuggerAttach ctx attach allStop => Sys2Proof.Machine.execDebuggerAttach ctx attach allStop s
  | .hartMemoryAccess h kind addr w data => Sys2Proof.Machine.execHartMemoryAccess h kind addr w data s
  | .hartInterrupt h => Sys2Proof.Machine.execHartInterrupt h s
  | .cxlCacheSnoop addr invalidate => Sys2Proof.Machine.execCxlCacheSnoop addr invalidate s
  | .scratchpadSplit core units => Sys2Proof.Machine.execScratchpadSplit core units s

end Sys2Proof.Machine
end

