-- ==== Sys2Proof/Machine/Place.lean ====
section
/-! DEFINITION. A small machine that runs one instruction: what loading a program leaves, stated once for `withFetchWord`
and for the witnesses of statements (log 23). -/

namespace Sys2Proof.Machine

/-- Local memory with a page table that maps the first 2 MiB, coherent, readable, writable and executable: the pointers
of levels 1 and 2 and the leaf at level 3 (12 Table 12-1), and the table of names at 0x300000, empty. -/
def loadedMem : List Host.Cell :=
  let ptr (page : Nat) : List Byte := toBytes 16 (1 + page / 4096 * 2 ^ 64)
  let m1 := writeL [] 0x200000 (ptr 0x202000)
  let m2 := writeL m1 0x202000 (ptr 0x204000)
  writeL m2 0x204000 (toBytes 16 0x702B)

/-- A header that allows every register, predicate, bracket and convergence register. -/
def loadedHeader : Header :=
  { entry := 0, vregs := 256, sregs := 64, preds := 48, brackets := 8, depth := 32, maxgroup := 1024, scratch := 65536,
    depV := 0, depVn := 16, depS := 0, depSn := 8, barriers := 16, conv := 16, args := 0, codesize := 1200,
    names := true, invert := true, regroup := false, persistent := false, gaps := List.range 16 }

/-- A context whose page table is that of `loadedMem`, handlers at its code. -/
def loadedCtx : Ctx :=
  { ptroot := 0x200000, ntroot := 0x300000, hcode := 0x1000, hentry := 0x120, hsize := 1200, ctrtab := 0x10000, savePool := 0x20000,
    saveStride := 0x90000, saveCnt := 1, errBase := 0x18000, svcBase := 0x19000 }

/-- A group of one wave of `n` threads, active on core 0. -/
def loadedGroup (n : Nat) (handler : Bool) : Group :=
  { ctx := 1, num := 0, gsize := n, hdr := loadedHeader, code := 0x1000, cnst := 0x4000, rights := 0x3F, core := 0,
    place := .active, saveIdx := some 0, scratch := [],
    waves := [{ threads := List.replicate n { hf := handler }, handler := handler }] }

/-- Load a context and a group, and bring them to the issue stage of quadrant 0 of core 0. -/
def loadDevice (s : State) (n : Nat) (handler : Bool) (code : List Byte) : State :=
  { s with
    phase := 2
    hbm := writeL loadedMem 0x1000 code
    sealMap := []
    ctxs := mput s.ctxs 1 loadedCtx
    groups := [(0, loadedGroup n handler)]
    launches := [(0, { ctx := 1, handle := 0, parent := 0, next := 1, ngrp := 1, proto := loadedGroup n false, state := 1, dies := [0], dealt := [(0, 1)] })]
    cores := mput s.cores 0 { active := some 1 }
    dies := mput s.dies 0 {}
    quadNext := []
    unitBusy := []
    inbox := .issue 0 0 :: s.inbox }

/-- Bind hart 0 in U mode to the loaded context, its pc at the word. -/
def loadHart (s : State) (code : List Byte) : State :=
  { s with
    phase := 2
    hbm := writeL loadedMem 0x1000 code
    sealMap := []
    ctxs := mput s.ctxs 1 loadedCtx
    harts := mput s.harts 0 { pc := 0x1000, mode := .u, bound := some 1 }
    inbox := .hart 0 :: s.inbox }

/-- No guard and no hints. -/
def plainCtl : Ctl :=
  { gn := false, gp := 63, stall := 0, yld := false, reuseB := false, reuseC := false, reuseD := false, rgp := false }

def wordBytes (i : Instr) : List Byte := toBytes 12 (((encode i).getD 0).toNat)

/-- What follows an INV: the CALLM of the pair, and the routine that it calls, f(x) = x, from v1 to v2 with the link pair v4:v5
(07 R128, R129). -/
def routineBytes (fall : Bool) : List Byte :=
  wordBytes (.callm plainCtl 1) ++ wordBytes (.land plainCtl (.v 2) (.v 1) (.imm 1) (.v 4) 0 true fall) ++
    wordBytes (.mov plainCtl (.v 2) (.v 1)) ++ wordBytes (.ret plainCtl (.v 4))

/-- The code that is placed for a word: the word, and what an INV needs after it. -/
def codeFor (w : Nat) : List Byte :=
  toBytes 12 w ++ (match decode (BitVec.ofNat 96 w) with
    | .ok (.inv _ _ _ _ fall _ _ _ _) => routineBytes fall
    | _ => [])

/-- System forms that only the handler may run start at handler level. -/
def startsHandler (w : Nat) : Bool :=
  match decode (BitVec.ofNat 96 w) with
  | .ok (.rte _) => true
  | .ok i => needsHandler i
  | .error _ => false

end Sys2Proof.Machine
end

