-- ==== Sys2Proof/Machine/RiscvFloat.lean ====
section
/-! DEFINITION. PRESUMED (log 22): the F and D instructions of the RISC-V base of a hart (16 R367), over the exact arithmetic of the number
formats. -/

namespace Sys2Proof.Machine

abbrev RvWord := BitVec 32

def rvF (w : RvWord) (lo n : Nat) : Nat := w.toNat / 2 ^ lo % 2 ^ n
def rvSx (n : Nat) (x : Nat) : DWord := (BitVec.ofNat n x).signExtend 64

/-- Where a result goes. -/
inductive FloatDst where
  | x (v : DWord) | f (v : DWord)
  deriving DecidableEq, Repr

structure FloatRes where
  dst : FloatDst
  flags : FFlags
  deriving DecidableEq, Repr

/-! ### Registers -/

def fmtOf (dbl : Bool) : Fmt := if dbl then .fp64 else .fp32

/-- A single stands in a register under ones; any other register reads as the canonical NaN. -/
def boxed (dbl : Bool) (v : Nat) : DWord := BitVec.ofNat 64 (if dbl then v % 2 ^ 64 else 0xFFFFFFFF00000000 + v % 2 ^ 32)
def unboxed (dbl : Bool) (r : DWord) : Nat :=
  if dbl then r.toNat else if r.toNat / 2 ^ 32 = 0xFFFFFFFF then r.toNat % 2 ^ 32 else canonNan .fp32

/-- A NaN whose highest fraction bit is 0. -/
def signals (dbl : Bool) (x : Nat) : Bool :=
  let f := ieee (fmtOf dbl)
  (decodeF (fmtOf dbl) f x).isNan && x / 2 ^ (f.frac - 1) % 2 == 0

/-! ### Rounding -/

/-- The rounding mode of an instruction, 7 taking that of fcsr: none for one that is reserved. RMM (4) is given beside RNE. -/
def roundMode (fcsr rm : Nat) : Option (Rnd × Bool) :=
  match if rm = 7 then fcsr / 32 % 8 else rm with
  | 0 => some (.rn, false)
  | 1 => some (.rz, false)
  | 2 => some (.rd, false)
  | 3 => some (.ru, false)
  | 4 => some (.rn, true)
  | _ => none

/-- Round an exact result; under RMM a tie goes away from zero. -/
def floatOut (dbl : Bool) (rm : Rnd × Bool) (r : Val × FFlags) : Nat × FFlags :=
  let fm := fmtOf dbl
  let o := fpOut fm (ieee fm) rm.1 false r
  match r.1 with
  | .fin neg _ _ false =>
    let lo := (fpOut fm (ieee fm) .rz false r).1
    let hi := (fpOut fm (ieee fm) (if neg then .rd else .ru) false r).1
    let sum := (addV .rn (decodeF fm (ieee fm) lo) (decodeF fm (ieee fm) hi)).1
    if rm.2 && lo != hi && !sum.isInf && cmpVal sum (addV .rn r.1 r.1).1 == 0 then (hi, o.2) else o
  | _ => o

/-- Round to an integer; under RMM a tie goes away from zero. A NaN gives the largest integer. -/
def floatInt (n : Nat) (sg : Bool) (rm : Rnd × Bool) (v : Val) : Int × FFlags :=
  if v.isNan then (intMax n sg, flagNV)
  else
    let half := Val.fin v.sign 1 (-1) false
    let near := (addV .rn v half).1
    match v with
    | .fin _ _ _ _ =>
      let o := toIntFmt n sg rm.1 v
      if rm.2 then
        let t := toIntFmt n sg .rz near
        (t.1, if t.2 = flagNV then flagNV else if o.2 = flagNV then 0 else o.2)
      else o
    | _ => toIntFmt n sg rm.1 v

/-! ### Operations -/

/-- A result with NV where an operand signals. -/
def nv (b : Bool) (r : Nat × FFlags) : Nat × FFlags := (r.1, if b then r.2 ||| flagNV else r.2)

/-- Smaller or larger: a number stands before a NaN, and −0 before +0. -/
def floatMin (dbl mx : Bool) (x y : Nat) : Nat × FFlags := nv (signals dbl x || signals dbl y) (fpMinMax (fmtOf dbl) mx x y, 0)

/-- The class of a value, with bit 8 for a NaN that signals and bit 9 for a quiet one. -/
def floatClass (dbl : Bool) (x : Nat) : Nat :=
  let c := fpClass (fmtOf dbl) x
  if c = 0x100 then (if signals dbl x then 0x100 else 0x200) else c

/-- Comparison: equal (2), less (1), less or equal (0); the ordering ones raise NV for every NaN. -/
def floatCmp (dbl : Bool) (op x y : Nat) : Option (Bool × FFlags) :=
  let fm := fmtOf dbl
  let un := fpCmp fm .un x y
  let sig := signals dbl x || signals dbl y
  match op with
  | 2 => some (fpCmp fm .eq x y, if sig then flagNV else 0)
  | 1 => some (fpCmp fm .lt x y, if un then flagNV else 0)
  | 0 => some (fpCmp fm .le x y, if un then flagNV else 0)
  | _ => none

/-- An operation on float registers `fs`, with the integer register `a` of field rs1. -/
def floatOp (fs : List (Nat × DWord)) (fcsr : Nat) (w : RvWord) (a : DWord) : Option FloatRes :=
  let fmt := rvF w 25 2
  let dbl := fmt == 1
  let fm := fmtOf dbl
  let n := if dbl then 64 else 32
  let reg (lo : Nat) : Nat := unboxed dbl (mgetD fs (rvF w lo 5) 0)
  let x := reg 15
  let y := reg 20
  let val (c : Nat) : Val := decodeF fm (ieee fm) c
  let rs2 := rvF w 20 5
  let f3 := rvF w 12 3
  let toF (r : Nat × FFlags) : FloatRes := { dst := .f (boxed dbl r.1), flags := r.2 }
  let toX (v : DWord) (fl : FFlags) : FloatRes := { dst := .x v, flags := fl }
  let mode := roundMode fcsr f3
  let two (f : Rnd → Val × FFlags) : Option FloatRes :=
    mode.map fun rm => toF (nv (signals dbl x || signals dbl y) (floatOut dbl rm (f rm.1)))
  let mulAdd (np nz : Bool) : Option FloatRes :=
    let z := reg 27
    mode.map fun rm =>
      toF (nv (signals dbl x || signals dbl y || signals dbl z)
        (floatOut dbl rm (fmaV rm.1 (if np then (val x).neg else val x) (val y) (if nz then (val z).neg else val z))))
  if fmt ≠ 0 ∧ fmt ≠ 1 then none
  else
    match rvF w 0 7, rvF w 27 5 with
    | 0x43, _ => mulAdd false false
    | 0x47, _ => mulAdd false true
    | 0x4B, _ => mulAdd true false
    | 0x4F, _ => mulAdd true true
    | _, 0x00 => two fun rm => addV rm (val x) (val y)
    | _, 0x01 => two fun rm => addV rm (val x) (val y).neg
    | _, 0x02 => two fun _ => mulV (val x) (val y)
    | _, 0x03 => two fun _ => divV (val x) (val y)
    | _, 0x0B => if rs2 = 0 then mode.map fun rm => toF (nv (signals dbl x) (floatOut dbl rm (sqrtV (val x)))) else none
    | _, 0x04 =>
      let s := 2 ^ (n - 1)
      let sy := y / s
      match f3 with
      | 0 => some (toF (x % s + sy * s, 0))
      | 1 => some (toF (x % s + (1 - sy) * s, 0))
      | 2 => some (toF (x % s + (x / s + sy) % 2 * s, 0))
      | _ => none
    | _, 0x05 => if f3 < 2 then some (toF (floatMin dbl (f3 == 1) x y)) else none
    | _, 0x08 =>
      if rs2 = (if dbl then 0 else 1) then
        let src := unboxed (!dbl) (mgetD fs (rvF w 15 5) 0)
        mode.map fun rm => toF (nv (signals (!dbl) src) (floatOut dbl rm (decodeF (fmtOf (!dbl)) (ieee (fmtOf (!dbl))) src, 0)))
      else none
    | _, 0x14 => (floatCmp dbl f3 x y).map fun r => toX (if r.1 then 1 else 0) r.2
    | _, 0x18 =>
      if rs2 < 4 then
        let k := if rs2 < 2 then 32 else 64
        mode.map fun rm => let r := floatInt k (rs2 % 2 == 0) rm (val x); toX (rvSx k (intToBits k r.1)) r.2
      else none
    | _, 0x1A =>
      if rs2 < 4 then
        let k := if rs2 < 2 then 32 else 64
        mode.map fun rm => toF (floatOut dbl rm (Val.ofInt (bitsToInt k (rs2 % 2 == 0) a.toNat), 0))
      else none
    | _, 0x1C =>
      if rs2 ≠ 0 then none
      else if f3 = 0 then some (toX (rvSx n ((mgetD fs (rvF w 15 5) 0).toNat % 2 ^ n)) 0)
      else if f3 = 1 then some (toX (BitVec.ofNat 64 (floatClass dbl x)) 0)
      else none
    | _, 0x1E => if rs2 = 0 ∧ f3 = 0 then some (toF (a.toNat % 2 ^ n, 0)) else none
    | _, _ => none

end Sys2Proof.Machine
end

