-- ==== Sys2Proof/Machine/Riscv.lean ====
section
/-! DEFINITION. PRESUMED (log 22): the part of the RISC-V base of a hart (16 R367) that the model takes from outside the spec, RV64GC with B,
the trap registers, the returns from traps and the fences of S and H. -/

namespace Sys2Proof.Machine

/-! ### Fields and immediates -/

def immI (w : RvWord) : DWord := rvSx 12 (rvF w 20 12)
def immS (w : RvWord) : DWord := rvSx 12 (rvF w 25 7 * 32 + rvF w 7 5)
def immB (w : RvWord) : DWord := rvSx 13 (rvF w 31 1 * 4096 + rvF w 7 1 * 2048 + rvF w 25 6 * 32 + rvF w 8 4 * 2)
def immU (w : RvWord) : DWord := rvSx 32 (rvF w 12 20 * 4096)
def immJ (w : RvWord) : DWord := rvSx 21 (rvF w 31 1 * 2 ^ 20 + rvF w 12 8 * 4096 + rvF w 20 1 * 2048 + rvF w 21 10 * 2)
def sxw (x : DWord) : DWord := (x.truncate 32).signExtend 64
def zxw (x : DWord) : DWord := (x.truncate 32).zeroExtend 64

/-! ### Results of registers and immediates -/

/-- Division rounds toward zero; by zero it gives all ones, and the remainder is the dividend. -/
def rvDiv (n : Nat) (a b : Int) : DWord := if b = 0 then BitVec.allOnes 64 else rvSx n (BitVec.ofInt n (Int.tdiv a b)).toNat
def rvRem (n : Nat) (a b : Int) : DWord := if b = 0 then rvSx n (BitVec.ofInt n a).toNat else rvSx n (BitVec.ofInt n (Int.tmod a b)).toNat

def lowZeros : Nat → Nat → Nat
  | 0, _ => 0
  | n + 1, x => if x % 2 = 1 then 0 else lowZeros n (x / 2) + 1
def highZeros (n x : Nat) : Nat := n - ((List.range n).filter fun i => 2 ^ i ≤ x).length
def ones (n x : Nat) : Nat := ((List.range n).filter fun i => bit x i).length
def rotl (n x k : Nat) : Nat := (x * 2 ^ (k % n) % 2 ^ n + x / 2 ^ (n - k % n)) % 2 ^ n

/-- OP: register with register. -/
def rvOp (f7 f3 : Nat) (a b : DWord) : Option DWord :=
  let sh := b.toNat % 64
  let one : DWord := 1#64 <<< sh
  match f7, f3 with
  | 0, 0 => some (a + b)
  | 0, 1 => some (a <<< sh)
  | 0, 2 => some (if a.toInt < b.toInt then 1 else 0)
  | 0, 3 => some (if a.toNat < b.toNat then 1 else 0)
  | 0, 4 => some (a ^^^ b)
  | 0, 5 => some (a >>> sh)
  | 0, 6 => some (a ||| b)
  | 0, 7 => some (a &&& b)
  | 0x20, 0 => some (a - b)
  | 0x20, 4 => some (~~~(a ^^^ b))
  | 0x20, 5 => some (a.sshiftRight sh)
  | 0x20, 6 => some (a ||| ~~~b)
  | 0x20, 7 => some (a &&& ~~~b)
  | 1, 0 => some (a * b)
  | 1, 1 => some (BitVec.ofInt 64 (a.toInt * b.toInt / 2 ^ 64))
  | 1, 2 => some (BitVec.ofInt 64 (a.toInt * b.toNat / 2 ^ 64))
  | 1, 3 => some (BitVec.ofNat 64 (a.toNat * b.toNat / 2 ^ 64))
  | 1, 4 => some (rvDiv 64 a.toInt b.toInt)
  | 1, 5 => some (rvDiv 64 a.toNat b.toNat)
  | 1, 6 => some (rvRem 64 a.toInt b.toInt)
  | 1, 7 => some (rvRem 64 a.toNat b.toNat)
  | 0x10, 2 => some (a * 2 + b)
  | 0x10, 4 => some (a * 4 + b)
  | 0x10, 6 => some (a * 8 + b)
  | 5, 4 => some (if a.toInt < b.toInt then a else b)
  | 5, 5 => some (if a.toNat < b.toNat then a else b)
  | 5, 6 => some (if a.toInt < b.toInt then b else a)
  | 5, 7 => some (if a.toNat < b.toNat then b else a)
  | 0x30, 1 => some (BitVec.ofNat 64 (rotl 64 a.toNat sh))
  | 0x30, 5 => some (BitVec.ofNat 64 (rotl 64 a.toNat (64 - sh)))
  | 0x24, 1 => some (a &&& ~~~one)
  | 0x24, 5 => some (BitVec.ofNat 64 (a.toNat / 2 ^ sh % 2))
  | 0x34, 1 => some (a ^^^ one)
  | 0x14, 1 => some (a ||| one)
  | _, _ => none

/-- OP-32: on the low words, sign-extended, but for the forms of B that extend an unsigned word. -/
def rvOp32 (f7 f3 rs2 : Nat) (a b : DWord) : Option DWord :=
  let sh := b.toNat % 32
  let x : Word := a.truncate 32
  let y : Word := b.truncate 32
  match f7, f3 with
  | 0, 0 => some (sxw (a + b))
  | 0, 1 => some (sxw (a <<< sh))
  | 0, 5 => some ((x >>> sh).signExtend 64)
  | 0x20, 0 => some (sxw (a - b))
  | 0x20, 5 => some ((x.sshiftRight sh).signExtend 64)
  | 1, 0 => some (sxw (a * b))
  | 1, 4 => some (rvDiv 32 x.toInt y.toInt)
  | 1, 5 => some (rvDiv 32 x.toNat y.toNat)
  | 1, 6 => some (rvRem 32 x.toInt y.toInt)
  | 1, 7 => some (rvRem 32 x.toNat y.toNat)
  | 4, 0 => some (zxw a + b)
  | 4, 4 => if rs2 = 0 then some ((a.truncate 16).zeroExtend 64) else none
  | 0x10, 2 => some (zxw a * 2 + b)
  | 0x10, 4 => some (zxw a * 4 + b)
  | 0x10, 6 => some (zxw a * 8 + b)
  | 0x30, 1 => some (rvSx 32 (rotl 32 x.toNat sh))
  | 0x30, 5 => some (rvSx 32 (rotl 32 x.toNat (32 - sh)))
  | _, _ => none

/-- OP-IMM. -/
def rvImm (w : RvWord) (a : DWord) : Option DWord :=
  let i := immI w
  let sh := BitVec.ofNat 64 (rvF w 20 6)
  match rvF w 12 3 with
  | 0 => rvOp 0 0 a i
  | 2 => rvOp 0 2 a i
  | 3 => rvOp 0 3 a i
  | 4 => rvOp 0 4 a i
  | 6 => rvOp 0 6 a i
  | 7 => rvOp 0 7 a i
  | 1 =>
    match rvF w 26 6, rvF w 20 6 with
    | 0, _ => rvOp 0 1 a sh
    | 0x0A, _ => rvOp 0x14 1 a sh
    | 0x12, _ => rvOp 0x24 1 a sh
    | 0x1A, _ => rvOp 0x34 1 a sh
    | 0x18, 0 => some (BitVec.ofNat 64 (highZeros 64 a.toNat))
    | 0x18, 1 => some (BitVec.ofNat 64 (lowZeros 64 a.toNat))
    | 0x18, 2 => some (BitVec.ofNat 64 (ones 64 a.toNat))
    | 0x18, 4 => some ((a.truncate 8).signExtend 64)
    | 0x18, 5 => some ((a.truncate 16).signExtend 64)
    | _, _ => none
  | _ =>
    match rvF w 26 6, rvF w 20 6 with
    | 0, _ => rvOp 0 5 a sh
    | 0x10, _ => rvOp 0x20 5 a sh
    | 0x18, _ => rvOp 0x30 5 a sh
    | 0x12, _ => rvOp 0x24 5 a sh
    | 0x0A, 7 => some (BitVec.ofNat 64 (ofBytes ((toBytes 8 a.toNat).map fun b => if b = 0 then 0 else 0xFF)))
    | 0x1A, 0x38 => some (BitVec.ofNat 64 (ofBytes (toBytes 8 a.toNat).reverse))
    | _, _ => none

/-- OP-IMM-32. -/
def rvImm32 (w : RvWord) (a : DWord) : Option DWord :=
  let sh := BitVec.ofNat 64 (rvF w 20 5)
  let x := a.toNat % 2 ^ 32
  match rvF w 12 3, rvF w 25 7 with
  | 0, _ => some (sxw (a + immI w))
  | 1, 0 => rvOp32 0 1 0 a sh
  | 1, 4 => some (zxw a <<< rvF w 20 6)
  | 1, 5 => some (zxw a <<< rvF w 20 6)
  | 1, 0x30 =>
    match rvF w 20 5 with
    | 0 => some (BitVec.ofNat 64 (highZeros 32 x))
    | 1 => some (BitVec.ofNat 64 (lowZeros 32 x))
    | 2 => some (BitVec.ofNat 64 (ones 32 x))
    | _ => none
  | 5, 0 => rvOp32 0 5 0 a sh
  | 5, 0x20 => rvOp32 0x20 5 0 a sh
  | 5, 0x30 => rvOp32 0x30 5 0 a sh
  | _, _ => none

/-- Whether a branch is taken. -/
def rvBranch (f3 : Nat) (a b : DWord) : Option Bool :=
  match f3 with
  | 0 => some (a == b)
  | 1 => some (a != b)
  | 4 => some (decide (a.toInt < b.toInt))
  | 5 => some (decide (b.toInt ≤ a.toInt))
  | 6 => some (decide (a.toNat < b.toNat))
  | 7 => some (decide (b.toNat ≤ a.toNat))
  | _ => none

/-- What an AMO writes, of the old value and the register, as numbers of its width. -/
def rvAmo (f5 n : Nat) (a b : DWord) : Option DWord :=
  let x := (BitVec.ofNat n a.toNat).toInt
  let y := (BitVec.ofNat n b.toNat).toInt
  let u := a.toNat % 2 ^ n
  let v := b.toNat % 2 ^ n
  match f5 with
  | 0 => some (a + b)
  | 1 => some b
  | 4 => some (a ^^^ b)
  | 8 => some (a ||| b)
  | 0x0C => some (a &&& b)
  | 0x10 => some (if x < y then a else b)
  | 0x14 => some (if x < y then b else a)
  | 0x18 => some (if u < v then a else b)
  | 0x1C => some (if u < v then b else a)
  | _ => none

/-! ### Steps of a hart -/

/-- A hart writes a register and goes to an address. -/
def rvGo (s : State) (h rd : Nat) (v : DWord) (pc : DWord) : Out := .next ((wrX s h rd v).modHart h fun y => { y with pc := pc })

/-- An access of `n` bytes: regions of code weights raise an access fault (R368). -/
def rvMem (s : State) (h : Nat) (a : DWord) (n cause : Nat) (f : Unit → Out) : Out :=
  if hbmSize < a.toNat + n then .fault (.absentMemory a.toNat)
  else if sealCode s a.toNat = 1 ∨ sealCode s (a.toNat + n - 1) = 1 then .next (hartTrap s h cause a)
  else f ()

def rvRead (s : State) (a : DWord) (n : Nat) : Nat := ofBytes ((List.range n).map fun i => viewByte s .hbm (a.toNat + i))

/-! ### Control and status registers, and the instructions of SYSTEM -/

/-- The registers of a set of trap registers that a number names: tvec, scratch, epc, cause, tval. -/
def trapReg (n : Nat) : Bool :=
  (n / 256 == 1 || n / 256 == 2 || n / 256 == 3) && (n % 256 == 0x05 || (0x40 ≤ n % 256 && n % 256 ≤ 0x43))

/-- UXL, SXL, FS and SD of a status register: 64 bits, and the float registers in use. -/
def statusFixed : DWord := 0x8000000A00006000
def sstatusBits : DWord := 0x122

def csrRead (y : Hart) (h n : Nat) : Option DWord :=
  match n with
  | 0x001 => some (BitVec.ofNat 64 (y.fcsr % 32))
  | 0x002 => some (BitVec.ofNat 64 (y.fcsr / 32))
  | 0x003 => some (BitVec.ofNat 64 y.fcsr)
  | 0x100 => some (((y.csrAt 0x300) &&& sstatusBits) ||| (statusFixed &&& ~~~0x800000000#64))
  | 0x200 => some ((y.csrAt 0x200) ||| (statusFixed &&& ~~~0x800000000#64))
  | 0x300 => some ((y.csrAt 0x300) ||| statusFixed)
  | 0x600 => some ((y.csrAt 0x600) ||| 0x200000000)
  | 0xF14 => some (BitVec.ofNat 64 h)
  | _ => if trapReg n then some (y.csrAt n) else none

def csrWrite (y : Hart) (n : Nat) (v : DWord) : Hart :=
  let w := v.toNat
  match n with
  | 0x001 => { y with fcsr := y.fcsr / 32 * 32 + w % 32 }
  | 0x002 => { y with fcsr := w % 8 * 32 + y.fcsr % 32 }
  | 0x003 => { y with fcsr := w % 256 }
  | 0x100 => setCsr y 0x300 (((y.csrAt 0x300) &&& ~~~sstatusBits) ||| (v &&& sstatusBits))
  | 0x200 => setCsr y 0x200 (v &&& sstatusBits)
  | 0x300 => setCsr y 0x300 ((if w / 2 ^ 11 % 4 = 2 then v &&& ~~~0x1800#64 else v) &&& BitVec.ofNat 64 statusBits)
  | 0x600 => setCsr y 0x600 (v &&& 0x80)
  | _ => setCsr y n (if n % 256 = 0x05 then v &&& ~~~3#64 else if n % 256 = 0x41 then v &&& ~~~1#64 else v)

/-- The register that a mode reaches by a number, or the cause of the exception: VS has registers of its own under the numbers of S. -/
def csrPlace (at_ : HMode) (n : Nat) : Nat ⊕ Nat :=
  let p := n / 256 % 4
  match at_ with
  | .m => .inr n
  | .hs => if p = 3 then .inl 2 else .inr n
  | .vs => if p = 3 then .inl 2 else if p = 2 then .inl 22 else .inr (if p = 1 then n + 0x100 else n)
  | .u => if p = 0 then .inr n else .inl 2
  | .vu => if p = 0 then .inr n else if p = 3 then .inl 2 else .inl 22

def illegalWord (s : State) (h cause : Nat) (w : RvWord) : Out := .next (hartTrap s h cause (w.zeroExtend 64))

/-- The six forms that read and change a register. -/
def rvCsr (s : State) (h : Nat) (w : RvWord) (rd : Nat) (next : DWord) : Option Out :=
  let y := s.hart h
  let f3 := rvF w 12 3
  let r1 := rvF w 15 5
  let n := rvF w 20 12
  let v : DWord := if 4 ≤ f3 then BitVec.ofNat 64 r1 else rdX s h r1
  let writes : Bool := f3 % 4 == 1 || r1 != 0
  match csrPlace y.mode n with
  | .inl cause => some (illegalWord s h cause w)
  | .inr n =>
    (csrRead y h n).map fun old =>
      if writes ∧ n / 1024 = 3 then illegalWord s h 2 w
      else
        let new := match f3 % 4 with | 1 => v | 2 => old ||| v | _ => old &&& ~~~v
        let s1 := if writes then s.modHart h fun y => csrWrite y n new else s
        .next ((wrX s1 h rd old).modHart h fun y => { y with pc := next })

/-- ECALL, EBREAK, MRET, SRET, WFI and the fences of translation, which have no effect on physical addresses. -/
def rvSystem (s : State) (h : Nat) (w : RvWord) (next : DWord) : Option Out :=
  let mode := (s.hart h).mode
  let go : Out := .next (s.modHart h fun y => { y with pc := next })
  let f7 := rvF w 25 7
  if w = 0x00000073 then
    some (match mode with
      | .hs => .next (s.modHart h fun y => enterHart y .m 9 0)
      | .u => .next (hartTrap s h 8 0)
      | .vu => .next (hartTrap s h 8 0)
      | .vs => .next (hartTrap s h 10 0)
      | .m => .next (hartTrap s h 11 0))
  else if w = 0x00100073 then some (.next (hartTrap s h 3 (s.hart h).pc))
  else if w = 0x30200073 then some (if mode = .m then .next (s.modHart h fun y => leaveHart y true) else illegalWord s h 2 w)
  else if w = 0x10200073 then
    some (match mode with
      | .u => illegalWord s h 2 w
      | .vu => illegalWord s h 22 w
      | _ => .next (s.modHart h fun y => leaveHart y false))
  else if w = 0x10500073 then some go
  else if (f7 = 0x09 ∨ f7 = 0x11 ∨ f7 = 0x31) ∧ rvF w 7 8 = 0 then
    some (match mode with
      | .u => illegalWord s h 2 w
      | .vu => illegalWord s h 22 w
      | .vs => if f7 = 0x09 then go else illegalWord s h 22 w
      | _ => go)
  else none

/-! ### Reservations -/

/-- The line of a reservation, as memory holds it. -/
def rvLine (s : State) (a : DWord) : List Byte := (List.range 128).map fun i => viewByte s .hbm (a.toNat / 128 * 128 + i)

/-- Whether SC finds the reservation of LR: the address and width, and no byte of the line changed. -/
def resvHolds (s : State) (h : Nat) (a : DWord) (n : Nat) : Bool :=
  match (s.hart h).resv with
  | some (b, k, bs) => b == a.toNat && k == n && bs == rvLine s a
  | none => false

/-- LR and SC of `n` bytes. -/
def rvResv (s : State) (h rd : Nat) (sc : Bool) (a b : DWord) (n : Nat) (next : DWord) : Out :=
  if a.toNat % n ≠ 0 then .next (hartTrap s h (if sc then 6 else 4) a)
  else
    rvMem s h a n (if sc then 7 else 5) fun _ =>
      if sc then
        let ok := resvHolds s h a n
        let s1 := if ok then outerWrite s a.toNat (toBytes n (b.toNat % 2 ^ (8 * n))) else s
        rvGo (s1.modHart h fun y => { y with resv := none }) h rd (if ok then 0 else 1) next
      else
        rvGo (s.modHart h fun y => { y with resv := some (a.toNat, n, rvLine s a) }) h rd (rvSx (8 * n) (rvRead s a n)) next

/-! ### Float registers in memory, and their operations -/

/-- What an operation on float registers does to its hart. -/
def rvFloat (s : State) (h : Nat) (w : RvWord) (a : DWord) (next : DWord) : Option Out :=
  let y := s.hart h
  (floatOp y.f y.fcsr w a).map fun r =>
    let s1 := s.modHart h fun y => { y with fcsr := y.fcsr ||| r.flags.toNat }
    match r.dst with
    | .x v => rvGo s1 h (rvF w 7 5) v next
    | .f v => rvGo (s1.modHart h fun y => { y with f := msetD y.f (rvF w 7 5) v 0 }) h 0 0 next

/-- A word of the base, of `len` bytes in memory; none for one outside the part of it that the model has. -/
def rvExec (s : State) (h : Nat) (w : RvWord) (len : Nat) : Option Out :=
  let rd := rvF w 7 5
  let f3 := rvF w 12 3
  let f7 := rvF w 25 7
  let a := rdX s h (rvF w 15 5)
  let b := rdX s h (rvF w 20 5)
  let pc := (s.hart h).pc
  let next := pc + BitVec.ofNat 64 len
  let set (r : Option DWord) : Option Out := r.map fun v => rvGo s h rd v next
  match rvF w 0 7 with
  | 0x37 => set (some (immU w))
  | 0x17 => set (some (pc + immU w))
  | 0x6F => some (rvGo s h rd next (pc + immJ w))
  | 0x67 => if f3 = 0 then some (rvGo s h rd next ((a + immI w) &&& ~~~1#64)) else none
  | 0x63 => (rvBranch f3 a b).map fun c => rvGo s h 0 0 (if c then pc + immB w else next)
  | 0x03 =>
    let at_ := a + immI w
    let n := 2 ^ (f3 % 4)
    if f3 = 7 then none
    else some (rvMem s h at_ n 5 fun _ => rvGo s h rd (if f3 < 4 then rvSx (8 * n) (rvRead s at_ n) else BitVec.ofNat 64 (rvRead s at_ n)) next)
  | 0x23 =>
    let at_ := a + immS w
    let n := 2 ^ (f3 % 4)
    if 4 ≤ f3 then none
    else some (rvMem s h at_ n 7 fun _ => rvGo (outerWrite s at_.toNat (toBytes n (b.toNat % 2 ^ (8 * n)))) h 0 0 next)
  | 0x13 => set (rvImm w a)
  | 0x1B => set (rvImm32 w a)
  | 0x33 => set (rvOp f7 f3 a b)
  | 0x3B => set (rvOp32 f7 f3 (rvF w 20 5) a b)
  | 0x0F => if f3 = 0 ∨ f3 = 1 then some (rvGo s h 0 0 next) else none
  | 0x07 =>
    let at_ := a + immI w
    if f3 = 2 ∨ f3 = 3 then
      some (rvMem s h at_ (2 ^ f3) 5 fun _ =>
        rvGo (s.modHart h fun y => { y with f := msetD y.f rd (boxed (f3 == 3) (rvRead s at_ (2 ^ f3))) 0 }) h 0 0 next)
    else none
  | 0x27 =>
    let at_ := a + immS w
    if f3 = 2 ∨ f3 = 3 then
      some (rvMem s h at_ (2 ^ f3) 7 fun _ =>
        rvGo (outerWrite s at_.toNat (toBytes (2 ^ f3) ((mgetD (s.hart h).f (rvF w 20 5) 0).toNat % 2 ^ (8 * 2 ^ f3)))) h 0 0 next)
    else none
  | 0x43 => rvFloat s h w a next
  | 0x47 => rvFloat s h w a next
  | 0x4B => rvFloat s h w a next
  | 0x4F => rvFloat s h w a next
  | 0x53 => rvFloat s h w a next
  | 0x2F =>
    let n := 2 ^ (f3 % 4)
    if f3 ≠ 2 ∧ f3 ≠ 3 then none
    else if rvF w 27 5 = 2 then (if rvF w 20 5 = 0 then some (rvResv s h rd false a b n next) else none)
    else if rvF w 27 5 = 3 then some (rvResv s h rd true a b n next)
    else
      let old := rvSx (8 * n) (rvRead s a n)
      (rvAmo (rvF w 27 5) (8 * n) old b).map fun v =>
        if a.toNat % n ≠ 0 then .next (hartTrap s h 6 a)
        else rvMem s h a n 7 fun _ => rvGo (outerWrite s a.toNat (toBytes n (v.toNat % 2 ^ (8 * n)))) h rd old next
  | 0x73 => if f3 = 0 then rvSystem s h w next else if f3 = 4 then none else rvCsr s h w rd next
  | _ => none

/-! ### Compressed words -/

def asmR (op f3 f7 rd rs1 rs2 : Nat) : RvWord := BitVec.ofNat 32 (op + rd * 128 + f3 * 2 ^ 12 + rs1 * 2 ^ 15 + rs2 * 2 ^ 20 + f7 * 2 ^ 25)
def asmI (op f3 rd rs1 imm : Nat) : RvWord := BitVec.ofNat 32 (op + rd * 128 + f3 * 2 ^ 12 + rs1 * 2 ^ 15 + imm % 4096 * 2 ^ 20)
def asmS (op f3 rs1 rs2 imm : Nat) : RvWord := asmR op f3 (imm / 32) (imm % 32) rs1 rs2
def asmB (f3 rs1 imm : Nat) : RvWord :=
  asmR 0x63 f3 (imm / 4096 % 2 * 64 + imm / 32 % 64) (imm / 2 % 16 * 2 + imm / 2048 % 2) rs1 0
def asmJ (rd imm : Nat) : RvWord :=
  BitVec.ofNat 32 (0x6F + rd * 128 + imm / 4096 % 256 * 2 ^ 12 + imm / 2048 % 2 * 2 ^ 20 + imm / 2 % 1024 * 2 ^ 21 + imm / 2 ^ 20 % 2 * 2 ^ 31)

/-- The word of 32 bits that a compressed word stands for; none for a reserved one. -/
def expandC (c : Nat) : Option RvWord :=
  let f (lo n : Nat) : Nat := c / 2 ^ lo % 2 ^ n
  let rd := f 7 5
  let rs2 := f 2 5
  let rd' := 8 + f 2 3
  let rs1' := 8 + f 7 3
  let uimm := f 12 1 * 32 + f 2 5
  let imm6 := (rvSx 6 uimm).toNat
  let offW := f 6 1 * 4 + f 10 3 * 8 + f 5 1 * 64
  let offD := f 10 3 * 8 + f 5 2 * 64
  let offJ := (rvSx 12 (f 12 1 * 2048 + f 8 1 * 1024 + f 9 2 * 256 + f 6 1 * 128 + f 7 1 * 64 + f 2 1 * 32 + f 11 1 * 16 + f 3 3 * 2)).toNat
  let offB := (rvSx 9 (f 12 1 * 256 + f 5 2 * 64 + f 2 1 * 32 + f 10 2 * 8 + f 3 2 * 2)).toNat
  match f 0 2, f 13 3 with
  | 0, 0 =>
    let u := f 11 2 * 16 + f 7 4 * 64 + f 6 1 * 4 + f 5 1 * 8
    if u = 0 then none else some (asmI 0x13 0 rd' 2 u)
  | 0, 1 => some (asmI 0x07 3 rd' rs1' offD)
  | 0, 2 => some (asmI 0x03 2 rd' rs1' offW)
  | 0, 3 => some (asmI 0x03 3 rd' rs1' offD)
  | 0, 5 => some (asmS 0x27 3 rs1' rd' offD)
  | 0, 6 => some (asmS 0x23 2 rs1' rd' offW)
  | 0, 7 => some (asmS 0x23 3 rs1' rd' offD)
  | 1, 0 => some (asmI 0x13 0 rd rd imm6)
  | 1, 1 => if rd = 0 then none else some (asmI 0x1B 0 rd rd imm6)
  | 1, 2 => some (asmI 0x13 0 rd 0 imm6)
  | 1, 3 =>
    if uimm = 0 then none
    else if rd = 2 then some (asmI 0x13 0 2 2 (rvSx 10 (f 12 1 * 512 + f 3 2 * 128 + f 5 1 * 64 + f 2 1 * 32 + f 6 1 * 16)).toNat)
    else some (BitVec.ofNat 32 (0x37 + rd * 128 + imm6 % 2 ^ 20 * 4096))
  | 1, 4 =>
    match f 10 2, f 12 1, f 5 2 with
    | 0, _, _ => some (asmI 0x13 5 rs1' rs1' uimm)
    | 1, _, _ => some (asmI 0x13 5 rs1' rs1' (0x400 + uimm))
    | 2, _, _ => some (asmI 0x13 7 rs1' rs1' imm6)
    | _, 0, 0 => some (asmR 0x33 0 0x20 rs1' rs1' rd')
    | _, 0, 1 => some (asmR 0x33 4 0 rs1' rs1' rd')
    | _, 0, 2 => some (asmR 0x33 6 0 rs1' rs1' rd')
    | _, 0, _ => some (asmR 0x33 7 0 rs1' rs1' rd')
    | _, _, 0 => some (asmR 0x3B 0 0x20 rs1' rs1' rd')
    | _, _, 1 => some (asmR 0x3B 0 0 rs1' rs1' rd')
    | _, _, _ => none
  | 1, 5 => some (asmJ 0 offJ)
  | 1, 6 => some (asmB 0 rs1' offB)
  | 1, 7 => some (asmB 1 rs1' offB)
  | 2, 0 => some (asmI 0x13 1 rd rd uimm)
  | 2, 1 => some (asmI 0x07 3 rd 2 (f 5 2 * 8 + f 12 1 * 32 + f 2 3 * 64))
  | 2, 2 => if rd = 0 then none else some (asmI 0x03 2 rd 2 (f 4 3 * 4 + f 12 1 * 32 + f 2 2 * 64))
  | 2, 3 => if rd = 0 then none else some (asmI 0x03 3 rd 2 (f 5 2 * 8 + f 12 1 * 32 + f 2 3 * 64))
  | 2, 4 =>
    if rs2 ≠ 0 then some (asmR 0x33 0 0 rd (if f 12 1 = 0 then 0 else rd) rs2)
    else if rd = 0 then (if f 12 1 = 1 then some 0x00100073 else none)
    else some (asmI 0x67 0 (f 12 1) rd 0)
  | 2, 5 => some (asmS 0x27 3 2 rs2 (f 10 3 * 8 + f 7 3 * 64))
  | 2, 6 => some (asmS 0x23 2 2 rs2 (f 9 4 * 4 + f 7 2 * 64))
  | 2, 7 => some (asmS 0x23 3 2 rs2 (f 10 3 * 8 + f 7 3 * 64))
  | _, _ => none

/-- Words of V, of the hypervisor's loads and stores, and of control and status registers that State does not hold. -/
def outsideBase (w : RvWord) : Bool :=
  let op := rvF w 0 7
  let f3 := rvF w 12 3
  op == 0x57 || ((op == 0x07 || op == 0x27) && (f3 == 0 || 5 ≤ f3)) || (op == 0x73 && f3 != 0)

/-- A hart's word outside Xsknm. One that the base reserves is an illegal instruction, and one of a part of the base whose state and
effects the model does not take from outside the spec is refused by name. -/
def hartBase (s : State) (h : Nat) (w : BitVec 32) : Out :=
  let long : Bool := w.toNat % 4 == 3
  match if long then rvExec s h w 4 else (expandC w.toNat).bind fun x => rvExec s h x 2 with
  | some r => r
  | none => if long && outsideBase w then .refused (.riscvBase w) else illegalWord s h 2 w

end Sys2Proof.Machine
end

