-- ==== Sys2Proof/Machine/Step.lean ====
section
/-! DEFINITION. One step of the machine: the next item of the schedule. -/

namespace Sys2Proof.Machine

/-- Continue where an instruction answers a next state. -/
def andThen (o : Out) (f : State → State) : Out :=
  match o with
  | .next s => .next (f s)
  | .fault r => .fault r
  | .refused r => .refused r

/-- A quadrant issues: selection, fetch, decode, the meaning, and what follows an issue. -/
def stepIssue (s : State) (core quad : Nat) : Out :=
  match choose s core quad with
  | none => .next s
  | some t =>
    match fetchCheck t with
    | .fail c sub va => .next (afterIssue t (fetchTrap t c sub va) none)
    | .park va =>
      if refusedPage s t.cg.ctx va then .next (afterIssue t (clearRefused (fetchTrap t 0x11 5 va) t.cg.ctx va) none)
      else .next (afterIssue t (parkFetch t) none)
    | .ok =>
      let t := fetchTouch t
      match decodeCur t with
      | .ok i => andThen (exec i t) fun u => afterIssue t u (some i)
      | .error _ => andThen (execUnassignedEncoding t.cur.word t) fun u => afterIssue t u none

/-- A hart issues the word at its pc. -/
def stepHart (s : State) (h : Nat) : Out :=
  if hartRuns s h then
    let t := { s with cur := { hart := h } }
    match hartFetch t h with
    | .absent pa => .fault (.absentMemory pa)
    | .accessFault => .next (hartTrap t h 1 (t.hart h).pc)
    | .word w =>
      match decodeHart w with
      | some i => exec i { t with cur := { hart := h, word := w.zeroExtend 96 } }
      | none => if w.toNat % 128 = 0x0B then .next (hartTrap t h 2 (BitVec.zeroExtend 64 w)) else hartBase t h w
  else .next s

/-- One item of the schedule. An instruction of the device or of a hart is no event. -/
def stepItem (s : State) (i : Item) : Out :=
  match i with
  | .issue core quad => stepIssue s core quad
  | .hart h => stepHart s h
  | .event e => if isEvent e then exec e { s with cur := {} } else .next s
  | .tick clocks ns =>
    match pairDue s with
    | some q => stepIssue { s with inbox := i :: s.inbox } q.1 q.2
    | none => .next (sweepConv (tick (sweepCores (sweepFetch (sweepFormed s))) clocks ns))
  | .regroup g pc ms => .next (regroup s g pc ms)
  | .evict core line => .next (evictLine s core line)
  | .lineError line => .next (poisonLine s line)
  | .rowError g o => .next (poisonRow s g o)
  | .sense die sensor value proc => .next (sense s die sensor value proc)
  | .hostStore pa bs => .next (s.memoryWrite .host pa bs)
  | .hostWrite fn bar off v => hostWrite fn bar off v s
  | .hostRead fn bar off => .next (hostRead fn bar off s)
  | .startEnd fail bad retrained => .next (startEnd fail bad retrained s)
  | .firmware which image valid version => .next (setFirmware which image valid version s)
  | .designate unit on => .next (designate unit on s)
  | .netLacks id pkt nack => .next (setReq s id fun r => { r with lacks := (pkt, nack) })

/-- What follows every item: requests without a street have failed, waiting pages are asked for, stepped threads halt or trap, formed waves that the
step has ended dissolve, and the images of saved groups are kept. -/
def afterStep (old s : State) : State := saveGroups old (reformMoved old (endStep (sweepWaits (sweepFabric s))))

/-- One step: the next item of the schedule, or one clock in which nothing else happens. -/
def step (s : State) : Host.Outcome State Fault Refusal :=
  match s.inbox with
  | [] => .next (afterStep s (sweepConv (tick (sweepCores (sweepFetch (sweepFormed s))) 1 0)))
  | i :: rest => andThen (stepItem { s with inbox := rest } i) fun t => afterStep s t

/-- The state in which the next step fetches and runs a word as spec/opcode_table.json numbers it. -/
def State.withFetchWord (s : State) (nbits w : Nat) : State :=
  if nbits = 32 then loadHart s (toBytes 4 w) else loadDevice s 32 (startsHandler w) (codeFor w)

end Sys2Proof.Machine
end

