-- ==== Sys2Proof/Safety.lean ====
section
/-! DEFINITION. What a safe run is, and the terms in which claims are stated: which threads exist, what an instruction that
computes in registers leaves, and what it leaves as it was. -/

namespace Sys2Proof.Machine

/-- A step that goes on: the machine does not stop with a fault or a refusal. -/
def Out.goesOn : Out → Bool
  | .next _ => true
  | .fault _ => false
  | .refused _ => false

/-- Every memory of the machine is in canonical form: local and host memory, scratchpads of groups and of groups to come, and the
memory of other devices. -/
def State.memOk (s : State) : Bool :=
  Memory.wf s.hbm && Memory.wf s.hostMem && s.groups.all (fun x => Memory.wf x.2.scratch) &&
    s.launches.all (fun x => Memory.wf x.2.proto.scratch) && s.remotes.all (fun x => Memory.wf x.2.mem)

/-- Home wave `w` of a group exists. -/
abbrev State.hasWave (s : State) (g w : Nat) : Prop := w < (s.group g).waves.length

/-- Member (lane, home wave) of a group is a thread of it. -/
abbrev State.hasThread (s : State) (g : Nat) (m : Nat × Nat) : Prop := m.2 < (s.group g).waves.length ∧ m.1 < (s.wave g m.2).threads.length

/-! ### Updates of one group -/

/-- Nothing but group `g` changes. -/
structure InGroup (s t : State) (g : Nat) : Prop where
  rest : t = { s with groups := t.groups }
  others : ∀ h, h ≠ g → mget t.groups h = mget s.groups h

/-- Each home wave `w` of group `g` becomes `f w` of what it was, and nothing else changes. -/
structure EachWave (s t : State) (g : Nat) (f : Nat → Wave → Wave) : Prop where
  only : InGroup s t g
  group : t.group g = { s.group g with waves := (t.group g).waves }
  waves : (t.group g).waves.length = (s.group g).waves.length
  wave : ∀ w, s.hasWave g w → t.wave g w = f w (s.wave g w)

/-- Each thread (lane, home wave) of group `g` becomes `f` of what it was, and nothing else changes. -/
structure EachThread (s t : State) (g : Nat) (f : Nat × Nat → Thread → Thread) : Prop where
  only : InGroup s t g
  group : t.group g = { s.group g with waves := (t.group g).waves }
  waves : (t.group g).waves.length = (s.group g).waves.length
  wave : ∀ w, t.wave g w = { s.wave g w with threads := (t.wave g w).threads }
  threads : ∀ w, (t.wave g w).threads.length = (s.wave g w).threads.length
  thread : ∀ m, s.hasThread g m → t.thread g m.2 m.1 = f m (s.thread g m.2 m.1)

/-! ### Instructions that compute in registers -/

/-- Vector, predicate and uniform registers that a destination of `n` registers names. -/
def destV (n : Nat) : Opnd → List Nat
  | .v i => (List.range n).map fun j => i.toNat + j
  | _ => []
def destP (n : Nat) : Opnd → List Nat
  | .p i => (List.range n).map fun j => i.toNat + j
  | _ => []
def destU (n : Nat) : Opnd → List Nat
  | .s i => (List.range n).map fun j => i.toNat + j
  | _ => []

/-- From `s` to `t` nothing changes but the named vector registers `V`, predicates `P` and, where `fl`, the flags of threads whose
guard is true, the uniform registers `S` of home waves that have such a thread, and the program counters of issuing threads.
Values within their latency (`hazards`) are the model's own record of what a read may still return. -/
structure KeepRegs (k : Ctl) (s t : State) (V P S : List Nat) (fl : Bool) : Prop where
  rest : t = { s with groups := t.groups }
  others : ∀ g, g ≠ s.cur.g → mget t.groups g = mget s.groups g
  group : t.group s.cur.g = { s.group s.cur.g with waves := (t.group s.cur.g).waves }
  waves : (t.group s.cur.g).waves.length = (s.group s.cur.g).waves.length
  wave : ∀ w, t.wave s.cur.g w =
    { s.wave s.cur.g w with threads := (t.wave s.cur.g w).threads, sr := (t.wave s.cur.g w).sr, sHazards := (t.wave s.cur.g w).sHazards }
  threads : ∀ w, (t.wave s.cur.g w).threads.length = (s.wave s.cur.g w).threads.length
  idle : ∀ l w, (l, w) ∉ s.cur.members → t.thread s.cur.g w l = s.thread s.cur.g w l
  guardOff : ∀ l w, (l, w) ∉ actives k s →
    t.thread s.cur.g w l = { s.thread s.cur.g w l with pc := (t.thread s.cur.g w l).pc }
  thread : ∀ l w, t.thread s.cur.g w l =
    { s.thread s.cur.g w l with
      pc := (t.thread s.cur.g w l).pc, vr := (t.thread s.cur.g w l).vr, pr := (t.thread s.cur.g w l).pr
      fflags := (t.thread s.cur.g w l).fflags, hazards := (t.thread s.cur.g w l).hazards }
  vregs : ∀ l w r, r ∉ V → vraw (t.thread s.cur.g w l) r = vraw (s.thread s.cur.g w l) r
  pregs : ∀ l w r, r ∉ P → praw (t.thread s.cur.g w l) r = praw (s.thread s.cur.g w l) r
  flags : fl = false → ∀ l w, (t.thread s.cur.g w l).fflags = (s.thread s.cur.g w l).fflags
  sregs : ∀ w r, r ∉ S → mgetD (t.wave s.cur.g w).sr r 0 = mgetD (s.wave s.cur.g w).sr r 0
  sregsOff : ∀ w, (∀ m ∈ actives k s, m.2 ≠ w) → (t.wave s.cur.g w).sr = (s.wave s.cur.g w).sr
  bytes : ∀ sp a, viewByte t sp a = viewByte s sp a

/-- The frame of an instruction that computes in registers: the registers that it names, and the program counter of every issuing
thread at the next instruction. -/
structure OnlyRegs (k : Ctl) (s t : State) (V P S : List Nat) (fl : Bool) : Prop where
  keep : KeepRegs k s t V P S fl
  pc : ∀ l w, (l, w) ∈ s.cur.members → s.hasThread s.cur.g (l, w) → (t.thread s.cur.g w l).pc = s.cur.pc + 12

/-- A 32-bit result `f` stands in destination `a` of every thread whose guard is true, or once per home wave that has such a
thread; class 7 discards it. -/
def Holds32 (k : Ctl) (s t : State) (a : Opnd) (f : Nat × Nat → Word) : Prop :=
  match a with
  | .v n => ∀ m ∈ actives k s, s.hasThread s.cur.g m → vraw (t.thread s.cur.g m.2 m.1) n.toNat = f m
  | .s n => ∀ w ∈ wavesOf (actives k s), s.hasWave s.cur.g w → mgetD (t.wave s.cur.g w).sr n.toNat 0 = f (leadOf (actives k s) w)
  | .p n => ∀ m ∈ actives k s, s.hasThread s.cur.g m → n.toNat < 48 → praw (t.thread s.cur.g m.2 m.1) n.toNat = (f m != 0)
  | .sr _ => ∀ m ∈ actives k s, s.hasThread s.cur.g m → (t.thread s.cur.g m.2 m.1).fflags = (f m).truncate 5
  | _ => True

/-- A 64-bit result in a pair of registers, the low half in the lower one. -/
def Holds64 (k : Ctl) (s t : State) (a : Opnd) (f : Nat × Nat → DWord) : Prop :=
  match a with
  | .v n => ∀ m ∈ actives k s, s.hasThread s.cur.g m →
      vraw (t.thread s.cur.g m.2 m.1) n.toNat = (f m).truncate 32 ∧
      vraw (t.thread s.cur.g m.2 m.1) (n.toNat + 1) = (f m >>> 32).truncate 32
  | .s n => ∀ w ∈ wavesOf (actives k s), s.hasWave s.cur.g w →
      mgetD (t.wave s.cur.g w).sr n.toNat 0 = (f (leadOf (actives k s) w)).truncate 32 ∧
      mgetD (t.wave s.cur.g w).sr (n.toNat + 1) 0 = (f (leadOf (actives k s) w) >>> 32).truncate 32
  | _ => True

/-- Predicates `f` stand in consecutive predicate registers of every thread whose guard is true. -/
def HoldsP (k : Ctl) (s t : State) (a : Opnd) (f : Nat × Nat → List Bool) : Prop :=
  match a with
  | .p n => ∀ m ∈ actives k s, s.hasThread s.cur.g m → ∀ j < (f m).length, n.toNat + j < 48 →
      praw (t.thread s.cur.g m.2 m.1) (n.toNat + j) = (f m).getD j false
  | _ => True

/-- Words `f` stand in consecutive vector registers of every thread whose guard is true. -/
def HoldsSpan (k : Ctl) (s t : State) (a : Opnd) (f : Nat × Nat → List Nat) : Prop :=
  match a with
  | .v n => ∀ m ∈ actives k s, s.hasThread s.cur.g m → ∀ j < (f m).length,
      vraw (t.thread s.cur.g m.2 m.1) (n.toNat + j) = BitVec.ofNat 32 ((f m).getD j 0)
  | _ => True

/-- Each thread whose guard is true raises flags `f` and clears none (05 R79). -/
def Raises (k : Ctl) (s t : State) (f : Nat × Nat → FFlags) : Prop :=
  ∀ m ∈ actives k s, s.hasThread s.cur.g m →
    (t.thread s.cur.g m.2 m.1).fflags = (s.thread s.cur.g m.2 m.1).fflags ||| f m

def isFlagsReg : Opnd → Bool
  | .sr _ => true
  | _ => false

/-- A 32-bit result, and the frame. -/
structure Result32 (k : Ctl) (s t : State) (a : Opnd) (f : Nat × Nat → Word) : Prop where
  value : Holds32 k s t a f
  frame : OnlyRegs k s t (destV 1 a) (destP 1 a) (destU 1 a) (isFlagsReg a)

/-- A 64-bit result, and the frame. -/
structure Result64 (k : Ctl) (s t : State) (a : Opnd) (f : Nat × Nat → DWord) : Prop where
  value : Holds64 k s t a f
  frame : OnlyRegs k s t (destV 2 a) [] (destU 2 a) false

/-- `n` predicates, and the frame. -/
structure ResultP (k : Ctl) (s t : State) (a : Opnd) (n : Nat) (f : Nat × Nat → List Bool) : Prop where
  value : HoldsP k s t a f
  frame : OnlyRegs k s t [] (destP n a) [] false

/-- A floating-point result stands in a vector register, or class 7 discards it (06 R87: no other destination is encoded). -/
def HoldsV (k : Ctl) (s t : State) (a : Opnd) (f : Nat × Nat → Nat) : Prop :=
  match a with
  | .v n => ∀ m ∈ actives k s, s.hasThread s.cur.g m → vraw (t.thread s.cur.g m.2 m.1) n.toNat = BitVec.ofNat 32 (f m)
  | _ => True

def HoldsV64 (k : Ctl) (s t : State) (a : Opnd) (f : Nat × Nat → Nat) : Prop :=
  match a with
  | .v n => ∀ m ∈ actives k s, s.hasThread s.cur.g m →
      vraw (t.thread s.cur.g m.2 m.1) n.toNat = (BitVec.ofNat 64 (f m)).truncate 32 ∧
      vraw (t.thread s.cur.g m.2 m.1) (n.toNat + 1) = (BitVec.ofNat 64 (f m) >>> 32).truncate 32
  | _ => True

/-- A 32-bit floating-point result with the flags that it raises, and the frame. -/
structure ResultF (k : Ctl) (s t : State) (a : Opnd) (f : Nat × Nat → Nat × FFlags) : Prop where
  value : HoldsV k s t a fun m => (f m).1
  flags : isFlagsReg a = false → Raises k s t fun m => (f m).2
  frame : OnlyRegs k s t (destV 1 a) (destP 1 a) (destU 1 a) true

/-- The same for a 64-bit result. -/
structure ResultF64 (k : Ctl) (s t : State) (a : Opnd) (f : Nat × Nat → Nat × FFlags) : Prop where
  value : HoldsV64 k s t a fun m => (f m).1
  flags : Raises k s t fun m => (f m).2
  frame : OnlyRegs k s t (destV 2 a) [] (destU 2 a) true

/-- `n` consecutive vector registers with the flags raised, and the frame. -/
structure ResultSpan (k : Ctl) (s t : State) (a : Opnd) (n : Nat) (f : Nat × Nat → List Nat × FFlags) : Prop where
  value : HoldsSpan k s t a fun m => (f m).1
  flags : Raises k s t fun m => (f m).2
  frame : OnlyRegs k s t (destV n a) [] [] true

/-- A destination that is a vector register, or class 7. -/
def VDest (a : Opnd) : Prop := a = .null ∨ ∃ n, a = .v n

/-- A 32-bit result in `a` and a predicate in `d`, and the frame (IADDC, ISUBB). -/
structure ResultCarry (k : Ctl) (s t : State) (a d : Opnd) (f : Nat × Nat → Word × Bool) : Prop where
  value : HoldsV k s t a fun m => (f m).1.toNat
  carry : HoldsP k s t d fun m => [(f m).2]
  frame : OnlyRegs k s t (destV 1 a) (destP 1 d) [] false

/-- A result whose bits are given one by one. -/
def BitResult (k : Ctl) (s t : State) (a : Opnd) (f : Nat × Nat → Nat → Bool) : Prop :=
  ∃ x : Nat × Nat → Word, (∀ m, ∀ i < 32, (x m).getLsbD i = f m i) ∧ Result32 k s t a x

end Sys2Proof.Machine
end

