-- ==== Sys2Proof/Certificates/Slice0/Obligations.lean ====
section
/-! DEFINITION. The statements: what the spec's rules say of the machine, for the provers. -/

open Sys2Proof Sys2Proof.Machine

/-! ### Instructions that compute in registers -/

/-- 06 R92, Table 6-3: every form of group 0x00 completes from every state, with the table's result in its destination and no
other effect; the pair forms write a pair, and IADDC and ISUBB read and write the predicate of their OPD. IDOT4.sat reads its addend as signed under .u32 too: the model's reading (log 40). -/
def Obligations.IntegerArithmetic : Prop :=
  ∀ (k : Ctl) (a b c d : Opnd) (s : State),
    let x := fun m => src s m b
    let y := fun m => src s m c
    let z := fun m => src s m d
    let dot := fun (u : Bool) m => (z m).toInt +
      (byteVal u (x m) 0 * byteVal u (y m) 0 + byteVal u (x m) 1 * byteVal u (y m) 1 +
       byteVal u (x m) 2 * byteVal u (y m) 2 + byteVal u (x m) 3 * byteVal u (y m) 3)
    let sad := fun (u : Bool) m => (z m).toInt +
      (((byteVal u (x m) 0 - byteVal u (y m) 0).natAbs : Int) + (byteVal u (x m) 1 - byteVal u (y m) 1).natAbs +
       (byteVal u (x m) 2 - byteVal u (y m) 2).natAbs + (byteVal u (x m) 3 - byteVal u (y m) 3).natAbs)
    (∃ t, exec (.iadd k a b c) s = .next t ∧ Result32 k s t a fun m => x m + y m) ∧
    (∃ t, exec (.isub k a b c) s = .next t ∧ Result32 k s t a fun m => x m - y m) ∧
    (∃ t, exec (.imul k a b c) s = .next t ∧ Result32 k s t a fun m => x m * y m) ∧
    (∃ t, exec (.imulhi k a b c true) s = .next t ∧
      Result32 k s t a fun m => BitVec.ofNat 32 ((x m).toNat * (y m).toNat / 2 ^ 32)) ∧
    (∃ t, exec (.imulhi k a b c false) s = .next t ∧
      Result32 k s t a fun m => BitVec.ofInt 32 ((x m).toInt * (y m).toInt / 2 ^ 32)) ∧
    (∃ t, exec (.imad k a b c d) s = .next t ∧ Result32 k s t a fun m => x m * y m + z m) ∧
    (∃ t, exec (.imin k a b c true) s = .next t ∧ Result32 k s t a fun m => if (x m).ult (y m) then x m else y m) ∧
    (∃ t, exec (.imin k a b c false) s = .next t ∧ Result32 k s t a fun m => if (x m).slt (y m) then x m else y m) ∧
    (∃ t, exec (.imax k a b c true) s = .next t ∧ Result32 k s t a fun m => if (x m).ult (y m) then y m else x m) ∧
    (∃ t, exec (.imax k a b c false) s = .next t ∧ Result32 k s t a fun m => if (x m).slt (y m) then y m else x m) ∧
    (∃ t, exec (.iabs k a b) s = .next t ∧ Result32 k s t a fun m => if (x m).slt 0 then 0 - x m else x m) ∧
    (∃ t, exec (.ineg k a b) s = .next t ∧ Result32 k s t a fun m => 0 - x m) ∧
    (∃ t, exec (.iaddsat k a b c true) s = .next t ∧
      Result32 k s t a fun m => if 2 ^ 32 ≤ (x m).toNat + (y m).toNat then 0xFFFFFFFF else x m + y m) ∧
    (∃ t, exec (.iaddsat k a b c false) s = .next t ∧
      Result32 k s t a fun m =>
        if (x m).toInt + (y m).toInt < -2 ^ 31 then 0x80000000
        else if 2 ^ 31 ≤ (x m).toInt + (y m).toInt then 0x7FFFFFFF else x m + y m) ∧
    (∀ u, ∃ t, exec (.idot4 k a b c d u false) s = .next t ∧ Result32 k s t a fun m => BitVec.ofInt 32 (dot u m)) ∧
    (∀ u, ∃ t, exec (.idot4 k a b c d u true) s = .next t ∧ Result32 k s t a fun m =>
        if dot u m < -2 ^ 31 then 0x80000000 else if 2 ^ 31 ≤ dot u m then 0x7FFFFFFF else BitVec.ofInt 32 (dot u m)) ∧
    (∀ u, ∃ t, exec (.isad k a b c d u) s = .next t ∧ Result32 k s t a fun m => BitVec.ofInt 32 (sad u m)) ∧
    (∃ t, exec (.iadd64 k a b c) s = .next t ∧ Result64 k s t a fun m => src64 s m b + src64 s m c) ∧
    (∃ t, exec (.imad64 k a b c d true) s = .next t ∧
      Result64 k s t a fun m => (src s m b).zeroExtend 64 * (src s m c).zeroExtend 64 + src64 s m d) ∧
    (∃ t, exec (.imad64 k a b c d false) s = .next t ∧
      Result64 k s t a fun m => (src s m b).signExtend 64 * (src s m c).signExtend 64 + src64 s m d) ∧
    (VDest a → ∀ q, d = .p q →
      (∃ t, exec (.iaddc k a b c d) s = .next t ∧ ResultCarry k s t a d fun m =>
        (src s m b + src s m c + wordOfBool (srcP s m d),
         decide (2 ^ 32 ≤ (src s m b).toNat + (src s m c).toNat + (srcP s m d).toNat))) ∧
      (∃ t, exec (.isubb k a b c d) s = .next t ∧ ResultCarry k s t a d fun m =>
        (src s m b - src s m c - wordOfBool (srcP s m d),
         decide ((src s m b).toNat < (src s m c).toNat + (srcP s m d).toNat))))

/-- 06 R93, Table 6-4: every form of group 0x01, bit by bit where the table says it so. -/
def Obligations.LogicAndBits : Prop :=
  ∀ (k : Ctl) (a b c d : Opnd) (s : State),
    let x := fun m => src s m b
    let y := fun m => src s m c
    let z := fun m => src s m d
    let pos := fun m => (y m).toNat % 256
    let len := fun m => (y m).toNat / 256 % 256
    (∃ t, exec (.and k a b c) s = .next t ∧ Result32 k s t a fun m => x m &&& y m) ∧
    (∃ t, exec (.or k a b c) s = .next t ∧ Result32 k s t a fun m => x m ||| y m) ∧
    (∃ t, exec (.xor k a b c) s = .next t ∧ Result32 k s t a fun m => x m ^^^ y m) ∧
    (∃ t, exec (.not k a b) s = .next t ∧ Result32 k s t a fun m => ~~~(x m)) ∧
    (∃ t, exec (.andn k a b c) s = .next t ∧ Result32 k s t a fun m => x m &&& ~~~(y m)) ∧
    (∃ t, exec (.shl k a b c) s = .next t ∧ Result32 k s t a fun m => x m <<< y m) ∧
    (∃ t, exec (.shr k a b c) s = .next t ∧ Result32 k s t a fun m => x m >>> y m) ∧
    (∃ t, exec (.sar k a b c) s = .next t ∧ Result32 k s t a fun m => (x m).sshiftRight (y m).toNat) ∧
    (∃ t, exec (.rot k a b c false) s = .next t ∧ BitResult k s t a fun m i => (x m).getLsbD ((i + 32 - (y m).toNat % 32) % 32)) ∧
    (∃ t, exec (.rot k a b c true) s = .next t ∧ BitResult k s t a fun m i => (x m).getLsbD ((i + (y m).toNat) % 32)) ∧
    (∃ t, exec (.bfe k a b c false) s = .next t ∧
      BitResult k s t a fun m i => decide (i < len m) && (x m).getLsbD (pos m + i)) ∧
    (∃ t, exec (.bfe k a b c true) s = .next t ∧ BitResult k s t a fun m i =>
      let j := min i (len m - 1) + pos m
      decide (0 < len m) && if j < 32 then (x m).getLsbD j else (x m).msb) ∧
    (∃ t, exec (.bfi k a b c d) s = .next t ∧ BitResult k s t a fun m i =>
      if pos m ≤ i ∧ i < pos m + len m then (x m).getLsbD (i - pos m) else (z m).getLsbD i) ∧
    (∃ t, exec (.popc k a b) s = .next t ∧ Result32 k s t a fun m => BitVec.ofNat 32 ((List.range 32).countP (x m).getLsbD)) ∧
    (∃ t, exec (.clz k a b) s = .next t ∧ ∃ n : Nat × Nat → Nat,
      (∀ m, n m ≤ 32 ∧ (x m).toNat < 2 ^ (32 - n m) ∧ (n m < 32 → 2 ^ (31 - n m) ≤ (x m).toNat)) ∧
      Result32 k s t a fun m => BitVec.ofNat 32 (n m)) ∧
    (∃ t, exec (.brev k a b) s = .next t ∧ BitResult k s t a fun m i => (x m).getLsbD (31 - i)) ∧
    (∀ tt, ∃ t, exec (.tern k a b c d tt) s = .next t ∧ BitResult k s t a fun m i =>
      tt.getLsbD (((x m).getLsbD i).toNat + 2 * ((y m).getLsbD i).toNat + 4 * ((z m).getLsbD i).toNat)) ∧
    (∃ t, exec (.perm k a b c d) s = .next t ∧ BitResult k s t a fun m i =>
      let n := (z m).toNat / 2 ^ (4 * (i / 8)) % 16
      let p : BitVec 64 := y m ++ x m
      p.getLsbD (8 * (n % 8) + if n / 8 = 1 then 7 else i % 8))

/-- 06 R94 and R95: compare, select and move; none sets a flag. Floating-point compares are those of Table 6-5 (`fpCmp`). -/
def Obligations.CompareSelectMove : Prop :=
  ∀ (k : Ctl) (a b c d : Opnd) (s : State),
    let x := fun m => src s m b
    let y := fun m => src s m c
    (∃ t, exec (.icmp k a b c .eq false) s = .next t ∧ ResultP k s t a 1 fun m => [x m == y m]) ∧
    (∃ t, exec (.icmp k a b c .ne false) s = .next t ∧ ResultP k s t a 1 fun m => [x m != y m]) ∧
    (∃ t, exec (.icmp k a b c .lt false) s = .next t ∧ ResultP k s t a 1 fun m => [(x m).slt (y m)]) ∧
    (∃ t, exec (.icmp k a b c .le false) s = .next t ∧ ResultP k s t a 1 fun m => [(x m).sle (y m)]) ∧
    (∃ t, exec (.icmp k a b c .gt false) s = .next t ∧ ResultP k s t a 1 fun m => [(y m).slt (x m)]) ∧
    (∃ t, exec (.icmp k a b c .ge false) s = .next t ∧ ResultP k s t a 1 fun m => [(y m).sle (x m)]) ∧
    (∃ t, exec (.icmp k a b c .eq true) s = .next t ∧ ResultP k s t a 1 fun m => [x m == y m]) ∧
    (∃ t, exec (.icmp k a b c .ne true) s = .next t ∧ ResultP k s t a 1 fun m => [x m != y m]) ∧
    (∃ t, exec (.icmp k a b c .lt true) s = .next t ∧ ResultP k s t a 1 fun m => [(x m).ult (y m)]) ∧
    (∃ t, exec (.icmp k a b c .le true) s = .next t ∧ ResultP k s t a 1 fun m => [(x m).ule (y m)]) ∧
    (∃ t, exec (.icmp k a b c .gt true) s = .next t ∧ ResultP k s t a 1 fun m => [(y m).ult (x m)]) ∧
    (∃ t, exec (.icmp k a b c .ge true) s = .next t ∧ ResultP k s t a 1 fun m => [(y m).ule (x m)]) ∧
    (∀ cc, ∃ t, exec (.fcmp k a b c cc) s = .next t ∧
      ResultP k s t a 1 fun m => [fpCmp .fp32 cc (srcF s m b) (srcF s m c)]) ∧
    (∀ cc, ∃ t, exec (.dcmp k a b c cc) s = .next t ∧
      ResultP k s t a 1 fun m => [fpCmp .fp64 cc (srcD s m b) (srcD s m c)]) ∧
    (∀ cc, ∃ t, exec (.hcmp2 k a b c cc) s = .next t ∧ ResultP k s t a 2 fun m =>
      [fpCmp .fp16 cc (srcH .fp16 s m b % 65536) (srcH .fp16 s m c % 65536),
       fpCmp .fp16 cc (srcH .fp16 s m b / 65536) (srcH .fp16 s m c / 65536)]) ∧
    (∀ cc, ∃ t, exec (.bcmp2 k a b c cc) s = .next t ∧ ResultP k s t a 2 fun m =>
      [fpCmp .bf16 cc (srcH .bf16 s m b % 65536) (srcH .bf16 s m c % 65536),
       fpCmp .bf16 cc (srcH .bf16 s m b / 65536) (srcH .bf16 s m c / 65536)]) ∧
    (∃ t, exec (.sel k a b c d) s = .next t ∧ Result32 k s t a fun m => if srcP s m d then x m else y m) ∧
    (∀ tt, ∃ t, exec (.ptern k a b c d tt) s = .next t ∧ ResultP k s t a 1 fun m =>
      [tt.getLsbD ((srcP s m b).toNat + 2 * (srcP s m c).toNat + 4 * (srcP s m d).toNat)]) ∧
    (∀ n cnt, b = .p n → ∃ t, exec (.p2v k a b cnt) s = .next t ∧
      BitResult k s t a fun m i => decide (i ≤ cnt.toNat) && rdP s m (n.toNat + i)) ∧
    (∀ cnt, ∃ t, exec (.v2p k a b cnt) s = .next t ∧
      ResultP k s t a (cnt.toNat + 1) fun m => (List.range (cnt.toNat + 1)).map fun i => (x m).getLsbD i) ∧
    (∃ t, exec (.mov k a b) s = .next t ∧ Result32 k s t a x) ∧
    (∃ t, exec (.movx k a b) s = .next t ∧ Result64 k s t a fun m => src64 s m b) ∧
    (∃ t, exec (.fclass k a b false) s = .next t ∧ Result32 k s t a fun m => BitVec.ofNat 32 (fpClass .fp32 (srcF s m b))) ∧
    (∃ t, exec (.fclass k a b true) s = .next t ∧ Result32 k s t a fun m => BitVec.ofNat 32 (fpClass .fp64 (srcD s m b)))

/-- 06 R96 to R99, FP32: the exact result rounded once, and the flags of each lane. -/
def Obligations.SinglePrecision : Prop :=
  ∀ (k : Ctl) (a b c d : Opnd) (rm : Rnd) (sat : Bool) (s : State),
    let x := fun m => srcF s m b
    let y := fun m => srcF s m c
    let z := fun m => srcF s m d
    let val := fun n => decodeF .fp32 fp32 n
    (∃ t, exec (.fadd k a b c rm sat) s = .next t ∧
      ResultF k s t a fun m => fpOut .fp32 fp32 rm sat (addV rm (val (x m)) (val (y m)))) ∧
    (∃ t, exec (.fsub k a b c rm sat) s = .next t ∧
      ResultF k s t a fun m => fpOut .fp32 fp32 rm sat (addV rm (val (x m)) (val (y m)).neg)) ∧
    (∃ t, exec (.fmul k a b c rm sat) s = .next t ∧
      ResultF k s t a fun m => fpOut .fp32 fp32 rm sat (mulV (val (x m)) (val (y m)))) ∧
    (∃ t, exec (.ffma k a b c d rm sat) s = .next t ∧
      ResultF k s t a fun m => fpOut .fp32 fp32 rm sat (fmaV rm (val (x m)) (val (y m)) (val (z m)))) ∧
    (∃ t, exec (.fmin k a b c) s = .next t ∧ ResultF k s t a fun m => (fpMinMax .fp32 false (x m) (y m), 0)) ∧
    (∃ t, exec (.fmax k a b c) s = .next t ∧ ResultF k s t a fun m => (fpMinMax .fp32 true (x m) (y m), 0)) ∧
    (∃ t, exec (.frcp k a b rm sat) s = .next t ∧
      ResultF k s t a fun m => fpOut .fp32 fp32 rm sat (divV (.fin false 1 0 false) (val (x m)))) ∧
    (∃ t, exec (.fsqrt k a b rm sat) s = .next t ∧ ResultF k s t a fun m => fpOut .fp32 fp32 rm sat (sqrtV (val (x m)))) ∧
    (∃ t, exec (.fdiv k a b c rm sat) s = .next t ∧
      ResultF k s t a fun m => fpOut .fp32 fp32 rm sat (divV (val (x m)) (val (y m)))) ∧
    (∃ t, exec (.ffrac k a b rm sat) s = .next t ∧ ResultF k s t a fun m => fpFrac rm sat (x m)) ∧
    (∃ t, exec (.frsq k a b) s = .next t ∧ ResultF k s t a fun m => fpOut .fp32 fp32 .rn false (rsqrtV (val (x m)))) ∧
    (∃ t, exec (.fexp2 k a b) s = .next t ∧ ResultF k s t a fun m => fpOut .fp32 fp32 .rn false (exp2V (val (x m)))) ∧
    (∃ t, exec (.flog2 k a b) s = .next t ∧ ResultF k s t a fun m => fpOut .fp32 fp32 .rn false (log2V (val (x m)))) ∧
    (∃ t, exec (.fsin k a b) s = .next t ∧ ResultF k s t a fun m => fpOut .fp32 fp32 .rn false (trigV false (val (x m)))) ∧
    (∃ t, exec (.fcos k a b) s = .next t ∧ ResultF k s t a fun m => fpOut .fp32 fp32 .rn false (trigV true (val (x m)))) ∧
    (∃ t, exec (.ftanh k a b) s = .next t ∧ ResultF k s t a fun m => fpOut .fp32 fp32 .rn false (tanhV (val (x m))))

/-- Two elements of 16 bits, each by `f`, with the flags of both. -/
def Claims.both (f : Nat → Nat → Nat → Nat × FFlags) (x y z : Nat) : Nat × FFlags :=
  ((f (x % 65536) (y % 65536) (z % 65536)).1 + 65536 * (f (x / 65536) (y / 65536) (z / 65536)).1,
   (f (x % 65536) (y % 65536) (z % 65536)).2 ||| (f (x / 65536) (y / 65536) (z / 65536)).2)

/-- 06 R96 and R97: packed FP16 and BF16, element by element, and FP64 on pairs with 06 R98. -/
def Obligations.PackedAndDoublePrecision : Prop :=
  ∀ (k : Ctl) (a b c d : Opnd) (rm : Rnd) (sat : Bool) (s : State),
    let h := fun (o : Opnd) m => srcH .fp16 s m o
    let g := fun (o : Opnd) m => srcH .bf16 s m o
    let w := fun (o : Opnd) m => srcD s m o
    (∃ t, exec (.hadd2 k a b c rm sat) s = .next t ∧
      ResultF k s t a fun m => Claims.both (fun x y _ => fpAdd .fp16 rm sat x y) (h b m) (h c m) 0) ∧
    (∃ t, exec (.hmul2 k a b c rm sat) s = .next t ∧
      ResultF k s t a fun m => Claims.both (fun x y _ => fpMul .fp16 rm sat x y) (h b m) (h c m) 0) ∧
    (∃ t, exec (.hfma2 k a b c d rm sat) s = .next t ∧
      ResultF k s t a fun m => Claims.both (fpFma .fp16 rm sat) (h b m) (h c m) (h d m)) ∧
    (∃ t, exec (.hmin2 k a b c) s = .next t ∧
      ResultF k s t a fun m => Claims.both (fun x y _ => (fpMinMax .fp16 false x y, 0)) (h b m) (h c m) 0) ∧
    (∃ t, exec (.hmax2 k a b c) s = .next t ∧
      ResultF k s t a fun m => Claims.both (fun x y _ => (fpMinMax .fp16 true x y, 0)) (h b m) (h c m) 0) ∧
    (∃ t, exec (.badd2 k a b c rm sat) s = .next t ∧
      ResultF k s t a fun m => Claims.both (fun x y _ => fpAdd .bf16 rm sat x y) (g b m) (g c m) 0) ∧
    (∃ t, exec (.bmul2 k a b c rm sat) s = .next t ∧
      ResultF k s t a fun m => Claims.both (fun x y _ => fpMul .bf16 rm sat x y) (g b m) (g c m) 0) ∧
    (∃ t, exec (.bfma2 k a b c d rm sat) s = .next t ∧
      ResultF k s t a fun m => Claims.both (fpFma .bf16 rm sat) (g b m) (g c m) (g d m)) ∧
    (∃ t, exec (.bmin2 k a b c) s = .next t ∧
      ResultF k s t a fun m => Claims.both (fun x y _ => (fpMinMax .bf16 false x y, 0)) (g b m) (g c m) 0) ∧
    (∃ t, exec (.bmax2 k a b c) s = .next t ∧
      ResultF k s t a fun m => Claims.both (fun x y _ => (fpMinMax .bf16 true x y, 0)) (g b m) (g c m) 0) ∧
    (∃ t, exec (.dadd k a b c rm sat) s = .next t ∧ ResultF64 k s t a fun m => fpAdd .fp64 rm sat (w b m) (w c m)) ∧
    (∃ t, exec (.dmul k a b c rm sat) s = .next t ∧ ResultF64 k s t a fun m => fpMul .fp64 rm sat (w b m) (w c m)) ∧
    (∃ t, exec (.dfma k a b c d rm sat) s = .next t ∧
      ResultF64 k s t a fun m => fpFma .fp64 rm sat (w b m) (w c m) (w d m)) ∧
    (∃ t, exec (.dmin k a b c) s = .next t ∧ ResultF64 k s t a fun m => (fpMinMax .fp64 false (w b m) (w c m), 0)) ∧
    (∃ t, exec (.dmax k a b c) s = .next t ∧ ResultF64 k s t a fun m => (fpMinMax .fp64 true (w b m) (w c m), 0)) ∧
    (∃ t, exec (.drcp k a b rm sat) s = .next t ∧
      ResultF64 k s t a fun m => fpOut .fp64 fp64 rm sat (divV (.fin false 1 0 false) (decodeF .fp64 fp64 (w b m))))

/-- 06 R100 to R102: conversion, packing with a multiplier, and SCALEQ. That class 7 discards UNPACK8's and UNPACK4's registers is the
model's reading (log 81). -/
def Obligations.Conversion : Prop :=
  ∀ (k : Ctl) (a b c : Opnd) (dst sf fmt : Fmt) (rm : Rnd) (sat : Bool) (el : BitVec 3) (s : State),
    (dst ≠ .fp64 → ∃ t, exec (.cvt k a b dst sf rm sat el) s = .next t ∧
      ResultF k s t a fun m => cvt dst sf rm sat el.toNat (cvtSrc sf s m b)) ∧
    (dst = .fp64 → ∃ t, exec (.cvt k a b dst sf rm sat el) s = .next t ∧
      ResultF64 k s t a fun m => cvt dst sf rm sat el.toNat (cvtSrc sf s m b)) ∧
    (∃ t, exec (.pack8 k a b c fmt rm sat) s = .next t ∧
      ResultF k s t a fun m => packAll fmt rm sat (spanF s m b 4) (multiplier s m c)) ∧
    (∃ t, exec (.pack4 k a b c fmt rm sat) s = .next t ∧
      ResultF k s t a fun m => packAll fmt rm sat (spanF s m b 8) (multiplier s m c)) ∧
    (VDest a → ∃ t, exec (.unpack8 k a b c fmt rm) s = .next t ∧ ResultSpan k s t a 4 fun m =>
      unpackAll fmt rm 4 (src s m b).toNat (multiplier s m c)) ∧
    (VDest a → ∃ t, exec (.unpack4 k a b c fmt rm) s = .next t ∧ ResultSpan k s t a 8 fun m =>
      unpackAll fmt rm 8 (src s m b).toNat (multiplier s m c)) ∧
    (∃ t, exec (.scaleq k a b fmt) s = .next t ∧ ResultF64 k s t a fun m =>
      ((scaleq fmt (srcF s m b)).1 + 2 ^ 32 * (scaleq fmt (srcF s m b)).2.1, (scaleq fmt (srcF s m b)).2.2))

/-- The lanes over which a lane instruction combines for a member (06 R104): the threads whose guard is true, with a uniform
destination those of its home wave. -/
def Claims.over (k : Ctl) (s : State) (a : Opnd) (m : Nat × Nat) : List (Nat × Nat) :=
  match a with
  | .s _ => (actives k s).filter fun x => x.2 == m.2
  | _ => actives k s

/-- 06 R103 to R106, Table 6-7: the lane instructions; none sets a flag. WLANE writes the row of home lane c<4:0> of the writer's own
home wave, of several writers the highest position is kept, and no other register, flag, thread, memory or group changes; what an
instruction of the wave's other path, issued in the same clock, has still to write into such a row is lost. -/
def Obligations.LaneInstructions : Prop :=
  ∀ (k : Ctl) (a b c : Opnd) (s : State),
    let low := fun m => (src s m c).toNat % 32
    (∃ t, exec (.shfl k a b c) s = .next t ∧ Result32 k s t a fun m => posSrc s (low m) b) ∧
    (∃ t, exec (.shflup k a b c) s = .next t ∧ Result32 k s t a fun m =>
      if (src s m c).toNat ≤ m.1 then posSrc s (m.1 - (src s m c).toNat) b else src s m b) ∧
    (∃ t, exec (.shfldn k a b c) s = .next t ∧ Result32 k s t a fun m =>
      if m.1 + (src s m c).toNat ≤ 31 then posSrc s (m.1 + (src s m c).toNat) b else src s m b) ∧
    (∃ t, exec (.shflx k a b c) s = .next t ∧ Result32 k s t a fun m => posSrc s (m.1 ^^^ low m) b) ∧
    (∃ t, exec (.bcast k a b c) s = .next t ∧ Result32 k s t a fun m => posSrc s (low m) b) ∧
    (∃ t, exec (.vote k a b .all) s = .next t ∧
      Result32 k s t a fun m => wordOfBool ((Claims.over k s a m).all fun x => srcP s x b)) ∧
    (∃ t, exec (.vote k a b .any) s = .next t ∧
      Result32 k s t a fun m => wordOfBool ((Claims.over k s a m).any fun x => srcP s x b)) ∧
    (∃ t, exec (.vote k a b .uni) s = .next t ∧ Result32 k s t a fun m => wordOfBool
      (((Claims.over k s a m).all fun x => srcP s x b) || ((Claims.over k s a m).all fun x => !srcP s x b))) ∧
    (∃ t, exec (.ballot k a b) s = .next t ∧
      BitResult k s t a fun m i => (Claims.over k s a m).any fun x => x.1 == i && srcP s x b) ∧
    (∃ t, exec (.rfl k a b) s = .next t ∧ Result32 k s t a fun m => src s ((Claims.over k s a m).headD m) b) ∧
    (∃ t, exec (.rlane k a b c) s = .next t ∧ Result32 k s t a fun m =>
      if low m < (s.wave s.cur.g m.2).threads.length then src s (low m, m.2) b else 0) ∧
    (∀ op u, ∃ t, exec (.redux k a b op u) s = .next t ∧
      Result32 k s t a fun m => reduce op u ((Claims.over k s a m).map fun x => src s x b)) ∧
    (∃ t, exec (.matchLanes k a b false) s = .next t ∧
      BitResult k s t a fun m i => (Claims.over k s a m).any fun x => x.1 == i && src s x b == src s m b) ∧
    (∃ t, exec (.matchLanes k a b true) s = .next t ∧ BitResult k s t a fun m i =>
      ((Claims.over k s a m).all fun x => (Claims.over k s a m).all fun y => src s x b == src s y b) &&
        (Claims.over k s a m).any fun x => x.1 == i) ∧
    (∀ n : BitVec 8,
      let g := s.cur.g
      let writers := fun l w => (actives k s).filter fun m => m.2 == w && (src s m c).toNat % 32 == l
      ∃ t, exec (.wlane k (.v n) b c) s = .next t ∧
        t = { s with groups := t.groups, accesses := t.accesses, nameOps := t.nameOps, joins := t.joins } ∧
        (∀ h, h ≠ g → mget t.groups h = mget s.groups h) ∧
        (∀ (i : Nat) (x : Access), s.accesses[i]? = some x → ∃ y, t.accesses[i]? = some y ∧ (x.clock ≠ s.clock ∨ x.g ≠ g → y = x) ∧
          (x.clock = s.clock → x.g = g → ∀ o ∈ y.lanes, s.hasThread g (o.lane, x.w) → writers o.lane x.w ≠ [] → n.toNat ∉ o.dst)) ∧
        (∀ (i : Nat) (x : NameOp), s.nameOps[i]? = some x → x.born ≠ s.clock → t.nameOps[i]? = some x) ∧
        (∀ (i : Nat) (x : JoinOp), s.joins[i]? = some x → x.born ≠ s.clock → t.joins[i]? = some x) ∧
        t.accesses.length = s.accesses.length ∧ t.nameOps.length = s.nameOps.length ∧ t.joins.length = s.joins.length ∧
        (∀ l w, s.hasThread g (l, w) →
          (writers l w = [] → vraw (t.thread g w l) n.toNat = vraw (s.thread g w l) n.toNat) ∧
          (∀ m ∈ writers l w, (∀ x ∈ writers l w, x.1 ≤ m.1) → vraw (t.thread g w l) n.toNat = src s m b) ∧
          (∀ r, r ≠ n.toNat → vraw (t.thread g w l) r = vraw (s.thread g w l) r) ∧
          t.thread g w l =
            { s.thread g w l with
              pc := if (l, w) ∈ s.cur.members then s.cur.pc + 12 else (s.thread g w l).pc
              vr := (t.thread g w l).vr, hazards := (t.thread g w l).hazards, laneW := (t.thread g w l).laneW }))

/-! ### Control -/

/-- Where a thread stands when the members of `act` go to `tgt`: every other issuing thread is at the next instruction. -/
def Claims.goes (s : State) (act : List (Nat × Nat)) (tgt : Nat × Nat → Nat) (m : Nat × Nat) (x : Thread) : Thread :=
  { x with pc := if m ∈ act then tgt m else if m ∈ s.cur.members then s.cur.pc + 12 else x.pc }

/-- 08 R154, R155 and 02 R25: a branch whose targets all lie in the code moves the threads whose guard is true, and only their
program counters change (CALL writes its link pair too); a target outside the code traps LANDING_FAULT before any lane moves;
BRU with differing guards traps every issuing thread with UNIFORM_BREACH. -/
def Obligations.Branches : Prop :=
  ∀ (k : Ctl) (a b : Opnd) (off : Word) (s : State),
    let act := actives k s
    let g := s.cur.g
    let tgt : Int := s.cur.pc + 12 * off.toInt
    let lands := fun (p : Int) w => p % 12 == 0 && inCode s g w p
    let ret := fun m => (src64 s m b).toNat
    let missed := fun (p : Nat × Nat → Int) =>
      Host.Outcome.next (trapFails s ((act.filter fun m => !lands (p m) m.2).map fun m => (⟨m, 0x0A, 0, 0⟩ : LaneFail)) [])
    ((∀ m ∈ act, lands tgt m.2) →
      (∃ t, exec (.bra k off) s = .next t ∧ EachThread s t g (Claims.goes s act fun _ => tgt.toNat)) ∧
      (act = [] ∨ act.length = s.cur.members.length →
        ∃ t, exec (.bru k off) s = .next t ∧ EachThread s t g (Claims.goes s act fun _ => tgt.toNat)) ∧
      (VDest a → ∃ t, exec (.call k a off) s = .next t ∧ KeepRegs k s t (destV 2 a) [] [] false ∧
        Holds64 k s t a (fun _ => BitVec.ofNat 64 (s.cur.pc + 12)) ∧
        ∀ m ∈ s.cur.members, s.hasThread g m → (t.thread g m.2 m.1).pc = if m ∈ act then tgt.toNat else s.cur.pc + 12)) ∧
    ((∀ m ∈ act, lands (ret m) m.2) → ∃ t, exec (.ret k b) s = .next t ∧ EachThread s t g (Claims.goes s act ret)) ∧
    ((∃ m ∈ act, lands tgt m.2 = false) →
      exec (.bra k off) s = missed (fun _ => tgt) ∧
      (act.length = s.cur.members.length → exec (.bru k off) s = missed fun _ => tgt) ∧
      (VDest a → exec (.call k a off) s = missed fun _ => tgt)) ∧
    ((∃ m ∈ act, lands (ret m) m.2 = false) → exec (.ret k b) s = missed fun m => ret m) ∧
    (act ≠ [] → act.length ≠ s.cur.members.length → exec (.bru k off) s = .next (trapNow s 0x07 0 s.cur.members))

/-- A word of the jump table that a thread reads, passes every check of the address, and can be read at once. -/
def Claims.readsTable (s : State) (m : Nat × Nat) (addr : Nat) (vals : List Word) (x : Word) : Prop :=
  ∃ o tr, checkLane s s.cur.g m .jtab 4 (tableOp m addr vals) = .ok o tr ∧ performsNow o.kind o.cls = true ∧ tableWord s s.cur.g o = x

/-- A multiple of 12 in the code, at a LAND without .M that carries a label. -/
def Claims.landsOn (s : State) (m : Nat × Nat) (e label : Nat) : Bool :=
  e % 12 == 0 && inCode s s.cur.g m.2 e &&
    (match decode (wordAt s s.cur.g m.2 e) with
     | .ok (.land _ _ _ _ _ l mono _) => !mono && l.toNat == label
     | _ => false)

/-- 08 R156 and 02 R25: the header word is read once, its low half bounds the index and its high half is the label. Where every
thread whose guard is true has an index in bound and an entry that lands, each goes to its own entry; a thread out of bound fails with
BOUND, one whose entry does not land with LANDING_FAULT, and no thread moves then. A failing read of the header traps every such thread
with its cause, and a header in a page that is not there leaves them Fault-parked at the instruction. -/
def Obligations.JumpTable : Prop :=
  ∀ (k : Ctl) (b : Opnd) (tab hdr : Word) (e : Nat × Nat → Word) (s : State),
    let act := actives k s
    let g := s.cur.g
    let base := s.cg.cnst.toNat + tab.toNat
    let idx := fun m => src s m b
    let inb := fun m => decide ((idx m).toNat < hdr.toNat % 65536)
    let lands := fun m => Claims.landsOn s m (e m).toNat (hdr.toNat / 65536)
    ((∀ m rest, act = m :: rest → Claims.readsTable s m base [] hdr) →
      (∀ m ∈ act, inb m = true → Claims.readsTable s m (base + 4 + 4 * (idx m).toNat) [idx m, hdr] (e m)) →
      ((∀ m ∈ act, inb m = true ∧ lands m = true) →
        ∃ t, exec (.jtab k b tab) s = .next t ∧ EachThread s t g (Claims.goes s act fun m => (e m).toNat)) ∧
      ((∃ m ∈ act, inb m = false ∨ lands m = false) → exec (.jtab k b tab) s = .next (trapFails s
        (((act.filter fun m => !inb m).map fun m => (⟨m, 0x09, 0, 0⟩ : LaneFail)) ++
          ((act.filter fun m => inb m && !lands m).map fun m => (⟨m, 0x0A, 0, 0⟩ : LaneFail))) []))) ∧
    (∀ m0 rest f, act = m0 :: rest → checkLane s g m0 .jtab 4 (tableOp m0 base []) = .fail f →
      exec (.jtab k b tab) s = .next (trapFails s (act.map fun m => { f with at_ := m }) [])) ∧
    (∀ m0 rest p o, act = m0 :: rest → checkLane s g m0 .jtab 4 (tableOp m0 base []) = .park p o →
      ∃ t, exec (.jtab k b tab) s = .next t ∧ ∀ m ∈ act, m.1 < 32 → s.hasThread g m →
        (t.thread g m.2 m.1).st = .faultParked ∧ (t.thread g m.2 m.1).pc = s.cur.pc)

/-- 08 R153, R157, R160, R161, R162: LAND and NOP only go on; YIELD goes on and defers its home wave; EXIT ends the threads whose
guard is true; BRK halts them where they stand under a debugger and traps BREAKPOINT, resumable, without one. -/
def Obligations.PlainControl : Prop :=
  ∀ (k : Ctl) (a b c d : Opnd) (label : BitVec 16) (m0 dir : Bool) (code : Word) (s : State),
    let act := actives k s
    let g := s.cur.g
    (∃ t, exec (.nop k) s = .next t ∧ EachThread s t g (Claims.goes s [] fun _ => 0)) ∧
    (∃ t, exec (.land k a b c d label m0 dir) s = .next t ∧ EachThread s t g (Claims.goes s [] fun _ => 0)) ∧
    (∃ t, exec (.yield k) s = .next t ∧ InGroup s t g ∧
      (∀ m, s.hasThread g m → t.thread g m.2 m.1 = Claims.goes s [] (fun _ => 0) m (s.thread g m.2 m.1)) ∧
      (act ≠ [] → s.cur.formed = false → s.hasWave g s.cur.w →
        ∃ q, (t.wave g s.cur.w).sel.defer = .yield q (s.clock + 16) ∧ (g, s.cur.w) ∉ q)) ∧
    (∃ t, exec (.exit k) s = .next t ∧ ∀ m ∈ act, s.hasThread g m → (t.thread g m.2 m.1).st = .exited) ∧
    (act = [] → ∃ t, exec (.brk k code) s = .next t ∧ EachThread s t g (Claims.goes s [] fun _ => 0)) ∧
    (act ≠ [] → (s.ctx s.cg.ctx).debug = true → (s.ctx s.cg.ctx).allStop = false →
      ∃ t, exec (.brk k code) s = .next t ∧ EachThread s t g fun m x =>
        if m ∈ act then { x with st := .halted, pc := s.cur.pc } else Claims.goes s [] (fun _ => 0) m x) ∧
    (act ≠ [] → (s.ctx s.cg.ctx).debug = false → exec (.brk k code) s =
      .next (takeTrap s g { cause := 0x21, lanes := act, rsm := true, pc := s.cur.pc, word := s.cur.word, frm := s.cur.formed }))

/-- 08 R140, R158: RCVSET sets the mask of each home wave to its threads whose guard is true, RCVWAIT holds those that are in the
mask, RCVDROP takes the threads out of it (in home waves whose convergence registers hold no matrix form). A register at or
beyond the declared depth traps DIVERGE_DEPTH, and RCVSET of a register on which a thread is held traps BARRIER_MISUSE. -/
def Obligations.Reconvergence : Prop :=
  ∀ (k : Ctl) (n : BitVec 5) (s : State),
    let act := actives k s
    let g := s.cur.g
    let mask := fun w => maskOf (waveLanes act w)
    (n.toNat < s.cg.hdr.depth →
      ((∀ m ∈ act, heldRcv s g m.2 n.toNat = false) → ∃ t, exec (.rcvset k n) s = .next t ∧
        EachWave s t g (fun w v =>
          { v with rcv := if w ∈ wavesOf act then msetD v.rcv n.toNat (mask w) 0 else v.rcv, threads := (t.wave g w).threads }) ∧
        ∀ m, s.hasThread g m → t.thread g m.2 m.1 = Claims.goes s [] (fun _ => 0) m (s.thread g m.2 m.1)) ∧
      (∃ t, exec (.rcvwait k n) s = .next t ∧ EachThread s t g fun m x =>
        if m ∈ act ∧ (mgetD (s.wave g m.2).rcv n.toNat 0).getLsbD m.1 then
          { x with pc := s.cur.pc, st := .held, hold := .rcv n.toNat }
        else Claims.goes s [] (fun _ => 0) m x) ∧
      ((∀ m ∈ act, ∀ c ∈ (s.wave g m.2).conv, c.2.kind ≠ 2) → ∃ t, exec (.rcvdrop k n) s = .next t ∧ InGroup s t g ∧
        ∀ w, s.hasWave g w → ∀ i < 32, (mgetD (t.wave g w).rcv n.toNat 0).getLsbD i =
          ((mgetD (s.wave g w).rcv n.toNat 0).getLsbD i && !act.any fun m => m == (i, w)))) ∧
    (s.cg.hdr.depth ≤ n.toNat → act ≠ [] →
      exec (.rcvset k n) s = .next (trapNow s 0x08 0 act) ∧ exec (.rcvwait k n) s = .next (trapNow s 0x08 0 act) ∧
      exec (.rcvdrop k n) s = .next (trapNow s 0x08 0 act)) ∧
    (n.toNat < s.cg.hdr.depth → (∃ m ∈ act, heldRcv s g m.2 n.toNat = true) →
      exec (.rcvset k n) s = .next (trapNow s 0x0C 12 (act.filter fun m => heldRcv s g m.2 n.toNat)))

/-! ### Threads and names -/

/-- Where every issuing thread goes on at the next instruction. -/
def Claims.onward (s t : State) : Prop :=
  ∀ m, s.hasThread s.cur.g m → m ∈ s.cur.members → (t.thread s.cur.g m.2 m.1).pc = s.cur.pc + 12

/-- 08 R166 to R168, 10 R200 to R205: SPAWN and EMIT go on at once; with one pushing thread and room in the key's slot, the
record of v a to a+7 arrives last in the slot. TAKE holds its threads until the bin answers. A bad entry traps
LANDING_FAULT. -/
def Obligations.SpawnBins : Prop :=
  ∀ (k : Ctl) (a b c : Opnd) (entry : Word) (s : State),
    let act := actives k s
    let die := s.cg.core / 48
    let mine : BinKey := { node := false, owner := s.cg.ctx, entry := entry.toNat }
    let room := fun (key : BinKey) (i : Nat) (x : BinSlot) =>
      binFind (s.die die) key = some (i, x) ∧ (s.pushes.any fun p => p.die == die && p.key == key) = false ∧ served s die key = false ∧
        x.recs.length + 1 < 2 ^ x.caplog
    let arrives := fun (t : State) (m : Nat × Nat) (n : BitVec 8) i x held counter =>
      ∃ y, mget (t.die die).bins i = some y ∧ y.recs = x.recs ++
        [{ held := held, vals := (List.range 8).map (fun j => rdV s m (n.toNat + j)), counter := counter, pusher := s.cg.launch,
           node := s.cg.node }]
    ((∀ m ∈ act, inCode s s.cur.g m.2 (entry.toNat : Int) = true) →
      (∃ t, exec (.spawn k a c entry) s = .next t ∧ Claims.onward s t ∧
        ∀ m n i x, act = [m] → a = .v n → room mine i x → arrives t m n i x (holdOpt c) s.cg.counter) ∧
      (∃ t, exec (.take k a b entry) s = .next t ∧
        (∀ m ∈ act, s.hasThread s.cur.g m → (t.thread s.cur.g m.2 m.1).st = .held ∧
          (t.thread s.cur.g m.2 m.1).hold = .bin s.nextId ∧ (t.thread s.cur.g m.2 m.1).pc = s.cur.pc) ∧
        (act ≠ [] → ∃ o, t.takes = s.takes ++ [o] ∧ o.id = s.nextId ∧ o.lanes = act ∧ o.key = mine ∧ o.die = die))) ∧
    (act ≠ [] → (∃ m ∈ act, inCode s s.cur.g m.2 (entry.toNat : Int) = false) →
      exec (.spawn k a c entry) s = .next (trapNow s 0x0A 0 act) ∧ exec (.take k a b entry) s = .next (trapNow s 0x0A 0 act)) ∧
    (∀ gr nd, s.cg.graph = some gr → graphNode s gr entry.toNat = some nd →
      ∃ t, exec (.emit k a entry) s = .next t ∧ Claims.onward s t ∧
        ∀ m n i x, act = [m] → a = .v n → room { node := true, owner := gr, entry := entry.toNat } i x →
          arrives t m n i x false (((mget s.graphs gr).map (·.handle)).getD 0)) ∧
    (act ≠ [] → (∀ gr, s.cg.graph = some gr → graphNode s gr entry.toNat = none) →
      exec (.emit k a entry) s = .next (trapNow s 0x0A 0 act))

/-- 08 R168, 10 R202, R205: a bin answers TAKE with its oldest record in v b to b+7 and predicate 1, and the thread starts at
the entry; an empty bin answers predicate 0 and the thread goes on; a deferred push that finds room, first of its key, is no
longer waiting; an expired timer of an active key is marked, and the end of the clock launches the slot's free records. -/
def Obligations.BinAnswers : Prop :=
  (∀ (o : TakeOp) (m : Nat × Nat) (s : State), (s.takes.find? fun x => x.id == o.id) = some o → o.lanes = [m] →
    s.hasThread o.g m → (s.thread o.g m.2 m.1).st = .held → (s.thread o.g m.2 m.1).hold = .bin o.id → o.pd < 48 →
    ∃ t, exec (.takeAnswer o.id) s = .next t ∧
      let x := t.thread o.g m.2 m.1
      ((∀ i b, binFind (s.die o.die) o.key = some (i, b) → b.recs = []) → praw x o.pd = false ∧ x.st = .ready ∧ x.pc = (s.thread o.g m.2 m.1).pc + 12) ∧
      (∀ i b r rs, binFind (s.die o.die) o.key = some (i, b) → b.recs = r :: rs → r.vals.length = 8 →
        (s.wave o.g m.2).conv = [] → o.spared = [] →
        praw x o.pd = true ∧ x.st = .ready ∧ x.pc = o.entry ∧ ∀ j < 8, vraw x (o.base + j) = r.vals.getD j 0)) ∧
  (∀ (p : Push) (s s1 : State), (s.pushes.find? fun x => x.id == p.id) = some p →
    (s.pushes.any fun q => q.id < p.id && q.die == p.die && q.key == p.key) = false → served s p.die p.key = false → pushOne s p.g p.die p.key p.item = some s1 →
    ∃ t, exec (.binPushDeferred p.id) s = .next t ∧ ∀ q ∈ t.pushes, q.id ≠ p.id) ∧
  (∀ (die : BitVec 2) (slot : BitVec 12) (b : BinSlot) (e : Nat) (s : State), mget (s.die die.toNat).bins slot.toNat = some b →
    b.timerEnd = some e → e ≤ s.clock →
    (keyActive s die.toNat b.key = true → ∃ t, exec (.binTimerExpiry die slot) s = .next t ∧ t = { s with dies := t.dies } ∧
      mget (t.die die.toNat).bins slot.toNat = some { b with fire := true }) ∧
    (keyActive s die.toNat b.key = false → exec (.binTimerExpiry die slot) s = .next s) ∧
    (b.fire = true → freeCount b ≠ 0 → freeCount b < b.coal →
      let t := settleBin s die.toNat slot.toNat
      t.nextId = s.nextId + 1 ∧ (t.group s.nextId).recVals = (b.recs.filter fun r => !r.held).map (·.vals) ∧
        (t.group s.nextId).gsize = freeCount b ∧ (t.group s.nextId).place = .waiting))

/-- 08 R149 to R152, R165, R169 to R171: PARK takes a pending wake, a new signal, or parks after the instruction. WAKE, SIGNAL and
DEPOSIT record one operation for each thread whose guard is true, in lane order, with what the checks answered, and go on; a
failed right, window or trapping lookup traps and records nothing. -/
def Obligations.ParkAndSend : Prop :=
  ∀ (k : Ctl) (a b c : Opnd) (grp trap : Bool) (slot : BitVec 5) (s : State),
    let act := actives k s
    let g := s.cur.g
    let check := fun (f : Nat × Nat → NameAct) (m : Nat × Nat) => nameCheck s (s.cg.core / 48) s.cg.ctx (src64 s m b) grp trap (f m)
    let sends := fun (i : Instr) (f : Nat × Nat → NameAct) =>
      ((∀ m ∈ act, ∀ x y, check f m ≠ .trap x y) → ∃ t, exec i s = .next t ∧ Claims.onward s t ∧
        ∃ os, t.nameOps = s.nameOps ++ os ∧ os.length = act.length ∧
          os.map (fun o => (o.sender, o.act, o.dst, o.target, o.remote, o.status)) = act.map fun m =>
            match check f m with
            | .go _ tg rem => (.thread g m.2 m.1, f m, a, some tg, rem, none)
            | .status n => (.thread g m.2 m.1, f m, a, none, none, some (BitVec.ofNat 32 n))
            | .trap _ _ => (.thread g m.2 m.1, f m, a, none, none, none)) ∧
      ((∃ m ∈ act, ∃ x y, check f m = .trap x y) →
        exec i s = .next (trapFails s (nameFails (act.map fun m => (m, check f m))) []))
    (∃ t, exec (.park k) s = .next t ∧ InGroup s t g ∧ ∀ m, s.hasThread g m →
      (m ∉ act → t.thread g m.2 m.1 = Claims.goes s [] (fun _ => 0) m (s.thread g m.2 m.1)) ∧
      (act.count m = 1 →
        let x := s.thread g m.2 m.1
        let y := { x with pc := s.cur.pc + 12 }
        t.thread g m.2 m.1 =
          if x.pend ≠ 0 then { y with pend := x.pend - 1, mark := x.sig }
          else if x.sig ≠ x.mark then { y with mark := x.sig }
          else { y with st := .parked })) ∧
    sends (.wake k a b grp trap) (fun _ => .wake) ∧
    sends (.signal k a b grp trap) (fun _ => .signal) ∧
    sends (.deposit k a b c grp trap slot) fun m => .deposit slot (src s m c)

/-- Table 8-5, 08 R151, R169, R171: an operation that is the oldest of its sender on its target and whose target's group stands on
a core is applied to the thread it names: a WAKE makes a Parked thread Ready and else counts in PEND, which saturates; a SIGNAL
counts in SIG and releases a Parked thread; a DEPOSIT writes the register of its slot in the window that the target's entry gives. The operation is then
gone. -/
def Obligations.NameDelivery : Prop :=
  ∀ (o : NameOp) (c n i g : Nat) (s : State), (s.nameOps.find? fun x => x.id == o.id) = some o →
    nameBehind s o = false → o.remote = none → o.status = none → o.written = false →
    o.target = some (.group c n i false) → groupAt s c n = some g →
    (s.group g).place ≠ .spilling → (s.group g).place ≠ .migrating → (s.group g).place ≠ .swapped → (s.group g).place ≠ .loading →
    s.hasThread g (i % 32, i / 32) → o.sender ≠ .thread g (i / 32) (i % 32) →
    ∃ t, exec (.nameDelivery o.id) s = .next t ∧ (∀ x ∈ t.nameOps, x.id ≠ o.id) ∧
      let x := s.thread g (i / 32) (i % 32)
      let y := t.thread g (i / 32) (i % 32)
      (x.st ≠ .exited →
        (o.act = .wake → (x.st = .parked → y.st = .ready ∧ y.pend = x.pend) ∧
          (x.st ≠ .parked → y.st = x.st ∧ y.pend.toNat = min 65535 (x.pend.toNat + 1))) ∧
        (o.act = .signal → y.sig = x.sig + 1 ∧ (x.st = .parked → y.st = .ready ∧ y.mark = x.sig + 1) ∧
          (x.st ≠ .parked → y.st = x.st ∧ y.mark = x.mark)) ∧
        (∀ slot v, o.act = .deposit slot v → slot.toNat < 16 → (∀ h ∈ x.hazards, h.until_ ≤ s.clock) → vraw y ((o.vfirst + slot.toNat) % 256) = v)) ∧
      (x.st = .exited → y = x)

/-- 08 R172 to R174: JOIN parks each thread whose target has not ended, has stores still to perform, or is of another device, after the
instruction, and records the joins in lane order; a join whose target has ended gives its value and status and the thread goes on.
NAMEOF forms the reference, NPROBE posts the probe word. A failed right or a trapping lookup traps. -/
def Obligations.JoinProbeName : Prop :=
  (∀ (k : Ctl) (a b c : Opnd) (grp trap : Bool) (s : State),
    let act := actives k s
    let g := s.cur.g
    let ask := fun m => joinCheck s (s.cg.core / 48) s.cg.ctx (src64 s m b) grp trap
    let probe := fun m => probeWord s (s.cg.core / 48) s.cg.ctx (src64 s m b) grp trap
    ((∀ m ∈ act, ∀ x y, ask m ≠ .trap x y) → ∃ t, exec (.join k a b c grp trap) s = .next t ∧ Claims.onward s t ∧
      (∀ m ∈ act, s.hasThread g m → (∀ v st, ask m ≠ .now v st) → (t.thread g m.2 m.1).st = .parkedJoin) ∧
      (∃ js, t.joins = s.joins ++ js ∧ js.map (fun j => (j.sender, j.dst, j.sdst, j.result, j.parked)) = act.map fun m =>
        match ask m with
        | .now v st => (.thread g m.2 m.1, a, c, some (v, st), false)
        | .wait _ _ => (.thread g m.2 m.1, a, c, none, true)
        | .late _ v => (.thread g m.2 m.1, a, c, some (some v, 0), true)
        | .far _ _ => (.thread g m.2 m.1, a, c, none, true)
        | .trap _ _ => (.thread g m.2 m.1, a, c, none, false))) ∧
    ((∃ m ∈ act, ∃ x y, ask m = .trap x y) → exec (.join k a b c grp trap) s = .next (trapFails s
      (act.filterMap fun m => match ask m with | .trap x y => some (⟨m, x, y, 0⟩ : LaneFail) | _ => none) [])) ∧
    (∃ t, exec (.nameof k a b c grp) s = .next t ∧ Result64 k s t a fun m =>
      ((BitVec.ofNat 64 s.cg.gbase + (src s m b).zeroExtend 64) <<< 10) |||
        (if grp then 0 else ((src s m c).truncate 10 : BitVec 10).zeroExtend 64)) ∧
    ((∀ m ∈ act, ∃ w, probe m = .inr w) → ∃ t, exec (.nprobe k a b grp trap) s = .next t ∧ Claims.onward s t ∧
      ∃ os, t.nameOps = s.nameOps ++ os ∧ os.map (fun o => (o.sender, o.dst, o.status)) = act.map fun m =>
        (.thread g m.2 m.1, a, match probe m with | .inr w => some w | .inl _ => none)) ∧
    ((∃ m ∈ act, ∃ x y, probe m = .inl (.trap x y)) → exec (.nprobe k a b grp trap) s = .next (trapFails s
      (act.filterMap fun m => match probe m with | .inl (.trap x y) => some (⟨m, x, y, 0⟩ : LaneFail) | _ => none) []))) ∧
  (∀ (j : JoinOp) (v : Word) (st g w l : Nat) (s : State), (s.joins.find? fun x => x.id == j.id) = some j →
    joinValue s j = some (some v, st) → j.sender = .thread g w l → s.hasThread g (l, w) →
    (s.thread g w l).st = .parkedJoin → (s.thread g w l).joinOp = some j.id →
    ∃ t, exec (.joinComplete j.id) s = .next t ∧ (∀ x ∈ t.joins, x.id ≠ j.id) ∧ (t.thread g w l).st = .ready ∧
      (∀ n, j.dst = .v n → j.sdst ≠ .v n → vraw (t.thread g w l) n.toNat = v) ∧
      (∀ n, j.sdst = .v n → vraw (t.thread g w l) n.toNat = BitVec.ofNat 32 st))

/-- 11 R219 to R223: GDONE marks each thread whose guard is true, unless the group's completion has been published, and with the last
live thread the completion falls due; it covers the accesses that the thread has still to perform. CANCEL of a level gives its status
(3 for a handle that names none of that level, 1 for a complete one, 2 for one already cancelled, else 0) and goes on: the level's
launches place no more groups, and its groups are dead or have only exited threads. CANCEL of a group gives the status of its lookup, 1
for a dead one, 0 for one that it ends, and asks the device of a group elsewhere, whose answer brings the status. -/
def Obligations.DoneAndCancel : Prop :=
  ∀ (k : Ctl) (a b : Opnd) (lvl : CancelLvl) (s : State),
    let g := s.cur.g
    let ctx := s.cg.ctx
    let act := actives k s
    let found := fun m => nameFound s (s.cg.core / 48) ctx (src64 s m b) .wake false
    let ended := fun (t : State) h => (t.group h).place = .dead ∨ allExited (t.group h) = true
    (∃ t, exec (.gdone k) s = .next t ∧ InGroup s t g ∧ (t.group g).published = s.cg.published ∧
      (∀ m, s.hasThread g m → t.thread g m.2 m.1 =
        { Claims.goes s [] (fun _ => 0) m (s.thread g m.2 m.1) with
          gdone := (s.thread g m.2 m.1).gdone || (decide (m ∈ act) && !s.cg.published) }) ∧
      (s.cg.published = true → (t.group g).due = s.cg.due) ∧
      ((mget s.groups g).isSome → s.cg.published = false →
        (t.group g).due = (s.cg.due || ((act.any fun m => !(s.thread g m.2 m.1).gdone) &&
          (groupThreads (t.group g)).all fun x => x.st == .exited || x.gdone)) ∧
        ∀ m ∈ act, (s.thread g m.2 m.1).gdone = false → ∀ i ∈ pendingMem s g m, i ∈ (t.group g).covers)) ∧
    (lvl ≠ .grp → ∃ t, exec (.cancel k a b lvl) s = .next t ∧
      ∀ m n, act = [m] → a = .v n → s.hasThread g m → (s.thread g m.2 m.1).st ≠ .exited →
        (∀ x ∈ s.groups, x.2.ctx = ctx → x.2.due = false ∨ x.2.published = true) →
        let h := (src64 s m b).toNat
        let st := cState (ctrRead s ctx (hSlot h))
        let got := vraw (t.thread g m.2 m.1) n.toNat
        (handleOk s ctx h = false ∨ hLvl h ≠ cancelCode lvl → got = 3) ∧
        (handleOk s ctx h = true → hLvl h = cancelCode lvl →
          (st = 2 → got = 1) ∧ (st = 3 ∨ st = 4 → got = 2) ∧
          (st = 1 → ((t.thread g m.2 m.1).st = .exited ∨ got = 0) ∧
            (∀ l ∈ t.launches, l.2.ctx = ctx → l.2.handle.toNat = h → 2 ≤ l.2.state) ∧
            ∀ i x, mget s.groups i = some x → x.ctx = ctx → x.counter.toNat = h → ended t i))) ∧
    (lvl = .grp →
      ((∃ m ∈ act, ∃ p q, found m = .inl (.trap p q)) → exec (.cancel k a b lvl) s = .next (trapFails s
        (act.filterMap fun m => match found m with | .inl (.trap p q) => some (⟨m, p, q, 0⟩ : LaneFail) | _ => none) [])) ∧
      ((∀ m ∈ act, ∀ p q, found m ≠ .inl (.trap p q)) → ∃ t, exec (.cancel k a b lvl) s = .next t ∧
        ∀ m n, act = [m] → a = .v n → s.hasThread g m → (s.thread g m.2 m.1).st ≠ .exited →
          let got := vraw (t.thread g m.2 m.1) n.toNat
          (∀ st, found m = .inl (.status st) → got = BitVec.ofNat 32 st) ∧
          (∀ f, found m = .inr f →
            (nteState f.entry = 5 → got = 1) ∧
            (nteState f.entry ≠ 5 → nteState f.entry = 6 ∨ nteDev f.entry = s.device % 2 ^ 22 →
              ((t.thread g m.2 m.1).st = .exited ∨ got = 0) ∧ ∀ i, groupAt s f.ctx f.num = some i → ended t i) ∧
            (nteState f.entry ≠ 5 → nteState f.entry ≠ 6 → nteDev f.entry ≠ s.device % 2 ^ 22 →
              (∃ o, t.nameOps = s.nameOps ++ [o] ∧ o.sender = .thread g m.2 m.1 ∧ o.dst = a ∧ o.cancel = true ∧ o.status = none) ∧
              ∃ p, t.packets = s.packets ++ [p] ∧ p.dest = .peer (BitVec.ofNat 22 (nteDev f.entry)) ∧ p.g = g ∧ p.w = m.2))))

/-- 08 R177, 16 R367 to R369: a hart's name instruction in M mode or unbound is an illegal instruction; a failed check is a store
access fault with the reference; else it records its operation and waits. NJOIN waits too, and an interrupt abandons it with xepc
at NJOIN. A hart's store in one block of 32 bytes that holds no completion counter and no doorbell changes its bytes of local memory and no
others, and no access of a hart reaches code weights. -/
def Obligations.HartNames : Prop :=
  ∀ (trap grp : Bool) (slot rs1 rs2 rd : BitVec 5) (s : State),
    let h := s.cur.hart
    let r := rdX s h rs1.toNat
    let faults := fun (t : State) (cause : Nat) (val : DWord) =>
      (t.hart h).xepc = (s.hart h).pc ∧ (t.hart h).xcause = BitVec.ofNat 64 cause ∧ (t.hart h).xtval = val ∧
        (t.hart h).pc = (s.hart h).xtvec ∧ t = s.modHart h fun _ => t.hart h
    let acts := fun (i : Instr) (act : NameAct) =>
      (hartSpace s h = none → ∃ t, exec i s = .next t ∧ faults t 2 (s.cur.word.truncate 64)) ∧
      (∀ c, hartSpace s h = some c →
        (∀ x y, nameCheck s 4 c r grp trap act = .trap x y → ∃ t, exec i s = .next t ∧ faults t 7 r) ∧
        (∀ f tg rem, nameCheck s 4 c r grp trap act = .go f tg rem → ∃ t, exec i s = .next t ∧ (t.hart h).stall = some s.nextId ∧
          ∃ o, t.nameOps = s.nameOps ++ [o] ∧ o.id = s.nextId ∧ o.sender = .hart h ∧ o.act = act ∧ o.target = some tg ∧
            o.remote = rem ∧ o.op = rd.toNat) ∧
        (∀ n, nameCheck s 4 c r grp trap act = .status n → ∃ t, exec i s = .next t ∧ (t.hart h).stall = some s.nextId ∧
          ∃ o, t.nameOps = s.nameOps ++ [o] ∧ o.id = s.nextId ∧ o.sender = .hart h ∧ o.status = some (BitVec.ofNat 32 n)))
    acts (.nwake trap grp rs1 rd) .wake ∧
    acts (.nsig trap grp rs1 rd) .signal ∧
    acts (.ndep trap grp slot rs2 rs1 rd) (.deposit slot ((rdX s h rs2.toNat).truncate 32)) ∧
    ((hartSpace s h = none → ∃ t, exec (.njoin trap grp rs1 rd) s = .next t ∧ faults t 2 (s.cur.word.truncate 64)) ∧
     (∀ c, hartSpace s h = some c →
       (∀ x y, joinCheck s 4 c r grp trap = .trap x y → ∃ t, exec (.njoin trap grp rs1 rd) s = .next t ∧ faults t 7 r) ∧
       ((∀ x y, joinCheck s 4 c r grp trap ≠ .trap x y) → ∃ t j, exec (.njoin trap grp rs1 rd) s = .next t ∧
         (t.hart h).stall = some s.nextId ∧ t.joins = s.joins ++ [j] ∧ j.id = s.nextId ∧ j.sender = .hart h ∧ j.rd = rd.toNat))) ∧
    (∀ (j : BitVec 5) (id : Nat), (s.hart j.toNat).stall = some id → (s.joins.any fun x => x.id == id) = true →
      ∃ t, exec (.hartInterrupt j) s = .next t ∧ (t.hart j.toNat).stall = none ∧ (t.hart j.toNat).xepc = (s.hart j.toNat).pc ∧
        (t.hart j.toNat).pc = (s.hart j.toNat).xtvec ∧ ∀ x ∈ t.joins, x.id ≠ id) ∧
    (∀ (j : BitVec 5) (a : DWord) (w : Width) (data : DWord), hartRuns s j.toNat = true → a.toNat + w.bytes ≤ hbmSize →
      (sealCode s a.toNat ≠ 1 ∧ sealCode s (a.toNat + w.bytes - 1) ≠ 1 → a.toNat % 32 + w.bytes ≤ 32 →
        ctrPhys s .hbm a.toNat = none → doorAt s .hbm a.toNat = none → ∃ t, exec (.hartMemoryAccess j 1 a w data) s = .next t ∧
          ∀ i, memRead t.hbm i = if a.toNat ≤ i ∧ i < a.toNat + w.bytes then (toBytes 16 data.toNat).getD (i - a.toNat) 0
            else memRead s.hbm i) ∧
      (sealCode s a.toNat = 1 ∨ sealCode s (a.toNat + w.bytes - 1) = 1 → ∃ t, exec (.hartMemoryAccess j 1 a w data) s = .next t ∧
        t.hbm = s.hbm ∧ (t.hart j.toNat).xcause = 7 ∧ (t.hart j.toNat).xtval = a))

/-- 08 R178, R179, Table 8-11: a command of a name port that is not busy posts its operation, or shows its failure in STATUS; one
that is busy rejects the command and does nothing else, and a part that answers only its start registers ignores it. A write of ones to WAKE of a notify register clears those bits, and WAKEs delivered in the same
clock count after the clear (16 R370). A coherence snoop changes nothing that software can read. -/
def Obligations.NamePorts : Prop :=
  ∀ (fn k : BitVec 8) (grp : Bool) (slot : BitVec 5) (s : State),
    let p := s.port fn.toNat k.toNat
    let after := fun (t : State) => t.port fn.toNat k.toNat
    let check := fun c act => nameCheck s 4 c p.npref grp false act
    let acts := fun (i : Instr) (act : NameAct) =>
      (portSpace s fn.toNat = none → ∃ t, exec i s = .next t ∧ (after t).status = 3 ∧ (after t).busy = false) ∧
      (∀ c, portSpace s fn.toNat = some c →
        (∀ x y, check c act = .trap x y → ∃ t, exec i s = .next t ∧ (after t).status = 7 ∧ (after t).busy = false) ∧
        (∀ n, check c act = .status n → ∃ t, exec i s = .next t ∧ (after t).status = n ∧ (after t).busy = false) ∧
        (∀ f tg rem, check c act = .go f tg rem → ∃ t, exec i s = .next t ∧ (after t).busy = true ∧
          ∃ o, t.nameOps = s.nameOps ++ [o] ∧ o.sender = .port fn.toNat k.toNat ∧ o.act = act ∧ o.target = some tg ∧ o.remote = rem))
    (s.phase ≠ 3 →
      (p.busy = false →
        acts (.namePortWake fn k grp) .wake ∧ acts (.namePortSignal fn k grp) .signal ∧
        acts (.namePortDeposit fn k grp slot) (.deposit slot p.npval) ∧
        (∀ c, portSpace s fn.toNat = some c →
          let waits := fun (f : JoinOp → Prop) => ∃ t j, exec (.namePortJoin fn k grp) s = .next t ∧ (after t).busy = true ∧
            (after t).joining = true ∧ t.joins = s.joins ++ [j] ∧ j.sender = .port fn.toNat k.toNat ∧ f j
          let asks := joinCheck s 4 c p.npref grp false
          let finds := nameFound s 4 c p.npref .probe false
          let probes := fun (f : Port → Prop) => ∃ t, exec (.namePortProbe fn k grp) s = .next t ∧ (after t).busy = false ∧ f (after t)
          (∀ x y, asks = .trap x y → ∃ t, exec (.namePortJoin fn k grp) s = .next t ∧ (after t).status = 7 ∧ (after t).busy = false) ∧
          (∀ v st, asks = .now v st → ∃ t, exec (.namePortJoin fn k grp) s = .next t ∧ (after t).status = st ∧
            (after t).result = v.getD p.result ∧ (after t).busy = false) ∧
          (∀ tg n, asks = .wait tg n → waits fun j => j.target = tg ∧ j.notify = n ∧ j.result = none) ∧
          (∀ tg v, asks = .late tg v → waits fun j => j.target = tg ∧ j.result = some (some v, 0)) ∧
          (∀ tg dev, asks = .far tg dev → waits fun j => j.target = tg ∧ j.remote = some dev) ∧
          (∀ x y, finds = .inl (.trap x y) → probes fun q => q.status = 7) ∧
          (∀ n, finds = .inl (.status n) → probes fun q => q.status = n ∧ q.result = 0) ∧
          (∀ f w, finds = .inr f → probeWord s 4 c p.npref grp false = .inr w →
            (probeFar s 4 c p.npref false = none → probes fun q => q.status = 0 ∧ q.result = w) ∧
            ∀ dev, probeFar s 4 c p.npref false = some dev →
              probes fun q => q.status = (if farLost s dev s.ns then 3 else 0) ∧ (farLost s dev s.ns = true → q.result = 0)))) ∧
      (p.busy = true → ∀ i ∈ [Instr.namePortWake fn k grp, .namePortSignal fn k grp, .namePortDeposit fn k grp slot,
          .namePortJoin fn k grp, .namePortProbe fn k grp],
        ∃ t, exec i s = .next t ∧ after t = { p with rej := true } ∧ t = { s with ports := t.ports }) ∧
      (p.busy = true ∧ p.joining = true → ∃ t, exec (.namePortCancel fn k) s = .next t ∧ (after t).status = 3 ∧
        (after t).busy = false ∧ ∀ j ∈ t.joins, j.sender ≠ .port fn.toNat k.toNat) ∧
      (p.busy = false ∨ p.joining = false → ∃ t, exec (.namePortCancel fn k) s = .next t ∧ after t = { p with rej := true }) ∧
      (∃ t, exec (.namePortBadOp fn k) s = .next t ∧ after t = { p with rej := true }) ∧
      ∀ (n : BitVec 12) (v : BitVec 16), ∃ t, exec (.notifyWakeClear n v) s = .next t ∧
        (let r := mgetD s.notifies n.toNat {}
         let wake := (mgetD t.notifies n.toNat {}).wake
         (∀ base j, r.fresh = some (s.clock, base, j) → wake.toNat = min 65535 ((base &&& ~~~v).toNat + j)) ∧
         ((∀ x, r.fresh = some x → x.1 ≠ s.clock) → wake = r.wake &&& ~~~v)) ∧
        (mgetD t.notifies n.toNat {}).sig = (mgetD s.notifies n.toNat {}).sig ∧ t = { s with notifies := t.notifies }) ∧
    (s.phase = 3 → (∀ n v, exec (.notifyWakeClear n v) s = .next s) ∧ ∀ i ∈ [Instr.namePortWake fn k grp, .namePortSignal fn k grp, .namePortDeposit fn k grp slot,
        .namePortJoin fn k grp, .namePortProbe fn k grp, .namePortCancel fn k, .namePortBadOp fn k], exec i s = .next s) ∧
    (∀ a i, exec (.cxlCacheSnoop a i) s = .next s)

/-! ### Barriers and convergence -/

/-- 09 R180 to R183, R186, R190, R191, Table 9-4: BARINIT and BARBYTE of one home wave, at their place in the order of the clock: the
barrier takes its count, or its bytes and channel, no other barrier changes, and the threads go on. A check that fails traps
BARRIER_MISUSE with its subcode, and a BARBYTE whose bytes overflow faults the barrier and traps the threads that it holds too. -/
def Obligations.BarrierSetup : Prop :=
  ∀ (k : Ctl) (b d : Opnd) (c : BitVec 3) (bar : BitVec 10) (w : Nat) (s : State),
    let act := actives k s
    let g := s.cur.g
    let m0 := leadOf act w
    let i := bar.toNat + (match d with | .null => 0 | d => (src s m0 d).toNat)
    let n := (src s m0 b).toNat
    let x := s.bar g i
    let mine := act.filter fun m => m.2 == w
    let placed := fun rank => stamp s g i (placeOf rank w)
    let arm : Instr := .barinit k b d bar
    let add : Instr := .barbyte k (.res (.wp c)) b d bar
    let noArm := fun sub => exec arm s = .next (trapFails (placed 0) (misuse mine sub) [])
    let noAdd := fun sub => exec add s = .next (trapFails (placed 1) (misuse mine sub) [])
    wavesOf act = [w] → m0.2 = w → (mget s.groups g).isSome →
    (i < s.cg.hdr.barriers →
      (n ≤ 1024 → x.state ≠ 2 → (x.state = 4 → heldOn s.cg (holdsBar i) = []) →
        ∃ t, exec arm s = .next t ∧ InGroup s t g ∧ Claims.onward s t ∧
          (t.bar g i).state = 1 ∧ (t.bar g i).exp = (if n = 0 then liveCount s.cg else n) ∧ (t.bar g i).gt = decide (n = 0) ∧
          (t.bar g i).ph = x.ph ∧ (x.state = 4 → (t.bar g i).arr = 0 ∧ (t.bar g i).bexp = 0 ∧ (t.bar g i).bcred = 0) ∧
          (x.state ≠ 4 → (t.bar g i).arr = x.arr ∧ (t.bar g i).bexp = x.bexp ∧ (t.bar g i).bcred = x.bcred) ∧
          ∀ j, j ≠ i → t.bar g j = s.bar g j) ∧
      (1024 < n → noArm 2) ∧
      (n ≤ 1024 → x.state = 2 → noArm 3) ∧
      (n ≤ 1024 → x.state = 4 → heldOn s.cg (holdsBar i) ≠ [] → noArm 9) ∧
      (x.state = 0 ∨ x.state = 4 → noAdd 9) ∧
      (x.state ≠ 0 → x.state ≠ 4 →
        (∀ j, chanBar s.cg c.toNat = some j → j ≠ i → noAdd 8) ∧
        ((∀ j, chanBar s.cg c.toNat = some j → j = i) → 2 ^ 32 ≤ x.bexp + n →
          exec add s = .next (trapBoth (setFault (placed 1) g i 7) g (misuse mine 7) 7 (holdsBar i))) ∧
        ((∀ j, chanBar s.cg c.toNat = some j → j = i) → x.bexp + n < 2 ^ 32 →
          ∃ t, exec add s = .next t ∧ InGroup s t g ∧ Claims.onward s t ∧ (t.bar g i).state = 2 ∧
            (t.bar g i).bexp = x.bexp + n ∧ (t.bar g i).chan = x.chan ||| (1#8 <<< c.toNat) ∧ (t.bar g i).exp = x.exp ∧
            (t.bar g i).arr = x.arr ∧ ∀ j, j ≠ i → t.bar g j = s.bar g j))) ∧
    (s.cg.hdr.barriers ≤ i → noArm 1 ∧ noAdd 1)

/-- 09 R182, R192, Table 9-4: the arrivals of one home wave at an initialized barrier with room: ARR rises by the arriving threads
and each has a slot with the phase's parity; BARARR goes on, BARSYNC and BARWAIT hold, BARWAIT of a thread whose slot's phase is
past goes on and frees it, and BARTRY writes whether it is past and frees such a slot. Arrivals beyond EXP fault the barrier with
subcode 6. A barrier that is free, faulted or not declared, a thread that has a slot of it and a thread whose four slots are taken
trap. -/
def Obligations.BarrierArrivals : Prop :=
  ∀ (k : Ctl) (a d : Opnd) (bar : BitVec 10) (w : Nat) (s : State),
    let act := actives k s
    let g := s.cur.g
    let i := bar.toNat + (match d with | .null => 0 | d => (src s (leadOf act w) d).toNat)
    let x := s.bar g i
    let slot := fun (t : State) m => (t.thread g m.2 m.1).slots.find? fun z => z.bar == i
    let held := fun (t : State) m => (t.thread g m.2 m.1).st = .held ∧ (t.thread g m.2 m.1).hold = .bar i x.ph ∧
      (t.thread g m.2 m.1).pc = s.cur.pc
    let arrive := fun (t : State) => (t.bar g i).arr = x.arr + act.length ∧ (t.bar g i).exp = x.exp ∧ (t.bar g i).ph = x.ph ∧
      (∀ j, j ≠ i → t.bar g j = s.bar g j) ∧ ∀ m ∈ act, s.hasThread g m → slot t m = some ⟨i, x.ph⟩
    let stays := fun (t : State) => t.bar g i = { x with order := (t.bar g i).order }
    let traps := fun (op : Instr) ms sub =>
      exec op s = .next (trapFails (stampAll s g (act.map fun _ => (i, placeOf 3 w))) (misuse ms sub) [])
    act ≠ [] → act.Nodup → w < 32 → (∀ m ∈ act, m.2 = w) → (mget s.groups g).isSome →
    (i < s.cg.hdr.barriers → x.state ≠ 0 → x.state ≠ 4 →
      ((∀ m ∈ act, slot s m = none ∧ (s.thread g m.2 m.1).slots.length < 4) →
        (x.arr + act.length ≤ x.exp →
          (∃ t, exec (.bararr k d bar) s = .next t ∧ InGroup s t g ∧ arrive t ∧ Claims.onward s t) ∧
          (∃ t, exec (.barsync k d bar) s = .next t ∧ InGroup s t g ∧ arrive t ∧ ∀ m ∈ act, s.hasThread g m → held t m) ∧
          (∃ t, exec (.barwait k d bar) s = .next t ∧ InGroup s t g ∧ arrive t ∧ ∀ m ∈ act, s.hasThread g m → held t m)) ∧
        (x.arr ≤ x.exp → x.exp < x.arr + act.length → ∀ op ∈ [Instr.bararr k d bar, .barsync k d bar, .barwait k d bar],
          ∃ t, exec op s = .next t ∧ (t.bar g i).state = 4 ∧ (t.bar g i).fsub = 6)) ∧
      ((∀ m ∈ act, ∃ p, slot s m = some ⟨i, p⟩) →
        ∃ t, exec (.barwait k d bar) s = .next t ∧ stays t ∧ ∀ m ∈ act, s.hasThread g m → ∀ p, slot s m = some ⟨i, p⟩ →
          (p ≠ x.ph → slot t m = none ∧ (t.thread g m.2 m.1).pc = s.cur.pc + 12 ∧ (t.thread g m.2 m.1).st = (s.thread g m.2 m.1).st) ∧
          (p = x.ph → held t m)) ∧
      (∀ q : BitVec 6, a = .p q → q.toNat < 48 → ∃ t, exec (.bartry k a d bar) s = .next t ∧ Claims.onward s t ∧ stays t ∧
        ∀ m ∈ act, s.hasThread g m →
          let past : Bool := match slot s m with | some z => z.par != x.ph | none => true
          praw (t.thread g m.2 m.1) q.toNat = past ∧ slot t m = if past then none else slot s m) ∧
      ((∃ m ∈ act, slot s m ≠ none) → (∀ m ∈ act, slot s m ≠ none ∨ (s.thread g m.2 m.1).slots.length < 4) →
        traps (.bararr k d bar) (act.filter fun m => (slot s m).isSome) 5 ∧
        traps (.barsync k d bar) (act.filter fun m => (slot s m).isSome) 5) ∧
      ((∀ m ∈ act, slot s m = none ∧ 4 ≤ (s.thread g m.2 m.1).slots.length) →
        traps (.bararr k d bar) act 4 ∧ traps (.barsync k d bar) act 4 ∧ traps (.barwait k d bar) act 4)) ∧
    (s.cg.hdr.barriers ≤ i → traps (.bararr k d bar) act 1 ∧ traps (.barsync k d bar) act 1 ∧ traps (.barwait k d bar) act 1 ∧
      traps (.bartry k a d bar) act 1) ∧
    (i < s.cg.hdr.barriers → x.state = 0 ∨ x.state = 4 → traps (.bararr k d bar) act 9 ∧ traps (.barsync k d bar) act 9 ∧
      traps (.barwait k d bar) act 9 ∧ traps (.bartry k a d bar) act 9)

/-- 09 R187, R193: CSET sets an unsigned register to the home wave's threads whose guard is true. CSIGN and CWAIT of threads of the
set sign; CWAIT holds them; the last signature of a set without a matrix form clears the signatures and releases the waiting
threads. A thread outside the set, an idle register and a register that is signing trap BARRIER_MISUSE 10. -/
def Obligations.Convergence : Prop :=
  ∀ (k : Ctl) (a : Opnd) (w : Nat) (s : State),
    let act := actives k s
    let g := s.cur.g
    let c := condex a
    let x := s.conv g w c
    let mask := maskOf (act.map (·.1))
    let after := fun (t : State) => t.conv g w c
    act ≠ [] → w < 32 → (∀ m ∈ act, m.2 = w) → s.hasWave g w →
    (x.sgn = 0 → ∃ t, exec (.cset k a) s = .next t ∧ InGroup s t g ∧ Claims.onward s t ∧ after t = { set := mask, sgn := 0, kind := 0 }) ∧
    (x.sgn ≠ 0 → exec (.cset k a) s = .next (trapFails s (misuse act 10) [])) ∧
    ((∀ m ∈ act, x.set.getLsbD m.1 = true) → x.set ≠ 0 → x.kind ≠ 2 →
      (x.sgn ||| mask ≠ x.set →
        (∃ t, exec (.csign k a) s = .next t ∧ InGroup s t g ∧ Claims.onward s t ∧
          after t = { set := x.set, sgn := x.sgn ||| mask, kind := x.kind }) ∧
        (∃ t, exec (.cwait k a) s = .next t ∧ InGroup s t g ∧ after t = { set := x.set, sgn := x.sgn ||| mask, kind := 1 } ∧
          ∀ m ∈ act, s.hasThread g m → (t.thread g m.2 m.1).st = .held ∧ (t.thread g m.2 m.1).hold = .cwait c)) ∧
      (x.sgn ||| mask = x.set →
        ∀ i ∈ [Instr.csign k a, .cwait k a], ∃ t, exec i s = .next t ∧ InGroup s t g ∧
          after t = { set := x.set, sgn := 0, kind := 0 } ∧
          (∀ m ∈ act, s.hasThread g m → (s.thread g m.2 m.1).st = .ready → (t.thread g m.2 m.1).st = .ready) ∧
          ∀ l, s.hasThread g (l, w) → (l, w) ∉ s.cur.members → (s.thread g w l).st = .held → (s.thread g w l).hold = .cwait c →
            (t.thread g w l).st = .ready ∧ (t.thread g w l).pc = (s.thread g w l).pc + 12)) ∧
    ((∀ m ∈ act, x.set.getLsbD m.1 = false) ∨ x.set = 0 → ∀ i ∈ [Instr.csign k a, .cwait k a],
      exec i s = .next (trapFails s (misuse act 10) []))

/-- 09 R188, R194: HBARARR records the arrival of each thread once in a phase and names the level, HBARWAIT records it and holds;
a first arrival with another level in the phase traps BARRIER_MISUSE 11, with every thread of the launch that waits. An arrival message of a phase that is not over adds its groups to its square, and a release turns the
parity of its group and clears the phase's arrivals. -/
def Obligations.HierarchicalBarriers : Prop :=
  (∀ (k : Ctl) (h : BitVec 4) (lvl : HLvl) (s : State),
    let act := actives k s
    let g := s.cur.g
    let arrived := fun (t : State) (m : Nat × Nat) => (t.thread g m.2 m.1).hbarArr.any fun x => x.1 == h.toNat
    let new := act.filter fun m => !arrived s m
    (new = [] → ∃ t, exec (.hbararr k h lvl) s = .next t ∧ EachThread s t g (Claims.goes s [] fun _ => 0)) ∧
    ((hbarOf s g h.toNat).level = none ∨ (hbarOf s g h.toNat).level = some lvl → ∃ t, exec (.hbararr k h lvl) s = .next t ∧
      InGroup s t g ∧ Claims.onward s t ∧ (new ≠ [] → (mget s.groups g).isSome → (hbarOf t g h.toNat).level = some lvl) ∧
      ∀ m ∈ act, s.hasThread g m → arrived t m = true) ∧
    (∀ l, (hbarOf s g h.toNat).level = some l → l ≠ lvl → new ≠ [] → exec (.hbararr k h lvl) s = .next
      (trapLaunch (trapBoth s g (misuse new 11) 11 (holdsHbar h.toNat)) s.cg.launch h.toNat)) ∧
    (∃ t, exec (.hbarwait k h) s = .next t ∧ InGroup s t g ∧ ∀ m ∈ act, s.hasThread g m → arrived t m = true ∧
      (t.thread g m.2 m.1).st = .held ∧ (t.thread g m.2 m.1).hold = .hbar h.toNat (hbarOf s g h.toNat).par ∧
      (t.thread g m.2 m.1).pc = s.cur.pc)) ∧
  (∀ (m : HbarMsg) (s : State), m.id < s.nextId →
    (s.hbarMsgs.find? (fun x => x.id == m.id && !x.release) = some m →
      (∃ t, exec (.hbarArrivalMessage m.id) s = .next t ∧ (∀ x ∈ t.hbarMsgs, x.id ≠ m.id) ∧
        (staleMsg s m = false → m.lvl = .team → m.level = some .package → (∀ q ∈ s.hsquares, q.level = none ∨ q.level = some .package) →
          ∃ q ∈ t.hsquares, q.launch = m.launch ∧ q.h = m.h ∧ q.lvl = m.lvl ∧ q.place = m.place ∧ ∀ g ∈ m.groups, g ∈ q.groups))) ∧
    (s.hbarMsgs.find? (fun x => x.id == m.id && x.release) = some m → ∀ g, m.groups = [g] → (mget s.groups g).isSome →
      ∃ t, exec (.hbarReleaseMessage m.id) s = .next t ∧ (hbarOf t g m.h).par = !(hbarOf s g m.h).par ∧
        (hbarOf t g m.h).level = none ∧ ∀ l w, s.hasThread g (l, w) →
          (t.thread g w l).hbarArr = (s.thread g w l).hbarArr.filter fun a => a.1 != m.h))

/-! ### Memory -/

/-- One thread issues, and its home wave has no access in flight. -/
def Claims.alone (k : Ctl) (s : State) (m : Nat × Nat) : Prop :=
  actives k s = [m] ∧ m.1 < 32 ∧ m.2 < 32 ∧ s.hasThread s.cur.g m ∧
    ∀ x ∈ s.accesses, x.id < s.nextId ∧ (x.g ≠ s.cur.g ∨ x.w ≠ m.2)

/-- The access that an instruction of one thread leaves: it has performed with values `ws`, counts in counter `ctr`, and the
thread goes on with its registers as they were. -/
def Claims.performed (s t : State) (m : Nat × Nat) (o : LaneOp) (kind : AccKind) (ctr : Nat) (ws : List Word) : Prop :=
  Claims.onward s t ∧ (t.thread s.cur.g m.2 m.1).vr = (s.thread s.cur.g m.2 m.1).vr ∧
    (t.wave s.cur.g m.2).ctrs = (s.wave s.cur.g m.2).ctrs.set ctr ((s.wave s.cur.g m.2).ctrs.get ctr + 1) ∧
    ∃ x, t.accesses = s.accesses ++ [x] ∧ x.kind = kind ∧ x.g = s.cur.g ∧ x.w = m.2 ∧ x.ctr = ctr ∧
      x.lanes = [{ o with got := some ws }]

/-- Local memory after a store of `bs` at `pa`. -/
def Claims.stored (s t : State) (pa : Nat) (bs : List Byte) : Prop :=
  ∀ i, memRead t.hbm i = if pa ≤ i ∧ i < pa + bs.length then bs.getD (i - pa) 0 else memRead s.hbm i

/-- 12 R249 to R253, R227, 13 R281: an access of one thread to local memory that is not private and passes every check performs at
issue, at the address base plus offset: LD and SLD take the bytes, ST writes them and no others, an atomic and CAS return the old
value and write the new one. A failed check traps with its cause and performs nothing. -/
def Obligations.LocalAccess : Prop :=
  ∀ (k : Ctl) (a b : Opnd) (w : Width) (sx acq rel flag sg nc : Bool) (pol : BitVec 2) (op : AtomOp) (off : BitVec 24) (sc : Scope)
    (m : Nat × Nat) (s : State),
    let n := w.bytes
    let at_ := src64 s m b + off.signExtend 64
    let ask := fun dst vals => ({ lane := m.1, addr := at_, dst := dst, vals := vals } : LaneOp)
    let res := fun kind o => checkLane s s.cur.g m kind n o
    let load := ask (vregsOf a w.regs) []
    let store := ask [] (wordsAt s m a w)
    let atom := ask (vregsOf a w.regs) (atomVals s m a b w 2)
    let cas := ask (vregsOf a w.regs) (casVals s m a w)
    let ld : Instr := .ld k a b w sx acq pol off sc
    let st : Instr := .st k a b w rel pol flag off sc
    let at1 : Instr := .atom k a b w sg op nc off sc
    let cs : Instr := .cas k a b w nc off sc
    let old := fun (p : LaneOp) => s.read .hbm p.pa n
    Claims.alone k s m →
    (∀ p tr, p.kind = 0 → p.cls ≠ 0 → doorAt s .hbm p.pa = none → ctrPhys s .hbm p.pa = none → tr.cls ≠ 0 →
      (res (.load sx) load = .ok p (some tr) → ∃ t, exec ld s = .next t ∧
        Claims.performed s t m p (.load sx) 0 (wordsOf sx (old p)) ∧ Claims.stored s t 0 []) ∧
      (res .store store = .ok p (some tr) → ∃ t, exec st s = .next t ∧
        Claims.performed s t m p .store 1 [] ∧ Claims.stored s t p.pa (bytesOf p.vals n)) ∧
      (res (.atom op sg) atom = .ok p (some tr) → ∃ t, exec at1 s = .next t ∧
        Claims.performed s t m p (.atom op sg) (if a = .null then 1 else 0) (wordsOf false (old p)) ∧
        Claims.stored s t p.pa (toBytes n (atomNew op sg (8 * n) (ofBytes (old p)) (ofBytes (bytesOf p.vals n))))) ∧
      (res .cas cas = .ok p (some tr) → ∃ t, exec cs s = .next t ∧
        Claims.performed s t m p .cas 0 (wordsOf false (old p)) ∧
        Claims.stored s t p.pa (if old p = bytesOf p.vals n then bytesOf (p.vals.drop (n / 4)) n else [])) ∧
      (res .sload (ask (sregsOf a w.regs) []) = .ok p (some tr) → ∃ t x, exec (.sld k a b w off sc) s = .next t ∧
        Claims.onward s t ∧ t.accesses = s.accesses ++ [x] ∧ x.lanes = [{ p with got := some (wordsOf false (old p)) }] ∧
        Claims.stored s t 0 [])) ∧
    (∀ f,
      (res (.load sx) load = .fail f → exec ld s = .next (trapFails s [f] [])) ∧
      (res .store store = .fail f → exec st s = .next (trapFails s [f] [])) ∧
      (res (.atom op sg) atom = .fail f → exec at1 s = .next (trapFails s [f] [])) ∧
      (res .cas cas = .fail f → exec cs s = .next (trapFails s [f] []))) ∧
    (∀ o, res (.load sx) load = .park m o → (freeEntry (s.wave s.cur.g m.2)).isSome → ∃ t, exec ld s = .next t ∧
      (t.thread s.cur.g m.2 m.1).st = .faultParked ∧ (t.thread s.cur.g m.2 m.1).pc = s.cur.pc ∧ t.hbm = s.hbm ∧
      ∀ e, freeEntry (s.wave s.cur.g m.2) = some e → ∃ le, mget (t.wave s.cur.g m.2).log e = some le ∧ le.pc = s.cur.pc ∧
        le.word = s.cur.word ∧ le.addrs = [(m.1, at_)])

/-- 12 R234, R250 to R253: scratchpad forms of one thread. Within the declared size and aligned, LDS takes the bytes, STS writes
them and no other byte of the scratchpad, ATOMS and CASS return the old value and write the new one; no other memory changes.
Misaligned traps MISALIGNED and out of range traps SCRATCH_RANGE. -/
def Obligations.Scratchpad : Prop :=
  ∀ (k : Ctl) (a b : Opnd) (w : Width) (sx sg : Bool) (op : AtomOp) (off : BitVec 24) (sc : Scope) (m : Nat × Nat) (s : State),
    let n := w.bytes
    let g := s.cur.g
    let o := (src s m b + off.signExtend 32).toNat
    let lds : Instr := .lds k a b w sx off sc
    let sts : Instr := .sts k a b w off sc
    let atoms : Instr := .atoms k a b w sg op off sc
    let cass : Instr := .cass k a b w off sc
    let old := readN s.cg.scratch o n
    let ask := fun dst vals =>
      ({ lane := m.1, addr := BitVec.ofNat 64 o, dst := dst, vals := vals, kind := 4, cls := 2, pa := o } : LaneOp)
    let holds := fun (t : State) (bs : List Byte) => t.hbm = s.hbm ∧ t.hostMem = s.hostMem ∧ t.cores = s.cores ∧
      ∀ i, memRead (t.group g).scratch i = if o ≤ i ∧ i < o + bs.length then bs.getD (i - o) 0 else memRead s.cg.scratch i
    Claims.alone k s m →
    (o % n = 0 → o + n ≤ s.cg.hdr.scratch →
      (∃ t, exec sts s = .next t ∧ Claims.performed s t m (ask [] (wordsAt s m a w)) .store 1 [] ∧
        holds t (bytesOf (wordsAt s m a w) n)) ∧
      (scratchPoisoned s.cg o n = none →
        (∃ t, exec lds s = .next t ∧ Claims.performed s t m (ask (vregsOf a w.regs) []) (.load sx) 0 (wordsOf sx old) ∧ holds t []) ∧
        (∃ t, exec atoms s = .next t ∧
          Claims.performed s t m (ask (vregsOf a w.regs) (atomVals s m a b w 1)) (.atom op sg) (if a = .null then 1 else 0)
            (wordsOf false old) ∧
          holds t (toBytes n (atomNew op sg (8 * n) (ofBytes old) (ofBytes (bytesOf (atomVals s m a b w 1) n))))) ∧
        (∃ t, exec cass s = .next t ∧
          Claims.performed s t m (ask (vregsOf a w.regs) (casVals s m a w)) .cas 0 (wordsOf false old) ∧
          holds t (if old = bytesOf (casVals s m a w) n then bytesOf ((casVals s m a w).drop (n / 4)) n else [])))) ∧
    (∀ i ∈ [lds, sts, atoms, cass],
      (o % n ≠ 0 → exec i s = .next (trapFails s [⟨m, 0x10, 0, BitVec.ofNat 64 o⟩] [])) ∧
      (o % n = 0 → s.cg.hdr.scratch < o + n → exec i s = .next (trapFails s [⟨m, 0x14, 0, BitVec.ofNat 64 o⟩] [])))

/-- 12 R251, 15 R339: an access that has its values writes them to its destination registers when it completes, in their order, and
no other register of the thread, unless the thread has exited; the access is then over. 1,024 clocks after its issue the lanes of
a remote load that still wait are recorded as late. -/
def Obligations.AccessCompletion : Prop :=
  (∀ (x : Access) (o : LaneOp) (ws : List Word) (sx : Bool) (s : State), (s.accesses.find? fun y => y.id == x.id) = some x →
    x.kind = .load sx → x.lanes = [o] → o.lane < 32 → o.got = some ws → o.stage = .pending → s.hasThread x.g (o.lane, x.w) →
    (s.thread x.g x.w o.lane).st ≠ .exited → o.dst.Nodup → (∀ r ∈ o.dst, r < 256) → o.dst.length = ws.length →
    ∃ t, exec (.accessComplete x.id (1#32 <<< o.lane)) s = .next t ∧ (∀ y ∈ t.accesses, y.id ≠ x.id) ∧
      (∀ j < ws.length, vraw (t.thread x.g x.w o.lane) (o.dst.getD j 0) = ws.getD j 0) ∧
      (∀ r, r ∉ o.dst → vraw (t.thread x.g x.w o.lane) r = vraw (s.thread x.g x.w o.lane) r)) ∧
  (∀ (x : Access) (o : LaneOp) (sx : Bool) (e : Nat) (s : State), (s.accesses.find? fun y => y.id == x.id) = some x →
    x.kind = .load sx → x.lanes = [o] → o.got = none → o.stage = .pending → o.entry = none → o.crosses = true →
    x.clock + 1024 ≤ s.clock → freeEntry (s.wave x.g x.w) = some e → s.hasWave x.g x.w → (s.group x.g).place = .active →
    ∃ t le, exec (.lateLaneRecord x.id) s = .next t ∧ mget (t.wave x.g x.w).log e = some le ∧ le.late = true ∧ le.pc = x.pc ∧
      le.word = x.word ∧ le.mask = 1#32 <<< o.lane ∧ le.addrs = [(o.lane, o.addr)])

/-- 06 R108, 12 R254, R255: SLDARG reads the argument block, 0 beyond its declared size, once for each home wave that executes. FENCE
goes on where no earlier access of its threads to its storage is outstanding, and else holds them together on those accesses; a thread
whose stream is poisoned traps. PREF changes no byte, register or thread but the program counter. CFLUSH of one thread on a private line
of its core writes its dirty bytes home and leaves none of the line. -/
def Obligations.ArgumentsAndFences : Prop :=
  ∀ (k : Ctl) (n : BitVec 6) (b : Opnd) (pair l2 inv : Bool) (off4 : BitVec 10) (off : BitVec 24) (sc : Scope) (m : Nat × Nat)
    (s : State),
    let act := actives k s
    let g := s.cur.g
    let arg := fun o => BitVec.ofNat 32 (ofBytes ((List.range 4).map fun i => if o + i < s.cg.hdr.args then s.cg.args.getD (o + i) 0 else 0))
    let waitsFor := fun (x : Nat × Nat) => (s.accesses.filter fun y => y.g == g && y.w == x.2 &&
      y.lanes.any fun o => o.got.isNone && (o.lane == x.1 || y.uni) && sc.mask.getLsbD (spaceBit o.kind)).map (·.id)
    let poisons := fun (x : Nat × Nat) => sc.mask.getLsbD 2 && (s.wave g x.2).streams.any fun y => y.2.poison.isSome
    (∃ t, exec (.sldarg k (.s n) pair off4) s = .next t ∧ InGroup s t g ∧
      (∀ x, s.hasThread g x → t.thread g x.2 x.1 = Claims.goes s [] (fun _ => 0) x (s.thread g x.2 x.1)) ∧
      ∀ w, s.hasWave g w → ∀ r, mgetD (t.wave g w).sr r 0 =
        if w ∈ wavesOf act ∧ r = n.toNat then arg (4 * off4.toNat)
        else if w ∈ wavesOf act ∧ pair = true ∧ r = n.toNat + 1 then arg (4 * off4.toNat + 4)
        else mgetD (s.wave g w).sr r 0) ∧
    ((∀ x ∈ act, poisons x = false) →
      let all := uniq (act.flatMap waitsFor)
      ∃ t, exec (.fence k sc) s = .next t ∧ EachThread s t g fun x y =>
        if x ∈ act ∧ all ≠ [] then { y with pc := s.cur.pc, st := .held, hold := .fence (sc.mask.getLsbD 2) all act }
        else Claims.goes s [] (fun _ => 0) x y) ∧
    ((∃ x ∈ act, poisons x = true) →
      exec (.fence k sc) s = .next (trapFails s ((act.filter poisons).map fun x => (⟨x, 0x15, 2, 0⟩ : LaneFail)) [])) ∧
    (∃ t, exec (.pref k b l2 off sc) s = .next t ∧ t.hbm = s.hbm ∧ t.hostMem = s.hostMem ∧ t.accesses = s.accesses ∧
      (∀ c, (t.core c).dirty = (s.core c).dirty) ∧
      (∀ w, (t.wave g w).sr = (s.wave g w).sr ∧ (t.wave g w).ctrs = (s.wave g w).ctrs) ∧
      ∀ x, s.hasThread g x → t.thread g x.2 x.1 = Claims.goes s [] (fun _ => 0) x (s.thread g x.2 x.1)) ∧
    (∀ p tr, act = [m] → m.2 < 32 → s.hasThread g m →
      checkLane s g m (.flush inv) 1 { lane := m.1, addr := src64 s m b + off.signExtend 64, dst := [], vals := [] } = .ok p (some tr) →
      p.kind = 0 → p.cls = 0 → p.pa < hbmSize → tr.owner ≠ 255 → ((s.core s.cg.core).dirty.map (·.1)).Nodup →
      ∃ t, exec (.cflush k b inv off sc) s = .next t ∧ Claims.onward s t ∧
        (∀ d ∈ (t.core s.cg.core).dirty, d.1 / 128 ≠ placeKey .hbm p.pa / 128) ∧
        ∀ d ∈ (s.core s.cg.core).dirty, d.1 / 128 = placeKey .hbm p.pa / 128 → memRead t.hbm d.1 = d.2.2)

/-- 12 R256 to R259: RXWIN of one home wave opens the window with its base, length, access word, barrier and counter, or traps with
the first check that refuses it; RXCLOSE gives the dropped count and closes it; LDTO of one thread sends its request, with the
next number of its counter under ACK. -/
def Obligations.ReceiveWindows : Prop :=
  ∀ (k : Ctl) (a b c d : Opnd) (bb ack : Bool) (bar : BitVec 10) (tl : BitVec 4) (win : BitVec 3) (w : Nat) (m : Nat × Nat)
    (s : State),
    let act := actives k s
    let g := s.cur.g
    let m0 := leadOf act w
    let mine := s.cur.members.filter fun x => x.2 == w
    let bind : Option Nat := if bb then some bar.toNat else none
    let x : LdtoArg := { ref := src64 s m a, src := src64 s m b, n := (src s m c).toNat, off := (src s m d).toNat }
    (wavesOf act = [w] → (mget s.groups g).isSome →
      let f := winFail s.cg win.toNat (tlOf a) (src s m0 b).toNat (src s m0 c).toNat (src s m0 d) bind
      (f = none → ∃ t, exec (.rxwin k a b c d bb bar win) s = .next t ∧ InGroup s t g ∧ Claims.onward s t ∧
        t.win g win.toNat =
          { opened := true, base := (src s m0 b).toNat, len := (src s m0 c).toNat, acc := src s m0 d, bar := bind, tl := tlOf a, drop := 0 }) ∧
      (∀ cause sub, f = some (cause, sub) → mine ≠ [] →
        exec (.rxwin k a b c d bb bar win) s = .next (trapFails s (mine.map fun x => (⟨x, cause, sub, 0⟩ : LaneFail)) []))) ∧
    (act = [m] → s.hasThread g m →
      (∀ n, a = .v n → ∃ t, exec (.rxclose k a win) s = .next t ∧ (t.win g win.toNat).opened = false ∧ Claims.onward s t ∧
        vraw (t.thread g m.2 m.1) n.toNat = BitVec.ofNat 32 (s.win g win.toNat).drop) ∧
      (∀ f, m.2 < 32 → ldtoCheck s g ack tl.toNat x = .go f → nteState f.entry ≠ 5 → ∃ t o, exec (.ldto k a b c d ack tl win) s = .next t ∧
        Claims.onward s t ∧ t.ldtos = s.ldtos ++ [o] ∧ o.ref = x.ref ∧ o.src = x.src ∧ o.n = x.n ∧ o.off = x.off ∧ o.win = win.toNat ∧
        o.ack = (if ack then some (tl.toNat, (s.tl g tl.toNat).issued + 1) else none) ∧
        (ack = true → (t.tl g tl.toNat).issued = (s.tl g tl.toNat).issued + 1)) ∧
      (∀ cause sub va, ldtoCheck s g ack tl.toNat x = .fail cause sub va →
        exec (.ldto k a b c d ack tl win) s = .next (trapFails s [⟨m, cause, sub, va⟩] [])))

/-! ### Copies and waits -/

/-- 12 R260, R261: a copy of one thread joins its channel behind the copies that are queued there: an idle channel's pointer goes to
its first offset, a recorded cause is cleared, its pieces are those of its form, the timeline gives it the next number, and the thread
goes on. A length or a range that the form refuses traps and starts nothing. An instruction of any number of threads whose copies all
have a length and a range that the form admits, each at or behind the end of the one before it in the channel, completes: the threads go
on and every copy has joined the channel. -/
def Obligations.CopyIssue : Prop :=
  ∀ (k : Ctl) (ch : BitVec 3) (b c d : Opnd) (i : BitVec 6) (tle : Bool) (tl : BitVec 4) (recv : BitVec 6) (m : Nat × Nat) (s : State),
    let g := s.cur.g
    let a : Opnd := .res (.wp ch)
    let o := (src s m b).toNat
    let n := (src s m d).toNat
    let mem := src64 s m c
    let word := fun (j : Nat) => rdS s m.2 (i.toNat + j)
    let rows := (word 1).toNat
    let row := (word 0).toNat
    let queue := (s.chan g ch.toNat).queue
    let behind := fun (first : Nat) => queue = [] ∨ (s.chan g ch.toNat).qend ≤ first
    let starts := fun (op : Instr) (kind : CopyKind) first total segs => behind first → ∃ t x, exec op s = .next t ∧ Claims.onward s t ∧
      (t.chan g ch.toNat).queue = queue ++ [x] ∧ (t.chan g ch.toNat).ptr = (if queue = [] then first else (s.chan g ch.toNat).ptr) ∧
      (t.chan g ch.toNat).cause = none ∧
      x.kind = kind ∧ x.first = first ∧ x.stop = first + total ∧ (kind ≠ .cpym → x.segs = segs) ∧ x.lane = m.1 ∧ x.pc = s.cur.pc ∧
      x.tl = (if tle then some (tl.toNat, (s.tl g tl.toNat).issued + 1) else none)
    let refuses := fun (op : Instr) first cause sub =>
      exec op s = .next (trapFails s [⟨m, cause, sub, BitVec.ofNat 64 first⟩] [])
    let act := actives k s
    let goes := fun (op : Instr) (copies : Nat) => ∃ t, exec op s = .next t ∧ Claims.onward s t ∧
      (t.chan g ch.toNat).queue.length = queue.length + copies
    let fits := fun (first total : Nat × Nat → Nat) =>
      (∀ x ∈ act, behind (first x)) ∧ act.Pairwise fun x y => first x + total x ≤ first y
    let at_ := fun x => (src s x b).toNat
    let len := fun x => (src s x d).toNat
    let par := fun (x : Nat × Nat) (j : Nat) => (rdS s x.2 (i.toNat + j)).toNat
    let refs := fun (x : Nat × Nat) => receivers (rdS s x.2 (i.toNat + 3) ++ rdS s x.2 (i.toNat + 2) : BitVec 64) (recv.toNat + 1)
    ((mget s.groups g).isSome → (∀ x ∈ act, x.2 < 32) → (tle = true → tlBound s.cg tl.toNat = false) →
      (fits at_ len → (∀ x ∈ act, 1 ≤ len x ∧ len x ≤ 458752 ∧ at_ x + len x ≤ s.cg.hdr.scratch) →
        goes (.cpy k a b c d tle tl) act.length ∧ goes (.cpys k a b c d tle tl) act.length) ∧
      (∀ x rest, act = x :: rest → behind (at_ x) → 1 ≤ len x → len x ≤ 4096 → at_ x + len x * act.length ≤ s.cg.hdr.scratch →
        goes (.cpyg k a b c d tle tl) 1) ∧
      (fits at_ (fun x => par x 0 * par x 1) → (∀ x ∈ act, 1 ≤ par x 0 ∧ par x 0 ≤ 4096 ∧ 1 ≤ par x 1 ∧ par x 1 ≤ 4096 ∧
          at_ x + par x 0 * par x 1 ≤ s.cg.hdr.scratch) → goes (.cpy2 k a b c (.s i) tle tl) act.length) ∧
      (fits (fun x => par x 0) (fun x => par x 1) → (∀ x ∈ act, 1 ≤ par x 1 ∧ par x 1 ≤ 458752) →
        (∀ x ∈ act, ∀ r ∈ refs x, lacksDeposit s r = false) → goes (.cpym k a (.s i) c tle tl recv) act.length)) ∧
    (act = [m] → m.2 < 32 → s.hasThread g m → (tle = true → tlBound s.cg tl.toNat = false) →
    (∀ p ∈ [(Instr.cpy k a b c d tle tl, CopyKind.cpy), (.cpys k a b c d tle tl, .cpys)],
      (1 ≤ n → n ≤ 458752 → o + n ≤ s.cg.hdr.scratch → starts p.1 p.2 o n [(mem, o, n)]) ∧
      (n = 0 ∨ 458752 < n → refuses p.1 o 0x1B 2) ∧
      (1 ≤ n → n ≤ 458752 → s.cg.hdr.scratch < o + n → refuses p.1 o 0x14 0)) ∧
    ((1 ≤ n → n ≤ 4096 → o + n ≤ s.cg.hdr.scratch → starts (.cpyg k a b c d tle tl) .cpyg o n [(mem, o, n)]) ∧
     (n = 0 ∨ 4096 < n → refuses (.cpyg k a b c d tle tl) o 0x1B 2)) ∧
    ((1 ≤ row → row ≤ 4096 → 1 ≤ rows → rows ≤ 4096 → o + row * rows ≤ s.cg.hdr.scratch →
      starts (.cpy2 k a b c (.s i) tle tl) .cpy2 o (row * rows) ((List.range rows).map fun j =>
        (mem + BitVec.ofNat 64 j * (word 3 ++ word 2 : BitVec 64), o + row * j, row))) ∧
     (row = 0 ∨ 4096 < row ∨ rows = 0 ∨ 4096 < rows → refuses (.cpy2 k a b c (.s i) tle tl) o 0x1B 2)) ∧
    (let op : Instr := .cpym k a (.s i) c tle tl recv
     (1 ≤ rows → rows ≤ 458752 → (∀ r ∈ receivers (word 3 ++ word 2 : BitVec 64) (recv.toNat + 1), lacksDeposit s r = false) →
       starts op .cpym row rows []) ∧
     (rows = 0 ∨ 458752 < rows → (∀ r ∈ receivers (word 3 ++ word 2 : BitVec 64) (recv.toNat + 1), lacksDeposit s r = false) →
       refuses op row 0x1B 2)))

/-- 12 R260, R262, 14 R319: the copy engine moves the head copy of a channel (here one of memory to scratchpad, in a shared page,
with no barrier and no receivers): a delivery of n bytes places them and moves the pointer behind them, completion places the last
byte and takes the copy off the channel, and a failing check stops it with its cause. -/
def Obligations.CopyEngine : Prop :=
  ∀ (g : Nat) (wp : BitVec 3) (c : Copy) (rest : List Copy) (s : State), (s.chan g wp.toNat).queue = c :: rest →
    (mget s.groups g).isSome → (s.group g).place = .active → c.kind = .cpy → c.recv = [] → c.bar = none → c.ops ≠ [] →
    (∀ tr k mem o n more, copyRun s g wp.toNat c = .bytes tr k → c.segs = (mem, o, n) :: more → tr.cls ≠ 0 →
      (∀ j, 0 < j → j ≤ k → j < c.left → ∃ t, exec (.copyDelivery g wp j) s = .next t ∧ (t.chan g wp.toNat).ptr = o + j ∧
        ∀ i, memRead (t.group g).scratch i =
          if o ≤ i ∧ i < o + j then viewByte s tr.space (tr.pa + (i - o)) else memRead (s.group g).scratch i) ∧
      (c.left = 1 → 0 < k → rest = [] → ∃ t, exec (.copyComplete g wp) s = .next t ∧ (t.chan g wp.toNat).queue = [] ∧
        (t.chan g wp.toNat).ptr = o + 1 ∧ memRead (t.group g).scratch o = viewByte s tr.space tr.pa)) ∧
    (c.left = 0 → ∃ t, exec (.copyComplete g wp) s = .next t ∧ (t.chan g wp.toNat).queue = rest) ∧
    (∀ cause sub addr, copyRun s g wp.toNat c = .stop cause sub addr → ∃ t, exec (.copyStop g wp) s = .next t ∧
      (t.chan g wp.toNat).queue = rest ∧ (t.chan g wp.toNat).cause = some (cause, sub, addr))

/-- 12 R262 to R265: WPREAD and TLREAD read a channel's pointer and a timeline's value; WPWAIT, TLWAIT and WAIT go on where what they
wait for holds, and hold the thread at the instruction where it does not; a channel with a recorded cause traps with it. -/
def Obligations.Waits : Prop :=
  ∀ (k : Ctl) (n : BitVec 8) (ch : BitVec 3) (x : BitVec 4) (c : Opnd) (iss : Bool) (ld st cp mx rm nm : BitVec 5) (s : State),
    let act := actives k s
    let g := s.cur.g
    let p := s.chan g ch.toNat
    let t0 := s.tl g x.toNat
    let waits := fun (i : Instr) (met : Nat × Nat → Bool) (h : Nat × Nat → Hold) => ∃ t, exec i s = .next t ∧
      EachThread s t g fun m y => if m ∈ act ∧ met m = false then { y with pc := s.cur.pc, st := .held, hold := h m }
        else Claims.goes s [] (fun _ => 0) m y
    (p.cause = none →
      (∃ t, exec (.wpread k (.v n) (.res (.wp ch))) s = .next t ∧ Result32 k s t (.v n) fun _ => BitVec.ofNat 32 p.ptr) ∧
      waits (.wpwait k (.res (.wp ch)) c) (fun m => decide ((src s m c).toNat ≤ p.ptr)) fun m => .pointer ch.toNat (src s m c).toNat) ∧
    (∀ cause sub addr, p.cause = some (cause, sub, addr) → act ≠ [] → ∀ i ∈ [Instr.wpread k (.v n) (.res (.wp ch)), .wpwait k (.res (.wp ch)) c],
      exec i s = .next (trapFails s (act.map fun m => (⟨m, cause, ch.toNat, addr⟩ : LaneFail)) [])) ∧
    (∃ t, exec (.tlread k (.v n) (.res (.tl x)) iss) s = .next t ∧
      Result64 k s t (.v n) fun _ => BitVec.ofNat 64 (if iss then t0.issued else t0.value)) ∧
    waits (.tlwait k (.res (.tl x)) c) (fun m => decide ((src64 s m c).toNat ≤ t0.value)) (fun m => .timeline x.toNat (src64 s m c).toNat) ∧
    waits (.wait k ld st cp mx rm nm)
      (fun m => let q := (s.wave g m.2).ctrs
        [(q.ld, ld), (q.st, st), (q.cp, cp), (q.mx, mx), (q.rm, rm), (q.nm, nm)].all fun y => y.2 == 31 || decide (y.1 ≤ y.2.toNat))
      fun _ => .counters [ld.toNat, st.toNat, cp.toNat, mx.toNat, rm.toNat, nm.toNat]

/-! ### Traps and system instructions -/

/-- 14 R312 to R315, R328, Tables 14-7 and 14-8: TRAP raises SOFTWARE with RSM 1 for the threads whose guard is true, and goes on
where there is none. The trap of one home wave: outside the handler, with a handler bound: the frame and the
handler save are written to the wave's slot, s0 and s1 hold the slot's address, every Ready and Held thread goes to the handler with
its program counter and state saved, and the others stay. Inside the handler, or without one, the context halts and the threads
stay. The frame holds the frame word, the virtual address of the trapping instruction, its word (at 0x010), the cause masks and the lane
addresses, in 512 bytes. -/
def Obligations.TrapEntry : Prop :=
  (∀ (k : Ctl) (code : Word) (w : Nat) (s : State),
    let act := actives k s
    let g := s.cur.g
    let x := s.cg
    let c := s.ctx x.ctx
    let slot := slotVa s g w
    let tr : Trp := { cause := 0x20, lanes := act, rsm := true, pc := s.cur.pc, word := s.cur.word, frm := s.cur.formed }
    (act = [] → ∃ t, exec (.trap k code) s = .next t ∧ EachThread s t g (Claims.goes s [] fun _ => 0)) ∧
    (act ≠ [] → exec (.trap k code) s = .next (takeTrap s g tr)) ∧
    (act ≠ [] → w < 32 → (∀ m ∈ act, m.2 = w) → s.hasWave g w → (mget s.ctxs x.ctx).isSome →
    ((s.wave g w).handler = false → c.hentry ≠ 0 → ∃ t, exec (.trap k code) s = .next t ∧
      (t.wave g w).handler = true ∧ (t.wave g w).frMask = maskOf (act.map (·.1)) ∧
      mgetD (t.wave g w).sr 0 0 = BitVec.ofNat 32 slot ∧ mgetD (t.wave g w).sr 1 0 = BitVec.ofNat 32 (slot / 2 ^ 32) ∧
      (∀ r, r ≠ 0 → r ≠ 1 → mgetD (t.wave g w).sr r 0 = mgetD (s.wave g w).sr r 0) ∧
      (∀ l, s.hasThread g (l, w) →
        let y := s.thread g w l
        t.thread g w l = if y.st = .ready ∨ y.st = .held then
          { y with savedPc := y.pc, savedSt := y.st, savedHold := y.hold, hf := true, st := .ready, hold := .none, pc := c.hentry }
        else y) ∧
      (∀ v, v ≠ w → s.hasWave g v → t.wave g v = s.wave g v) ∧ (∀ h, h ≠ g → mget t.groups h = mget s.groups h) ∧
      (let u := (s.sysWrite x.ctx slot (frameBytes s g w tr)).sysWrite x.ctx (slot + 0x200) (handlerSave (s.wave g w))
       t.hbm = u.hbm ∧ t.hostMem = u.hostMem ∧ t.cores = u.cores)) ∧
    ((s.wave g w).handler = true ∨ c.hentry = 0 → c.state = .runnable → ∃ t, exec (.trap k code) s = .next t ∧
      (t.ctx x.ctx).state = .halted ∧ ∀ l, s.hasThread g (l, w) → t.thread g w l = s.thread g w l))) ∧
  (∀ (s : State) (g w : Nat) (t : Trp), t.cause < 256 → t.sub < 256 →
    let f := frameBytes s g w t
    let word := fun off n => ofBytes ((f.drop off).take n)
    f.length = 512 ∧ word 0 1 = t.cause ∧ word 1 1 = t.sub ∧
    (BitVec.ofNat 64 (word 0 8)).getLsbD 17 = t.rsm ∧ (BitVec.ofNat 64 (word 0 8)).getLsbD 18 = t.inv ∧
    (BitVec.ofNat 64 (word 0 8)).getLsbD 19 = t.frm ∧ (BitVec.ofNat 64 (word 0 8)).getLsbD 20 = t.log.isSome ∧
    word 8 8 = (codeBase s g w + t.pc) % 2 ^ 64 ∧ word 16 12 = t.word.toNat ∧
    BitVec.ofNat 32 (word 32 4) = maskOf (waveLanes t.lanes w) ∧ BitVec.ofNat 32 (word 36 4) = maskOf (waveLanes t.others w) ∧
    ∀ l < 32, word (64 + 8 * l) 8 = ((aget t.addrs (l, w)).getD 0).toNat)

/-- 14 R316: RTE of one home wave in the handler, with no log entry: the saved uniform registers, predicates and flags return, every
thread that entered the handler has its saved state, a lane of the cause or other-causes masks continues at the frame's address
(past the instruction where the frame's resume bit is set) and the others where they stood. Outside the handler it traps PRIVILEGE. -/
def Obligations.ReturnFromTrap : Prop :=
  ∀ (k : Ctl) (w : Nat) (f bs : List Byte) (s : State),
    let act := actives k s
    let g := s.cur.g
    let x := s.cg
    let v := s.wave g w
    let va := ofBytes (f.drop 8)
    let off := va - x.code.toNat
    let resume := (BitVec.ofNat 64 (ofBytes (f.take 8))).getLsbD 17
    let target := if resume then off + (if invAt (advance s) g off then 24 else 12) else off
    act ≠ [] → w < 32 → (∀ m ∈ act, m.2 = w) → s.hasWave g w →
    (v.handler = true → v.frLog = none → s.sysRead x.ctx (slotVa s g w) 16 = some f →
      s.sysRead x.ctx (slotVa s g w + 0x200) 128 = some bs →
      x.code.toNat + x.hdr.entry ≤ va → va < x.code.toNat + x.hdr.entry + x.hdr.codesize → off % 12 = 0 →
      ∃ t, exec (.rte k) s = .next t ∧ InGroup s t g ∧ (t.wave g w).handler = false ∧
        (∀ n < 16, mgetD (t.wave g w).sr n 0 = BitVec.ofNat 32 (ofBytes ((bs.drop (4 * n)).take 4))) ∧
        (∀ n, 16 ≤ n → mgetD (t.wave g w).sr n 0 = mgetD v.sr n 0) ∧
        ∀ l, s.hasThread g (l, w) →
          let y := s.thread g w l
          let z := t.thread g w l
          z.vr = y.vr ∧ z.fflags = BitVec.ofNat 5 (bs.getD (96 + l) 0).toNat ∧
          (∀ i < 48, praw z i = if i < 8 then (bs.getD (64 + l) 0).getLsbD i else praw y i) ∧
          (y.hf = true → z.hf = false ∧ z.st = y.savedSt ∧ z.hold = y.savedHold ∧
            z.pc = if v.frMask.getLsbD l then target else y.savedPc)) ∧
    (v.handler = false → exec (.rte k) s = .next (trapNow s 3 0 act))

/-- 14 R326, R327, R329 to R332: SRD gives a register of Table 14-12 to a uniform pair, those of the handler alone trap PRIVILEGE
below it; SWR writes hstep or the error tail and traps PRIVILEGE for every other register; TLBINV and NTINV drop the context's
translations and names and wait for what is in flight; SVC waits for its answer with its record in the ring, for room, or traps
SOFTWARE 2 without a ring; DBGHALT halts the group under a debugger and the context without one. -/
def Obligations.SystemInstructions : Prop :=
  ∀ (k : Ctl) (n : BitVec 6) (a b c : Opnd) (reg : BitVec 10) (code : Word) (w : Nat) (s : State),
    let act := actives k s
    let g := s.cur.g
    let ctx := s.cg.ctx
    let mine := s.cur.members.filter fun m => m.2 == w
    act ≠ [] → w < 32 → (∀ m ∈ act, m.2 = w) → s.hasWave g w → (mget s.ctxs ctx).isSome →
    ((s.wave g w).handler = true ∨ reg.toNat ∉ [0, 3, 4, 5, 9] → ∃ t, exec (.srd k (.s n) reg) s = .next t ∧ InGroup s t g ∧
      Claims.onward s t ∧ mgetD (t.wave g w).sr n.toNat 0 = (sysReg s g w reg.toNat).truncate 32 ∧
      mgetD (t.wave g w).sr (n.toNat + 1) 0 = (sysReg s g w reg.toNat >>> 32).truncate 32) ∧
    ((s.wave g w).handler = false → reg.toNat ∈ [0, 3, 4, 5, 9] → exec (.srd k (.s n) reg) s = .next (trapNow s 3 0 act)) ∧
    (reg = 4 → ∃ t, exec (.swr k b reg) s = .next t ∧ InGroup s t g ∧ Claims.onward s t ∧
      (t.wave g w).hstep = (src64 s (leadOf act w) b).truncate 32) ∧
    (reg = 5 → ∃ t, exec (.swr k b reg) s = .next t ∧ Claims.onward s t ∧
      (t.ctx ctx).errTail = (src64 s (leadOf act w) b).truncate 32) ∧
    (reg ≠ 4 → reg ≠ 5 → exec (.swr k b reg) s = .next (trapNow s 3 0 act)) ∧
    (∀ va, ∃ t, exec (.tlbinv k b c va) s = .next t ∧ t.hbm = s.hbm ∧
      (∀ q ∈ t.cores, ∀ e ∈ q.2.tlb, e.ctx = ctx → va = true ∧
        (e.va + e.size ≤ (src64 s (leadOf act w) b).toNat ∨
          (src64 s (leadOf act w) b).toNat + 4096 * (src s (leadOf act w) c).toNat ≤ e.va)) ∧
      (accessesIn s ctx (src64 s (leadOf act w) b).toNat (if va then some (4096 * (src s (leadOf act w) c).toNat) else none) = [] →
        Claims.onward s t)) ∧
    (∃ t, exec (.ntinv k b false) s = .next t ∧ t.hbm = s.hbm ∧ (∀ q ∈ t.dies, ∀ e ∈ q.2.names, e.1 / 2 ^ 36 ≠ ctx) ∧
      (namesOf s ctx none ≠ [] → ∀ m ∈ mine, s.hasThread g m → (t.thread g m.2 m.1).st = .held ∧ (t.thread g m.2 m.1).pc = s.cur.pc)) ∧
    ((s.ctx ctx).svcBase = 0 → exec (.svc k a code) s = .next (takeTrap s g
      { cause := 0x20, sub := 2, lanes := s.cur.members.filter (fun m => (wavesOf act).contains m.2), rsm := true, pc := s.cur.pc,
        word := s.cur.word, frm := s.cur.formed })) ∧
    ((s.ctx ctx).svcBase ≠ 0 → (∀ m ∈ mine, svcReady (advance s) g w m.1 = true) → ∃ t, exec (.svc k (.s n) code) s = .next t ∧
      (t.ctx ctx).svcHead = (s.ctx ctx).svcHead + 1 ∧
      (t.ctx ctx).svcWait = (s.ctx ctx).svcWait ++ [(g, w, n.toNat, (s.ctx ctx).svcHead.toNat)] ∧
      ∀ m ∈ mine, s.hasThread g m → (t.thread g m.2 m.1).st = .held ∧ (t.thread g m.2 m.1).hold = .svc (s.ctx ctx).svcHead.toNat) ∧
    ((s.ctx ctx).svcBase ≠ 0 → (∃ m ∈ mine, svcReady (advance s) g w m.1 = false) → ∃ t, exec (.svc k (.s n) code) s = .next t ∧
      InGroup s t g ∧ ∀ m ∈ mine, s.hasThread g m → (t.thread g m.2 m.1).st = .held ∧ (t.thread g m.2 m.1).hold = .svcRoom) ∧
    ((s.ctx ctx).debug = true → ∃ t, exec (.dbghalt k) s = .next t ∧ InGroup s t g ∧ (t.group g).haltReq = true ∧
      ∀ m, s.hasThread g m → (s.thread g m.2 m.1).st = .ready → (t.thread g m.2 m.1).st = .halted) ∧
    ((s.ctx ctx).debug = false → (s.ctx ctx).state = .runnable → ∃ t, exec (.dbghalt k) s = .next t ∧ (t.ctx ctx).state = .halted)

/-! ### Matrix instructions -/

/-- The nine multiplying forms with their M, N, K and element width (07 Table 7-1). -/
def Claims.multiplies (k : Ctl) (a b c d : Opnd) : List (Instr × MForm) :=
  [(.mma8a k a b c d, ⟨32, 32, 64, 8⟩), (.mma8b k a b c d, ⟨64, 32, 64, 8⟩), (.mma8c k a b c d, ⟨64, 64, 64, 8⟩),
   (.mma4a k a b c d, ⟨32, 32, 128, 4⟩), (.mma4b k a b c d, ⟨64, 32, 128, 4⟩), (.mma4c k a b c d, ⟨64, 64, 128, 4⟩),
   (.mma16a k a b c d, ⟨32, 32, 32, 16⟩), (.mma16b k a b c d, ⟨64, 32, 32, 16⟩), (.mma16c k a b c d, ⟨64, 64, 32, 16⟩)]

/-- 07 R114 to R117, 09 R187: a multiplying form issued by threads of one home wave. Its convergence set must be the full set of a
full wave and not one of CWAIT. The threads sign and are held at the instruction; when all 32 lanes have signed, the form executes
for the lanes whose guard is true: every signer goes on at its next instruction, the set is unsigned again, counter mx rises, and
the operation that is to write the accumulator columns is in flight. A refused format word or scale register traps. -/
def Obligations.MatrixSigning : Prop :=
  ∀ (k : Ctl) (va vb vf : BitVec 8) (cr : BitVec 4) (w : Nat) (s : State),
    let g := s.cur.g
    let v := s.wave g w
    let x := s.conv g w cr.toNat
    s.cur.members ≠ [] → w < 32 → s.hasWave g w → (∀ m ∈ s.cur.members, m.2 = w ∧ m.1 < 32) →
    ∀ p ∈ Claims.multiplies k (.v va) (.v vb) (.res (.c cr)) (.v vf),
      let y : MArgs := ⟨p.2, k, va.toNat, vb.toNat, cr.toNat, vf.toNat⟩
      let gs := ((List.range 32).map fun l => (l, w)).filter (guardOn k s)
      let fw := rdV s (gs.headD (0, 0)) vf.toNat
      let sgn := x.sgn ||| activeMask s w
      let signing := fun (m : Nat × Nat) => m ∈ s.cur.members ∨ ((s.thread g w m.1).st = .held ∧ (s.thread g w m.1).hold = .sign cr.toNat)
      (x.set ≠ 0xFFFFFFFF ∨ v.threads.length < 32 →
        exec p.1 s = .next (trapFails s (s.cur.members.map fun m => (⟨m, 6, 0, 0⟩ : LaneFail)) [])) ∧
      (x.set = 0xFFFFFFFF → v.threads.length = 32 → x.kind = 1 →
        exec p.1 s = .next (trapFails s (s.cur.members.map fun m => (⟨m, 0x0C, 10, 0⟩ : LaneFail)) [])) ∧
      (x.set = 0xFFFFFFFF → v.threads.length = 32 → x.kind ≠ 1 →
        (sgn ≠ 0xFFFFFFFF → ∃ t, exec p.1 s = .next t ∧ InGroup s t g ∧ t.conv g w cr.toNat = { set := 0xFFFFFFFF, sgn := sgn, kind := 2 } ∧
          ∀ l < 32, t.thread g w l = if (l, w) ∈ s.cur.members then
            { s.thread g w l with pc := s.cur.pc, st := .held, hold := .sign cr.toNat } else s.thread g w l) ∧
        (sgn = 0xFFFFFFFF → mmaFail s y gs = [] → ∃ t, exec p.1 s = .next t ∧
          t.conv g w cr.toNat = { set := 0xFFFFFFFF, sgn := 0, kind := 0 } ∧
          (∀ l < 32, t.thread g w l = if signing (l, w) then
            { s.thread g w l with
              st := .ready
              hold := .none
              pc := (if (l, w) ∈ s.cur.members then s.cur.pc else (s.thread g w l).pc) + 12 } else s.thread g w l) ∧
          (gs = [] → InGroup s t g) ∧
          (gs ≠ [] → (t.wave g w).ctrs = { v.ctrs with mx := v.ctrs.mx + 1 } ∧
            ∃ o, t.matrix = s.matrix ++ [o] ∧ o.g = g ∧ o.w = w ∧ o.move = false ∧ o.touched = [] ∧
              o.writes = gs.flatMap (laneColumns s y ((List.range p.2.m).map fun i => mgetD v.latch i {}) fw))) ∧
        (sgn = 0xFFFFFFFF → mmaFail s y gs ≠ [] → ∃ u, (∀ l < 32, (u.thread g w l).vr = (s.thread g w l).vr) ∧
          exec p.1 s = .next (takeTrap u g { failTrap s (mmaFail s y gs) [] with frm := false })))

/-- 05 R81, R82, R85: an element of an INT32 accumulator takes its old value plus the exact sum of K integer products, modulo 2^32
or, under SAT, clamped; a NaN in a floating-point accumulator or among the products makes the element the canonical NaN. -/
def Obligations.MatrixElements : Prop :=
  ∀ (f : MForm) (fw c : Word) (row sa col sb : Nat) (fa fb : Fmt), Fmt.ofCode (fwA fw) = some fa → Fmt.ofCode (fwB fw) = some fb →
    (fwAcc fw = 10 → ∀ wa sga wb sgb, intFmt fa = some (wa, sga) → intFmt fb = some (wb, sgb) →
      let total := c.toInt + ((List.range f.k).map fun k =>
        bitsToInt wa sga (row / 2 ^ (k * f.w) % 2 ^ f.w) * bitsToInt wb sgb (col / 2 ^ (k * f.w) % 2 ^ f.w)).sum
      elemNew f fw row sa col sb c =
        if fwSat fw = true ∧ total < -2 ^ 31 then 0x80000000
        else if fwSat fw = true ∧ 2 ^ 31 ≤ total then 0x7FFFFFFF else BitVec.ofInt 32 total) ∧
    (fwAcc fw ≠ 10 → 0x7F800000 < c.toNat % 2 ^ 31 ∨ (∃ p ∈ products f fa fb row col, p.isNan = true) →
      elemNew f fw row sa col sb c = 0x7FC00000)

/-- 07 R112, R120, R124, R125: MMAZ starts, for each home wave that executes, an operation that zeroes the accumulators of its shape;
ACCST stores them to the scratchpad, row by row, and touches no byte outside its tiles; ACCLD starts an operation that loads them.
Counter mx of those waves rises, every issuing thread goes on, and no other register or memory changes. A base that is not a multiple of
16 traps MISALIGNED and a tile that leaves the scratchpad SCRATCH_RANGE. -/
def Obligations.MatrixMoves : Prop :=
  ∀ (k : Ctl) (va : BitVec 8) (b : Opnd) (sh : Shape) (s : State),
    let act := actives k s
    let g := s.cur.g
    let size := 4 * shapeM sh * shapeN sh
    let off := fun m => (src s m b).toNat
    let cells := (List.range (shapeN sh / 32)).flatMap fun q => (List.range (shapeM sh)).map fun i =>
      (va.toNat + i + shapeM sh * q, 4 * (i * shapeN sh + 32 * q))
    let starts := fun (t : State) (writes : List (Nat × Nat) → List (Nat × Nat × Word)) (move : Bool) =>
      t.matrix = s.matrix ++ ((wavesOf act).zipIdx.map fun w =>
        { id := s.nextId + w.2, g := g, w := w.1, writes := writes (act.filter fun m => m.2 == w.1), touched := [], move := move }) ∧
      (∀ w, s.hasWave g w → (t.wave g w).ctrs =
        if w ∈ wavesOf act then { (s.wave g w).ctrs with mx := (s.wave g w).ctrs.mx + 1 } else (s.wave g w).ctrs) ∧
      (∀ m, s.hasThread g m → t.thread g m.2 m.1 = Claims.goes s [] (fun _ => 0) m (s.thread g m.2 m.1)) ∧
      (∀ w, (t.wave g w).sr = (s.wave g w).sr ∧ (t.wave g w).latch = (s.wave g w).latch) ∧
      t.hbm = s.hbm ∧ t.hostMem = s.hostMem ∧ t.cores = s.cores
    (∃ t, exec (.mmaz k (.v va) sh) s = .next t ∧ (t.group g).scratch = s.cg.scratch ∧
      starts t (fun ms => ms.flatMap fun m => cells.map fun c => (m.1, c.1, 0)) false) ∧
    ((∀ m ∈ act, m.1 < 32) →
      ((∀ m ∈ act, off m % 16 = 0 ∧ off m + size ≤ s.cg.hdr.scratch) →
        (∃ t, exec (.accst k (.v va) b sh) s = .next t ∧ starts t (fun _ => []) true ∧
          (∀ a, (∀ m ∈ act, a < off m ∨ off m + size ≤ a) → memRead (t.group g).scratch a = memRead s.cg.scratch a) ∧
          ((mget s.groups g).isSome → (∀ m ∈ act, ∀ m' ∈ act, m.2 = m'.2 ∧ off m = off m') →
            ∀ m ∈ act, m.2 < 32 → ∀ i < shapeM sh, ∀ q < shapeN sh / 32,
              readN (t.group g).scratch (off m + 4 * (i * shapeN sh + m.1 + 32 * q)) 4 =
                toBytes 4 (rdV s m (va.toNat + i + shapeM sh * q)).toNat)) ∧
        ((∀ m ∈ act, scratchPoisoned s.cg (off m) size = none) →
          ∃ t, exec (.accld k (.v va) b sh) s = .next t ∧ (t.group g).scratch = s.cg.scratch ∧
            starts t (fun ms => ms.flatMap fun m => cells.map fun c =>
              (m.1, c.1, BitVec.ofNat 32 (ofBytes (readN s.cg.scratch (off m + c.2 + 4 * m.1) 4)))) true)) ∧
      (∀ i ∈ [Instr.accst k (.v va) b sh, .accld k (.v va) b sh],
        ((∃ m ∈ act, off m % 16 ≠ 0) → exec i s = .next (trapFails s (act.map fun m => (⟨m, 0x10, 0, 0⟩ : LaneFail)) [])) ∧
        ((∀ m ∈ act, off m % 16 = 0) → (∃ m ∈ act, s.cg.hdr.scratch < off m + size) →
          exec i s = .next (trapFails s (act.map fun m => (⟨m, 0x14, 0, 0⟩ : LaneFail)) []))))

/-- 07 R110, R121 to R123: LATCHL loads the first 32 or 64 latch rows from consecutive scratchpad rows, with their scales behind the
data or unit scales; LATCHG loads for one thread the rows of its lane from the offsets that it names; LATCHCLR leaves every row zero
with unit scales. Other rows of the latch stay. A bad base traps. -/
def Obligations.OperandLatch : Prop :=
  ∀ (k : Ctl) (b c d : Opnd) (rows64 sc : Bool) (w : Nat) (s : State),
    let act := actives k s
    let g := s.cur.g
    let n := if rows64 then 64 else 32
    let v := s.wave g w
    let row := fun (t : State) (i : Nat) => mgetD (t.wave g w).latch i {}
    let data := fun o => BitVec.ofNat 512 (ofBytes (readN s.cg.scratch o 64))
    let scale := fun o => if sc then BitVec.ofNat 32 (ofBytes (readN s.cg.scratch o 4)) else 0x78787878
    let o := (src s (leadOf act w) b).toNat
    let mine := s.cur.members.filter fun m => m.2 == w
    act ≠ [] → w < 32 → (∀ m ∈ act, m.2 = w ∧ m.1 < 32) → s.hasWave g w →
    (o % 64 = 0 → o + (if sc then 68 else 64) * n ≤ s.cg.hdr.scratch → scratchPoisoned s.cg o ((if sc then 68 else 64) * n) = none →
      ∃ t, exec (.latchl k b rows64 sc) s = .next t ∧ Claims.onward s t ∧ (t.wave g w).ctrs = { v.ctrs with mx := v.ctrs.mx + 1 } ∧
        ∀ i, row t i = if i < n then { data := data (o + 64 * i), scales := scale (o + 64 * n + 4 * i) } else row s i) ∧
    (o % 64 ≠ 0 → exec (.latchl k b rows64 sc) s = .next (trapFails s (mine.map fun m => (⟨m, 0x10, 0, 0⟩ : LaneFail)) [])) ∧
    (o % 64 = 0 → s.cg.hdr.scratch < o + (if sc then 68 else 64) * n →
      exec (.latchl k b rows64 sc) s = .next (trapFails s (mine.map fun m => (⟨m, 0x14, 0, 0⟩ : LaneFail)) [])) ∧
    (∀ m i, act = [m] → b = .v i →
      let at_ := fun (q : Nat) => (src s m c + 64 * rdV s m (i.toNat + q)).toNat
      let sat := fun (q : Nat) => (src s m d + 4 * rdV s m (i.toNat + q)).toNat
      let fits := fun (q : Nat) => at_ q + 64 ≤ s.cg.hdr.scratch ∧ scratchPoisoned s.cg (at_ q) 64 = none ∧
        (sc = true → sat q + 4 ≤ s.cg.hdr.scratch ∧ scratchPoisoned s.cg (sat q) 4 = none)
      ((src s m c).toNat % 64 = 0 → (src s m d).toNat % 4 = 0 → fits 0 → (rows64 = true → fits 1) →
        ∃ t, exec (.latchg k b c d rows64 sc) s = .next t ∧ Claims.onward s t ∧ (t.wave g w).ctrs = { v.ctrs with mx := v.ctrs.mx + 1 } ∧
          ∀ j, row t j = if j = m.1 then { data := data (at_ 0), scales := scale (sat 0) }
            else if rows64 = true ∧ j = m.1 + 32 then { data := data (at_ 1), scales := scale (sat 1) } else row s j) ∧
      ((src s m c).toNat % 64 ≠ 0 ∨ (src s m d).toNat % 4 ≠ 0 →
        exec (.latchg k b c d rows64 sc) s = .next (trapFails s [⟨m, 0x10, 0, 0⟩] []))) ∧
    (∃ t, exec (.latchclr k) s = .next t ∧ Claims.onward s t ∧ t.matrix = s.matrix ∧ ∀ i, row t i = { data := 0, scales := 0x78787878 })

/-- 07 R117: a matrix operation or a move that no older one of its home wave on the same register holds back completes: its registers
take its values, no other vector register changes, and it is over. A thread that has exited keeps its registers. -/
def Obligations.MatrixCompletion : Prop :=
  ∀ (o : MatrixOp) (s : State), (s.matrix.find? fun x => x.id == o.id && x.move == o.move) = some o →
    (∀ p ∈ s.matrix, p.id < o.id → p.g ≠ o.g ∨ p.w ≠ o.w ∨ ∀ x ∈ p.writes, ∀ y ∈ o.writes, x.1 ≠ y.1 ∨ x.2.1 ≠ y.2.1) →
    (o.writes.map fun x => (x.1, x.2.1)).Nodup → o.touched = [] → s.hasWave o.g o.w →
    ∃ t, exec (if o.move then .latchMoveComplete o.id else .mmaComplete o.id) s = .next t ∧
      t.matrix = s.matrix.filter (fun x => x.id != o.id) ∧
      (∀ x ∈ o.writes, s.hasThread o.g (x.1, o.w) →
        vraw (t.thread o.g o.w x.1) x.2.1 = if (s.thread o.g o.w x.1).st = .exited then vraw (s.thread o.g o.w x.1) x.2.1 else x.2.2) ∧
      ∀ l r, (∀ x ∈ o.writes, x.1 ≠ l ∨ x.2.1 ≠ r) → vraw (t.thread o.g o.w l) r = vraw (s.thread o.g o.w l) r

/-! ### Brackets and the invert pair -/

/-- 07 R126, R127, 03 R58: BRSET writes a thread's bracket register, BRGET reads a field of it (old or new within a write's latency), and CALLM calls a routine whose landing
pad is one of the invert kind with a legal link pair, or traps LANDING_FAULT. -/
def Obligations.Brackets : Prop :=
  ∀ (k : Ctl) (n : BitVec 3) (a b c : Opnd) (d : BitVec 8) (off : Word) (w : Nat) (s : State),
    let act := actives k s
    let g := s.cur.g
    let tgt := branchTo s.cur.pc off
    let pad := decodeAt s g w tgt.toNat
    let onPad := tgt % 12 = 0 ∧ inCode s g w tgt = true
    (∀ fv e, (fv = true → e = .v d) → ∃ t, exec (.brset k (.res (.b n)) b c e fv) s = .next t ∧ InGroup s t g ∧ Claims.onward s t ∧
      ∀ m, s.hasThread g m → ∀ i, mgetD (t.thread g m.2 m.1).br i {} = if m ∈ act ∧ i = n.toNat then
        { lo := src s m b, hi := src s m c, flo := if fv then rdV s m d.toNat else 0, fhi := if fv then rdV s m (d.toNat + 1) else 0,
          st := if fv then 0x6000 else 0 } else mgetD (s.thread g m.2 m.1).br i {}) ∧
    (∀ m, (s.thread g m.2 m.1).hazards = [] → readBr s m n.toNat = mgetD (s.thread g m.2 m.1).br n.toNat {}) ∧
    (∀ f, ∃ t, exec (.brget k a (.res (.b n)) f) s = .next t ∧ Result32 k s t a fun m =>
      let q := readBr s m n.toNat
      match f with | .lo => q.lo | .hi => q.hi | .flo => q.flo | .fhi => q.fhi | .st => q.st) ∧
    (act ≠ [] → (∀ m ∈ act, m.2 = w) →
      (∀ kk o i x l y dir, onPad → pad = some (.land kk o i x (.v l) y true dir) → linkOk s g w (.v l) = true →
        ∃ t, exec (.callm k off) s = .next t ∧ ∀ m ∈ act, s.hasThread g m → (t.thread g m.2 m.1).pc = tgt.toNat ∧
          vraw (t.thread g m.2 m.1) l.toNat = BitVec.ofNat 32 (s.cur.pc + 12) ∧
          vraw (t.thread g m.2 m.1) (l.toNat + 1) = BitVec.ofNat 32 ((s.cur.pc + 12) / 2 ^ 32)) ∧
      ((onPad → ∀ kk o i x l y dir, pad = some (.land kk o i x l y true dir) → linkOk s g w l = false) →
        exec (.callm k off) s = .next (trapNow s 0x0A 0 act)))

/-- 07 R128 to R132: INV starts its search where the routine is legal, with every issuing thread still at the pair and one run whose
lanes hold their targets, and traps with what the routine's check found. A round waits for scalar loads and matrix operations that its
body reads, and for the clocks of the round before it; one in which every lane finishes without an evaluation
writes result and predicate of each and lets the threads go on behind the pair; a lane whose bracket is out of order traps
NOT_MONOTONE. -/
def Obligations.InvertPair : Prop :=
  (∀ (k : Ctl) (a b : Opnd) (n : BitVec 3) (fall : Bool) (dom : Dom) (pd budget : BitVec 6) (tol : BitVec 12) (w : Nat) (s : State),
    let act := actives k s
    let g := s.cur.g
    let op : Instr := .inv k a b (.res (.b n)) fall dom pd budget tol
    (act = [] → ∃ t, exec op s = .next t ∧ ∀ m ∈ s.cur.members, s.hasThread g m → (t.thread g m.2 m.1).pc = s.cur.pc + 24) ∧
    (∀ kk off, act ≠ [] → (∀ m ∈ act, m.2 = w) → decodeAt s g w (s.cur.pc + 12) = some (.callm kk off) →
      (∀ cause, routine s g w (branchTo (s.cur.pc + 12) off) fall = .bad cause → exec op s = .next (trapNow s cause 0 act)) ∧
      (∀ body len inReg outReg, routine s g w (branchTo (s.cur.pc + 12) off) fall = .ok body len inReg outReg →
        (mget s.groups g).isSome → ∃ t r, exec op s = .next t ∧ InGroup { s with nextId := s.nextId + 1 } t g ∧
          (t.group g).invs = s.cg.invs ++ [r] ∧ r.id = s.nextId ∧ r.body = body ∧ r.len = len ∧ r.inReg = inReg ∧ r.outReg = outReg ∧
          r.active = act ∧ r.issue = s.cur.members ∧ r.pc = s.cur.pc ∧
          ((∀ m ∈ act, (readBr s m n.toNat).st.getLsbD 15 = false) → r.lanes = act.map fun m => (m.1, m.2, src s m b)) ∧
          (∀ m ∈ act, s.hasThread g m → let q := mgetD (t.thread g m.2 m.1).br n.toNat {}
            q.lo = (readBr s m n.toNat).lo ∧ q.hi = (readBr s m n.toNat).hi ∧ q.st.getLsbD 15 = true) ∧
          ∀ m, s.hasThread g m → (t.thread g m.2 m.1).pc = (s.thread g m.2 m.1).pc ∧
            (t.thread g m.2 m.1).vr = (s.thread g m.2 m.1).vr))) ∧
  (∀ (g : Nat) (r : InvRun) (s : State) (m : Nat × Nat) (target : Word),
    let q := s.bracket g m r.brk
    let at_ := nextPoint r.dom r.fall r.tol r.budget q target
    ((s.group g).invs.find? fun x => x.id == r.id) = some r → r.lanes = [(m.1, m.2, target)] → s.hasThread g m → r.pd < 48 →
    r.active = [m] → r.issue = [m] → (s.thread g m.2 m.1).st = .ready → (s.thread g m.2 m.1).pc = r.pc →
    (bodyWaits s g r = true ∨ s.clock < r.next → exec (.invRound g r.id) s = .next s) ∧ (bodyWaits s g r = false → r.next ≤ s.clock →
    (∀ x p oc sd, at_ = .finish x p oc sd → ∃ t, exec (.invRound g r.id) s = .next t ∧
      (∀ y ∈ (t.group g).invs, y.id ≠ r.id) ∧ vraw (t.thread g m.2 m.1) r.vd = x ∧ praw (t.thread g m.2 m.1) r.pd = p ∧
      (t.thread g m.2 m.1).pc = r.pc + 24 ∧
      (∀ i, i ≠ r.vd → vraw (t.thread g m.2 m.1) i = vraw (s.thread g m.2 m.1) i)) ∧
    (at_ = .trap → ∃ u tr, exec (.invRound g r.id) s = .next (takeTrap u g tr) ∧ tr.cause = 0x0B ∧ tr.lanes = [m] ∧ tr.pc = r.pc ∧
      tr.inv = true)))

/-- 07 R130: what a lane of the search does next. With both ends evaluated and in order: a target below F(LO) ends out of range at LO, one
equal to F(LO) ends with LO, one above F(HI) ends out of range at HI, a gap of at most max(TOL, 1) ends with HI, and a spent budget
ends with HI and predicate 0; otherwise the middle of the images is evaluated. Crossed ends are not monotone. -/
def Obligations.SearchStep : Prop :=
  ∀ (d : Dom) (fall : Bool) (tol budget : Nat) (b : Bracket) (target : Word),
    let f := fImage d fall
    let gap := (image d b.hi).toNat - (image d b.lo).toNat
    let next := nextPoint d fall tol budget b target
    let both := b.st.getLsbD 13 = true ∧ b.st.getLsbD 14 = true ∧ isNanOf d b.flo = false ∧ isNanOf d b.fhi = false ∧ f b.flo ≤ f b.fhi
    ((image d b.hi).toNat < (image d b.lo).toNat → next = .trap) ∧
    ((image d b.lo).toNat ≤ (image d b.hi).toNat →
      (b.st.getLsbD 13 = false → next = .eval b.lo) ∧
      (b.st.getLsbD 13 = true → b.st.getLsbD 14 = false → next = .eval b.hi) ∧
      (b.st.getLsbD 13 = true → b.st.getLsbD 14 = true → f b.fhi < f b.flo → next = .trap) ∧
      (both → f target < f b.flo → next = .finish b.lo false 3 0) ∧
      (both → f target = f b.flo → next = .finish b.lo true 1 0) ∧
      (both → f b.fhi < f target → next = .finish b.hi false 3 1) ∧
      (both → f b.flo < f target → f target ≤ f b.fhi → gap ≤ max tol 1 → next = .finish b.hi true 1 0) ∧
      (both → f b.flo < f target → f target ≤ f b.fhi → max tol 1 < gap → budget ≤ b.st.toNat % 64 → next = .finish b.hi false 2 0) ∧
      (both → f b.flo < f target → f target ≤ f b.fhi → max tol 1 < gap → b.st.toNat % 64 < budget →
        ∃ x, next = .eval x ∧ (image d x).toNat = (image d b.lo).toNat + gap / 2))

/-! ### The network engine -/

/-- 15 R354, R357, R359 to R362: NPOST and NREAD of one thread hand their request to the engine and go on, or trap with the first check
that refuses it; NWAIT goes on where the counter has the value and holds the thread where it does not; NARM of one thread records
its arm with status 0, sends the wake at once with status 1, or gives status 5 where the context has 4,096 arms. -/
def Obligations.NetworkInstructions : Prop :=
  ∀ (k : Ctl) (a b c d : Opnd) (cc : BitVec 6) (n : BitVec 8) (trap : Bool) (m : Nat × Nat) (s : State),
    let act := actives k s
    let g := s.cur.g
    let ctx := s.cg.ctx
    let o := (src s m b).toNat
    let wr := readN s.cg.scratch o 64
    let sends := fun (i : Instr) (bs : List Byte) => ∃ t q, exec i s = .next t ∧ Claims.onward s t ∧ t.netReqs = s.netReqs ++ [q] ∧
      q.ctx = ctx ∧ q.g = g ∧ q.lane = m.1 ∧ q.w = m.2 ∧ q.wr = bs ∧ q.accepted = none ∧
      (t.wave g m.2).ctrs = { (s.wave g m.2).ctrs with rm := (s.wave g m.2).ctrs.rm + 1 }
    let traps := fun (i : Instr) cause sub => exec i s = .next (trapFails s [⟨m, cause, sub, BitVec.ofNat 64 o⟩] [])
    let copy := readCopy wr (src s m a) (src64 s m c) (if d = .null then none else some (src s m d).toNat)
    (act = [m] → m.2 < 32 → s.hasThread g m →
      (∀ i ∈ [Instr.npost k b, .nread k a b c d],
        (∀ e, scratchCheck s.cg o 64 true = some e → traps i e.1 e.2)) ∧
      (scratchCheck s.cg o 64 true = none →
        (wrCheck wr s.cg.hdr.scratch = none → sends (.npost k b) wr) ∧
        (∀ e, wrCheck wr s.cg.hdr.scratch = some e → traps (.npost k b) e.1 e.2) ∧
        (wrOp wr ≠ 2 → traps (.nread k a b c d) 0x1B 5) ∧
        (wrOp wr = 2 → wrCheck copy s.cg.hdr.scratch = none → sends (.nread k a b c d) copy) ∧
        (∀ e, wrOp wr = 2 → wrCheck copy s.cg.hdr.scratch = some e → traps (.nread k a b c d) e.1 e.2)) ∧
      (∀ f, nameFound s (s.cg.core / 48) ctx (src64 s m d) .wake trap = .inr f → (mget s.ctxs ctx).isSome →
        (s.thread g m.2 m.1).st ≠ .exited →
        let have_ := mgetD (s.ctx ctx).cc cc.toNat 0
        let want := (src64 s m c).toNat
        let arm := Instr.narm k (.v n) (.res (.cc cc)) c d trap
        (have_ < want → (s.ctx ctx).arms.length < 4096 → ∃ t y, exec arm s = .next t ∧ Claims.onward s t ∧
          (t.ctx ctx).arms = (s.ctx ctx).arms ++ [y] ∧ y.cc = cc.toNat ∧ y.n = want ∧ y.ref = src64 s m d ∧
          vraw (t.thread g m.2 m.1) n.toNat = 0) ∧
        (have_ < want → 4096 ≤ (s.ctx ctx).arms.length → ∃ t, exec arm s = .next t ∧ Claims.onward s t ∧
          (t.ctx ctx).arms = (s.ctx ctx).arms ∧ vraw (t.thread g m.2 m.1) n.toNat = 5) ∧
        (want ≤ have_ → ∃ t, exec arm s = .next t ∧ (t.ctx ctx).arms = (s.ctx ctx).arms ∧
          vraw (t.thread g m.2 m.1) n.toNat = 1))) ∧
    (∃ t, exec (.nwait k (.res (.cc cc)) c) s = .next t ∧ EachThread s t g fun x y =>
      if x ∈ act ∧ mgetD (s.ctx ctx).cc cc.toNat 0 < (src64 s x c).toNat then
        { y with pc := s.cur.pc, st := .held, hold := .net cc.toNat (src64 s x c).toNat }
      else Claims.goes s [] (fun _ => 0) x y)

/-- 15 R353 to R357: the engine accepts a request while its context has fewer than 4,096 accepted; one that is acknowledged, or that
has failed, is gone and its counter rises by 1 unless NCC is set; one without an answer is sent again with a doubled timeout. Of
incoming packets an RMA write places its bytes (here of one 32-byte block outside counter tables and doorbell pages), a send fills the next slot of its ring, a packet for no registration changes
nothing, and one for no service is dropped. -/
def Obligations.NetworkEngine : Prop :=
  (∀ (r : NetReq) (s : State), (s.netReqs.find? fun q => q.id == r.id) = some r → (mget s.ctxs r.ctx).isSome →
    let ended := fun (t : State) => (∀ q ∈ t.netReqs, q.id ≠ r.id) ∧
      mgetD (t.ctx r.ctx).cc (wrCc r.wr) 0 = mgetD (s.ctx r.ctx).cc (wrCc r.wr) 0 + (if wrNcc r.wr then 0 else 1)
    let busy := (s.netReqs.filter fun q => q.ctx == r.ctx && q.accepted.isSome).length
    let change := fun (f : NetReq → NetReq) => s.netReqs.map fun q => if q.id = r.id then f q else q
    (r.accepted = none → busy < 4096 → ∃ t, exec (.workRequestAccept r.id) s = .next t ∧
      t.netReqs = change fun q => { q with accepted := some s.ns }) ∧
    (r.accepted = none → 4096 ≤ busy → exec (.workRequestAccept r.id) s = .next s) ∧
    (∀ at_, r.accepted = some at_ →
      (wrOp r.wr = 2 → r.placed = [(0, wrLen r.wr)] → ∃ t, exec (.networkAck r.id) s = .next t ∧ ended t) ∧
      (wrOp r.wr = 1 ∨ wrOp r.wr = 3 → wrLsp r.wr = true → scratchPoisoned (s.group r.g) (wrLaddr r.wr) (wrLen r.wr) = none →
        ∃ t, exec (.networkAck r.id) s = .next t ∧ ended t) ∧
      (∀ pkt n sent nack, (r.packets = [(pkt, n, sent)] ∨ r.packets = [] ∧ n = 0 ∧ sent = at_) → n < 8 →
        r.lacks = (pkt, nack) → nack = true ∨ sent + 50000 * 2 ^ n ≤ s.ns → exec (.networkRetransmit r.id) s =
          .next { s with netReqs := change fun q =>
            { q with packets := (pkt, n + 1, s.ns) :: (q.packets.filter fun p => p.1 != pkt), lacks := (pkt, false) } }) ∧
      ((∃ p ∈ r.packets, 8 ≤ p.2.1) ∨ at_ + 20000000 ≤ s.ns → ∃ t, exec (.networkRequestFail r.id false) s = .next t ∧ ended t) ∧
      (wrOp r.wr ≠ 4 → ∃ t, exec (.networkRequestFail r.id true) s = .next t ∧ ended t))) ∧
  (∀ (c : BitVec 16) (key off : DWord) (data : List Byte) (last : Bool) (ri : BitVec 12) (job : Word) (n : Nat) (s : State),
    (mget s.ctxs c.toNat).isSome →
    let arrives := fun p => exec (.networkPacketArrival c p) s
    (∀ base len r cc tr, regOf s c.toNat key = some (base, len, r, true, cc) → off.toNat + data.length ≤ len.toNat →
      netRuns s c.toNat .w (spansOf (base.toNat + off.toNat) data.length) = .ok [(tr, data.length)] →
      (last = false ∨ cc = none → tr.pa % 32 + data.length ≤ 32 → ctrPhys s tr.space tr.pa = none → doorAt s tr.space tr.pa = none → ∃ t, arrives (.rmaWrite key off data last) = .next t ∧
        ∀ a, viewByte t tr.space a = if tr.pa ≤ a ∧ a < tr.pa + data.length then data.getD (a - tr.pa) 0 else viewByte s tr.space a) ∧
      (∀ k, last = true → cc = some k → ∃ t, arrives (.rmaWrite key off data last) = .next t ∧
        mgetD (t.ctx c.toNat).cc k.toNat 0 = mgetD (s.ctx c.toNat).cc k.toNat 0 + 1)) ∧
    (regOf s c.toNat key = none → arrives (.rmaWrite key off data last) = .next s ∧ arrives (.rmaRead key off n) = .next s) ∧
    (∀ tag base k cc count rel, mget (s.ctx c.toNat).regs ri.toNat = some (.ring tag base k cc count rel) →
      (data.length ≤ 4032 → (count - rel).toNat < 2 ^ k.toNat →
        (∃ l, netRuns s c.toNat .w (spansOf (base.toNat + 4096 * (count.toNat % 2 ^ k.toNat)) (64 + data.length)) = .ok l) →
        ∃ t, arrives (.send ri job data) = .next t ∧
          mget (t.ctx c.toNat).regs ri.toNat = some (.ring tag base k cc (count + 1) rel) ∧
          mgetD (t.ctx c.toNat).cc cc.toNat 0 = mgetD (s.ctx c.toNat).cc cc.toNat 0 + 1) ∧
      (4032 < data.length ∨ 2 ^ k.toNat ≤ (count - rel).toNat → arrives (.send ri job data) = .next s)) ∧
    arrives .other = .next { s with netDropped := s.netDropped + 1 })

/-! ### The firmware mailbox, start and stop, registers -/

/-- 16 R366, Table 16-3: while the part is not started every command but 11 ends with STATUS 3 and no effect; started, each command
has its effect with STATUS 0, or ends with STATUS 2 on a bad operand and 1 where the record or the condition is refused. A command
that is written while another is in progress is ignored and sets REJ, as does a CMD write that names no command. -/
def Obligations.Mailbox : Prop :=
  ∀ (rec va : DWord) (c : BitVec 16) (cores : List (BitVec 8)) (part : BitVec 6) (margin writable sigOk : Bool) (parts : List (BitVec 6))
    (h : BitVec 5) (owner : Option (BitVec 22)) (region : BitVec 20) (grants : List Grantee) (idx : BitVec 12) (reg : Registration)
    (supply : Option (BitVec 128 × DWord)) (block : BitVec 19) (code : BitVec 2) (fn : BitVec 8) (min : Word) (nonce : BitVec 256)
    (cmd : BitVec 16) (s : State),
    let n := c.toNat
    let load : Instr := .loadContext rec
    let move : Instr := .moveCores cores part margin
    let lend : Instr := .lendList part parts
    let bind : Instr := .bindHart h c
    let grant : Instr := .grantList owner region grants
    let register : Instr := .registration c idx reg
    let answer : Instr := .residenceAnswer c va supply
    let seal_ : Instr := .sealRegion block code writable
    let assign : Instr := .assignFunction fn c
    let raise : Instr := .raiseSecurityFloor min sigOk
    let attest : Instr := .attest nonce
    let commands : List (Nat × Instr) := [(1, load), (2, .resume c), (3, .killCtx c), (4, move), (5, lend), (6, bind), (7, grant),
      (8, register), (9, answer), (10, seal_), (11, attest), (12, .readCounters c), (13, assign), (14, raise)]
    let taken := fun (i : Instr) => ∀ x ∈ commands, x.2 = i → s.mbBusy = true → s.mbCmd = x.1
    let ends := fun (i : Instr) st => taken i → exec i s = .next { s with mbBusy := false, mbStatus := st }
    let does := fun (i : Instr) (p : State → Prop) => taken i → ∃ t, exec i s = .next t ∧ t.mbBusy = false ∧ t.mbStatus = 0 ∧ p t
    let b := readN s.hostMem rec.toNat 4096
    let id := fieldOf b 0 2
    let loaded := ctxLoaded s n
    let room := (s.ctx n).errHeld = [] ∧ ((s.ctx n).errHead - (s.ctx n).errTail).toNat < 2 ^ (s.ctx n).errSize ∧
      ((s.ctx n).tripped = true → allCool s = true)
    (∀ x ∈ commands, s.mbBusy = true → s.mbCmd ≠ x.1 → exec x.2 s = .next { s with mbRej := true }) ∧
    (s.phase ≠ 2 → ∀ i ∈ [load, .resume c, .killCtx c, move, lend, bind, grant, register, answer, seal_, .readCounters c, assign, raise],
      ends i 3) ∧
    (s.phase = 2 →
      (rec.toNat % 4096 = 0 → mget s.ctxs id = none → recordOk b = true → does load fun t => (mget t.ctxs id).isSome ∧
        (t.ctx id).ptroot = BitVec.ofNat 64 (fieldOf b 8 8) ∧ (t.ctx id).ntroot = BitVec.ofNat 64 (fieldOf b 0x18 8) ∧
        (t.ctx id).hentry = fieldOf b 0x28 8 ∧ (t.ctx id).ctrtab = BitVec.ofNat 64 (fieldOf b 0x30 8)) ∧
      (rec.toNat % 4096 = 0 → mget s.ctxs id = none → recordOk b = false → ends load 1) ∧
      (rec.toNat % 4096 ≠ 0 ∨ (mget s.ctxs id).isSome → ends load 2) ∧
      ((mget s.ctxs n).isSome → (s.ctx n).state = .halted →
        (room → does (.resume c) fun t => (t.ctx n) = { s.ctx n with state := .runnable, tripped := false } ∧
          ∀ d, d ≠ n → mget t.ctxs d = mget s.ctxs d) ∧
        (¬room → ends (.resume c) 1)) ∧
      (mget s.ctxs n = none ∨ (s.ctx n).state ≠ .halted → ends (.resume c) 2) ∧
      (loaded = true → does (.killCtx c) fun t => (t.ctx n).state = .killing ∧ ∀ a ∈ t.accesses, (s.group a.g).ctx ≠ n) ∧
      (loaded = false → ends (.killCtx c) 2) ∧
      ((∀ x ∈ cores, x.toNat < 192) → does move fun t => ∀ x ∈ cores, (x.toNat, part.toNat, margin, s.nextId) ∈ t.partMoves) ∧
      ((∃ x ∈ cores, 192 ≤ x.toNat) → ends move 2) ∧
      (does lend fun t => (mgetD t.parts part.toNat {}).lend = parts.map (·.toNat)) ∧
      (c = 0 ∨ loaded = true → (∀ j ∈ s.joins, j.sender ≠ .hart h.toNat) → does bind fun t =>
        (t.hart h.toNat) = { s.hart h.toNat with bound := if c = 0 then none else some n }) ∧
      (c ≠ 0 → loaded = false → ends bind 2) ∧
      (grants.length ≤ 16 →
        (owner = none → region.toNat < 3072 → does grant fun t => mget t.peerGrants region.toNat = some grants) ∧
        (∀ d, owner = some d → region.toNat < 24576 → does grant fun t => mget (t.remote (.node d)).grants region.toNat = some grants)) ∧
      (16 < grants.length → ends grant 2) ∧
      (loaded = true → (∀ tag base k cc x y, reg = .ring tag base k cc x y → k.toNat ≤ 12) → does register fun t =>
        mget (t.ctx n).regs idx.toNat = match reg with
          | .none => none
          | .region tag base len r w cc => some (.region tag base len r w cc)
          | .ring tag base k cc _ _ => some (.ring tag base k cc 0 0)) ∧
      (loaded = false → ends register 2 ∧ ends (.readCounters c) 2 ∧ ends assign 2) ∧
      (∀ m, (s.moves.find? fun m => m.ctx == n && m.va == va.toNat - va.toNat % 4096 && !m.toHost && m.ended.isNone && !m.started &&
          m.entry.isNone) = some m → does answer fun t => t.moves = s.moves.map fun y => if y.id = m.id then
            (match supply with
             | some e => { y with entry := some e.1, src := e.2.toNat }
             | none => { y with refused := true, ended := some s.ns }) else y) ∧
      ((∀ m ∈ s.moves, ¬(m.ctx = n ∧ m.va = va.toNat - va.toNat % 4096 ∧ m.toHost = false ∧ m.ended = none ∧ m.started = false ∧
          m.entry = none)) → ends answer 2) ∧
      (code ≠ 3 → (code = 2 → (s.sealMap.filter fun x => x.2 == 2 && x.1 != block.toNat).length < 49152) → block.toNat < 393216 → does seal_ fun t => mgetD t.sealMap block.toNat 0 = code.toNat ∧
        (block.toNat ∈ t.hostWritable ↔ writable = true) ∧ ∀ r, r ≠ block.toNat → mgetD t.sealMap r 0 = mgetD s.sealMap r 0) ∧
      (code = 3 ∨ 393216 ≤ block.toNat ∨
        (code = 2 ∧ 49152 ≤ (s.sealMap.filter fun x => x.2 == 2 && x.1 != block.toNat).length) → ends seal_ 2) ∧
      (loaded = true → does (.readCounters c) fun t =>
        t.mbReply = (List.range 64).flatMap fun i => toBytes 8 (mgetD (s.ctx n).cc i 0)) ∧
      (loaded = true → fn ≠ 0 → (mgetD s.vfs fn.toNat {}).tearing = none → (mgetD s.vfs fn.toNat {}).ctx = none → (s.ctx n).fn = none →
        does assign fun t => (t.ctx n).fn = some fn.toNat ∧ (mgetD t.vfs fn.toNat {}).ctx = some n) ∧
      (sigOk = true → s.fusedMin < min.toNat → does raise fun t => t.fusedMin = min.toNat) ∧
      (sigOk = false ∨ min.toNat ≤ s.fusedMin → ends raise 2)) ∧
    (does attest fun t => t.mbReply.length = 410 ∧ t.mbReply.take 32 = toBytes 32 nonce.toNat) ∧
    (s.mbBusy = true ∨ cmd = 0 ∨ 14 < cmd.toNat → exec (.mailboxBadCmd cmd) s = .next { s with mbRej := true })

/-- 16 R371 to R374: a start command in PHASE 1 answers 2 and in PHASE 2 answers 1; a cold start that fails no step reaches PHASE 2 with
RESULT 0, a zero clock, empty local memory and no cached translation; a warm start after a cold one keeps memory and clock, and
else is a cold start; a failing step leaves PHASE 3 with its code and the links Down: 0x11 for an image whose signature fails, 0x12 for
one below the fused minimum (R375). Stop kills every context and reaches PHASE 0
with RESULT 3. Power-on leaves no context, group, core or hart and empty
local memory; fuses, host memory and other devices stay. -/
def Obligations.StartAndStop : Prop :=
  ∀ (bad : List (BitVec 5)) (fail : Option (BitVec 8)) (rt : BitVec 12) (s : State),
    let cold : Instr := .coldStart fail bad
    let warm : Instr := .warmStart fail bad rt
    let clean := fun (t : State) => (∀ x ∈ t.cores, x.2.tlb = []) ∧ ∀ x ∈ t.dies, x.2.tlb = [] ∧ x.2.nested = [] ∧ x.2.names = []
    let signed := ∀ f ∈ s.firmware, f.valid = true
    let recent := ∀ f ∈ s.firmware, s.fusedMin ≤ f.version
    let fails := fun (code : Nat) => ∃ t, exec cold s = .next t ∧ t.phase = 3 ∧
        t.result = code ∧ t.coldDone = s.coldDone ∧ ∀ x ∈ t.links, x.2.state = 0
    (∀ i ∈ [cold, warm], (s.phase = 1 → exec i s = .next { s with result := 2 }) ∧ (s.phase = 2 → exec i s = .next { s with result := 1 })) ∧
    (s.phase ≠ 1 → s.phase ≠ 2 →
      (fail = none → signed → recent →
        (∃ t, exec cold s = .next t ∧ t.phase = 2 ∧ t.result = 0 ∧ t.coldDone = true ∧ t.clock = 0 ∧ t.hbm = [] ∧ clean t) ∧
        (s.phase = 0 → s.coldDone = true → ∃ t, exec warm s = .next t ∧ t.phase = 2 ∧ t.result = 0 ∧ t.clock = s.clock ∧
          t.hbm = s.hbm ∧ t.retrain = rt ∧ clean t)) ∧
      (s.phase = 3 ∨ s.coldDone = false → exec warm s = exec cold s) ∧
      (∀ code step, fail = some code → failStep true code.toNat = some step → signed → recent → fails code.toNat) ∧
      (fail ≠ some 0x10 → ¬signed → fails 0x11) ∧
      (fail ≠ some 0x10 → fail ≠ some 0x11 → signed → ¬recent → fails 0x12)) ∧
    (s.phase = 1 → exec .stop s = .next { s with result := 2 }) ∧
    (s.phase ≠ 1 → (s.ctxs.map (·.1)).Pairwise (· < ·) → ∃ t, exec .stop s = .next t ∧ t.phase = 0 ∧ t.result = 3 ∧ clean t ∧
      ∀ x ∈ t.ctxs, x.2.state = .killing) ∧
    (∃ t, exec .powerOn s = .next t ∧ t.phase = 0 ∧ t.ctxs = [] ∧ t.groups = [] ∧ t.cores = [] ∧ t.hbm = [] ∧ t.harts = [] ∧
      t.fusedMin = s.fusedMin ∧ t.hostMem = s.hostMem ∧ t.remotes = s.remotes)

/-- 10 R195, Table 10-3, 14 Table 14-16, R329, 15 R342, 16 R365: what a write of the host's registers does (a doorbell out of
range stops its queue at the end of the clock: the model's choice, log 107; a context without a function has no doorbell page), and a
host access to local memory outside counter tables and doorbell pages: where the seal map permits it a write stores its bytes and nothing else changes as an
engine sees it, else it is dropped and recorded; a read has the bytes, or data poison. In PHASE 3 a write of these is ignored. -/
def Obligations.HostRegisters : Prop :=
  ∀ (c : BitVec 16) (q : BitVec 6) (v : Word) (x : DWord) (l : BitVec 5) (i : BitVec 2) (k : BitVec 12) (w : Width) (d : BitVec 128) (s : State),
    let n := c.toNat
    let y := s.queue n q.toNat
    let queue := fun (i : Instr) (p : Queue → Prop) => ∃ t, exec i s = .next t ∧ p (t.queue n q.toNat)
    let ring := 2 ^ (y.logsz + 4)
    let a := x.toNat
    let allowed_ := fun p => (sealCode s p ≠ 1 ∧ sealCode s p ≠ 2) ∨ p / 2 ^ 21 ∈ s.hostWritable
    let reg := fun (r : HostReg) => exec (.registerWrite r x) s
    (paged s n = false → ∀ i' ∈ [Instr.doorbell c q v, .svcval c x, .svctail c v, .errtail c v, .registerWrite (.svcIdx c) x], exec i' s = .next s) ∧
    ((mget s.ctxs n).isSome → paged s n = true →
      (y.bell = none →
        (y.state = 0 ∨ y.state = 4 → queue (.doorbell c q v) fun z => z = { y with wridx := v }) ∧
        (y.state ≠ 0 → y.state ≠ 4 →
          ((v - y.rdidx).toNat ≤ ring → queue (.doorbell c q v) fun z =>
            z = { y with wridx := v, state := if v = y.rdidx then 1 else if y.state = 3 then 3 else 2 }) ∧
          (ring < (v - y.rdidx).toNat → queue (.doorbell c q v) fun z => z = { y with bell := some (v, none) }))) ∧
      (∀ bad later, y.bell = some (bad, later) → queue (.doorbell c q v) fun z => z = { y with bell := some (bad, some v) }) ∧
      (∀ g w dst id u, (s.ctx n).svcWait = [(g, w, dst, id)] → (s.ctx n).svcIdx.toNat = id → s.hasThread g (u, w) →
        (s.thread g w u).st = .held → (s.thread g w u).hold = .svc id → (s.thread g w u).hf = false →
        ∃ t, exec (.svcval c x) s = .next t ∧ (t.ctx n).svcWait = [] ∧ mgetD (t.wave g w).sr dst 0 = x.truncate 32 ∧
          mgetD (t.wave g w).sr (dst + 1) 0 = (x >>> 32).truncate 32 ∧ (t.thread g w u).st = .ready ∧
          (t.thread g w u).pc = (s.thread g w u).pc + 12) ∧
      (∃ t, exec (.svctail c v) s = .next t ∧ t.ctx n = { s.ctx n with svcTail := v }) ∧
      (∃ t, exec (.errtail c v) s = .next t ∧ (t.ctx n).errTail = v) ∧
      (∃ t, reg (.svcIdx c) = .next t ∧ t.ctx n = { s.ctx n with svcIdx := x.truncate 32 })) ∧
    ((mget s.ctxs n).isSome →
      (∀ bad later, y.bell = some (bad, later) →
        let z := (settleBell s n q.toNat).queue n q.toNat
        (y.state = 0 → z = { y with bell := none, wridx := later.getD bad }) ∧
        (y.state ≠ 0 → y.state ≠ 4 → z.state = 4 ∧ z.err = 2 ∧ z.wridx = later.getD y.wridx ∧ z.bell = none)) ∧
      (y.en = false → y.state = 0 →
        (y.base.toNat % 64 = 0 → y.logsz ≤ 12 →
          ((y.wridx - y.rdidx).toNat ≤ ring → queue (.queueEnable c q) fun z =>
            z = { y with en := true, state := if y.wridx = y.rdidx then 1 else 2 }) ∧
          (ring < (y.wridx - y.rdidx).toNat → queue (.queueEnable c q) fun z => z.state = 4 ∧ z.err = 2)) ∧
        (y.base.toNat % 64 ≠ 0 ∨ 12 < y.logsz → queue (.queueEnable c q) fun z => z.state = 4 ∧ z.err = 6)) ∧
      (y.en = true → queue (.queueDisable c q) fun z =>
        z = { y with en := false, state := 0, err := if y.state = 4 then 0 else y.err })) ∧
    (s.phase ≠ 3 → ∃ t, exec (.linkEnable l) s = .next t ∧ (t.link l.toNat).en = true ∧ (t.link l.toNat).rply = 0 ∧
      (t.link l.toNat).state = if (s.link l.toNat).state = 0 then 1 else (s.link l.toNat).state) ∧
    (s.phase ≠ 3 → ∃ t, exec (.linkDisable l) s = .next t ∧ (t.link l.toNat).en = false ∧ (t.link l.toNat).state = 0) ∧
    (s.phase = 3 → (∀ r, reg r = .next s) ∧ exec (.linkEnable l) s = .next s ∧ exec (.linkDisable l) s = .next s ∧
      ∀ e, exec (.hostMemoryAccess x w e) s = .next s) ∧
    (s.phase ≠ 3 →
      reg (.mailboxArg i) = .next { s with mbArgs := s.mbArgs.set i.toNat x } ∧
      reg .mailboxRej = .next (if x.getLsbD 62 then { s with mbRej := false } else s) ∧
      (∃ t, reg (.notifyRoute k) = .next t ∧ (mgetD t.notifies k.toNat {}).route = x.truncate 32 &&& 0x807F07FF) ∧
      ((mget s.ctxs n).isSome →
        (∃ t, reg (.queueBase c q) = .next t ∧ t.queue n q.toNat = if y.en then y else { y with base := x }) ∧
        (∃ t, reg (.queueLogsz c q) = .next t ∧ t.queue n q.toNat = if y.en then y else { y with logsz := a % 16 })) ∧
      (∃ t, reg (.linkMode l) = .next t ∧ (t.link l.toNat).mode = if (s.link l.toNat).en then (s.link l.toNat).mode else x.getLsbD 0) ∧
      (∃ t, reg (.monThresholds i) = .next t ∧ (t.die i.toNat).pmin = a % 256 ∧ (t.die i.toNat).floor = a / 256 % 256 ∧
        (t.die i.toNat).ttrip = a / 2 ^ 16 % 256 ∧ (t.die i.toNat).twarn = a / 2 ^ 24 % 256) ∧
      reg .reserved = .next s) ∧
    (s.phase ≠ 3 → a + w.bytes ≤ hbmSize →
      (allowed_ a → allowed_ (a + w.bytes - 1) → poisoned s .hbm a w.bytes = none → exec (.hostMemoryAccess x w none) s =
        .next { s with hostData := (List.range w.bytes).map fun i => viewByte s .hbm (a + i), hostPoison := false }) ∧
      (¬(allowed_ a ∧ allowed_ (a + w.bytes - 1)) ∨ (poisoned s .hbm a w.bytes).isSome → exec (.hostMemoryAccess x w none) s =
        .next { s with hostData := [], hostPoison := true }) ∧
      (allowed_ a → allowed_ (a + w.bytes - 1) → a % 32 + w.bytes ≤ 32 → ctrPhys s .hbm a = none → doorAt s .hbm a = none → ∃ t, exec (.hostMemoryAccess x w (some d)) s = .next t ∧
        ∀ p, viewByte t .hbm p = if a ≤ p ∧ p < a + w.bytes then BitVec.ofNat 8 (d.toNat / 256 ^ (p - a)) else viewByte s .hbm p) ∧
      (¬(allowed_ a ∧ allowed_ (a + w.bytes - 1)) →
        exec (.hostMemoryAccess x w (some d)) s = .next { s with mgmtLog := s.mgmtLog ++ [x] })) ∧
    (s.phase ≠ 3 → hbmSize < a + w.bytes → ∀ e, exec (.hostMemoryAccess x w e) s = .fault (.absentMemory a))

/-! ### Launch, placement, pages -/

/-- 10 R195 to R198, R206 to R208, 11 R217, R220: a ready queue's head packet is consumed, blocks the queue, or stops it with an error; the
one waiting group of a die goes to the local queue of its core; the head of a local queue becomes resident with every thread Ready
at the kernel's entry; an idle core takes a group of the longest queue; a group's completion event is published once. -/
def Obligations.Scheduling : Prop :=
  (∀ (c : BitVec 16) (qn : BitVec 6) (p : List Byte) (s : State), (mget s.ctxs c.toNat).isSome → (s.ctx c.toNat).state ≠ .killing →
    let q := s.queue c.toNat qn.toNat
    let dep := depMet s c.toNat (pktField p 8 8) (pktField p 0x10 8)
    let clear := pktBad p = false ∧ dep = some true ∧ (bit (pktField p 1 1) 0 = true → q.pending = [])
    let leaves := fun (f : Queue → Prop) => ∃ t, exec (.queueHeadExamine c qn) s = .next t ∧ f (t.queue c.toNat qn.toNat)
    q.state = 2 → schedRead s c.toNat q.headVa 64 = .ok p →
      (pktBad p = true → leaves fun z => z.state = 4 ∧ z.err = 1 ∧ z.rdidx = q.rdidx) ∧
      (pktBad p = false → dep = none → leaves fun z => z.state = 4 ∧ z.err = 5 ∧ z.rdidx = q.rdidx) ∧
      (pktBad p = false → dep = some false → leaves fun z => z = { q with state := 3 }) ∧
      (clear → pktField p 0 1 ≠ 1 → pktField p 0 1 ≠ 2 → leaves fun z =>
        z = { q with rdidx := q.rdidx + 1, state := if q.wridx = q.rdidx + 1 then 1 else 2 }) ∧
      (∀ e, clear → pktField p 0 1 = 1 → acceptLaunch s c.toNat q.prio (pktField p 0x18 8) = .rej e → leaves fun z =>
        z.state = 4 ∧ z.err = e ∧ z.rdidx = q.rdidx)) ∧
  (∀ (die : BitVec 2) (id i core : Nat) (l : Launch) (s : State), mget s.launches id = some l → ranked s die.toNat = [.launch id i] →
    let x := waitingGroup s die.toNat (.launch id i)
    numberFor s x = (some x.num, .free) → (freeArea s x.ctx).isSome →
    placeCore s die.toNat x.ctx (fun k => decide ((s.core k).localq.length < 4)) = some core →
    ∃ t, exec (.groupPlace die) s = .next t ∧ (t.core core).localq = (s.core core).localq ++ [s.nextId] ∧
      t.group s.nextId = { l.proto with index := i, num := l.proto.gbase + i, die := die.toNat, place := .queued, core := core } ∧
      (mget t.launches id).map (·.next) = some (l.next + 1)) ∧
  (∀ (core : BitVec 8) (g n area : Nat) (rest : List Nat) (bank : Place) (s : State), (s.core core.toNat).localq = g :: rest →
    let x := s.group g
    numberFor s x = (some n, .free) → freeArea s x.ctx = some area → bankOf s core.toNat x.ctx = some bank →
    fitsNow s core.toNat x.ctx x.hdr (wavesFor x.gsize) = true → coreTakes s core.toNat x.ctx = true →
    (∀ y ∈ s.groups, y.2.place = .dead → y.2.num ≠ n) →
    ∃ t, exec (.groupReside core) s = .next t ∧ (t.core core.toNat).localq = rest ∧ (t.group g).place = bank ∧ (t.group g).num = n ∧
      (t.group g).core = core.toNat ∧ (t.group g).saveIdx = some area ∧ (t.group g).waves.length = (x.gsize + 31) / 32 ∧
      ∀ m, t.hasThread g m → (t.thread g m.2 m.1).st = .ready ∧ (t.thread g m.2 m.1).pc = x.entry) ∧
  (∀ (core : BitVec 8) (v g : Nat) (s : State), (s.core core.toNat).localq = [] → v ≠ core.toNat → (mget s.groups g).isSome →
    victimOf s core.toNat (core.toNat / 48) true = some (v, g) →
    ∃ t, exec (.groupSteal core) s = .next t ∧ (t.core core.toNat).localq = [g] ∧
      (t.core v).localq = (s.core v).localq.filter (· != g) ∧ t.group g = { s.group g with core := core.toNat }) ∧
  (∀ (g : Nat) (s : State), (s.group g).due = true → (s.group g).published = false →
    (∀ a ∈ s.accesses, a.id ∈ (s.group g).covers → ∀ o ∈ a.lanes, o.got.isSome) →
    ∃ t, exec (.completionEvent g) s = .next t ∧ (t.group g).published = true) ∧
  (∀ (g : Nat) (s : State), (s.group g).published = true → exec (.completionEvent g) s = .next s)

/-- 12 R242 to R245: a host request for a page joins the requests; a move that holds the page lock marks the entry as migrating, and its
end writes the new entry and starts the minimum residency, after which the page is free again. A resolved fault lets its load go on
behind the instruction and frees the log entry; a refused page traps with the log entry. A running group that migrates waits for
its accesses (13 R271) and stands at its new core afterwards. -/
def Obligations.PagesAndMigration : Prop :=
  (∀ (c : BitVec 16) (va : DWord) (s : State), ∃ m, exec (.hostPageRequest c va) s =
      .next { s with nextId := s.nextId + 1, moves := s.moves ++ [m] } ∧
    m.id = s.nextId ∧ m.ctx = c.toNat ∧ m.va = va.toNat - va.toNat % 4096 ∧ m.toHost = true ∧ m.started = false) ∧
  (∀ (m : PageMove) (at_ : Nat) (s : State), (s.moves.find? fun x => x.id == m.id) = some m → walkEnd s (s.ctx m.ctx) m.va = some at_ →
    at_ % 16 = 0 →
    (m.started = false → m.ended = none → m.toHost = true → lockFree s m = true →
      (pteAt s at_).v = true → (pteAt s at_).leaf = true → (pteAt s at_).kind = 0 →
      ∃ t, exec (.migrationStart m.id) s = .next t ∧ (pteAt t at_).v = false ∧ (pteAt t at_).npk = 2 ∧
        ∃ y, (t.moves.find? fun x => x.id == m.id) = some y ∧ y.started = true ∧ y.old = (pteAt s at_).raw) ∧
    (m.started = true → m.ended = none → m.toHost = false → ∀ e, m.entry = some e →
      ∃ t, exec (.migrationComplete m.id) s = .next t ∧ (pteAt t at_).raw = e.toNat ∧
        ∃ y, (t.moves.find? fun x => x.id == m.id) = some y ∧ y.ended = some s.ns)) ∧
  (∀ (m : PageMove) (e : Nat) (s : State), (s.moves.find? fun x => x.id == m.id) = some m → m.started = true → m.ended = some e →
    exec (.residencyExpiry m.id) s = .next (if e + 50000 ≤ s.ns then { s with moves := s.moves.filter fun x => x.id != m.id } else s)) ∧
  (∀ (g w e : Nat) (le : LogEntry) (i : Instr) (a : Access) (o p : LaneOp) (tr : Trans) (sx : Bool) (s : State),
    let u := serveEntry s g e le
    mget (s.wave g w).log e = some le → le.ops = [] → u.migrating = [] → decode le.word = .ok i → (∀ k b t, i ≠ .jtab k b t) →
    (∀ k x y z v ack tl win, i ≠ .ldto k x y z v ack tl win) → (u.group g).place = .active →
    (u.accesses.find? fun x => x.id == le.op) = some a → a.g = g → a.w = w → a.uni = false → a.kind = .load sx → a.lanes = [o] →
    o.stage = .parked e → le.addrs = [(o.lane, o.addr)] → le.late = false → le.mask = 1#32 <<< o.lane → o.lane < 32 →
    checkLane u g (o.lane, w) (.load sx) a.width o = .ok p (some tr) → p.lane = o.lane → p.kind = 0 → p.cls ≠ 0 →
    s.hasThread g (o.lane, w) → mget (u.wave g w).log e = some le → (u.thread g w o.lane).st = .faultParked →
    (∀ x ∈ u.accesses, x ≠ a → x.g ≠ g ∨ x.w ≠ w) →
    ∃ t, exec (.faultResolved g w e) s = .next t ∧ mget (t.wave g w).log e = none ∧ (t.thread g w o.lane).st = .ready ∧
      (t.thread g w o.lane).pc = le.pc + 12) ∧
  (∀ (g w e l va : Nat) (le : LogEntry) (a : Access) (o : LaneOp) (s : State), mget (s.wave g w).log e = some le → w < 32 →
    le.ops = [] → le.late = false → (∀ x ∈ s.accesses, x.id = le.op → x = a) →
    refusedLanes s g w e le = [(l, va)] → (∀ k b t, decode le.word ≠ .ok (.jtab k b t)) → (s.group g).place = .active → (s.accesses.find? fun x => x.id == le.op) = some a →
    a.uni = false → a.g = g → a.w = w → o ∈ a.lanes → o.lane = l → o.stage = .parked e → (∀ x ∈ a.lanes, x ≠ o → x.lane ≠ l) →
    s.hasThread g (l, w) → (s.thread g w l).st = .faultParked → (s.wave g w).handler = false → (s.ctx (s.group g).ctx).hentry ≠ 0 →
    ∃ t, exec (.faultResolutionFail g w e) s = .next t ∧ (t.wave g w).handler = true ∧ (t.wave g w).frLog = some e ∧
      (t.thread g w l).pc = (s.ctx (s.group g).ctx).hentry ∧ (t.thread g w l).savedPc = le.pc) ∧
  (∀ (g : Nat) (core : BitVec 8) (s : State),
    let x := s.group g
    (x.place = .migrating → openAccesses s g = true → exec (.groupMigrationComplete g) s = .next s) ∧
    (x.place = .active → core.toNat ≠ x.core → (partCores s (s.ctx x.ctx).part).contains core.toNat = true →
      bankOf s core.toNat x.ctx = some .active → coreOpen s core.toNat x.ctx = true → fitsNow s core.toNat x.ctx x.hdr x.waves.length = true →
      core.toNat / 48 = x.die ∨ boundToDie s x = false →
      ∃ t, exec (.groupMigration g core) s = .next t ∧ (t.group g).place = .migrating ∧ (t.group g).moveTo = some core.toNat) ∧
    (x.place = .migrating → x.moveTo = some core.toNat → bankOf s core.toNat x.ctx = some .active → s.nameOps = [] →
      openAccesses s g = false → fitsNow s core.toNat x.ctx x.hdr x.waves.length = true →
      ∃ t, exec (.groupMigrationComplete g) s = .next t ∧ (t.group g).place = .active ∧ (t.group g).core = core.toNat ∧
        (t.group g).moveTo = none))

/-! ### The fabric -/

/-- 12 R257, R259, 15 R351: a request reaches its owner in a packet; the owner of a third-party read sends the bytes of the source; the recipient's window decides with
the first packet, takes the packets in any order and advances its timeline behind the last (21 R401), or counts them as dropped under
the code of the check that fails, and 4 where nobody takes them; a recipient on another device answers with a code of its own (log 1), and data that cannot reach it fail (R347); the report ends the read and
completes its number. -/
def Obligations.ThirdPartyReads : Prop :=
  ∀ (o : LdtoOp) (s : State), (s.ldtos.find? fun x => x.id == o.id) = some o →
    let stage := fun (st : LdtoStage) => s.ldtos.map fun x => if x.id = o.id then { x with stage := st } else x
    (∀ bs, o.stage = .owner → ownerRuns s o.ctx (s.group o.g).core (spansOf o.src.toNat o.n) = .data bs →
      ∃ t, exec (.ownerRead o.id) s = .next t ∧
        t.ldtos = s.ldtos.map fun x => if x.id = o.id then { x with stage := .delivery bs, sent := s.ns } else x) ∧
    (∀ code sub, o.stage = .owner → ownerRuns s o.ctx (s.group o.g).core (spansOf o.src.toNat o.n) = .refuse code sub →
      ∃ t, exec (.ownerRead o.id) s = .next t ∧ ∀ x ∈ t.ldtos, x.id ≠ o.id) ∧
    (∀ bs d, o.stage = .delivery bs → o.far = some d →
      let lost := tooLate s o = true ∨ chooseStreet s (.peer (BitVec.ofNat 22 d)) = none
      (lost → exec (.deliveryArrival o.id) s = .next { s with ldtos := stage (.report 0x15) }) ∧
      (¬lost → ∃ t c, exec (.deliveryArrival o.id) s = .next t ∧ c ≤ 4 ∧ t.ldtos = stage (.report c))) ∧
    (∀ p l pa, (s.packets.find? fun x => x.id == p.id) = some p → p.parts = [(l, pa, .third o.id)] → p.lost = false →
      s.ns ≤ p.sent + 500000 → streetBehind s p = false → heldGen (s.remote p.dest) p.fn ≤ p.gen → allowed s p false = true →
      ((rstream (s.remote p.dest) p.g p.w).performed.find? fun y => y.1 == p.seq.toNat) = none →
      ∃ t, exec (.remoteRequestArrival p.id) s = .next t ∧ t.ldtos = stage .owner) ∧
    (∀ bs, o.stage = .delivery bs → o.far = none → recipient s o = none → exec (.deliveryArrival o.id) s = .next { s with ldtos := stage (.report 4) }) ∧
    (∀ bs r, o.stage = .delivery bs → o.far = none → recipient s o = some r → (mget s.groups r).isSome → (s.group r).place = .active →
      (s.win r o.win).bar = none →
      let y := s.win r o.win
      let open_ := y.opened = true
      let lets := o.ctx = (s.group r).ctx ∨ y.acc.getLsbD 31 = true ∨ (y.acc.getLsbD 30 = true ∧ y.acc.toNat % 65536 = o.ctx)
      let drops := fun code => ∃ t, exec (.deliveryArrival o.id) s = .next t ∧ t.ldtos = stage (.report code) ∧
        (t.win r o.win).drop = min (2 ^ 32 - 1) (y.drop + 1) ∧ (t.group r).scratch = (s.group r).scratch
      let placed := fun (t : State) (j : Nat) => ∀ a, memRead (t.group r).scratch a =
        if y.base + o.off + 128 * j ≤ a ∧ a < y.base + o.off + 128 * j + ((bs.drop (128 * j)).take 128).length
        then bs.getD (a - (y.base + o.off)) 0 else memRead (s.group r).scratch a
      (open_ → lets → o.off + o.n ≤ y.len → bs.length ≤ 128 → ∃ t, exec (.deliveryArrival o.id) s = .next t ∧ t.ldtos = stage (.report 0) ∧
        (t.tl r y.tl).value = (s.tl r y.tl).value + 1 ∧ placed t 0) ∧
      (open_ → lets → o.off + o.n ≤ y.len → 128 < bs.length → ∃ t j, exec (.deliveryArrival o.id) s = .next t ∧ j ∈ packetsOf bs ∧
        t.ldtos = stage (.placing bs ((packetsOf bs).filter (· != j))) ∧ (t.tl r y.tl).value = (s.tl r y.tl).value ∧ placed t j) ∧
      (¬open_ → drops 1) ∧ (open_ → ¬lets → drops 3) ∧ (open_ → lets → y.len < o.off + o.n → drops 2)) ∧
    (∀ bs j r, o.stage = .placing bs [j] → recipient s o = some r → (mget s.groups r).isSome → (s.group r).place = .active →
      (s.win r o.win).bar = none →
      ∃ t, exec (.deliveryArrival o.id) s = .next t ∧ t.ldtos = stage (.report 0) ∧
        (t.tl r (s.win r o.win).tl).value = (s.tl r (s.win r o.win).tl).value + 1) ∧
    (∀ code, o.stage = .report code → ∃ t, exec (.deliveryReport o.id) s = .next t ∧ (∀ x ∈ t.ldtos, x.id ≠ o.id) ∧
      ∀ k, (mget s.groups o.g).isSome → (s.group o.g).place = .active → o.ack = some (k, (s.tl o.g k).value + 1) → (s.tl o.g k).done = [] →
        (t.tl o.g k).value = (s.tl o.g k).value + 1)

/-- 15 R334 to R350: a request that reaches a node or peer, in the order of its street, with its generation, its allowance and its grant
performs once there, and is refused without one; an answer ends it at its source, unless it is older than 500 µs; it is resent on the
street that R347 gives, once that has a slot, while its 4 ms last, and fails afterwards or with no usable street left. The
states of a link follow training, retraining and their timeouts, the third retrain within 1 s fails it; a bad tag is counted, and the
eighth replay of a group retrains the link. A torn-down function stops its context, raises
its generation, which the destinations learn, and is free after 1 ms. -/
def Obligations.Fabric : Prop :=
  (∀ (p : Packet) (l pa : Nat) (act : PktAct) (s : State), (s.packets.find? fun x => x.id == p.id) = some p →
    let r := s.remote p.dest
    let x := rstream r p.g p.w
    let answer := fun (a : PktAns) => s.packets.map fun q =>
      if q.id = p.id then { q with reached := true, answer := some a, doneAt := some s.clock, replied := s.ns } else q
    (p.lost = false → s.ns ≤ p.sent + 500000 → streetBehind s p = false → countsLater s p = false → p.parts = [(l, pa, act)] → (∀ op, act ≠ .name op ∧ act ≠ .third op) → heldGen r p.fn ≤ p.gen →
      allowed s p false = true → (x.performed.find? fun y => y.1 == p.seq.toNat) = none → p.after = none → x.held = [] → p.flag = none →
      (granted r.grants s.device p.fn p.gen pa (actWrites act) = true → ∃ t, exec (.remoteRequestArrival p.id) s = .next t ∧
        (t.remote p.dest).mem = (performAct r.mem pa act).1 ∧ t.packets = answer (.data [(l, (performAct r.mem pa act).2)])) ∧
      (granted r.grants s.device p.fn p.gen pa (actWrites act) = false → ∃ t, exec (.remoteRequestArrival p.id) s = .next t ∧
        (t.remote p.dest).mem = r.mem ∧ t.packets = answer .refused)) ∧
    ((p.reached = false ∧ (p.lost = true ∨ p.sent + 500000 < s.ns)) ∨ streetBehind s p = true →
      exec (.remoteRequestArrival p.id) s = .next s) ∧
    (∀ ls, p.id < s.nextId → p.answer = some (.data ls) → packetName p = none → allowed s p true = true → p.doneAt ≠ some s.clock →
      s.ns ≤ p.replied + 500000 → ∃ t, exec (.remoteAnswerArrival p.id) s = .next t ∧ ∀ q ∈ t.packets, q.id ≠ p.id) ∧
    (∀ ls, p.answer = some (.data ls) → p.doneAt ≠ some s.clock → p.replied + 500000 < s.ns → exec (.remoteAnswerArrival p.id) s =
      .next { s with packets := s.packets.map fun q => if q.id = p.id then { q with answer := none, lost := true, reached := false } else q }) ∧
    (∀ n : BitVec 2, s.ns < p.first + 4000000 → resendStreet s p = some n.toNat → hasSlot s p.dest n.toNat = true →
      p.sent + 64000 ≤ s.ns ∨ p.lost = true ∨ usable s p.dest p.street = false →
      ∃ t, exec (.resendTimeout p.id n) s = .next t ∧ ∃ q ∈ t.packets, q.id = p.id ∧ q.street = n.toNat ∧ q.sent = s.ns ∧ q.lost = false) ∧
    (p.id < s.nextId → packetName p = none → p.first + 4000000 ≤ s.ns ∨ chooseStreet s p.dest = none →
      (∀ a ∈ s.accesses, a.id = p.acc → a.traps = true → (freeEntry (s.wave a.g a.w)).isSome ∧ ∃ e, ∀ o ∈ a.lanes, o.logged = e) →
      ∃ t, exec (.requestFail p.id) s = .next t ∧ ∀ q ∈ t.packets, q.id ≠ p.id) ∧
    (p.answer = none → p.reached = false → p.sent + 500000 < s.ns → ∃ t, exec (.packetAgeDiscard p.id) s = .next t ∧
      ∃ q ∈ t.packets, q.id = p.id ∧ q.lost = true)) ∧
  (∀ (n : BitVec 5) (node : BitVec 22) (port : BitVec 7) (lq lp : BitVec 16) (salt : Word) (s : State),
    let y := s.link n.toNat
    let link := fun (i : Instr) (f : Link → Prop) => ∃ t, exec i s = .next t ∧ f (t.link n.toNat)
    (y.state = 1 → s.ns ≤ y.since + 100000000 → link (.linkTrained n node port lq lp salt) fun z =>
      z.state = 2 ∧ z.node = node.toNat ∧ z.port = port.toNat ∧ z.limReq = min lq.toNat 4096 ∧ z.limRep = min lp.toNat 4096 ∧ z.rtrn = y.rtrn) ∧
    (y.state = 3 → s.ns ≤ y.since + 10000000 → link (.linkTrained n node port lq lp salt) fun z =>
      if thirdRetrain s y then z = { y with state := 4 } else z.state = 2 ∧ z.rtrn = min 255 (y.rtrn + 1)) ∧
    (y.state = 1 → y.since + 100000000 ≤ s.ns → link (.linkTrainingTimeout n) fun z => z = { y with state := 4 }) ∧
    (y.state = 2 → link (.linkRetrain n) fun z => z.state = 3 ∧ z.since = s.ns) ∧
    (y.state = 3 → y.since + 10000000 ≤ s.ns → link (.retrainTimeout n) fun z => z = { y with state := 4 }) ∧
    (y.state = 2 → link (.flitGroupReceive n true [] none) fun z => z = { y with rxSlot := y.rxSlot + 5, replays := 0 }) ∧
    (y.state = 2 → link (.flitGroupReceive n false [] none) fun z =>
      z.replays = y.replays + 1 ∧ z.state = (if y.replays < 7 then 2 else 3) ∧ z.rply = min (2 ^ 32 - 1) (y.rply + 1) ∧ z.tagf = min (2 ^ 32 - 1) (y.tagf + 1)) ∧
    (y.state = 0 → exec (.flitGroupReceive n true [] none) s = .next s)) ∧
  (∀ (cls : BitVec 16) (street : BitVec 2) (s : State), ∃ t, exec (.streetFailureReport cls street) s = .next t ∧
    (cls.toNat, street.toNat) ∈ t.deadStreets ∧ ∀ p ∈ t.packets, routeClass p.dest = cls.toNat → p.street = street.toNat → p.lost = true) ∧
  (∀ (a : Allowance) (s : State), exec (.allowanceLapse a.id) s =
    .next { s with allowances := s.allowances.filter fun x => !(x.id == a.id && x.used + 1000000 ≤ s.ns) }) ∧
  (∀ (fn : BitVec 8) (d : Dest) (c : Nat) (s : State),
    let v := mgetD s.vfs fn.toNat {}
    v.ctx = some c → (mget s.ctxs c).isSome →
    (v.tearing = none → (s.ctx c).state = .runnable → ∃ t, exec (.vfTeardown fn) s = .next t ∧ (t.ctx c).state = .halted ∧
      mgetD t.vfs fn.toNat {} = { v with gen := v.gen + 1, tearing := some s.ns, noticed := [] }) ∧
    (∀ at_, v.tearing = some at_ →
      (∃ t, exec (.generationNotice d fn) s = .next t ∧ v.gen.toNat ≤ heldGen (t.remote d) fn.toNat ∧ d ∈ (mgetD t.vfs fn.toNat {}).noticed) ∧
      (at_ + 1000000 ≤ s.ns → ∃ t, exec (.teardownComplete fn) s = .next t ∧ (t.ctx c).fn = none ∧
        (mgetD t.vfs fn.toNat {}).tearing = none ∧ (mgetD t.vfs fn.toNat {}).ctx = none ∧
        ∀ a ∈ t.allowances, a.fn = fn.toNat → v.gen.toNat ≤ a.gen) ∧
      (s.ns < at_ + 1000000 → exec (.teardownComplete fn) s = .next s)))

/-! ### Control processor, debugging, monitors -/

/-- 14 R308 to R310, R320 to R323, 10 R209, 12 R234: the banks of a core: a context that is scheduled loads, after a spill of the one in
the shadow bank, stands there when its load is complete, swaps in 64 clocks, spills, and leaves its groups swapped; a saved group that is
restored stands in the shadow bank. Requests wait for the engines and the switch; a spill takes its turn at the end of the clock (log 106)
and ends once no operation completes into its groups (log 117). A slice that ends starts the ladder of its context, GRACE asks for a
spill, KILLT kills. Cores are lent, revoked, whose borrower swaps out at once, and moved, all cores of a move together; a split is set
on an empty core. -/
def Obligations.ControlProcessor : Prop :=
  ∀ (core : BitVec 8) (c : BitVec 16) (n : Nat) (part : BitVec 6) (units : BitVec 3) (s : State),
    let k := core.toNat
    let y := s.core k
    let x := c.toNat
    let cores := fun (i : Instr) (f : Core → Prop) => ∃ t, exec i s = .next t ∧ f (t.core k)
    let free := y.spilling = none ∧ filling s k = false ∧ y.switchEnd ≤ s.clock
    (y.waits = [] →
      (free → y.shadow = none → (mget s.ctxs x).isSome → (partCores s (s.ctx x).part).contains k = true → holdsCore y x = false →
        y.revoke = false → cores (.contextSchedule core c) fun z => z.loading = some x ∧ z.active = y.active) ∧
      (free → y.shadow = some n → n ≠ x → holdsCore y x = false → cores (.contextSchedule core c) fun z =>
        z.shadow = none ∧ z.spilling = some n ∧ z.waits = [(s.clock, .load x)]) ∧
      (y.loading = some n → y.shadow = none → groupsAt s k n isLoading = [] → cores (.contextLoadComplete core) fun z =>
        z.shadow = some n ∧ z.loading = none) ∧
      (free → cores (.bankSwap core) fun z => z.active = y.shadow ∧ z.shadow = y.active ∧ z.switchEnd = s.clock + 64) ∧
      (¬free → cores (.bankSwap core) fun z => z = { y with waits := [(s.clock, .swap)] }) ∧
      (y.spilling = some n → y.revoke = false → s.nameOps = [] → (∀ g ∈ groupsAt s k n isSpilling, areaStall s g .w = none) →
        ∃ t, exec (.spillComplete core) s = .next t ∧
        (t.core k).spilling = (if opsInto ((groupsAt s k n isSpilling).foldl swapOut s) k n then some n else none) ∧
        ∀ g ∈ groupsAt s k n isSpilling, (mget s.groups g).isSome → (t.group g).place = .swapped)) ∧
    (cores (.spillRequest core c) fun z => z = { y with waits := y.waits ++ [(s.clock, .spill x)] }) ∧
    (∀ at_, free → y.waits = [(at_, .spill x)] → y.shadow = some x → ((runWaits s k).core k).shadow = none ∧
      ((runWaits s k).core k).spilling = some x) ∧
    (∀ g, (s.group g).place = .loading → s.nameOps = [] → openAccesses s g = false → areaStall s g .r = none →
      ∃ t, exec (.groupRestoreComplete g) s = .next t ∧ (t.group g).place = .shadow) ∧
    (groupsAt s k n isHere ≠ [] →
      (∀ e, y.active = some n → mget y.slices n = some e → e ≤ s.ns → y.ladder = 0 → othersWait y n = true → cores (.sliceEnd core) fun z =>
        z.ladder = 1 ∧ z.ladderAt = s.ns ∧ z.ladderOf = n) ∧
      (y.ladder = 1 → y.ladderOf = n → y.ladderAt + 1000 * (if (s.ctx n).grace = 0 then 100 else (s.ctx n).grace) < s.ns →
        cores (.graceExpiry core) fun z => z = { y with ladder := 2, ladderAt := s.ns, waits := y.waits ++ [(s.clock, .spill n)] })) ∧
    (y.ladder = 2 → y.ladderOf = n → (mget s.ctxs n).isSome →
      y.ladderAt + 1000 * (if (s.ctx n).killt = 0 then 2000 else (s.ctx n).killt) < s.ns →
      ∃ t, exec (.killTimerExpiry core) s = .next t ∧ (t.ctx n).state = .killing) ∧
    (∀ o, ownerOf s k = some o → (mgetD s.parts o {}).margin.contains k = true → (mgetD s.parts o {}).lend.contains part.toNat = true →
      y.lentTo = none → onCoreGroups s k = [] → y.localq = [] → partWaits s part.toNat (k / 48) = true → (∀ m ∈ s.partMoves, m.1 ≠ k) →
      cores (.coreLend core part) fun z => z.lentTo = some part.toNat) ∧
    (∀ o q, ownerOf s k = some o → y.lentTo = some q → y.revoke = false → ownerNeeds s o (k / 48) = true →
      y.active = none → y.shadow = none → y.loading = none → y.spilling = none → cores (.lendRevoke core) fun z =>
        z.lentTo = none ∧ z.revoke = false ∧ z.localq = []) ∧
    (∀ o q, ownerOf s k = some o → y.lentTo = some q → y.revoke = false → ownerNeeds s o (k / 48) = true →
      free → y.active = some n → y.shadow = none → y.loading = none → cores (.lendRevoke core) fun z =>
        z.revoke = true ∧ z.active = none ∧ z.shadow = some n ∧ z.waits = [(s.clock, .spill n)]) ∧
    (∀ m id, (s.partMoves.find? fun z => z.1 == k) = some (k, part.toNat, m, id) → (∀ z ∈ s.partMoves, z.1 = k → z = (k, part.toNat, m, id)) →
      ((∀ z ∈ s.partMoves, z.2.2.2 = id → coreIdle s z.1 = true) → ∃ t, exec (.partitionMoveEffect core) s = .next t ∧
        (∀ z ∈ t.partMoves, z.2.2.2 ≠ id) ∧
        (if m then k ∈ (mgetD t.parts part.toNat {}).margin else k ∈ (mgetD t.parts part.toNat {}).cores)) ∧
      ((∃ z ∈ s.partMoves, z.2.2.2 = id ∧ coreIdle s z.1 = false) → exec (.partitionMoveEffect core) s = .next s)) ∧
    (k < 192 → onCoreGroups s k = [] → cores (.scratchpadSplit core units) fun z => z = { y with split := units.toNat }) ∧
    (onCoreGroups s k ≠ [] → exec (.scratchpadSplit core units) s = .next s)

/-- 14 R324, 16 R377 to R379: a debugger halts a Ready thread or, in all-stop mode, its group, resumes what it halted and steps a halted
thread. An evaluation of the monitors steps the clock down while a die is hot or slow and up while all are cool, between FLOOR and
27; a droop steps it down and holds it for 1 ms; a sensor at its trip threshold halts every context and drops the clock to FLOOR. A sensor
that has taken no reading reads 0 (the model's choice, log 121). -/
def Obligations.DebugAndMonitors : Prop :=
  (∀ (g w l : Nat) (c : BitVec 16) (att all : Bool) (s : State),
    let x := s.ctx (s.group g).ctx
    let y := s.thread g w l
    let same := fun (t : State) => InGroup s t g
    ((mget s.ctxs c.toNat).isSome → ∃ t, exec (.debuggerAttach c att all) s = .next t ∧
      t.ctx c.toNat = { s.ctx c.toNat with debug := att, allStop := all }) ∧
    (x.debug = false → ∀ i ∈ [Instr.debugHaltCommand g w l, .debugResume g w l, .debugStep g w l], exec i s = .next s) ∧
    (x.debug = true → s.hasThread g (l, w) →
      (x.allStop = false → y.st = .ready → ∃ t, exec (.debugHaltCommand g w l) s = .next t ∧ same t ∧
        t.thread g w l = { y with st := .halted }) ∧
      (x.allStop = true → ∃ t, exec (.debugHaltCommand g w l) s = .next t ∧ same t ∧ (t.group g).haltReq = true ∧
        (y.st = .ready → (t.thread g w l).st = .halted)) ∧
      (y.st = .halted → ∃ t, exec (.debugResume g w l) s = .next t ∧ same t ∧ t.thread g w l = { y with st := .ready, dbgStep := false }) ∧
      (y.st = .halted → ∃ t, exec (.debugStep g w l) s = .next t ∧ same t ∧ t.thread g w l = { y with st := .ready, dbgStep := true }))) ∧
  (∀ (s : State),
    let dies := (List.range 4).map s.die
    let floor := topFloor s
    let temp := fun (d : Die) (i : Nat) => mgetD d.temps i 0
    let proc := fun (d : Die) (i : Nat) => mgetD d.procs i 0
    let hot := ∃ d ∈ dies, (∃ i < 64, d.twarn ≤ temp d i) ∨ (d.pmin ≠ 0 ∧ ∃ i < 16, proc d i < d.pmin)
    let cool := ∀ d ∈ dies, (∀ i < 64, temp d i + 5 ≤ d.twarn) ∧ (d.pmin = 0 ∨ ∀ i < 16, d.pmin ≤ proc d i)
    let clocks := fun (n : Nat) => exec .monitorEvaluation s = .next { s with evalAt := s.evalAt + 1000000, clk := n }
    12 ≤ floor ∧ floor ≤ 27 ∧
    (s.evalAt ≤ s.ns → (hot → clocks (if floor < s.clk then s.clk - 1 else s.clk)) ∧
      (¬hot → cool → s.clk < 27 → s.noUp ≤ s.ns → clocks (s.clk + 1)) ∧ (¬hot → ¬cool → clocks s.clk)) ∧
    (s.ns < s.evalAt → exec .monitorEvaluation s = .next s) ∧
    (∀ die : BitVec 2, ∃ t, exec (.droopEvent die) s = .next t ∧ t.clk = (if floor < s.clk then s.clk - 1 else s.clk) ∧
      t.noUp = s.ns + 1000000 ∧ (t.die die.toNat).droops = min (2 ^ 32 - 1) ((s.die die.toNat).droops + 1)) ∧
    (∀ (die : BitVec 2) (sensor : BitVec 6),
      let d := s.die die.toNat
      let trips := max d.ttrip (d.twarn + 5) ≤ temp d sensor.toNat
      (trips → ∃ u, exec (.thermalTrip die sensor) s = .next u ∧ u.clk = min s.clk floor ∧
        ∀ c, (mget s.ctxs c).isSome → (u.ctx c).state ≠ .runnable) ∧
      (¬trips → exec (.thermalTrip die sensor) s = .next s)))

/-! ### Numbers and addresses -/

/-- 05 R73 and R75, Table 5-5: every MK8 code but NaR converts to FP16, BF16, FP32 and FP64 with the same value and no flag, in every
rounding mode, and NaR gives the canonical NaN; the sample codes have the table's values. An S8 code but 0xFF is (1 + m ÷ 8) × 2^(e − 15),
positive, and 0xFF is the NaN scale. -/
def Obligations.Formats : Prop :=
  (∀ (rm : Rnd) (sat : Bool) (el x : Nat), el < 4 →
    let b := x / 2 ^ (8 * el) % 256
    (b ≠ 0x80 → ∀ f ∈ [Fmt.fp16, .bf16, .fp32, .fp64],
      (cvt f .mk8 rm sat el x).2 = 0 ∧ (decodeFmt f (cvt f .mk8 rm sat el x).1).isNan = false ∧
      (decodeFmt f (cvt f .mk8 rm sat el x).1).isInf = false ∧ cmpVal (decodeFmt f (cvt f .mk8 rm sat el x).1) (decodeMk8 b) = 0) ∧
    (b = 0x80 → cvt .fp16 .mk8 rm sat el x = (0x7E00, 0) ∧ cvt .bf16 .mk8 rm sat el x = (0x7FC0, 0) ∧
      cvt .fp32 .mk8 rm sat el x = (0x7FC00000, 0) ∧ cvt .fp64 .mk8 rm sat el x = (0x7FF8000000000000, 0))) ∧
  (∀ p ∈ [(0x40, false, 1, (0 : Int)), (0x4A, false, 21, -4), (0x75, false, 53, -6), (0x2D, false, 13, -1), (0xB9, true, 9, -6),
      (0x13, false, 24, 0), (0x0E, false, 1, -10), (0x05, false, 4096, 0), (0x03, false, 1, -14), (0x01, false, 16384, 0), (0x00, false, 0, 0)],
    cmpVal (decodeMk8 p.1) (.fin p.2.1 p.2.2.1 p.2.2.2 false) = 0) ∧
  decodeMk8 0x80 = .nan ∧
  (∀ b : BitVec 8, (b = 0xFF → decodeS8 b.toNat = .nan) ∧
    (b ≠ 0xFF → ∃ m e, decodeS8 b.toNat = .fin false m e false ∧ -18 ≤ e ∧
      scaled false m e (-18) = (8 + (b &&& 7).toNat) * 2 ^ (b >>> 3).toNat))

/-- 12 R224: bits 47:0 of a virtual address are translated; an access whose address does not repeat bit 47 in bits 63:48 traps
TRANSLATION_INVALID, subcode 1, and nothing else happens. -/
def Obligations.CanonicalAddress : Prop :=
  (∀ (s : State) (c : Ctx) (va : Nat), walk s c va = walk s c (va % 2 ^ 48)) ∧
  (∀ (s : State) (ctx core width : Nat) (va : DWord) (acc : Acc), (∃ i, 48 ≤ i ∧ i < 64 ∧ va.getLsbD i ≠ va.getLsbD 47) →
    va.toNat % width = 0 → check s ctx core va.toNat width acc = .fail 0x11 1) ∧
  (∀ (k : Ctl) (a b : Opnd) (w : Width) (sx acq rel flag sg nc : Bool) (pol : BitVec 2) (op : AtomOp) (off : BitVec 24) (sc : Scope)
    (m : Nat × Nat) (s : State),
    let va := src64 s m b + off.signExtend 64
    Claims.alone k s m → va.toNat % w.bytes = 0 → (∃ i, 48 ≤ i ∧ i < 64 ∧ va.getLsbD i ≠ va.getLsbD 47) →
    ∀ i ∈ [Instr.ld k a b w sx acq pol off sc, .st k a b w rel pol flag off sc, .atom k a b w sg op nc off sc, .cas k a b w nc off sc],
      exec i s = .next (trapFails s [⟨m, 0x11, 1, va⟩] []))

/-! ### The word, the step, the machine -/

/-- Tables 3-4, 4-4, 6-2, 11-6, 12-17, 14 R328 and Table 8-9: words of the spec decode to the instructions that the spec gives for them, and
the words that it calls faults are refused with its cause. -/
def Obligations.DecodeWords : Prop :=
  decode 0x001F804214C0380000000800 = .ok (.iadd { plainCtl with stall := 2 } (.v 4) (.s 10) (.sr .lane)) ∧
  decode 0x001F91622980000000800400 = .ok (.iadd { plainCtl with stall := 1 } (.s 22) (.s 20) (.lit 512)) ∧
  decode 0x081FA0100842380000028C00 = .ok (.icmp { plainCtl with stall := 3 } (.p 1) (.v 4) (.s 8) .lt true) ∧
  decode 0x4001700E01C03FFFFFFF4000 = .ok (.bra { plainCtl with gp := 2 } 0xFFFFFFFD) ∧
  decode 0x4341700E01C03FFFFFFF4000 = .error .illegalOp ∧
  decode 0x4001004E01C03FFFFFFF4000 = .error .illegalOperand ∧
  decode 0x4019700E01C03FFFFFFF4000 = .error .illegalOperand ∧
  decode 0x469FF00E01C0000000000000 = .ok (.gdone plainCtl) ∧
  decode 0x501F806004800000002D8000 = .ok (.ld plainCtl (.v 6) (.v 2) .b32 false false 0 0 ⟨5, 0xB⟩) ∧
  decode 0x565FF00E01C00FFFFFF80000 = .ok (.wait plainCtl 0 31 31 31 31 31) ∧
  decode 0x601F8400414480A000000000 = .ok (.mma8a plainCtl (.v 64) (.v 32) (.res (.c 2)) (.v 20)) ∧
  decode 0x785FF00A8B00780000000000 = .ok (.nwait plainCtl (.res (.cc 5)) (.imm 1)) ∧
  decode 0xFC1FF00E01C00000001DC000 = .ok (.trap plainCtl 0x77) ∧
  decodeHart 0x8003028B = some (.nwake true false 6 5) ∧
  decodeHart 0x2E31208B = some (.ndep false false 23 3 2 1) ∧
  decodeHart 0x3031208B = none

/-- 03 R28 to R36, R60 to R62, Table 8-9: a word and its instruction determine each other: every well-formed instruction's word decodes to
it, with every operand, hint and modifier at every value, and a word that decodes is the word of its instruction, so no two words mean one
instruction. -/
def Obligations.RoundTrip : Prop :=
  (∀ (i : Instr) (w : IWord), i.wellFormed = true → encode i = some w → decode w = .ok i) ∧
  (∀ (i : Instr) (w : IWord), decode w = .ok i → i.wellFormed = true ∧ encode i = some w) ∧
  (∀ (i : Instr) (w : BitVec 32), i.wellFormed = true → encodeHart i = some w → decodeHart w = some i) ∧
  (∀ (i : Instr) (w : BitVec 32), decodeHart w = some i → i.wellFormed = true ∧ encodeHart i = some w)

/-- 03 R29, R35, 08 R133, R136, 12 R227, 16 R368: a quadrant whose turn the schedule takes issues the 12 bytes at the program counter of the
threads that it selects: a step runs the instruction that they decode to, then the accounting of the issue (`afterIssue`) and the end of
the step (`afterStep`); a word with a decoding fault traps its cause for every issuing thread, and so does a refused fetch; threads whose
page is not ready park. A hart runs the Xsknm word at its pc, takes an exception at another word of Xsknm's opcode, and runs a word of
the RISC-V base as far as the model has it (log 22); an event runs as it is, and with an empty schedule one clock passes. -/
def Obligations.StepRunsInstruction : Prop :=
  ∀ (s : State) (rest : List Item),
    let s1 := { s with inbox := rest }
    let ends := fun (o : Out) => andThen o fun u => afterStep s u
    (∀ core quad t, s.inbox = .issue core quad :: rest → choose s1 core quad = some t →
      let runs := fun (o : Out) (u : State) (i : Option Instr) => step s = ends (andThen o fun v => afterIssue u v i)
      let f := fetchTouch t
      t = { s1 with cur := t.cur, quadNext := t.quadNext, groups := t.groups } ∧
      t.cur.word = wordAt s1 t.cur.g ((t.cur.members.headD (0, t.cur.w)).2) t.cur.pc ∧
      (∀ m ∈ t.cur.members, pcOf (s.group t.cur.g) m = t.cur.pc) ∧
      f.cur = t.cur ∧
      (fetchCheck t = .ok →
        (∀ i, decodeCur f = .ok i → decode t.cur.word = .ok i ∧ i.wellFormed = true ∧ runs (exec i f) f (some i)) ∧
        (∀ x, decodeCur f = .error x →
          exec (.unassignedEncoding t.cur.word) f = .next (trapNow f (decCause x) 0 t.cur.members) ∧
          runs (.next (trapNow f (decCause x) 0 t.cur.members)) f none)) ∧
      (∀ cause sub va, fetchCheck t = .fail cause sub va → runs (.next (fetchTrap t cause sub va)) t none) ∧
      (∀ va, fetchCheck t = .park va →
        (refusedPage t t.cg.ctx va = false → runs (.next (parkFetch t)) t none) ∧
        (refusedPage t t.cg.ctx va = true → runs (.next (clearRefused (fetchTrap t 0x11 5 va) t.cg.ctx va)) t none))) ∧
    (∀ h w, s.inbox = .hart h :: rest → hartRuns s1 h = true → hartFetch { s1 with cur := { hart := h } } h = .word w →
      let t := { s1 with cur := { hart := h } }
      (∀ i, decodeHart w = some i → step s = ends (exec i { s1 with cur := { hart := h, word := w.zeroExtend 96 } })) ∧
      (decodeHart w = none → w.toNat % 128 = 0x0B → step s = ends (.next (hartTrap t h 2 (w.zeroExtend 64)))) ∧
      (decodeHart w = none → w.toNat % 128 ≠ 0x0B → step s = ends (hartBase t h w))) ∧
    (∀ i, s.inbox = .event i :: rest → isEvent i = true → step s = ends (exec i { s1 with cur := {} })) ∧
    (s.inbox = [] → step s = .next (afterStep s (sweepConv (tick (sweepCores (sweepFetch (sweepFormed s))) 1 0))))

/-- The memory of the machine keeps its canonical form in every step that goes on: the model's own invariant, on which every statement
about memory as data rests (log 2). -/
def Obligations.StepKeepsMemory : Prop :=
  ∀ s t : State, s.memOk = true → step s = .next t → t.memOk = true

/-- 16 Table 16-4, R379, 15 Table 15-1: after power-on the part is not started, no start has completed, the links are Down, the clock
setting is 27, the mailbox and the name ports are idle, and no context, group or request exists. Memory that nothing has written reads
0 and registers without a reset value read 0: the model's choices (logs 2 and 3). -/
def Obligations.ResetState : Prop :=
  let s := State.reset
  s.phase = 0 ∧ s.result = 0 ∧ s.coldDone = false ∧ s.clk = 27 ∧ s.memOk = true ∧
  s.ctxs = [] ∧ s.groups = [] ∧ s.launches = [] ∧ s.accesses = [] ∧ s.packets = [] ∧ s.mbBusy = false ∧ s.mbRej = false ∧
  (∀ n, (s.link n).state = 0 ∧ (s.link n).rtrn = 0) ∧
  (∀ fn k, (s.port fn k).busy = false ∧ (s.port fn k).status = 0 ∧ (s.port fn k).result = 0) ∧
  (∀ d, (s.die d).twarn = 95 ∧ (s.die d).ttrip = 110 ∧ (s.die d).floor = 12 ∧ (s.die d).pmin = 0) ∧
  (∀ sp a, memRead (s.mem sp) a = 0) ∧
  ∀ h n, rdX s h n = 0
end

