-- ==== Sys2Proof/Laws/Map.lean ====
section
/-! SUPPORT. Laws of the finite maps: read after write, and the canonical form. -/

namespace Sys2Proof.Machine

variable {α : Type}

/-! ### Read after write -/

@[simp] theorem mget_nil (i : Nat) : mget ([] : List (Nat × α)) i = none := rfl

@[simp] theorem mget_mput_self (m : List (Nat × α)) (i : Nat) (x : α) : mget (mput m i x) i = some x := by
  induction m with
  | nil => simp [mput, mget]
  | cons h t ih =>
    obtain ⟨k, v⟩ := h
    unfold mput
    split
    · simp [mget]
    · split
      · simp [mget]
      · rename_i h; simp [mget, h, ih]

theorem mget_mput_ne (m : List (Nat × α)) {i j : Nat} (x : α) (h : j ≠ i) : mget (mput m i x) j = mget m j := by
  induction m with
  | nil => simp [mput, mget, Ne.symm h]
  | cons hd t ih =>
    obtain ⟨k, v⟩ := hd
    unfold mput
    split
    · simp [mget, Ne.symm h]
    · split
      · rename_i hk; subst hk; simp [mget, Ne.symm h]
      · simp [mget, ih]

theorem mget_mput (m : List (Nat × α)) (i j : Nat) (x : α) : mget (mput m i x) j = if j = i then some x else mget m j := by
  by_cases h : j = i
  · subst h; simp
  · simp [h, mget_mput_ne]

@[simp] theorem mget_mdel_self (m : List (Nat × α)) (i : Nat) : mget (mdel m i) i = none := by
  induction m with
  | nil => rfl
  | cons hd t ih =>
    obtain ⟨k, v⟩ := hd
    unfold mdel
    split
    · exact ih
    · rename_i h; simp [mget, h, ih]

theorem mget_mdel_ne (m : List (Nat × α)) {i j : Nat} (h : j ≠ i) : mget (mdel m i) j = mget m j := by
  induction m with
  | nil => rfl
  | cons hd t ih =>
    obtain ⟨k, v⟩ := hd
    unfold mdel
    split
    · rename_i hk; subst hk; simp [mget, Ne.symm h, ih]
    · simp [mget, ih]

theorem mget_mdel (m : List (Nat × α)) (i j : Nat) : mget (mdel m i) j = if j = i then none else mget m j := by
  by_cases h : j = i
  · subst h; simp
  · simp [h, mget_mdel_ne]

@[simp] theorem mgetD_mput_self (m : List (Nat × α)) (i : Nat) (x d : α) : mgetD (mput m i x) i d = x := by simp [mgetD]

theorem mgetD_mput_ne (m : List (Nat × α)) {i j : Nat} (x d : α) (h : j ≠ i) : mgetD (mput m i x) j d = mgetD m j d := by
  simp [mgetD, mget_mput_ne _ _ h]

@[simp] theorem mgetD_msetD_self [DecidableEq α] (m : List (Nat × α)) (i : Nat) (x d : α) : mgetD (msetD m i x d) i d = x := by
  unfold msetD; split <;> simp_all [mgetD]

theorem mgetD_msetD_ne [DecidableEq α] (m : List (Nat × α)) {i j : Nat} (x d : α) (h : j ≠ i) :
    mgetD (msetD m i x d) j d = mgetD m j d := by
  unfold msetD; split <;> simp [mgetD, mget_mdel_ne _ h, mget_mput_ne _ _ h]

theorem mgetD_msetD [DecidableEq α] (m : List (Nat × α)) (i j : Nat) (x d : α) :
    mgetD (msetD m i x d) j d = if j = i then x else mgetD m j d := by
  by_cases h : j = i
  · subst h; simp
  · simp [h, mgetD_msetD_ne]

theorem mget_mmod (m : List (Nat × α)) (i j : Nat) (f : α → α) :
    mget (mmod m i f) j = if j = i then (mget m i).map f else mget m j := by
  unfold mmod
  split
  · rename_i v h; rw [mget_mput]; split <;> simp [h]
  · rename_i h; split
    · rename_i e; subst e; simp [h]
    · rfl

theorem mgetD_mmod_ne (m : List (Nat × α)) {i j : Nat} (f : α → α) (d : α) (h : j ≠ i) : mgetD (mmod m i f) j d = mgetD m j d := by
  simp [mgetD, mget_mmod, h]

@[simp] theorem mmod_isSome (m : List (Nat × α)) (i j : Nat) (f : α → α) : (mget (mmod m i f) j).isSome = (mget m j).isSome := by
  rw [mget_mmod]; split <;> simp_all

/-! ### Lists -/

@[simp] theorem length_lmod (l : List α) (i : Nat) (f : α → α) : (lmod l i f).length = l.length := by
  induction l generalizing i with
  | nil => simp [lmod]
  | cons x t ih => cases i <;> simp [lmod, ih]

theorem getD_lmod (l : List α) (i j : Nat) (f : α → α) (d : α) :
    (lmod l i f).getD j d = if j = i ∧ i < l.length then f (l.getD i d) else l.getD j d := by
  induction l generalizing i j with
  | nil => simp [lmod]
  | cons x t ih =>
    cases i with
    | zero => cases j <;> simp [lmod]
    | succ n =>
      cases j with
      | zero => simp [lmod]
      | succ k => simpa [lmod] using ih n k

/-! ### Canonical form -/

/-- Every key of a map lies above a bound. -/
def keysAbove (b : Nat) (m : List (Nat × α)) : Prop := ∀ x ∈ m, b < x.1

/-- The canonical form as a proposition: the head lies below the rest and is no default, and the rest is canonical. -/
theorem mwf_cons [DecidableEq α] (d : α) (k : Nat) (v : α) (t : List (Nat × α)) :
    mwf d ((k, v) :: t) = true ↔ v ≠ d ∧ keysAbove k t ∧ mwf d t = true := by
  induction t generalizing k v with
  | nil => simp [mwf, keysAbove]
  | cons h t ih =>
    obtain ⟨k', v'⟩ := h
    have e : mwf d ((k, v) :: (k', v') :: t) = (v != d && decide (k < k') && mwf d ((k', v') :: t)) := rfl
    rw [e]
    simp only [Bool.and_eq_true, bne_iff_ne, ne_eq, decide_eq_true_eq, ih]
    constructor
    · rintro ⟨⟨h1, h2⟩, h3, h4, h5⟩
      refine ⟨h1, ?_, h3, h4, h5⟩
      intro x hx
      rcases List.mem_cons.1 hx with rfl | hx
      · exact h2
      · exact Nat.lt_trans h2 (h4 x hx)
    · rintro ⟨h1, h2, h3, h4, h5⟩
      exact ⟨⟨h1, h2 (k', v') (by simp)⟩, h3, h4, h5⟩

theorem keysAbove_mput {b : Nat} {m : List (Nat × α)} (h : keysAbove b m) {i : Nat} (hi : b < i) (x : α) :
    keysAbove b (mput m i x) := by
  induction m with
  | nil => intro y hy; simp [mput] at hy; subst hy; exact hi
  | cons hd t ih =>
    obtain ⟨k, v⟩ := hd
    have hk : b < k := h (k, v) (by simp)
    have ht : keysAbove b t := fun y hy => h y (by simp [hy])
    unfold mput
    split
    · intro y hy
      rcases List.mem_cons.1 hy with rfl | hy
      · exact hi
      · exact h y hy
    · split
      · intro y hy
        rcases List.mem_cons.1 hy with rfl | hy
        · exact hi
        · exact ht y hy
      · intro y hy
        rcases List.mem_cons.1 hy with rfl | hy
        · exact hk
        · exact ih ht y hy

theorem keysAbove_mdel {b : Nat} {m : List (Nat × α)} (h : keysAbove b m) (i : Nat) : keysAbove b (mdel m i) := by
  induction m with
  | nil => exact h
  | cons hd t ih =>
    obtain ⟨k, v⟩ := hd
    have ht : keysAbove b t := fun y hy => h y (by simp [hy])
    unfold mdel
    split
    · exact ih ht
    · intro y hy
      rcases List.mem_cons.1 hy with rfl | hy
      · exact h _ (by simp)
      · exact ih ht y hy

theorem mwf_mput [DecidableEq α] {d : α} {m : List (Nat × α)} (h : mwf d m = true) (i : Nat) {x : α} (hx : x ≠ d) :
    mwf d (mput m i x) = true := by
  induction m with
  | nil => simp [mput, mwf, hx]
  | cons hd t ih =>
    obtain ⟨k, v⟩ := hd
    obtain ⟨h1, h2, h3⟩ := (mwf_cons d k v t).1 h
    unfold mput
    split
    · rename_i hi
      refine (mwf_cons d i x _).2 ⟨hx, ?_, h⟩
      intro y hy
      rcases List.mem_cons.1 hy with rfl | hy
      · exact hi
      · exact Nat.lt_trans hi (h2 y hy)
    · split
      · rename_i hk; subst hk
        exact (mwf_cons d k x t).2 ⟨hx, h2, h3⟩
      · exact (mwf_cons d k v _).2 ⟨h1, keysAbove_mput h2 (by omega) x, ih h3⟩

theorem mwf_mdel [DecidableEq α] {d : α} {m : List (Nat × α)} (h : mwf d m = true) (i : Nat) : mwf d (mdel m i) = true := by
  induction m with
  | nil => exact h
  | cons hd t ih =>
    obtain ⟨k, v⟩ := hd
    obtain ⟨h1, h2, h3⟩ := (mwf_cons d k v t).1 h
    unfold mdel
    split
    · exact ih h3
    · exact (mwf_cons d k v _).2 ⟨h1, keysAbove_mdel h2 i, ih h3⟩

/-- Writing a key keeps the canonical form. -/
theorem mwf_msetD [DecidableEq α] {d : α} {m : List (Nat × α)} (h : mwf d m = true) (i : Nat) (x : α) :
    mwf d (msetD m i x d) = true := by
  unfold msetD
  split
  · exact mwf_mdel h i
  · rename_i hx; exact mwf_mput h i hx

end Sys2Proof.Machine
end

