-- ==== Sys2Proof/Laws/State.lean ====
section
/-! SUPPORT. What each update of the state leaves as it was, field by field, and what the accessors read after it. -/

namespace Sys2Proof.Machine

/-! ### modGroup -/

@[simp] theorem State.modGroup_inbox (s : State) (g : Nat) (f : Group → Group) : (s.modGroup g f).inbox = s.inbox := rfl
@[simp] theorem State.modGroup_cur (s : State) (g : Nat) (f : Group → Group) : (s.modGroup g f).cur = s.cur := rfl
@[simp] theorem State.modGroup_quadNext (s : State) (g : Nat) (f : Group → Group) : (s.modGroup g f).quadNext = s.quadNext := rfl
@[simp] theorem State.modGroup_unitBusy (s : State) (g : Nat) (f : Group → Group) : (s.modGroup g f).unitBusy = s.unitBusy := rfl
@[simp] theorem State.modGroup_freeIdx (s : State) (g : Nat) (f : Group → Group) : (s.modGroup g f).freeIdx = s.freeIdx := rfl
@[simp] theorem State.modGroup_nextId (s : State) (g : Nat) (f : Group → Group) : (s.modGroup g f).nextId = s.nextId := rfl
@[simp] theorem State.modGroup_clock (s : State) (g : Nat) (f : Group → Group) : (s.modGroup g f).clock = s.clock := rfl
@[simp] theorem State.modGroup_ns (s : State) (g : Nat) (f : Group → Group) : (s.modGroup g f).ns = s.ns := rfl
@[simp] theorem State.modGroup_hbm (s : State) (g : Nat) (f : Group → Group) : (s.modGroup g f).hbm = s.hbm := rfl
@[simp] theorem State.modGroup_hostMem (s : State) (g : Nat) (f : Group → Group) : (s.modGroup g f).hostMem = s.hostMem := rfl
@[simp] theorem State.modGroup_poison (s : State) (g : Nat) (f : Group → Group) : (s.modGroup g f).poison = s.poison := rfl
@[simp] theorem State.modGroup_sealMap (s : State) (g : Nat) (f : Group → Group) : (s.modGroup g f).sealMap = s.sealMap := rfl
@[simp] theorem State.modGroup_hostWritable (s : State) (g : Nat) (f : Group → Group) : (s.modGroup g f).hostWritable = s.hostWritable := rfl
@[simp] theorem State.modGroup_cores (s : State) (g : Nat) (f : Group → Group) : (s.modGroup g f).cores = s.cores := rfl
@[simp] theorem State.modGroup_dies (s : State) (g : Nat) (f : Group → Group) : (s.modGroup g f).dies = s.dies := rfl
@[simp] theorem State.modGroup_ctxs (s : State) (g : Nat) (f : Group → Group) : (s.modGroup g f).ctxs = s.ctxs := rfl
@[simp] theorem State.modGroup_launches (s : State) (g : Nat) (f : Group → Group) : (s.modGroup g f).launches = s.launches := rfl
@[simp] theorem State.modGroup_graphs (s : State) (g : Nat) (f : Group → Group) : (s.modGroup g f).graphs = s.graphs := rfl
@[simp] theorem State.modGroup_accesses (s : State) (g : Nat) (f : Group → Group) : (s.modGroup g f).accesses = s.accesses := rfl
@[simp] theorem State.modGroup_nameOps (s : State) (g : Nat) (f : Group → Group) : (s.modGroup g f).nameOps = s.nameOps := rfl
@[simp] theorem State.modGroup_joins (s : State) (g : Nat) (f : Group → Group) : (s.modGroup g f).joins = s.joins := rfl
@[simp] theorem State.modGroup_counts (s : State) (g : Nat) (f : Group → Group) : (s.modGroup g f).counts = s.counts := rfl
@[simp] theorem State.modGroup_pushes (s : State) (g : Nat) (f : Group → Group) : (s.modGroup g f).pushes = s.pushes := rfl
@[simp] theorem State.modGroup_takes (s : State) (g : Nat) (f : Group → Group) : (s.modGroup g f).takes = s.takes := rfl
@[simp] theorem State.modGroup_matrix (s : State) (g : Nat) (f : Group → Group) : (s.modGroup g f).matrix = s.matrix := rfl
@[simp] theorem State.modGroup_ldtos (s : State) (g : Nat) (f : Group → Group) : (s.modGroup g f).ldtos = s.ldtos := rfl
@[simp] theorem State.modGroup_hbarMsgs (s : State) (g : Nat) (f : Group → Group) : (s.modGroup g f).hbarMsgs = s.hbarMsgs := rfl
@[simp] theorem State.modGroup_hsquares (s : State) (g : Nat) (f : Group → Group) : (s.modGroup g f).hsquares = s.hsquares := rfl
@[simp] theorem State.modGroup_packets (s : State) (g : Nat) (f : Group → Group) : (s.modGroup g f).packets = s.packets := rfl
@[simp] theorem State.modGroup_netReqs (s : State) (g : Nat) (f : Group → Group) : (s.modGroup g f).netReqs = s.netReqs := rfl
@[simp] theorem State.modGroup_migrating (s : State) (g : Nat) (f : Group → Group) : (s.modGroup g f).migrating = s.migrating := rfl
@[simp] theorem State.modGroup_moves (s : State) (g : Nat) (f : Group → Group) : (s.modGroup g f).moves = s.moves := rfl
@[simp] theorem State.modGroup_remotes (s : State) (g : Nat) (f : Group → Group) : (s.modGroup g f).remotes = s.remotes := rfl
@[simp] theorem State.modGroup_allowances (s : State) (g : Nat) (f : Group → Group) : (s.modGroup g f).allowances = s.allowances := rfl
@[simp] theorem State.modGroup_peerGrants (s : State) (g : Nat) (f : Group → Group) : (s.modGroup g f).peerGrants = s.peerGrants := rfl
@[simp] theorem State.modGroup_streets (s : State) (g : Nat) (f : Group → Group) : (s.modGroup g f).streets = s.streets := rfl
@[simp] theorem State.modGroup_deadStreets (s : State) (g : Nat) (f : Group → Group) : (s.modGroup g f).deadStreets = s.deadStreets := rfl
@[simp] theorem State.modGroup_links (s : State) (g : Nat) (f : Group → Group) : (s.modGroup g f).links = s.links := rfl
@[simp] theorem State.modGroup_vfs (s : State) (g : Nat) (f : Group → Group) : (s.modGroup g f).vfs = s.vfs := rfl
@[simp] theorem State.modGroup_device (s : State) (g : Nat) (f : Group → Group) : (s.modGroup g f).device = s.device := rfl
@[simp] theorem State.modGroup_stepping (s : State) (g : Nat) (f : Group → Group) : (s.modGroup g f).stepping = s.stepping := rfl
@[simp] theorem State.modGroup_harts (s : State) (g : Nat) (f : Group → Group) : (s.modGroup g f).harts = s.harts := rfl
@[simp] theorem State.modGroup_notifies (s : State) (g : Nat) (f : Group → Group) : (s.modGroup g f).notifies = s.notifies := rfl
@[simp] theorem State.modGroup_msis (s : State) (g : Nat) (f : Group → Group) : (s.modGroup g f).msis = s.msis := rfl
@[simp] theorem State.modGroup_ports (s : State) (g : Nat) (f : Group → Group) : (s.modGroup g f).ports = s.ports := rfl
@[simp] theorem State.modGroup_mbArgs (s : State) (g : Nat) (f : Group → Group) : (s.modGroup g f).mbArgs = s.mbArgs := rfl
@[simp] theorem State.modGroup_mbBusy (s : State) (g : Nat) (f : Group → Group) : (s.modGroup g f).mbBusy = s.mbBusy := rfl
@[simp] theorem State.modGroup_mbCmd (s : State) (g : Nat) (f : Group → Group) : (s.modGroup g f).mbCmd = s.mbCmd := rfl
@[simp] theorem State.modGroup_mbRej (s : State) (g : Nat) (f : Group → Group) : (s.modGroup g f).mbRej = s.mbRej := rfl
@[simp] theorem State.modGroup_mbStatus (s : State) (g : Nat) (f : Group → Group) : (s.modGroup g f).mbStatus = s.mbStatus := rfl
@[simp] theorem State.modGroup_mbReply (s : State) (g : Nat) (f : Group → Group) : (s.modGroup g f).mbReply = s.mbReply := rfl
@[simp] theorem State.modGroup_phase (s : State) (g : Nat) (f : Group → Group) : (s.modGroup g f).phase = s.phase := rfl
@[simp] theorem State.modGroup_result (s : State) (g : Nat) (f : Group → Group) : (s.modGroup g f).result = s.result := rfl
@[simp] theorem State.modGroup_linksBad (s : State) (g : Nat) (f : Group → Group) : (s.modGroup g f).linksBad = s.linksBad := rfl
@[simp] theorem State.modGroup_retrain (s : State) (g : Nat) (f : Group → Group) : (s.modGroup g f).retrain = s.retrain := rfl
@[simp] theorem State.modGroup_startLog (s : State) (g : Nat) (f : Group → Group) : (s.modGroup g f).startLog = s.startLog := rfl
@[simp] theorem State.modGroup_coldDone (s : State) (g : Nat) (f : Group → Group) : (s.modGroup g f).coldDone = s.coldDone := rfl
@[simp] theorem State.modGroup_starting (s : State) (g : Nat) (f : Group → Group) : (s.modGroup g f).starting = s.starting := rfl
@[simp] theorem State.modGroup_logAt (s : State) (g : Nat) (f : Group → Group) : (s.modGroup g f).logAt = s.logAt := rfl
@[simp] theorem State.modGroup_firmware (s : State) (g : Nat) (f : Group → Group) : (s.modGroup g f).firmware = s.firmware := rfl
@[simp] theorem State.modGroup_fusedMin (s : State) (g : Nat) (f : Group → Group) : (s.modGroup g f).fusedMin = s.fusedMin := rfl
@[simp] theorem State.modGroup_clk (s : State) (g : Nat) (f : Group → Group) : (s.modGroup g f).clk = s.clk := rfl
@[simp] theorem State.modGroup_noUp (s : State) (g : Nat) (f : Group → Group) : (s.modGroup g f).noUp = s.noUp := rfl
@[simp] theorem State.modGroup_evalAt (s : State) (g : Nat) (f : Group → Group) : (s.modGroup g f).evalAt = s.evalAt := rfl
@[simp] theorem State.modGroup_netDropped (s : State) (g : Nat) (f : Group → Group) : (s.modGroup g f).netDropped = s.netDropped := rfl
@[simp] theorem State.modGroup_parts (s : State) (g : Nat) (f : Group → Group) : (s.modGroup g f).parts = s.parts := rfl
@[simp] theorem State.modGroup_partMoves (s : State) (g : Nat) (f : Group → Group) : (s.modGroup g f).partMoves = s.partMoves := rfl
@[simp] theorem State.modGroup_doorbells (s : State) (g : Nat) (f : Group → Group) : (s.modGroup g f).doorbells = s.doorbells := rfl
@[simp] theorem State.modGroup_mgmtLog (s : State) (g : Nat) (f : Group → Group) : (s.modGroup g f).mgmtLog = s.mgmtLog := rfl
@[simp] theorem State.modGroup_hdm (s : State) (g : Nat) (f : Group → Group) : (s.modGroup g f).hdm = s.hdm := rfl
@[simp] theorem State.modGroup_hostData (s : State) (g : Nat) (f : Group → Group) : (s.modGroup g f).hostData = s.hostData := rfl
@[simp] theorem State.modGroup_hostPoison (s : State) (g : Nat) (f : Group → Group) : (s.modGroup g f).hostPoison = s.hostPoison := rfl

/-! ### modWave -/

@[simp] theorem State.modWave_inbox (s : State) (g w : Nat) (f : Wave → Wave) : (s.modWave g w f).inbox = s.inbox := rfl
@[simp] theorem State.modWave_cur (s : State) (g w : Nat) (f : Wave → Wave) : (s.modWave g w f).cur = s.cur := rfl
@[simp] theorem State.modWave_quadNext (s : State) (g w : Nat) (f : Wave → Wave) : (s.modWave g w f).quadNext = s.quadNext := rfl
@[simp] theorem State.modWave_unitBusy (s : State) (g w : Nat) (f : Wave → Wave) : (s.modWave g w f).unitBusy = s.unitBusy := rfl
@[simp] theorem State.modWave_freeIdx (s : State) (g w : Nat) (f : Wave → Wave) : (s.modWave g w f).freeIdx = s.freeIdx := rfl
@[simp] theorem State.modWave_nextId (s : State) (g w : Nat) (f : Wave → Wave) : (s.modWave g w f).nextId = s.nextId := rfl
@[simp] theorem State.modWave_clock (s : State) (g w : Nat) (f : Wave → Wave) : (s.modWave g w f).clock = s.clock := rfl
@[simp] theorem State.modWave_ns (s : State) (g w : Nat) (f : Wave → Wave) : (s.modWave g w f).ns = s.ns := rfl
@[simp] theorem State.modWave_hbm (s : State) (g w : Nat) (f : Wave → Wave) : (s.modWave g w f).hbm = s.hbm := rfl
@[simp] theorem State.modWave_hostMem (s : State) (g w : Nat) (f : Wave → Wave) : (s.modWave g w f).hostMem = s.hostMem := rfl
@[simp] theorem State.modWave_poison (s : State) (g w : Nat) (f : Wave → Wave) : (s.modWave g w f).poison = s.poison := rfl
@[simp] theorem State.modWave_sealMap (s : State) (g w : Nat) (f : Wave → Wave) : (s.modWave g w f).sealMap = s.sealMap := rfl
@[simp] theorem State.modWave_hostWritable (s : State) (g w : Nat) (f : Wave → Wave) : (s.modWave g w f).hostWritable = s.hostWritable := rfl
@[simp] theorem State.modWave_cores (s : State) (g w : Nat) (f : Wave → Wave) : (s.modWave g w f).cores = s.cores := rfl
@[simp] theorem State.modWave_dies (s : State) (g w : Nat) (f : Wave → Wave) : (s.modWave g w f).dies = s.dies := rfl
@[simp] theorem State.modWave_ctxs (s : State) (g w : Nat) (f : Wave → Wave) : (s.modWave g w f).ctxs = s.ctxs := rfl
@[simp] theorem State.modWave_launches (s : State) (g w : Nat) (f : Wave → Wave) : (s.modWave g w f).launches = s.launches := rfl
@[simp] theorem State.modWave_graphs (s : State) (g w : Nat) (f : Wave → Wave) : (s.modWave g w f).graphs = s.graphs := rfl
@[simp] theorem State.modWave_accesses (s : State) (g w : Nat) (f : Wave → Wave) : (s.modWave g w f).accesses = s.accesses := rfl
@[simp] theorem State.modWave_nameOps (s : State) (g w : Nat) (f : Wave → Wave) : (s.modWave g w f).nameOps = s.nameOps := rfl
@[simp] theorem State.modWave_joins (s : State) (g w : Nat) (f : Wave → Wave) : (s.modWave g w f).joins = s.joins := rfl
@[simp] theorem State.modWave_counts (s : State) (g w : Nat) (f : Wave → Wave) : (s.modWave g w f).counts = s.counts := rfl
@[simp] theorem State.modWave_pushes (s : State) (g w : Nat) (f : Wave → Wave) : (s.modWave g w f).pushes = s.pushes := rfl
@[simp] theorem State.modWave_takes (s : State) (g w : Nat) (f : Wave → Wave) : (s.modWave g w f).takes = s.takes := rfl
@[simp] theorem State.modWave_matrix (s : State) (g w : Nat) (f : Wave → Wave) : (s.modWave g w f).matrix = s.matrix := rfl
@[simp] theorem State.modWave_ldtos (s : State) (g w : Nat) (f : Wave → Wave) : (s.modWave g w f).ldtos = s.ldtos := rfl
@[simp] theorem State.modWave_hbarMsgs (s : State) (g w : Nat) (f : Wave → Wave) : (s.modWave g w f).hbarMsgs = s.hbarMsgs := rfl
@[simp] theorem State.modWave_hsquares (s : State) (g w : Nat) (f : Wave → Wave) : (s.modWave g w f).hsquares = s.hsquares := rfl
@[simp] theorem State.modWave_packets (s : State) (g w : Nat) (f : Wave → Wave) : (s.modWave g w f).packets = s.packets := rfl
@[simp] theorem State.modWave_netReqs (s : State) (g w : Nat) (f : Wave → Wave) : (s.modWave g w f).netReqs = s.netReqs := rfl
@[simp] theorem State.modWave_migrating (s : State) (g w : Nat) (f : Wave → Wave) : (s.modWave g w f).migrating = s.migrating := rfl
@[simp] theorem State.modWave_moves (s : State) (g w : Nat) (f : Wave → Wave) : (s.modWave g w f).moves = s.moves := rfl
@[simp] theorem State.modWave_remotes (s : State) (g w : Nat) (f : Wave → Wave) : (s.modWave g w f).remotes = s.remotes := rfl
@[simp] theorem State.modWave_allowances (s : State) (g w : Nat) (f : Wave → Wave) : (s.modWave g w f).allowances = s.allowances := rfl
@[simp] theorem State.modWave_peerGrants (s : State) (g w : Nat) (f : Wave → Wave) : (s.modWave g w f).peerGrants = s.peerGrants := rfl
@[simp] theorem State.modWave_streets (s : State) (g w : Nat) (f : Wave → Wave) : (s.modWave g w f).streets = s.streets := rfl
@[simp] theorem State.modWave_deadStreets (s : State) (g w : Nat) (f : Wave → Wave) : (s.modWave g w f).deadStreets = s.deadStreets := rfl
@[simp] theorem State.modWave_links (s : State) (g w : Nat) (f : Wave → Wave) : (s.modWave g w f).links = s.links := rfl
@[simp] theorem State.modWave_vfs (s : State) (g w : Nat) (f : Wave → Wave) : (s.modWave g w f).vfs = s.vfs := rfl
@[simp] theorem State.modWave_device (s : State) (g w : Nat) (f : Wave → Wave) : (s.modWave g w f).device = s.device := rfl
@[simp] theorem State.modWave_stepping (s : State) (g w : Nat) (f : Wave → Wave) : (s.modWave g w f).stepping = s.stepping := rfl
@[simp] theorem State.modWave_harts (s : State) (g w : Nat) (f : Wave → Wave) : (s.modWave g w f).harts = s.harts := rfl
@[simp] theorem State.modWave_notifies (s : State) (g w : Nat) (f : Wave → Wave) : (s.modWave g w f).notifies = s.notifies := rfl
@[simp] theorem State.modWave_msis (s : State) (g w : Nat) (f : Wave → Wave) : (s.modWave g w f).msis = s.msis := rfl
@[simp] theorem State.modWave_ports (s : State) (g w : Nat) (f : Wave → Wave) : (s.modWave g w f).ports = s.ports := rfl
@[simp] theorem State.modWave_mbArgs (s : State) (g w : Nat) (f : Wave → Wave) : (s.modWave g w f).mbArgs = s.mbArgs := rfl
@[simp] theorem State.modWave_mbBusy (s : State) (g w : Nat) (f : Wave → Wave) : (s.modWave g w f).mbBusy = s.mbBusy := rfl
@[simp] theorem State.modWave_mbCmd (s : State) (g w : Nat) (f : Wave → Wave) : (s.modWave g w f).mbCmd = s.mbCmd := rfl
@[simp] theorem State.modWave_mbRej (s : State) (g w : Nat) (f : Wave → Wave) : (s.modWave g w f).mbRej = s.mbRej := rfl
@[simp] theorem State.modWave_mbStatus (s : State) (g w : Nat) (f : Wave → Wave) : (s.modWave g w f).mbStatus = s.mbStatus := rfl
@[simp] theorem State.modWave_mbReply (s : State) (g w : Nat) (f : Wave → Wave) : (s.modWave g w f).mbReply = s.mbReply := rfl
@[simp] theorem State.modWave_phase (s : State) (g w : Nat) (f : Wave → Wave) : (s.modWave g w f).phase = s.phase := rfl
@[simp] theorem State.modWave_result (s : State) (g w : Nat) (f : Wave → Wave) : (s.modWave g w f).result = s.result := rfl
@[simp] theorem State.modWave_linksBad (s : State) (g w : Nat) (f : Wave → Wave) : (s.modWave g w f).linksBad = s.linksBad := rfl
@[simp] theorem State.modWave_retrain (s : State) (g w : Nat) (f : Wave → Wave) : (s.modWave g w f).retrain = s.retrain := rfl
@[simp] theorem State.modWave_startLog (s : State) (g w : Nat) (f : Wave → Wave) : (s.modWave g w f).startLog = s.startLog := rfl
@[simp] theorem State.modWave_coldDone (s : State) (g w : Nat) (f : Wave → Wave) : (s.modWave g w f).coldDone = s.coldDone := rfl
@[simp] theorem State.modWave_starting (s : State) (g w : Nat) (f : Wave → Wave) : (s.modWave g w f).starting = s.starting := rfl
@[simp] theorem State.modWave_logAt (s : State) (g w : Nat) (f : Wave → Wave) : (s.modWave g w f).logAt = s.logAt := rfl
@[simp] theorem State.modWave_firmware (s : State) (g w : Nat) (f : Wave → Wave) : (s.modWave g w f).firmware = s.firmware := rfl
@[simp] theorem State.modWave_fusedMin (s : State) (g w : Nat) (f : Wave → Wave) : (s.modWave g w f).fusedMin = s.fusedMin := rfl
@[simp] theorem State.modWave_clk (s : State) (g w : Nat) (f : Wave → Wave) : (s.modWave g w f).clk = s.clk := rfl
@[simp] theorem State.modWave_noUp (s : State) (g w : Nat) (f : Wave → Wave) : (s.modWave g w f).noUp = s.noUp := rfl
@[simp] theorem State.modWave_evalAt (s : State) (g w : Nat) (f : Wave → Wave) : (s.modWave g w f).evalAt = s.evalAt := rfl
@[simp] theorem State.modWave_netDropped (s : State) (g w : Nat) (f : Wave → Wave) : (s.modWave g w f).netDropped = s.netDropped := rfl
@[simp] theorem State.modWave_parts (s : State) (g w : Nat) (f : Wave → Wave) : (s.modWave g w f).parts = s.parts := rfl
@[simp] theorem State.modWave_partMoves (s : State) (g w : Nat) (f : Wave → Wave) : (s.modWave g w f).partMoves = s.partMoves := rfl
@[simp] theorem State.modWave_doorbells (s : State) (g w : Nat) (f : Wave → Wave) : (s.modWave g w f).doorbells = s.doorbells := rfl
@[simp] theorem State.modWave_mgmtLog (s : State) (g w : Nat) (f : Wave → Wave) : (s.modWave g w f).mgmtLog = s.mgmtLog := rfl
@[simp] theorem State.modWave_hdm (s : State) (g w : Nat) (f : Wave → Wave) : (s.modWave g w f).hdm = s.hdm := rfl
@[simp] theorem State.modWave_hostData (s : State) (g w : Nat) (f : Wave → Wave) : (s.modWave g w f).hostData = s.hostData := rfl
@[simp] theorem State.modWave_hostPoison (s : State) (g w : Nat) (f : Wave → Wave) : (s.modWave g w f).hostPoison = s.hostPoison := rfl

/-! ### modThread -/

@[simp] theorem State.modThread_inbox (s : State) (g w l : Nat) (f : Thread → Thread) : (s.modThread g w l f).inbox = s.inbox := rfl
@[simp] theorem State.modThread_cur (s : State) (g w l : Nat) (f : Thread → Thread) : (s.modThread g w l f).cur = s.cur := rfl
@[simp] theorem State.modThread_quadNext (s : State) (g w l : Nat) (f : Thread → Thread) : (s.modThread g w l f).quadNext = s.quadNext := rfl
@[simp] theorem State.modThread_unitBusy (s : State) (g w l : Nat) (f : Thread → Thread) : (s.modThread g w l f).unitBusy = s.unitBusy := rfl
@[simp] theorem State.modThread_freeIdx (s : State) (g w l : Nat) (f : Thread → Thread) : (s.modThread g w l f).freeIdx = s.freeIdx := rfl
@[simp] theorem State.modThread_nextId (s : State) (g w l : Nat) (f : Thread → Thread) : (s.modThread g w l f).nextId = s.nextId := rfl
@[simp] theorem State.modThread_clock (s : State) (g w l : Nat) (f : Thread → Thread) : (s.modThread g w l f).clock = s.clock := rfl
@[simp] theorem State.modThread_ns (s : State) (g w l : Nat) (f : Thread → Thread) : (s.modThread g w l f).ns = s.ns := rfl
@[simp] theorem State.modThread_hbm (s : State) (g w l : Nat) (f : Thread → Thread) : (s.modThread g w l f).hbm = s.hbm := rfl
@[simp] theorem State.modThread_hostMem (s : State) (g w l : Nat) (f : Thread → Thread) : (s.modThread g w l f).hostMem = s.hostMem := rfl
@[simp] theorem State.modThread_poison (s : State) (g w l : Nat) (f : Thread → Thread) : (s.modThread g w l f).poison = s.poison := rfl
@[simp] theorem State.modThread_sealMap (s : State) (g w l : Nat) (f : Thread → Thread) : (s.modThread g w l f).sealMap = s.sealMap := rfl
@[simp] theorem State.modThread_hostWritable (s : State) (g w l : Nat) (f : Thread → Thread) : (s.modThread g w l f).hostWritable = s.hostWritable := rfl
@[simp] theorem State.modThread_cores (s : State) (g w l : Nat) (f : Thread → Thread) : (s.modThread g w l f).cores = s.cores := rfl
@[simp] theorem State.modThread_dies (s : State) (g w l : Nat) (f : Thread → Thread) : (s.modThread g w l f).dies = s.dies := rfl
@[simp] theorem State.modThread_ctxs (s : State) (g w l : Nat) (f : Thread → Thread) : (s.modThread g w l f).ctxs = s.ctxs := rfl
@[simp] theorem State.modThread_launches (s : State) (g w l : Nat) (f : Thread → Thread) : (s.modThread g w l f).launches = s.launches := rfl
@[simp] theorem State.modThread_graphs (s : State) (g w l : Nat) (f : Thread → Thread) : (s.modThread g w l f).graphs = s.graphs := rfl
@[simp] theorem State.modThread_accesses (s : State) (g w l : Nat) (f : Thread → Thread) : (s.modThread g w l f).accesses = s.accesses := rfl
@[simp] theorem State.modThread_nameOps (s : State) (g w l : Nat) (f : Thread → Thread) : (s.modThread g w l f).nameOps = s.nameOps := rfl
@[simp] theorem State.modThread_joins (s : State) (g w l : Nat) (f : Thread → Thread) : (s.modThread g w l f).joins = s.joins := rfl
@[simp] theorem State.modThread_counts (s : State) (g w l : Nat) (f : Thread → Thread) : (s.modThread g w l f).counts = s.counts := rfl
@[simp] theorem State.modThread_pushes (s : State) (g w l : Nat) (f : Thread → Thread) : (s.modThread g w l f).pushes = s.pushes := rfl
@[simp] theorem State.modThread_takes (s : State) (g w l : Nat) (f : Thread → Thread) : (s.modThread g w l f).takes = s.takes := rfl
@[simp] theorem State.modThread_matrix (s : State) (g w l : Nat) (f : Thread → Thread) : (s.modThread g w l f).matrix = s.matrix := rfl
@[simp] theorem State.modThread_ldtos (s : State) (g w l : Nat) (f : Thread → Thread) : (s.modThread g w l f).ldtos = s.ldtos := rfl
@[simp] theorem State.modThread_hbarMsgs (s : State) (g w l : Nat) (f : Thread → Thread) : (s.modThread g w l f).hbarMsgs = s.hbarMsgs := rfl
@[simp] theorem State.modThread_hsquares (s : State) (g w l : Nat) (f : Thread → Thread) : (s.modThread g w l f).hsquares = s.hsquares := rfl
@[simp] theorem State.modThread_packets (s : State) (g w l : Nat) (f : Thread → Thread) : (s.modThread g w l f).packets = s.packets := rfl
@[simp] theorem State.modThread_netReqs (s : State) (g w l : Nat) (f : Thread → Thread) : (s.modThread g w l f).netReqs = s.netReqs := rfl
@[simp] theorem State.modThread_migrating (s : State) (g w l : Nat) (f : Thread → Thread) : (s.modThread g w l f).migrating = s.migrating := rfl
@[simp] theorem State.modThread_moves (s : State) (g w l : Nat) (f : Thread → Thread) : (s.modThread g w l f).moves = s.moves := rfl
@[simp] theorem State.modThread_remotes (s : State) (g w l : Nat) (f : Thread → Thread) : (s.modThread g w l f).remotes = s.remotes := rfl
@[simp] theorem State.modThread_allowances (s : State) (g w l : Nat) (f : Thread → Thread) : (s.modThread g w l f).allowances = s.allowances := rfl
@[simp] theorem State.modThread_peerGrants (s : State) (g w l : Nat) (f : Thread → Thread) : (s.modThread g w l f).peerGrants = s.peerGrants := rfl
@[simp] theorem State.modThread_streets (s : State) (g w l : Nat) (f : Thread → Thread) : (s.modThread g w l f).streets = s.streets := rfl
@[simp] theorem State.modThread_deadStreets (s : State) (g w l : Nat) (f : Thread → Thread) : (s.modThread g w l f).deadStreets = s.deadStreets := rfl
@[simp] theorem State.modThread_links (s : State) (g w l : Nat) (f : Thread → Thread) : (s.modThread g w l f).links = s.links := rfl
@[simp] theorem State.modThread_vfs (s : State) (g w l : Nat) (f : Thread → Thread) : (s.modThread g w l f).vfs = s.vfs := rfl
@[simp] theorem State.modThread_device (s : State) (g w l : Nat) (f : Thread → Thread) : (s.modThread g w l f).device = s.device := rfl
@[simp] theorem State.modThread_stepping (s : State) (g w l : Nat) (f : Thread → Thread) : (s.modThread g w l f).stepping = s.stepping := rfl
@[simp] theorem State.modThread_harts (s : State) (g w l : Nat) (f : Thread → Thread) : (s.modThread g w l f).harts = s.harts := rfl
@[simp] theorem State.modThread_notifies (s : State) (g w l : Nat) (f : Thread → Thread) : (s.modThread g w l f).notifies = s.notifies := rfl
@[simp] theorem State.modThread_msis (s : State) (g w l : Nat) (f : Thread → Thread) : (s.modThread g w l f).msis = s.msis := rfl
@[simp] theorem State.modThread_ports (s : State) (g w l : Nat) (f : Thread → Thread) : (s.modThread g w l f).ports = s.ports := rfl
@[simp] theorem State.modThread_mbArgs (s : State) (g w l : Nat) (f : Thread → Thread) : (s.modThread g w l f).mbArgs = s.mbArgs := rfl
@[simp] theorem State.modThread_mbBusy (s : State) (g w l : Nat) (f : Thread → Thread) : (s.modThread g w l f).mbBusy = s.mbBusy := rfl
@[simp] theorem State.modThread_mbCmd (s : State) (g w l : Nat) (f : Thread → Thread) : (s.modThread g w l f).mbCmd = s.mbCmd := rfl
@[simp] theorem State.modThread_mbRej (s : State) (g w l : Nat) (f : Thread → Thread) : (s.modThread g w l f).mbRej = s.mbRej := rfl
@[simp] theorem State.modThread_mbStatus (s : State) (g w l : Nat) (f : Thread → Thread) : (s.modThread g w l f).mbStatus = s.mbStatus := rfl
@[simp] theorem State.modThread_mbReply (s : State) (g w l : Nat) (f : Thread → Thread) : (s.modThread g w l f).mbReply = s.mbReply := rfl
@[simp] theorem State.modThread_phase (s : State) (g w l : Nat) (f : Thread → Thread) : (s.modThread g w l f).phase = s.phase := rfl
@[simp] theorem State.modThread_result (s : State) (g w l : Nat) (f : Thread → Thread) : (s.modThread g w l f).result = s.result := rfl
@[simp] theorem State.modThread_linksBad (s : State) (g w l : Nat) (f : Thread → Thread) : (s.modThread g w l f).linksBad = s.linksBad := rfl
@[simp] theorem State.modThread_retrain (s : State) (g w l : Nat) (f : Thread → Thread) : (s.modThread g w l f).retrain = s.retrain := rfl
@[simp] theorem State.modThread_startLog (s : State) (g w l : Nat) (f : Thread → Thread) : (s.modThread g w l f).startLog = s.startLog := rfl
@[simp] theorem State.modThread_coldDone (s : State) (g w l : Nat) (f : Thread → Thread) : (s.modThread g w l f).coldDone = s.coldDone := rfl
@[simp] theorem State.modThread_starting (s : State) (g w l : Nat) (f : Thread → Thread) : (s.modThread g w l f).starting = s.starting := rfl
@[simp] theorem State.modThread_logAt (s : State) (g w l : Nat) (f : Thread → Thread) : (s.modThread g w l f).logAt = s.logAt := rfl
@[simp] theorem State.modThread_firmware (s : State) (g w l : Nat) (f : Thread → Thread) : (s.modThread g w l f).firmware = s.firmware := rfl
@[simp] theorem State.modThread_fusedMin (s : State) (g w l : Nat) (f : Thread → Thread) : (s.modThread g w l f).fusedMin = s.fusedMin := rfl
@[simp] theorem State.modThread_clk (s : State) (g w l : Nat) (f : Thread → Thread) : (s.modThread g w l f).clk = s.clk := rfl
@[simp] theorem State.modThread_noUp (s : State) (g w l : Nat) (f : Thread → Thread) : (s.modThread g w l f).noUp = s.noUp := rfl
@[simp] theorem State.modThread_evalAt (s : State) (g w l : Nat) (f : Thread → Thread) : (s.modThread g w l f).evalAt = s.evalAt := rfl
@[simp] theorem State.modThread_netDropped (s : State) (g w l : Nat) (f : Thread → Thread) : (s.modThread g w l f).netDropped = s.netDropped := rfl
@[simp] theorem State.modThread_parts (s : State) (g w l : Nat) (f : Thread → Thread) : (s.modThread g w l f).parts = s.parts := rfl
@[simp] theorem State.modThread_partMoves (s : State) (g w l : Nat) (f : Thread → Thread) : (s.modThread g w l f).partMoves = s.partMoves := rfl
@[simp] theorem State.modThread_doorbells (s : State) (g w l : Nat) (f : Thread → Thread) : (s.modThread g w l f).doorbells = s.doorbells := rfl
@[simp] theorem State.modThread_mgmtLog (s : State) (g w l : Nat) (f : Thread → Thread) : (s.modThread g w l f).mgmtLog = s.mgmtLog := rfl
@[simp] theorem State.modThread_hdm (s : State) (g w l : Nat) (f : Thread → Thread) : (s.modThread g w l f).hdm = s.hdm := rfl
@[simp] theorem State.modThread_hostData (s : State) (g w l : Nat) (f : Thread → Thread) : (s.modThread g w l f).hostData = s.hostData := rfl
@[simp] theorem State.modThread_hostPoison (s : State) (g w l : Nat) (f : Thread → Thread) : (s.modThread g w l f).hostPoison = s.hostPoison := rfl

/-! ### modCore -/

@[simp] theorem State.modCore_inbox (s : State) (c : Nat) (f : Core → Core) : (s.modCore c f).inbox = s.inbox := rfl
@[simp] theorem State.modCore_cur (s : State) (c : Nat) (f : Core → Core) : (s.modCore c f).cur = s.cur := rfl
@[simp] theorem State.modCore_quadNext (s : State) (c : Nat) (f : Core → Core) : (s.modCore c f).quadNext = s.quadNext := rfl
@[simp] theorem State.modCore_unitBusy (s : State) (c : Nat) (f : Core → Core) : (s.modCore c f).unitBusy = s.unitBusy := rfl
@[simp] theorem State.modCore_freeIdx (s : State) (c : Nat) (f : Core → Core) : (s.modCore c f).freeIdx = s.freeIdx := rfl
@[simp] theorem State.modCore_nextId (s : State) (c : Nat) (f : Core → Core) : (s.modCore c f).nextId = s.nextId := rfl
@[simp] theorem State.modCore_clock (s : State) (c : Nat) (f : Core → Core) : (s.modCore c f).clock = s.clock := rfl
@[simp] theorem State.modCore_ns (s : State) (c : Nat) (f : Core → Core) : (s.modCore c f).ns = s.ns := rfl
@[simp] theorem State.modCore_hbm (s : State) (c : Nat) (f : Core → Core) : (s.modCore c f).hbm = s.hbm := rfl
@[simp] theorem State.modCore_hostMem (s : State) (c : Nat) (f : Core → Core) : (s.modCore c f).hostMem = s.hostMem := rfl
@[simp] theorem State.modCore_poison (s : State) (c : Nat) (f : Core → Core) : (s.modCore c f).poison = s.poison := rfl
@[simp] theorem State.modCore_sealMap (s : State) (c : Nat) (f : Core → Core) : (s.modCore c f).sealMap = s.sealMap := rfl
@[simp] theorem State.modCore_hostWritable (s : State) (c : Nat) (f : Core → Core) : (s.modCore c f).hostWritable = s.hostWritable := rfl
@[simp] theorem State.modCore_dies (s : State) (c : Nat) (f : Core → Core) : (s.modCore c f).dies = s.dies := rfl
@[simp] theorem State.modCore_ctxs (s : State) (c : Nat) (f : Core → Core) : (s.modCore c f).ctxs = s.ctxs := rfl
@[simp] theorem State.modCore_groups (s : State) (c : Nat) (f : Core → Core) : (s.modCore c f).groups = s.groups := rfl
@[simp] theorem State.modCore_launches (s : State) (c : Nat) (f : Core → Core) : (s.modCore c f).launches = s.launches := rfl
@[simp] theorem State.modCore_graphs (s : State) (c : Nat) (f : Core → Core) : (s.modCore c f).graphs = s.graphs := rfl
@[simp] theorem State.modCore_accesses (s : State) (c : Nat) (f : Core → Core) : (s.modCore c f).accesses = s.accesses := rfl
@[simp] theorem State.modCore_nameOps (s : State) (c : Nat) (f : Core → Core) : (s.modCore c f).nameOps = s.nameOps := rfl
@[simp] theorem State.modCore_joins (s : State) (c : Nat) (f : Core → Core) : (s.modCore c f).joins = s.joins := rfl
@[simp] theorem State.modCore_counts (s : State) (c : Nat) (f : Core → Core) : (s.modCore c f).counts = s.counts := rfl
@[simp] theorem State.modCore_pushes (s : State) (c : Nat) (f : Core → Core) : (s.modCore c f).pushes = s.pushes := rfl
@[simp] theorem State.modCore_takes (s : State) (c : Nat) (f : Core → Core) : (s.modCore c f).takes = s.takes := rfl
@[simp] theorem State.modCore_matrix (s : State) (c : Nat) (f : Core → Core) : (s.modCore c f).matrix = s.matrix := rfl
@[simp] theorem State.modCore_ldtos (s : State) (c : Nat) (f : Core → Core) : (s.modCore c f).ldtos = s.ldtos := rfl
@[simp] theorem State.modCore_hbarMsgs (s : State) (c : Nat) (f : Core → Core) : (s.modCore c f).hbarMsgs = s.hbarMsgs := rfl
@[simp] theorem State.modCore_hsquares (s : State) (c : Nat) (f : Core → Core) : (s.modCore c f).hsquares = s.hsquares := rfl
@[simp] theorem State.modCore_packets (s : State) (c : Nat) (f : Core → Core) : (s.modCore c f).packets = s.packets := rfl
@[simp] theorem State.modCore_netReqs (s : State) (c : Nat) (f : Core → Core) : (s.modCore c f).netReqs = s.netReqs := rfl
@[simp] theorem State.modCore_migrating (s : State) (c : Nat) (f : Core → Core) : (s.modCore c f).migrating = s.migrating := rfl
@[simp] theorem State.modCore_moves (s : State) (c : Nat) (f : Core → Core) : (s.modCore c f).moves = s.moves := rfl
@[simp] theorem State.modCore_remotes (s : State) (c : Nat) (f : Core → Core) : (s.modCore c f).remotes = s.remotes := rfl
@[simp] theorem State.modCore_allowances (s : State) (c : Nat) (f : Core → Core) : (s.modCore c f).allowances = s.allowances := rfl
@[simp] theorem State.modCore_peerGrants (s : State) (c : Nat) (f : Core → Core) : (s.modCore c f).peerGrants = s.peerGrants := rfl
@[simp] theorem State.modCore_streets (s : State) (c : Nat) (f : Core → Core) : (s.modCore c f).streets = s.streets := rfl
@[simp] theorem State.modCore_deadStreets (s : State) (c : Nat) (f : Core → Core) : (s.modCore c f).deadStreets = s.deadStreets := rfl
@[simp] theorem State.modCore_links (s : State) (c : Nat) (f : Core → Core) : (s.modCore c f).links = s.links := rfl
@[simp] theorem State.modCore_vfs (s : State) (c : Nat) (f : Core → Core) : (s.modCore c f).vfs = s.vfs := rfl
@[simp] theorem State.modCore_device (s : State) (c : Nat) (f : Core → Core) : (s.modCore c f).device = s.device := rfl
@[simp] theorem State.modCore_stepping (s : State) (c : Nat) (f : Core → Core) : (s.modCore c f).stepping = s.stepping := rfl
@[simp] theorem State.modCore_harts (s : State) (c : Nat) (f : Core → Core) : (s.modCore c f).harts = s.harts := rfl
@[simp] theorem State.modCore_notifies (s : State) (c : Nat) (f : Core → Core) : (s.modCore c f).notifies = s.notifies := rfl
@[simp] theorem State.modCore_msis (s : State) (c : Nat) (f : Core → Core) : (s.modCore c f).msis = s.msis := rfl
@[simp] theorem State.modCore_ports (s : State) (c : Nat) (f : Core → Core) : (s.modCore c f).ports = s.ports := rfl
@[simp] theorem State.modCore_mbArgs (s : State) (c : Nat) (f : Core → Core) : (s.modCore c f).mbArgs = s.mbArgs := rfl
@[simp] theorem State.modCore_mbBusy (s : State) (c : Nat) (f : Core → Core) : (s.modCore c f).mbBusy = s.mbBusy := rfl
@[simp] theorem State.modCore_mbCmd (s : State) (c : Nat) (f : Core → Core) : (s.modCore c f).mbCmd = s.mbCmd := rfl
@[simp] theorem State.modCore_mbRej (s : State) (c : Nat) (f : Core → Core) : (s.modCore c f).mbRej = s.mbRej := rfl
@[simp] theorem State.modCore_mbStatus (s : State) (c : Nat) (f : Core → Core) : (s.modCore c f).mbStatus = s.mbStatus := rfl
@[simp] theorem State.modCore_mbReply (s : State) (c : Nat) (f : Core → Core) : (s.modCore c f).mbReply = s.mbReply := rfl
@[simp] theorem State.modCore_phase (s : State) (c : Nat) (f : Core → Core) : (s.modCore c f).phase = s.phase := rfl
@[simp] theorem State.modCore_result (s : State) (c : Nat) (f : Core → Core) : (s.modCore c f).result = s.result := rfl
@[simp] theorem State.modCore_linksBad (s : State) (c : Nat) (f : Core → Core) : (s.modCore c f).linksBad = s.linksBad := rfl
@[simp] theorem State.modCore_retrain (s : State) (c : Nat) (f : Core → Core) : (s.modCore c f).retrain = s.retrain := rfl
@[simp] theorem State.modCore_startLog (s : State) (c : Nat) (f : Core → Core) : (s.modCore c f).startLog = s.startLog := rfl
@[simp] theorem State.modCore_coldDone (s : State) (c : Nat) (f : Core → Core) : (s.modCore c f).coldDone = s.coldDone := rfl
@[simp] theorem State.modCore_starting (s : State) (c : Nat) (f : Core → Core) : (s.modCore c f).starting = s.starting := rfl
@[simp] theorem State.modCore_logAt (s : State) (c : Nat) (f : Core → Core) : (s.modCore c f).logAt = s.logAt := rfl
@[simp] theorem State.modCore_firmware (s : State) (c : Nat) (f : Core → Core) : (s.modCore c f).firmware = s.firmware := rfl
@[simp] theorem State.modCore_fusedMin (s : State) (c : Nat) (f : Core → Core) : (s.modCore c f).fusedMin = s.fusedMin := rfl
@[simp] theorem State.modCore_clk (s : State) (c : Nat) (f : Core → Core) : (s.modCore c f).clk = s.clk := rfl
@[simp] theorem State.modCore_noUp (s : State) (c : Nat) (f : Core → Core) : (s.modCore c f).noUp = s.noUp := rfl
@[simp] theorem State.modCore_evalAt (s : State) (c : Nat) (f : Core → Core) : (s.modCore c f).evalAt = s.evalAt := rfl
@[simp] theorem State.modCore_netDropped (s : State) (c : Nat) (f : Core → Core) : (s.modCore c f).netDropped = s.netDropped := rfl
@[simp] theorem State.modCore_parts (s : State) (c : Nat) (f : Core → Core) : (s.modCore c f).parts = s.parts := rfl
@[simp] theorem State.modCore_partMoves (s : State) (c : Nat) (f : Core → Core) : (s.modCore c f).partMoves = s.partMoves := rfl
@[simp] theorem State.modCore_doorbells (s : State) (c : Nat) (f : Core → Core) : (s.modCore c f).doorbells = s.doorbells := rfl
@[simp] theorem State.modCore_mgmtLog (s : State) (c : Nat) (f : Core → Core) : (s.modCore c f).mgmtLog = s.mgmtLog := rfl
@[simp] theorem State.modCore_hdm (s : State) (c : Nat) (f : Core → Core) : (s.modCore c f).hdm = s.hdm := rfl
@[simp] theorem State.modCore_hostData (s : State) (c : Nat) (f : Core → Core) : (s.modCore c f).hostData = s.hostData := rfl
@[simp] theorem State.modCore_hostPoison (s : State) (c : Nat) (f : Core → Core) : (s.modCore c f).hostPoison = s.hostPoison := rfl

/-! ### modDie -/

@[simp] theorem State.modDie_inbox (s : State) (d : Nat) (f : Die → Die) : (s.modDie d f).inbox = s.inbox := rfl
@[simp] theorem State.modDie_cur (s : State) (d : Nat) (f : Die → Die) : (s.modDie d f).cur = s.cur := rfl
@[simp] theorem State.modDie_quadNext (s : State) (d : Nat) (f : Die → Die) : (s.modDie d f).quadNext = s.quadNext := rfl
@[simp] theorem State.modDie_unitBusy (s : State) (d : Nat) (f : Die → Die) : (s.modDie d f).unitBusy = s.unitBusy := rfl
@[simp] theorem State.modDie_freeIdx (s : State) (d : Nat) (f : Die → Die) : (s.modDie d f).freeIdx = s.freeIdx := rfl
@[simp] theorem State.modDie_nextId (s : State) (d : Nat) (f : Die → Die) : (s.modDie d f).nextId = s.nextId := rfl
@[simp] theorem State.modDie_clock (s : State) (d : Nat) (f : Die → Die) : (s.modDie d f).clock = s.clock := rfl
@[simp] theorem State.modDie_ns (s : State) (d : Nat) (f : Die → Die) : (s.modDie d f).ns = s.ns := rfl
@[simp] theorem State.modDie_hbm (s : State) (d : Nat) (f : Die → Die) : (s.modDie d f).hbm = s.hbm := rfl
@[simp] theorem State.modDie_hostMem (s : State) (d : Nat) (f : Die → Die) : (s.modDie d f).hostMem = s.hostMem := rfl
@[simp] theorem State.modDie_poison (s : State) (d : Nat) (f : Die → Die) : (s.modDie d f).poison = s.poison := rfl
@[simp] theorem State.modDie_sealMap (s : State) (d : Nat) (f : Die → Die) : (s.modDie d f).sealMap = s.sealMap := rfl
@[simp] theorem State.modDie_hostWritable (s : State) (d : Nat) (f : Die → Die) : (s.modDie d f).hostWritable = s.hostWritable := rfl
@[simp] theorem State.modDie_cores (s : State) (d : Nat) (f : Die → Die) : (s.modDie d f).cores = s.cores := rfl
@[simp] theorem State.modDie_ctxs (s : State) (d : Nat) (f : Die → Die) : (s.modDie d f).ctxs = s.ctxs := rfl
@[simp] theorem State.modDie_groups (s : State) (d : Nat) (f : Die → Die) : (s.modDie d f).groups = s.groups := rfl
@[simp] theorem State.modDie_launches (s : State) (d : Nat) (f : Die → Die) : (s.modDie d f).launches = s.launches := rfl
@[simp] theorem State.modDie_graphs (s : State) (d : Nat) (f : Die → Die) : (s.modDie d f).graphs = s.graphs := rfl
@[simp] theorem State.modDie_accesses (s : State) (d : Nat) (f : Die → Die) : (s.modDie d f).accesses = s.accesses := rfl
@[simp] theorem State.modDie_nameOps (s : State) (d : Nat) (f : Die → Die) : (s.modDie d f).nameOps = s.nameOps := rfl
@[simp] theorem State.modDie_joins (s : State) (d : Nat) (f : Die → Die) : (s.modDie d f).joins = s.joins := rfl
@[simp] theorem State.modDie_counts (s : State) (d : Nat) (f : Die → Die) : (s.modDie d f).counts = s.counts := rfl
@[simp] theorem State.modDie_pushes (s : State) (d : Nat) (f : Die → Die) : (s.modDie d f).pushes = s.pushes := rfl
@[simp] theorem State.modDie_takes (s : State) (d : Nat) (f : Die → Die) : (s.modDie d f).takes = s.takes := rfl
@[simp] theorem State.modDie_matrix (s : State) (d : Nat) (f : Die → Die) : (s.modDie d f).matrix = s.matrix := rfl
@[simp] theorem State.modDie_ldtos (s : State) (d : Nat) (f : Die → Die) : (s.modDie d f).ldtos = s.ldtos := rfl
@[simp] theorem State.modDie_hbarMsgs (s : State) (d : Nat) (f : Die → Die) : (s.modDie d f).hbarMsgs = s.hbarMsgs := rfl
@[simp] theorem State.modDie_hsquares (s : State) (d : Nat) (f : Die → Die) : (s.modDie d f).hsquares = s.hsquares := rfl
@[simp] theorem State.modDie_packets (s : State) (d : Nat) (f : Die → Die) : (s.modDie d f).packets = s.packets := rfl
@[simp] theorem State.modDie_netReqs (s : State) (d : Nat) (f : Die → Die) : (s.modDie d f).netReqs = s.netReqs := rfl
@[simp] theorem State.modDie_migrating (s : State) (d : Nat) (f : Die → Die) : (s.modDie d f).migrating = s.migrating := rfl
@[simp] theorem State.modDie_moves (s : State) (d : Nat) (f : Die → Die) : (s.modDie d f).moves = s.moves := rfl
@[simp] theorem State.modDie_remotes (s : State) (d : Nat) (f : Die → Die) : (s.modDie d f).remotes = s.remotes := rfl
@[simp] theorem State.modDie_allowances (s : State) (d : Nat) (f : Die → Die) : (s.modDie d f).allowances = s.allowances := rfl
@[simp] theorem State.modDie_peerGrants (s : State) (d : Nat) (f : Die → Die) : (s.modDie d f).peerGrants = s.peerGrants := rfl
@[simp] theorem State.modDie_streets (s : State) (d : Nat) (f : Die → Die) : (s.modDie d f).streets = s.streets := rfl
@[simp] theorem State.modDie_deadStreets (s : State) (d : Nat) (f : Die → Die) : (s.modDie d f).deadStreets = s.deadStreets := rfl
@[simp] theorem State.modDie_links (s : State) (d : Nat) (f : Die → Die) : (s.modDie d f).links = s.links := rfl
@[simp] theorem State.modDie_vfs (s : State) (d : Nat) (f : Die → Die) : (s.modDie d f).vfs = s.vfs := rfl
@[simp] theorem State.modDie_device (s : State) (d : Nat) (f : Die → Die) : (s.modDie d f).device = s.device := rfl
@[simp] theorem State.modDie_stepping (s : State) (d : Nat) (f : Die → Die) : (s.modDie d f).stepping = s.stepping := rfl
@[simp] theorem State.modDie_harts (s : State) (d : Nat) (f : Die → Die) : (s.modDie d f).harts = s.harts := rfl
@[simp] theorem State.modDie_notifies (s : State) (d : Nat) (f : Die → Die) : (s.modDie d f).notifies = s.notifies := rfl
@[simp] theorem State.modDie_msis (s : State) (d : Nat) (f : Die → Die) : (s.modDie d f).msis = s.msis := rfl
@[simp] theorem State.modDie_ports (s : State) (d : Nat) (f : Die → Die) : (s.modDie d f).ports = s.ports := rfl
@[simp] theorem State.modDie_mbArgs (s : State) (d : Nat) (f : Die → Die) : (s.modDie d f).mbArgs = s.mbArgs := rfl
@[simp] theorem State.modDie_mbBusy (s : State) (d : Nat) (f : Die → Die) : (s.modDie d f).mbBusy = s.mbBusy := rfl
@[simp] theorem State.modDie_mbCmd (s : State) (d : Nat) (f : Die → Die) : (s.modDie d f).mbCmd = s.mbCmd := rfl
@[simp] theorem State.modDie_mbRej (s : State) (d : Nat) (f : Die → Die) : (s.modDie d f).mbRej = s.mbRej := rfl
@[simp] theorem State.modDie_mbStatus (s : State) (d : Nat) (f : Die → Die) : (s.modDie d f).mbStatus = s.mbStatus := rfl
@[simp] theorem State.modDie_mbReply (s : State) (d : Nat) (f : Die → Die) : (s.modDie d f).mbReply = s.mbReply := rfl
@[simp] theorem State.modDie_phase (s : State) (d : Nat) (f : Die → Die) : (s.modDie d f).phase = s.phase := rfl
@[simp] theorem State.modDie_result (s : State) (d : Nat) (f : Die → Die) : (s.modDie d f).result = s.result := rfl
@[simp] theorem State.modDie_linksBad (s : State) (d : Nat) (f : Die → Die) : (s.modDie d f).linksBad = s.linksBad := rfl
@[simp] theorem State.modDie_retrain (s : State) (d : Nat) (f : Die → Die) : (s.modDie d f).retrain = s.retrain := rfl
@[simp] theorem State.modDie_startLog (s : State) (d : Nat) (f : Die → Die) : (s.modDie d f).startLog = s.startLog := rfl
@[simp] theorem State.modDie_coldDone (s : State) (d : Nat) (f : Die → Die) : (s.modDie d f).coldDone = s.coldDone := rfl
@[simp] theorem State.modDie_starting (s : State) (d : Nat) (f : Die → Die) : (s.modDie d f).starting = s.starting := rfl
@[simp] theorem State.modDie_logAt (s : State) (d : Nat) (f : Die → Die) : (s.modDie d f).logAt = s.logAt := rfl
@[simp] theorem State.modDie_firmware (s : State) (d : Nat) (f : Die → Die) : (s.modDie d f).firmware = s.firmware := rfl
@[simp] theorem State.modDie_fusedMin (s : State) (d : Nat) (f : Die → Die) : (s.modDie d f).fusedMin = s.fusedMin := rfl
@[simp] theorem State.modDie_clk (s : State) (d : Nat) (f : Die → Die) : (s.modDie d f).clk = s.clk := rfl
@[simp] theorem State.modDie_noUp (s : State) (d : Nat) (f : Die → Die) : (s.modDie d f).noUp = s.noUp := rfl
@[simp] theorem State.modDie_evalAt (s : State) (d : Nat) (f : Die → Die) : (s.modDie d f).evalAt = s.evalAt := rfl
@[simp] theorem State.modDie_netDropped (s : State) (d : Nat) (f : Die → Die) : (s.modDie d f).netDropped = s.netDropped := rfl
@[simp] theorem State.modDie_parts (s : State) (d : Nat) (f : Die → Die) : (s.modDie d f).parts = s.parts := rfl
@[simp] theorem State.modDie_partMoves (s : State) (d : Nat) (f : Die → Die) : (s.modDie d f).partMoves = s.partMoves := rfl
@[simp] theorem State.modDie_doorbells (s : State) (d : Nat) (f : Die → Die) : (s.modDie d f).doorbells = s.doorbells := rfl
@[simp] theorem State.modDie_mgmtLog (s : State) (d : Nat) (f : Die → Die) : (s.modDie d f).mgmtLog = s.mgmtLog := rfl
@[simp] theorem State.modDie_hdm (s : State) (d : Nat) (f : Die → Die) : (s.modDie d f).hdm = s.hdm := rfl
@[simp] theorem State.modDie_hostData (s : State) (d : Nat) (f : Die → Die) : (s.modDie d f).hostData = s.hostData := rfl
@[simp] theorem State.modDie_hostPoison (s : State) (d : Nat) (f : Die → Die) : (s.modDie d f).hostPoison = s.hostPoison := rfl

/-! ### modCtx -/

@[simp] theorem State.modCtx_inbox (s : State) (c : Nat) (f : Ctx → Ctx) : (s.modCtx c f).inbox = s.inbox := rfl
@[simp] theorem State.modCtx_cur (s : State) (c : Nat) (f : Ctx → Ctx) : (s.modCtx c f).cur = s.cur := rfl
@[simp] theorem State.modCtx_quadNext (s : State) (c : Nat) (f : Ctx → Ctx) : (s.modCtx c f).quadNext = s.quadNext := rfl
@[simp] theorem State.modCtx_unitBusy (s : State) (c : Nat) (f : Ctx → Ctx) : (s.modCtx c f).unitBusy = s.unitBusy := rfl
@[simp] theorem State.modCtx_freeIdx (s : State) (c : Nat) (f : Ctx → Ctx) : (s.modCtx c f).freeIdx = s.freeIdx := rfl
@[simp] theorem State.modCtx_nextId (s : State) (c : Nat) (f : Ctx → Ctx) : (s.modCtx c f).nextId = s.nextId := rfl
@[simp] theorem State.modCtx_clock (s : State) (c : Nat) (f : Ctx → Ctx) : (s.modCtx c f).clock = s.clock := rfl
@[simp] theorem State.modCtx_ns (s : State) (c : Nat) (f : Ctx → Ctx) : (s.modCtx c f).ns = s.ns := rfl
@[simp] theorem State.modCtx_hbm (s : State) (c : Nat) (f : Ctx → Ctx) : (s.modCtx c f).hbm = s.hbm := rfl
@[simp] theorem State.modCtx_hostMem (s : State) (c : Nat) (f : Ctx → Ctx) : (s.modCtx c f).hostMem = s.hostMem := rfl
@[simp] theorem State.modCtx_poison (s : State) (c : Nat) (f : Ctx → Ctx) : (s.modCtx c f).poison = s.poison := rfl
@[simp] theorem State.modCtx_sealMap (s : State) (c : Nat) (f : Ctx → Ctx) : (s.modCtx c f).sealMap = s.sealMap := rfl
@[simp] theorem State.modCtx_hostWritable (s : State) (c : Nat) (f : Ctx → Ctx) : (s.modCtx c f).hostWritable = s.hostWritable := rfl
@[simp] theorem State.modCtx_cores (s : State) (c : Nat) (f : Ctx → Ctx) : (s.modCtx c f).cores = s.cores := rfl
@[simp] theorem State.modCtx_dies (s : State) (c : Nat) (f : Ctx → Ctx) : (s.modCtx c f).dies = s.dies := rfl
@[simp] theorem State.modCtx_groups (s : State) (c : Nat) (f : Ctx → Ctx) : (s.modCtx c f).groups = s.groups := rfl
@[simp] theorem State.modCtx_launches (s : State) (c : Nat) (f : Ctx → Ctx) : (s.modCtx c f).launches = s.launches := rfl
@[simp] theorem State.modCtx_graphs (s : State) (c : Nat) (f : Ctx → Ctx) : (s.modCtx c f).graphs = s.graphs := rfl
@[simp] theorem State.modCtx_accesses (s : State) (c : Nat) (f : Ctx → Ctx) : (s.modCtx c f).accesses = s.accesses := rfl
@[simp] theorem State.modCtx_nameOps (s : State) (c : Nat) (f : Ctx → Ctx) : (s.modCtx c f).nameOps = s.nameOps := rfl
@[simp] theorem State.modCtx_joins (s : State) (c : Nat) (f : Ctx → Ctx) : (s.modCtx c f).joins = s.joins := rfl
@[simp] theorem State.modCtx_counts (s : State) (c : Nat) (f : Ctx → Ctx) : (s.modCtx c f).counts = s.counts := rfl
@[simp] theorem State.modCtx_pushes (s : State) (c : Nat) (f : Ctx → Ctx) : (s.modCtx c f).pushes = s.pushes := rfl
@[simp] theorem State.modCtx_takes (s : State) (c : Nat) (f : Ctx → Ctx) : (s.modCtx c f).takes = s.takes := rfl
@[simp] theorem State.modCtx_matrix (s : State) (c : Nat) (f : Ctx → Ctx) : (s.modCtx c f).matrix = s.matrix := rfl
@[simp] theorem State.modCtx_ldtos (s : State) (c : Nat) (f : Ctx → Ctx) : (s.modCtx c f).ldtos = s.ldtos := rfl
@[simp] theorem State.modCtx_hbarMsgs (s : State) (c : Nat) (f : Ctx → Ctx) : (s.modCtx c f).hbarMsgs = s.hbarMsgs := rfl
@[simp] theorem State.modCtx_hsquares (s : State) (c : Nat) (f : Ctx → Ctx) : (s.modCtx c f).hsquares = s.hsquares := rfl
@[simp] theorem State.modCtx_packets (s : State) (c : Nat) (f : Ctx → Ctx) : (s.modCtx c f).packets = s.packets := rfl
@[simp] theorem State.modCtx_netReqs (s : State) (c : Nat) (f : Ctx → Ctx) : (s.modCtx c f).netReqs = s.netReqs := rfl
@[simp] theorem State.modCtx_migrating (s : State) (c : Nat) (f : Ctx → Ctx) : (s.modCtx c f).migrating = s.migrating := rfl
@[simp] theorem State.modCtx_moves (s : State) (c : Nat) (f : Ctx → Ctx) : (s.modCtx c f).moves = s.moves := rfl
@[simp] theorem State.modCtx_remotes (s : State) (c : Nat) (f : Ctx → Ctx) : (s.modCtx c f).remotes = s.remotes := rfl
@[simp] theorem State.modCtx_allowances (s : State) (c : Nat) (f : Ctx → Ctx) : (s.modCtx c f).allowances = s.allowances := rfl
@[simp] theorem State.modCtx_peerGrants (s : State) (c : Nat) (f : Ctx → Ctx) : (s.modCtx c f).peerGrants = s.peerGrants := rfl
@[simp] theorem State.modCtx_streets (s : State) (c : Nat) (f : Ctx → Ctx) : (s.modCtx c f).streets = s.streets := rfl
@[simp] theorem State.modCtx_deadStreets (s : State) (c : Nat) (f : Ctx → Ctx) : (s.modCtx c f).deadStreets = s.deadStreets := rfl
@[simp] theorem State.modCtx_links (s : State) (c : Nat) (f : Ctx → Ctx) : (s.modCtx c f).links = s.links := rfl
@[simp] theorem State.modCtx_vfs (s : State) (c : Nat) (f : Ctx → Ctx) : (s.modCtx c f).vfs = s.vfs := rfl
@[simp] theorem State.modCtx_device (s : State) (c : Nat) (f : Ctx → Ctx) : (s.modCtx c f).device = s.device := rfl
@[simp] theorem State.modCtx_stepping (s : State) (c : Nat) (f : Ctx → Ctx) : (s.modCtx c f).stepping = s.stepping := rfl
@[simp] theorem State.modCtx_harts (s : State) (c : Nat) (f : Ctx → Ctx) : (s.modCtx c f).harts = s.harts := rfl
@[simp] theorem State.modCtx_notifies (s : State) (c : Nat) (f : Ctx → Ctx) : (s.modCtx c f).notifies = s.notifies := rfl
@[simp] theorem State.modCtx_msis (s : State) (c : Nat) (f : Ctx → Ctx) : (s.modCtx c f).msis = s.msis := rfl
@[simp] theorem State.modCtx_ports (s : State) (c : Nat) (f : Ctx → Ctx) : (s.modCtx c f).ports = s.ports := rfl
@[simp] theorem State.modCtx_mbArgs (s : State) (c : Nat) (f : Ctx → Ctx) : (s.modCtx c f).mbArgs = s.mbArgs := rfl
@[simp] theorem State.modCtx_mbBusy (s : State) (c : Nat) (f : Ctx → Ctx) : (s.modCtx c f).mbBusy = s.mbBusy := rfl
@[simp] theorem State.modCtx_mbCmd (s : State) (c : Nat) (f : Ctx → Ctx) : (s.modCtx c f).mbCmd = s.mbCmd := rfl
@[simp] theorem State.modCtx_mbRej (s : State) (c : Nat) (f : Ctx → Ctx) : (s.modCtx c f).mbRej = s.mbRej := rfl
@[simp] theorem State.modCtx_mbStatus (s : State) (c : Nat) (f : Ctx → Ctx) : (s.modCtx c f).mbStatus = s.mbStatus := rfl
@[simp] theorem State.modCtx_mbReply (s : State) (c : Nat) (f : Ctx → Ctx) : (s.modCtx c f).mbReply = s.mbReply := rfl
@[simp] theorem State.modCtx_phase (s : State) (c : Nat) (f : Ctx → Ctx) : (s.modCtx c f).phase = s.phase := rfl
@[simp] theorem State.modCtx_result (s : State) (c : Nat) (f : Ctx → Ctx) : (s.modCtx c f).result = s.result := rfl
@[simp] theorem State.modCtx_linksBad (s : State) (c : Nat) (f : Ctx → Ctx) : (s.modCtx c f).linksBad = s.linksBad := rfl
@[simp] theorem State.modCtx_retrain (s : State) (c : Nat) (f : Ctx → Ctx) : (s.modCtx c f).retrain = s.retrain := rfl
@[simp] theorem State.modCtx_startLog (s : State) (c : Nat) (f : Ctx → Ctx) : (s.modCtx c f).startLog = s.startLog := rfl
@[simp] theorem State.modCtx_coldDone (s : State) (c : Nat) (f : Ctx → Ctx) : (s.modCtx c f).coldDone = s.coldDone := rfl
@[simp] theorem State.modCtx_starting (s : State) (c : Nat) (f : Ctx → Ctx) : (s.modCtx c f).starting = s.starting := rfl
@[simp] theorem State.modCtx_logAt (s : State) (c : Nat) (f : Ctx → Ctx) : (s.modCtx c f).logAt = s.logAt := rfl
@[simp] theorem State.modCtx_firmware (s : State) (c : Nat) (f : Ctx → Ctx) : (s.modCtx c f).firmware = s.firmware := rfl
@[simp] theorem State.modCtx_fusedMin (s : State) (c : Nat) (f : Ctx → Ctx) : (s.modCtx c f).fusedMin = s.fusedMin := rfl
@[simp] theorem State.modCtx_clk (s : State) (c : Nat) (f : Ctx → Ctx) : (s.modCtx c f).clk = s.clk := rfl
@[simp] theorem State.modCtx_noUp (s : State) (c : Nat) (f : Ctx → Ctx) : (s.modCtx c f).noUp = s.noUp := rfl
@[simp] theorem State.modCtx_evalAt (s : State) (c : Nat) (f : Ctx → Ctx) : (s.modCtx c f).evalAt = s.evalAt := rfl
@[simp] theorem State.modCtx_netDropped (s : State) (c : Nat) (f : Ctx → Ctx) : (s.modCtx c f).netDropped = s.netDropped := rfl
@[simp] theorem State.modCtx_parts (s : State) (c : Nat) (f : Ctx → Ctx) : (s.modCtx c f).parts = s.parts := rfl
@[simp] theorem State.modCtx_partMoves (s : State) (c : Nat) (f : Ctx → Ctx) : (s.modCtx c f).partMoves = s.partMoves := rfl
@[simp] theorem State.modCtx_doorbells (s : State) (c : Nat) (f : Ctx → Ctx) : (s.modCtx c f).doorbells = s.doorbells := rfl
@[simp] theorem State.modCtx_mgmtLog (s : State) (c : Nat) (f : Ctx → Ctx) : (s.modCtx c f).mgmtLog = s.mgmtLog := rfl
@[simp] theorem State.modCtx_hdm (s : State) (c : Nat) (f : Ctx → Ctx) : (s.modCtx c f).hdm = s.hdm := rfl
@[simp] theorem State.modCtx_hostData (s : State) (c : Nat) (f : Ctx → Ctx) : (s.modCtx c f).hostData = s.hostData := rfl
@[simp] theorem State.modCtx_hostPoison (s : State) (c : Nat) (f : Ctx → Ctx) : (s.modCtx c f).hostPoison = s.hostPoison := rfl

/-! ### modRemote -/

@[simp] theorem State.modRemote_inbox (s : State) (d : Dest) (f : Remote → Remote) : (s.modRemote d f).inbox = s.inbox := rfl
@[simp] theorem State.modRemote_cur (s : State) (d : Dest) (f : Remote → Remote) : (s.modRemote d f).cur = s.cur := rfl
@[simp] theorem State.modRemote_quadNext (s : State) (d : Dest) (f : Remote → Remote) : (s.modRemote d f).quadNext = s.quadNext := rfl
@[simp] theorem State.modRemote_unitBusy (s : State) (d : Dest) (f : Remote → Remote) : (s.modRemote d f).unitBusy = s.unitBusy := rfl
@[simp] theorem State.modRemote_freeIdx (s : State) (d : Dest) (f : Remote → Remote) : (s.modRemote d f).freeIdx = s.freeIdx := rfl
@[simp] theorem State.modRemote_nextId (s : State) (d : Dest) (f : Remote → Remote) : (s.modRemote d f).nextId = s.nextId := rfl
@[simp] theorem State.modRemote_clock (s : State) (d : Dest) (f : Remote → Remote) : (s.modRemote d f).clock = s.clock := rfl
@[simp] theorem State.modRemote_ns (s : State) (d : Dest) (f : Remote → Remote) : (s.modRemote d f).ns = s.ns := rfl
@[simp] theorem State.modRemote_hbm (s : State) (d : Dest) (f : Remote → Remote) : (s.modRemote d f).hbm = s.hbm := rfl
@[simp] theorem State.modRemote_hostMem (s : State) (d : Dest) (f : Remote → Remote) : (s.modRemote d f).hostMem = s.hostMem := rfl
@[simp] theorem State.modRemote_poison (s : State) (d : Dest) (f : Remote → Remote) : (s.modRemote d f).poison = s.poison := rfl
@[simp] theorem State.modRemote_sealMap (s : State) (d : Dest) (f : Remote → Remote) : (s.modRemote d f).sealMap = s.sealMap := rfl
@[simp] theorem State.modRemote_hostWritable (s : State) (d : Dest) (f : Remote → Remote) : (s.modRemote d f).hostWritable = s.hostWritable := rfl
@[simp] theorem State.modRemote_cores (s : State) (d : Dest) (f : Remote → Remote) : (s.modRemote d f).cores = s.cores := rfl
@[simp] theorem State.modRemote_dies (s : State) (d : Dest) (f : Remote → Remote) : (s.modRemote d f).dies = s.dies := rfl
@[simp] theorem State.modRemote_ctxs (s : State) (d : Dest) (f : Remote → Remote) : (s.modRemote d f).ctxs = s.ctxs := rfl
@[simp] theorem State.modRemote_groups (s : State) (d : Dest) (f : Remote → Remote) : (s.modRemote d f).groups = s.groups := rfl
@[simp] theorem State.modRemote_launches (s : State) (d : Dest) (f : Remote → Remote) : (s.modRemote d f).launches = s.launches := rfl
@[simp] theorem State.modRemote_graphs (s : State) (d : Dest) (f : Remote → Remote) : (s.modRemote d f).graphs = s.graphs := rfl
@[simp] theorem State.modRemote_accesses (s : State) (d : Dest) (f : Remote → Remote) : (s.modRemote d f).accesses = s.accesses := rfl
@[simp] theorem State.modRemote_nameOps (s : State) (d : Dest) (f : Remote → Remote) : (s.modRemote d f).nameOps = s.nameOps := rfl
@[simp] theorem State.modRemote_joins (s : State) (d : Dest) (f : Remote → Remote) : (s.modRemote d f).joins = s.joins := rfl
@[simp] theorem State.modRemote_counts (s : State) (d : Dest) (f : Remote → Remote) : (s.modRemote d f).counts = s.counts := rfl
@[simp] theorem State.modRemote_pushes (s : State) (d : Dest) (f : Remote → Remote) : (s.modRemote d f).pushes = s.pushes := rfl
@[simp] theorem State.modRemote_takes (s : State) (d : Dest) (f : Remote → Remote) : (s.modRemote d f).takes = s.takes := rfl
@[simp] theorem State.modRemote_matrix (s : State) (d : Dest) (f : Remote → Remote) : (s.modRemote d f).matrix = s.matrix := rfl
@[simp] theorem State.modRemote_ldtos (s : State) (d : Dest) (f : Remote → Remote) : (s.modRemote d f).ldtos = s.ldtos := rfl
@[simp] theorem State.modRemote_hbarMsgs (s : State) (d : Dest) (f : Remote → Remote) : (s.modRemote d f).hbarMsgs = s.hbarMsgs := rfl
@[simp] theorem State.modRemote_hsquares (s : State) (d : Dest) (f : Remote → Remote) : (s.modRemote d f).hsquares = s.hsquares := rfl
@[simp] theorem State.modRemote_packets (s : State) (d : Dest) (f : Remote → Remote) : (s.modRemote d f).packets = s.packets := rfl
@[simp] theorem State.modRemote_netReqs (s : State) (d : Dest) (f : Remote → Remote) : (s.modRemote d f).netReqs = s.netReqs := rfl
@[simp] theorem State.modRemote_migrating (s : State) (d : Dest) (f : Remote → Remote) : (s.modRemote d f).migrating = s.migrating := rfl
@[simp] theorem State.modRemote_moves (s : State) (d : Dest) (f : Remote → Remote) : (s.modRemote d f).moves = s.moves := rfl
@[simp] theorem State.modRemote_allowances (s : State) (d : Dest) (f : Remote → Remote) : (s.modRemote d f).allowances = s.allowances := rfl
@[simp] theorem State.modRemote_peerGrants (s : State) (d : Dest) (f : Remote → Remote) : (s.modRemote d f).peerGrants = s.peerGrants := rfl
@[simp] theorem State.modRemote_streets (s : State) (d : Dest) (f : Remote → Remote) : (s.modRemote d f).streets = s.streets := rfl
@[simp] theorem State.modRemote_deadStreets (s : State) (d : Dest) (f : Remote → Remote) : (s.modRemote d f).deadStreets = s.deadStreets := rfl
@[simp] theorem State.modRemote_links (s : State) (d : Dest) (f : Remote → Remote) : (s.modRemote d f).links = s.links := rfl
@[simp] theorem State.modRemote_vfs (s : State) (d : Dest) (f : Remote → Remote) : (s.modRemote d f).vfs = s.vfs := rfl
@[simp] theorem State.modRemote_device (s : State) (d : Dest) (f : Remote → Remote) : (s.modRemote d f).device = s.device := rfl
@[simp] theorem State.modRemote_stepping (s : State) (d : Dest) (f : Remote → Remote) : (s.modRemote d f).stepping = s.stepping := rfl
@[simp] theorem State.modRemote_harts (s : State) (d : Dest) (f : Remote → Remote) : (s.modRemote d f).harts = s.harts := rfl
@[simp] theorem State.modRemote_notifies (s : State) (d : Dest) (f : Remote → Remote) : (s.modRemote d f).notifies = s.notifies := rfl
@[simp] theorem State.modRemote_msis (s : State) (d : Dest) (f : Remote → Remote) : (s.modRemote d f).msis = s.msis := rfl
@[simp] theorem State.modRemote_ports (s : State) (d : Dest) (f : Remote → Remote) : (s.modRemote d f).ports = s.ports := rfl
@[simp] theorem State.modRemote_mbArgs (s : State) (d : Dest) (f : Remote → Remote) : (s.modRemote d f).mbArgs = s.mbArgs := rfl
@[simp] theorem State.modRemote_mbBusy (s : State) (d : Dest) (f : Remote → Remote) : (s.modRemote d f).mbBusy = s.mbBusy := rfl
@[simp] theorem State.modRemote_mbCmd (s : State) (d : Dest) (f : Remote → Remote) : (s.modRemote d f).mbCmd = s.mbCmd := rfl
@[simp] theorem State.modRemote_mbRej (s : State) (d : Dest) (f : Remote → Remote) : (s.modRemote d f).mbRej = s.mbRej := rfl
@[simp] theorem State.modRemote_mbStatus (s : State) (d : Dest) (f : Remote → Remote) : (s.modRemote d f).mbStatus = s.mbStatus := rfl
@[simp] theorem State.modRemote_mbReply (s : State) (d : Dest) (f : Remote → Remote) : (s.modRemote d f).mbReply = s.mbReply := rfl
@[simp] theorem State.modRemote_phase (s : State) (d : Dest) (f : Remote → Remote) : (s.modRemote d f).phase = s.phase := rfl
@[simp] theorem State.modRemote_result (s : State) (d : Dest) (f : Remote → Remote) : (s.modRemote d f).result = s.result := rfl
@[simp] theorem State.modRemote_linksBad (s : State) (d : Dest) (f : Remote → Remote) : (s.modRemote d f).linksBad = s.linksBad := rfl
@[simp] theorem State.modRemote_retrain (s : State) (d : Dest) (f : Remote → Remote) : (s.modRemote d f).retrain = s.retrain := rfl
@[simp] theorem State.modRemote_startLog (s : State) (d : Dest) (f : Remote → Remote) : (s.modRemote d f).startLog = s.startLog := rfl
@[simp] theorem State.modRemote_coldDone (s : State) (d : Dest) (f : Remote → Remote) : (s.modRemote d f).coldDone = s.coldDone := rfl
@[simp] theorem State.modRemote_starting (s : State) (d : Dest) (f : Remote → Remote) : (s.modRemote d f).starting = s.starting := rfl
@[simp] theorem State.modRemote_logAt (s : State) (d : Dest) (f : Remote → Remote) : (s.modRemote d f).logAt = s.logAt := rfl
@[simp] theorem State.modRemote_firmware (s : State) (d : Dest) (f : Remote → Remote) : (s.modRemote d f).firmware = s.firmware := rfl
@[simp] theorem State.modRemote_fusedMin (s : State) (d : Dest) (f : Remote → Remote) : (s.modRemote d f).fusedMin = s.fusedMin := rfl
@[simp] theorem State.modRemote_clk (s : State) (d : Dest) (f : Remote → Remote) : (s.modRemote d f).clk = s.clk := rfl
@[simp] theorem State.modRemote_noUp (s : State) (d : Dest) (f : Remote → Remote) : (s.modRemote d f).noUp = s.noUp := rfl
@[simp] theorem State.modRemote_evalAt (s : State) (d : Dest) (f : Remote → Remote) : (s.modRemote d f).evalAt = s.evalAt := rfl
@[simp] theorem State.modRemote_netDropped (s : State) (d : Dest) (f : Remote → Remote) : (s.modRemote d f).netDropped = s.netDropped := rfl
@[simp] theorem State.modRemote_parts (s : State) (d : Dest) (f : Remote → Remote) : (s.modRemote d f).parts = s.parts := rfl
@[simp] theorem State.modRemote_partMoves (s : State) (d : Dest) (f : Remote → Remote) : (s.modRemote d f).partMoves = s.partMoves := rfl
@[simp] theorem State.modRemote_doorbells (s : State) (d : Dest) (f : Remote → Remote) : (s.modRemote d f).doorbells = s.doorbells := rfl
@[simp] theorem State.modRemote_mgmtLog (s : State) (d : Dest) (f : Remote → Remote) : (s.modRemote d f).mgmtLog = s.mgmtLog := rfl
@[simp] theorem State.modRemote_hdm (s : State) (d : Dest) (f : Remote → Remote) : (s.modRemote d f).hdm = s.hdm := rfl
@[simp] theorem State.modRemote_hostData (s : State) (d : Dest) (f : Remote → Remote) : (s.modRemote d f).hostData = s.hostData := rfl
@[simp] theorem State.modRemote_hostPoison (s : State) (d : Dest) (f : Remote → Remote) : (s.modRemote d f).hostPoison = s.hostPoison := rfl

/-! ### Accessors after updates -/

theorem State.group_modGroup (s : State) (g h : Nat) (f : Group → Group) (hg : (mget s.groups g).isSome) :
    (s.modGroup g f).group h = if h = g then f (s.group g) else s.group h := by
  obtain ⟨x, hx⟩ := Option.isSome_iff_exists.1 hg
  simp only [State.group, State.modGroup, mgetD, mget_mmod]
  split <;> simp [hx]

theorem State.group_modGroup_ne (s : State) {g h : Nat} (f : Group → Group) (hn : h ≠ g) : (s.modGroup g f).group h = s.group h := by
  simp [State.group, State.modGroup, mgetD_mmod_ne _ _ _ hn]

theorem State.group_modGroup_none (s : State) (g h : Nat) (f : Group → Group) (hg : mget s.groups g = none) :
    (s.modGroup g f).group h = s.group h := by
  simp [State.group, State.modGroup, mmod, hg]

@[simp] theorem State.modGroup_present (s : State) (g h : Nat) (f : Group → Group) :
    (mget (s.modGroup g f).groups h).isSome = (mget s.groups h).isSome := by simp [State.modGroup]

@[simp] theorem State.modWave_present (s : State) (g w h : Nat) (f : Wave → Wave) :
    (mget (s.modWave g w f).groups h).isSome = (mget s.groups h).isSome := by simp [State.modWave]

@[simp] theorem State.modThread_present (s : State) (g w l h : Nat) (f : Thread → Thread) :
    (mget (s.modThread g w l f).groups h).isSome = (mget s.groups h).isSome := by simp [State.modThread]

theorem State.core_modCore (s : State) (c d : Nat) (f : Core → Core) :
    (s.modCore c f).core d = if d = c then f (s.core c) else s.core d := by
  simp only [State.core, State.modCore, mgetD, mget_mput]; split <;> simp_all

theorem State.die_modDie (s : State) (c d : Nat) (f : Die → Die) :
    (s.modDie c f).die d = if d = c then f (s.die c) else s.die d := by
  simp only [State.die, State.modDie, mgetD, mget_mput]; split <;> simp_all

theorem State.ctx_modCtx (s : State) (c d : Nat) (f : Ctx → Ctx) (h : (mget s.ctxs c).isSome) :
    (s.modCtx c f).ctx d = if d = c then f (s.ctx c) else s.ctx d := by
  obtain ⟨x, hx⟩ := Option.isSome_iff_exists.1 h
  simp only [State.ctx, State.modCtx, mgetD, mget_mmod]
  split <;> simp [hx]

theorem State.ctx_modCtx_none (s : State) (c d : Nat) (f : Ctx → Ctx) (h : mget s.ctxs c = none) : (s.modCtx c f).ctx d = s.ctx d := by
  simp [State.ctx, State.modCtx, mmod, h]

@[simp] theorem State.modCtx_present (s : State) (c d : Nat) (f : Ctx → Ctx) :
    (mget (s.modCtx c f).ctxs d).isSome = (mget s.ctxs d).isSome := by simp [State.modCtx]

end Sys2Proof.Machine
end

