-- ==== Sys2Proof/Laws/Threads.lean ====
section
/-! SUPPORT. Waves and threads after an update of the state. -/

namespace Sys2Proof.Machine

theorem State.group_of_none (s : State) {g : Nat} (h : mget s.groups g = none) : s.group g = {} := by
  simp [State.group, mgetD, h]

/-- A group with a wave is present. -/
theorem State.present_of_wave {s : State} {g w : Nat} (h : s.hasWave g w) : (mget s.groups g).isSome := by
  cases hg : mget s.groups g with
  | none => simp [State.hasWave, State.group, mgetD, hg] at h
  | some x => rfl

theorem State.hasWave_of_thread {s : State} {g : Nat} {m : Nat × Nat} (h : s.hasThread g m) : s.hasWave g m.2 := h.1

/-- A wave after `modWave`. -/
theorem State.wave_modWave (s : State) (g w h v : Nat) (f : Wave → Wave) :
    (s.modWave g w f).wave h v = if h = g ∧ v = w ∧ w < (s.group g).waves.length then f (s.wave g w) else s.wave h v := by
  unfold State.wave State.modWave
  cases hg : mget s.groups g with
  | none => rw [State.group_modGroup_none _ _ _ _ hg]; simp [State.group, mgetD, hg]
  | some x =>
    rw [State.group_modGroup _ _ _ _ (by simp [hg])]
    by_cases e : h = g
    · subst e; simp only [if_true, true_and]; exact getD_lmod ..
    · simp [e]

theorem State.group_modWave (s : State) (g w h : Nat) (f : Wave → Wave) :
    (s.modWave g w f).group h = { s.group h with waves := ((s.modWave g w f).group h).waves } := by
  unfold State.modWave
  cases hg : mget s.groups g with
  | none => rw [State.group_modGroup_none _ _ _ _ hg]
  | some x =>
    rw [State.group_modGroup _ _ _ _ (by simp [hg])]
    by_cases e : h = g
    · subst e; simp
    · simp [e]

@[simp] theorem State.waves_length_modWave (s : State) (g w h : Nat) (f : Wave → Wave) :
    ((s.modWave g w f).group h).waves.length = (s.group h).waves.length := by
  unfold State.modWave
  cases hg : mget s.groups g with
  | none => rw [State.group_modGroup_none _ _ _ _ hg]
  | some x =>
    rw [State.group_modGroup _ _ _ _ (by simp [hg])]
    by_cases e : h = g
    · subst e; simp
    · simp [e]

theorem State.mget_modWave_ne (s : State) {g h : Nat} (w : Nat) (f : Wave → Wave) (e : h ≠ g) :
    mget (s.modWave g w f).groups h = mget s.groups h := by
  simp [State.modWave, State.modGroup, mget_mmod, e]

/-- A thread after `modThread`. -/
theorem State.thread_modThread (s : State) (g w l h v j : Nat) (f : Thread → Thread) :
    (s.modThread g w l f).thread h v j =
      if h = g ∧ v = w ∧ j = l ∧ w < (s.group g).waves.length ∧ l < (s.wave g w).threads.length then f (s.thread g w l)
      else s.thread h v j := by
  unfold State.thread State.modThread
  rw [State.wave_modWave]
  by_cases e : h = g ∧ v = w ∧ w < (s.group g).waves.length
  · obtain ⟨rfl, rfl, hw⟩ := e
    simp only [hw, and_self, if_true, true_and]; exact getD_lmod ..
  · simp only [e, if_false]
    split
    · rename_i c; exact absurd ⟨c.1, c.2.1, c.2.2.2.1⟩ e
    · rfl

@[simp] theorem State.waves_length_modThread (s : State) (g w l h : Nat) (f : Thread → Thread) :
    ((s.modThread g w l f).group h).waves.length = (s.group h).waves.length := by simp [State.modThread]

@[simp] theorem State.threads_length_modThread (s : State) (g w l h v : Nat) (f : Thread → Thread) :
    ((s.modThread g w l f).wave h v).threads.length = (s.wave h v).threads.length := by
  unfold State.modThread
  rw [State.wave_modWave]
  split
  · rename_i c; obtain ⟨rfl, rfl, -⟩ := c; simp
  · rfl

theorem State.wave_modThread (s : State) (g w l h v : Nat) (f : Thread → Thread) :
    (s.modThread g w l f).wave h v = { s.wave h v with threads := ((s.modThread g w l f).wave h v).threads } := by
  unfold State.modThread
  rw [State.wave_modWave]
  split
  · rename_i c; obtain ⟨rfl, rfl, -⟩ := c; rfl
  · rfl

theorem State.group_modThread (s : State) (g w l h : Nat) (f : Thread → Thread) :
    (s.modThread g w l f).group h = { s.group h with waves := ((s.modThread g w l f).group h).waves } := State.group_modWave ..

theorem State.mget_modThread_ne (s : State) {g h : Nat} (w l : Nat) (f : Thread → Thread) (e : h ≠ g) :
    mget (s.modThread g w l f).groups h = mget s.groups h := State.mget_modWave_ne _ _ _ e

@[simp] theorem State.hasThread_modThread (s : State) (g w l h : Nat) (m : Nat × Nat) (f : Thread → Thread) :
    (s.modThread g w l f).hasThread h m ↔ s.hasThread h m := by simp [State.hasThread]

/-! ### Folds -/

/-- What every step of a fold keeps. -/
theorem foldl_keeps {β σ : Type} (I : σ → Prop) (f : σ → β → σ) (l : List β) (h : ∀ s, ∀ b ∈ l, I s → I (f s b)) :
    ∀ s, I s → I (l.foldl f s) := by
  induction l with
  | nil => intro s hs; exact hs
  | cons b t ih =>
    intro s hs
    exact ih (fun s' b' hb => h s' b' (by simp [hb])) _ (h s b (by simp) hs)

/-- What a fold establishes for each of its elements, once a step establishes it and every step keeps it. -/
theorem foldl_each {β σ : Type} (I : σ → Prop) (P : β → σ → Prop) (f : σ → β → σ) (l : List β)
    (hI : ∀ s, ∀ b ∈ l, I s → I (f s b)) (h1 : ∀ s, ∀ b ∈ l, I s → P b (f s b))
    (h2 : ∀ s, ∀ b ∈ l, ∀ c ∈ l, I s → P b s → P b (f s c)) :
    ∀ s, I s → ∀ b ∈ l, P b (l.foldl f s) := by
  induction l with
  | nil => intro s _ b hb; simp at hb
  | cons c t ih =>
    intro s hs b hb
    have key : ∀ s', I s' → P b s' → P b (t.foldl f s') := by
      intro s' hs' hp
      have := foldl_keeps (fun x => I x ∧ P b x) f t
        (fun x d hd hx => ⟨hI x d (by simp [hd]) hx.1, h2 x b hb d (by simp [hd]) hx.1 hx.2⟩) s' ⟨hs', hp⟩
      exact this.2
    rcases List.mem_cons.1 hb with rfl | hb'
    · exact key _ (hI s b (by simp) hs) (h1 s b (by simp) hs)
    · exact ih (fun s' b' hb' => hI s' b' (by simp [hb'])) (fun s' b' hb' => h1 s' b' (by simp [hb']))
        (fun s' b' hb' c' hc' => h2 s' b' (by simp [hb']) c' (by simp [hc'])) _ (hI s c (by simp) hs) b hb'

end Sys2Proof.Machine
end

