-- ==== Sys2Proof/Laws/Regs.lean ====
section
/-! SUPPORT. What the shapes of instructions that compute in registers do: the result in the destination, and the frame. -/

namespace Sys2Proof.Machine

theorem viewByte_congr {s t : State} (h : t = { s with groups := t.groups }) (sp : Space) (a : Nat) : viewByte t sp a = viewByte s sp a := by
  rw [h]; rfl

theorem mem_actives {k : Ctl} {s : State} {m : Nat × Nat} (h : m ∈ actives k s) : m ∈ s.cur.members := (List.mem_filter.1 h).1

theorem mem_uniq {κ : Type} [DecidableEq κ] {l : List κ} {x : κ} : x ∈ uniq l ↔ x ∈ l := by
  induction l with
  | nil => simp [uniq]
  | cons a t ih =>
    unfold uniq
    split
    · rename_i h; rw [ih]; constructor
      · intro hx; simp [hx]
      · intro hx; rcases List.mem_cons.1 hx with rfl | hx
        · exact h
        · exact hx
    · simp [ih]

/-! ### The frame -/

theorem KeepRegs.refl (k : Ctl) (s : State) : KeepRegs k s s [] [] [] false where
  rest := rfl
  others _ _ := rfl
  group := rfl
  waves := rfl
  wave _ := rfl
  threads _ := rfl
  idle _ _ _ := rfl
  guardOff _ _ _ := rfl
  thread _ _ := rfl
  vregs _ _ _ _ := rfl
  pregs _ _ _ _ := rfl
  flags _ _ _ := rfl
  sregs _ _ _ := rfl
  sregsOff _ _ := rfl
  bytes _ _ := rfl

theorem KeepRegs.mono {k : Ctl} {s t : State} {V P S V' P' S' : List Nat} {fl fl' : Bool} (h : KeepRegs k s t V P S fl)
    (hV : ∀ r ∈ V, r ∈ V') (hP : ∀ r ∈ P, r ∈ P') (hS : ∀ r ∈ S, r ∈ S') (hf : fl = true → fl' = true) :
    KeepRegs k s t V' P' S' fl' :=
  { h with
    vregs := fun l w r hr => h.vregs l w r fun c => hr (hV r c)
    pregs := fun l w r hr => h.pregs l w r fun c => hr (hP r c)
    sregs := fun w r hr => h.sregs w r fun c => hr (hS r c)
    flags := fun e => h.flags (by cases fl <;> simp_all) }

/-- A thread update that touches only what the frame names. -/
theorem KeepRegs.modThread {k : Ctl} {s t : State} {V P S : List Nat} {fl : Bool} (h : KeepRegs k s t V P S fl)
    {m : Nat × Nat} (hm : m ∈ s.cur.members) (f : Thread → Thread)
    (hf : ∀ th, f th = { th with pc := (f th).pc, vr := (f th).vr, pr := (f th).pr, fflags := (f th).fflags, hazards := (f th).hazards })
    (hv : ∀ th r, r ∉ V → vraw (f th) r = vraw th r) (hp : ∀ th r, r ∉ P → praw (f th) r = praw th r)
    (hl : fl = false → ∀ th, (f th).fflags = th.fflags)
    (ha : m ∈ actives k s ∨ ∀ th, f th = { th with pc := (f th).pc }) :
    KeepRegs k s (t.modThread s.cur.g m.2 m.1 f) V P S fl := by
  have hr : t.modThread s.cur.g m.2 m.1 f = { s with groups := (t.modThread s.cur.g m.2 m.1 f).groups } := by
    have h2 : t.modThread s.cur.g m.2 m.1 f = { t with groups := (t.modThread s.cur.g m.2 m.1 f).groups } := rfl
    rw [h2, h.rest]
  refine ⟨hr, ?_, ?_, ?_, ?_, ?_, ?_, ?_, ?_, ?_, ?_, ?_, ?_, ?_, fun sp a => viewByte_congr hr sp a⟩
  · intro g hg; rw [State.mget_modThread_ne _ _ _ _ hg]; exact h.others g hg
  · rw [State.group_modThread, h.group]
  · simp [h.waves]
  · intro w; rw [State.wave_modThread, h.wave w]
  · intro w; simp [h.threads w]
  · intro l w hn
    rw [State.thread_modThread]
    split
    · rename_i c; exact absurd (by obtain ⟨-, rfl, rfl, -⟩ := c; exact hm) hn
    · exact h.idle l w hn
  · intro l w hn
    rw [State.thread_modThread]
    split
    · rename_i c
      obtain ⟨-, rfl, rfl, -⟩ := c
      rcases ha with ha | ha
      · exact absurd ha hn
      · rw [ha, h.guardOff _ _ hn]
    · exact h.guardOff l w hn
  · intro l w
    rw [State.thread_modThread]
    split
    · rename_i c
      obtain ⟨-, rfl, rfl, -⟩ := c
      rw [hf, h.thread]
    · exact h.thread l w
  · intro l w r hr
    rw [State.thread_modThread]
    split
    · rename_i c
      obtain ⟨-, rfl, rfl, -⟩ := c
      rw [hv _ _ hr, h.vregs _ _ _ hr]
    · exact h.vregs l w r hr
  · intro l w r hr
    rw [State.thread_modThread]
    split
    · rename_i c
      obtain ⟨-, rfl, rfl, -⟩ := c
      rw [hp _ _ hr, h.pregs _ _ _ hr]
    · exact h.pregs l w r hr
  · intro e l w
    rw [State.thread_modThread]
    split
    · rename_i c
      obtain ⟨-, rfl, rfl, -⟩ := c
      rw [hl e, h.flags e]
    · exact h.flags e l w
  · intro w r hr; rw [State.wave_modThread]; exact h.sregs w r hr
  · intro w hw; rw [State.wave_modThread]; exact h.sregsOff w hw

/-- A uniform register of a home wave that has an active thread. -/
theorem KeepRegs.modWave {k : Ctl} {s t : State} {V P S : List Nat} {fl : Bool} (h : KeepRegs k s t V P S fl)
    {w : Nat} (hw : ∃ m ∈ actives k s, m.2 = w) (f : Wave → Wave)
    (hf : ∀ v, f v = { v with sr := (f v).sr, sHazards := (f v).sHazards })
    (hs : ∀ v r, r ∉ S → mgetD (f v).sr r 0 = mgetD v.sr r 0) :
    KeepRegs k s (t.modWave s.cur.g w f) V P S fl := by
  have hr : t.modWave s.cur.g w f = { s with groups := (t.modWave s.cur.g w f).groups } := by
    have h2 : t.modWave s.cur.g w f = { t with groups := (t.modWave s.cur.g w f).groups } := rfl
    rw [h2, h.rest]
  have hth : ∀ v, ((t.modWave s.cur.g w f).wave s.cur.g v).threads = (t.wave s.cur.g v).threads := by
    intro v; rw [State.wave_modWave]; split
    · rename_i c; obtain ⟨-, rfl, -⟩ := c; rw [hf]
    · rfl
  have ht : ∀ l v, (t.modWave s.cur.g w f).thread s.cur.g v l = t.thread s.cur.g v l := by
    intro l v; simp only [State.thread, hth]
  refine ⟨hr, ?_, ?_, ?_, ?_, ?_, ?_, ?_, ?_, ?_, ?_, ?_, ?_, ?_, fun sp a => viewByte_congr hr sp a⟩
  · intro g hg; rw [State.mget_modWave_ne _ _ _ hg]; exact h.others g hg
  · rw [State.group_modWave, h.group]
  · simp [h.waves]
  · intro v
    rw [State.wave_modWave]
    split
    · rename_i c; obtain ⟨-, rfl, -⟩ := c; rw [hf, h.wave]
    · exact h.wave v
  · intro v; rw [hth]; exact h.threads v
  · intro l v hn; rw [ht]; exact h.idle l v hn
  · intro l v hn; rw [ht]; exact h.guardOff l v hn
  · intro l v; rw [ht]; exact h.thread l v
  · intro l v r hr; rw [ht]; exact h.vregs l v r hr
  · intro l v r hr; rw [ht]; exact h.pregs l v r hr
  · intro e l v; rw [ht]; exact h.flags e l v
  · intro v r hn
    rw [State.wave_modWave]
    split
    · rename_i c; obtain ⟨-, rfl, -⟩ := c; rw [hs _ _ hn]; exact h.sregs _ r hn
    · exact h.sregs v r hn
  · intro v hv
    rw [State.wave_modWave]
    split
    · rename_i c; obtain ⟨-, rfl, -⟩ := c; obtain ⟨m, hm, e⟩ := hw; exact absurd e (hv m hm)
    · exact h.sregsOff v hv

theorem KeepRegs.hasThread {k : Ctl} {s t : State} {V P S : List Nat} {fl : Bool} (h : KeepRegs k s t V P S fl) (m : Nat × Nat) :
    t.hasThread s.cur.g m ↔ s.hasThread s.cur.g m := by simp [State.hasThread, h.waves, h.threads]

theorem KeepRegs.cur {k : Ctl} {s t : State} {V P S : List Nat} {fl : Bool} (h : KeepRegs k s t V P S fl) : t.cur = s.cur := by rw [h.rest]
theorem KeepRegs.clock {k : Ctl} {s t : State} {V P S : List Nat} {fl : Bool} (h : KeepRegs k s t V P S fl) : t.clock = s.clock := by rw [h.rest]

/-! ### The next instruction -/

theorem KeepRegs.pcNext {k : Ctl} {s t : State} {V P S : List Nat} {fl : Bool} (h : KeepRegs k s t V P S fl)
    {m : Nat × Nat} (hm : m ∈ s.cur.members) :
    KeepRegs k s (t.modThread t.cur.g m.2 m.1 fun x => { x with pc := t.cur.pc + 12 }) V P S fl := by
  rw [h.cur]
  exact h.modThread hm (fun x => { x with pc := s.cur.pc + 12 }) (fun _ => rfl) (fun _ _ _ => rfl) (fun _ _ _ => rfl) (fun _ _ => rfl)
    (.inr fun _ => rfl)

/-- Nothing but program counters moves. -/
theorem advance_onlyRegs (k : Ctl) (s : State) : OnlyRegs k s (advance s) [] [] [] false := by
  refine ⟨foldl_keeps (fun t => KeepRegs k s t [] [] [] false) _ _ (fun t m hm ht => ht.pcNext hm) s (KeepRegs.refl k s),
    fun l w hm hth => ?_⟩
  refine foldl_each (fun t => KeepRegs k s t [] [] [] false)
    (fun m t => s.hasThread s.cur.g m → (t.thread s.cur.g m.2 m.1).pc = s.cur.pc + 12) _ s.cur.members
    (fun t m hm ht => ht.pcNext hm) (fun t m _ ht hh => ?_) (fun t m _ c _ ht hp hh => ?_)
    s (KeepRegs.refl k s) (l, w) hm hth
  · have := (ht.hasThread m).2 hh
    rw [State.thread_modThread, ht.cur]; simp [this.1, this.2]
  · rw [State.thread_modThread, ht.cur]
    split
    · rfl
    · exact hp hh

/-! ### Writes -/

theorem vraw_setVThread (clock lat n r : Nat) (x : Word) (th : Thread) :
    vraw (setVThread clock lat n x th) r = if r = n then x else vraw th r := by
  simp [vraw, setVThread, mgetD_msetD]

theorem getLsbD_setPBit (p : BitVec 48) (n r : Nat) (b : Bool) :
    (setPBit p n b).getLsbD r = if r = n ∧ n < 48 then b else p.getLsbD r := by
  unfold setPBit
  by_cases e : r = n
  · subst e
    by_cases h : r < 48
    · cases b <;> simp [h]
    · cases b <;> simp [h, BitVec.getLsbD_of_ge _ _ (Nat.le_of_not_lt h)]
  · have hb : (1#48 <<< n).getLsbD r = false := by
      simp only [BitVec.getLsbD_shiftLeft, BitVec.getLsbD_one]
      simp; omega
    simp only [e, false_and, if_false]
    cases b
    · simp only [Bool.false_eq_true, if_false, BitVec.getLsbD_and, BitVec.getLsbD_not, hb]
      by_cases h : r < 48
      · simp [h]
      · simp [BitVec.getLsbD_of_ge p r (Nat.le_of_not_lt h)]
    · simp [hb]

theorem praw_setPThread (clock lat n r : Nat) (b : Bool) (th : Thread) :
    praw (setPThread clock lat n b th) r = if r = n ∧ n < 48 then b else praw th r := by
  simp [praw, setPThread, getLsbD_setPBit]

variable {k : Ctl} {s t : State} {V P S : List Nat} {fl : Bool}

theorem KeepRegs.wrV (h : KeepRegs k s t V P S fl) {m : Nat × Nat} (hm : m ∈ actives k s) (lat : Nat) {n : Nat} (x : Word) (hn : n ∈ V) :
    KeepRegs k s (wrV t lat m n x) V P S fl := by
  unfold Machine.wrV
  rw [h.cur]
  refine h.modThread (mem_actives hm) _ (fun _ => rfl) (fun th r hr => ?_) (fun _ _ _ => rfl) (fun _ _ => rfl) (.inl hm)
  rw [vraw_setVThread, if_neg]; rintro rfl; exact hr hn

theorem KeepRegs.wrP (h : KeepRegs k s t V P S fl) {m : Nat × Nat} (hm : m ∈ actives k s) (lat : Nat) {n : Nat} (b : Bool) (hn : n ∈ P) :
    KeepRegs k s (wrP t lat m n b) V P S fl := by
  unfold Machine.wrP
  rw [h.cur]
  refine h.modThread (mem_actives hm) _ (fun _ => rfl) (fun _ _ _ => rfl) (fun th r hr => ?_) (fun _ _ => rfl) (.inl hm)
  rw [praw_setPThread, if_neg]; rintro ⟨rfl, -⟩; exact hr hn

theorem KeepRegs.wrS (h : KeepRegs k s t V P S fl) {w : Nat} (hw : ∃ m ∈ actives k s, m.2 = w) (lat : Nat) {n : Nat} (x : Word) (hn : n ∈ S) :
    KeepRegs k s (wrS t lat w n x) V P S fl := by
  unfold Machine.wrS
  rw [h.cur]
  refine h.modWave hw _ (fun _ => rfl) (fun v r hr => ?_)
  show mgetD (msetD v.sr n x 0) r 0 = _
  rw [mgetD_msetD, if_neg]; rintro rfl; exact hr hn

theorem KeepRegs.orFlags (h : KeepRegs k s t V P S true) {m : Nat × Nat} (hm : m ∈ actives k s) (f : FFlags) :
    KeepRegs k s (orFlags t m f) V P S true := by
  unfold Machine.orFlags
  rw [h.cur]
  exact h.modThread (mem_actives hm) _ (fun _ => rfl) (fun _ _ _ => rfl) (fun _ _ _ => rfl) (fun e => by simp at e) (.inl hm)

theorem KeepRegs.setFlags (h : KeepRegs k s t V P S true) {m : Nat × Nat} (hm : m ∈ actives k s) (lat : Nat) (f : FFlags) :
    KeepRegs k s (setFlags t lat m f) V P S true := by
  unfold Machine.setFlags
  rw [h.cur]
  exact h.modThread (mem_actives hm) _ (fun _ => rfl) (fun _ _ _ => rfl) (fun _ _ _ => rfl) (fun e => by simp at e) (.inl hm)

/-! ### What writes read back as -/

theorem wrV_thread (t : State) (lat : Nat) (m : Nat × Nat) (n : Nat) (x : Word) (w l : Nat) :
    (wrV t lat m n x).thread t.cur.g w l =
      if w = m.2 ∧ l = m.1 ∧ t.hasThread t.cur.g m then setVThread t.now lat n x (t.thread t.cur.g w l) else t.thread t.cur.g w l := by
  unfold Machine.wrV
  rw [State.thread_modThread]
  by_cases c : w = m.2 ∧ l = m.1
  · obtain ⟨rfl, rfl⟩ := c; simp [State.hasThread]
  · rw [if_neg (fun x => c ⟨x.2.1, x.2.2.1⟩), if_neg (fun x => c ⟨x.1, x.2.1⟩)]

theorem wrP_thread (t : State) (lat : Nat) (m : Nat × Nat) (n : Nat) (b : Bool) (w l : Nat) :
    (wrP t lat m n b).thread t.cur.g w l =
      if w = m.2 ∧ l = m.1 ∧ t.hasThread t.cur.g m then setPThread t.now lat n b (t.thread t.cur.g w l) else t.thread t.cur.g w l := by
  unfold Machine.wrP
  rw [State.thread_modThread]
  by_cases c : w = m.2 ∧ l = m.1
  · obtain ⟨rfl, rfl⟩ := c; simp [State.hasThread]
  · rw [if_neg (fun x => c ⟨x.2.1, x.2.2.1⟩), if_neg (fun x => c ⟨x.1, x.2.1⟩)]

theorem wrS_thread (t : State) (lat w n : Nat) (x : Word) (v l : Nat) : (wrS t lat w n x).thread t.cur.g v l = t.thread t.cur.g v l := by
  unfold Machine.wrS State.thread
  rw [State.wave_modWave]
  split
  · rename_i c; obtain ⟨-, rfl, -⟩ := c; rfl
  · rfl

theorem wrS_sr (t : State) (lat w n : Nat) (x : Word) (v r : Nat) :
    mgetD ((wrS t lat w n x).wave t.cur.g v).sr r 0 =
      if v = w ∧ r = n ∧ t.hasWave t.cur.g w then x else mgetD (t.wave t.cur.g v).sr r 0 := by
  unfold Machine.wrS
  rw [State.wave_modWave]
  by_cases c : v = w ∧ t.hasWave t.cur.g w
  · obtain ⟨rfl, hw⟩ := c
    have hw' : v < (t.group t.cur.g).waves.length := hw
    simp only [true_and, hw', if_true, and_true]
    rw [mgetD_msetD]
  · rw [if_neg (fun x => c ⟨x.2.1, x.2.2⟩), if_neg (fun x => c ⟨x.1, x.2.2⟩)]

end Sys2Proof.Machine
end

