-- ==== Sys2Proof/Laws/Compute.lean ====
section
/-! SUPPORT. One law for each shape of instruction that computes in registers: its result, its flags and its frame. -/

namespace Sys2Proof.Machine

variable {k : Ctl} {s t : State} {V P S : List Nat} {fl : Bool}

theorem mem_wavesOf {ls : List (Nat × Nat)} {w : Nat} (h : w ∈ wavesOf ls) : ∃ m ∈ ls, m.2 = w := by
  unfold wavesOf at h
  obtain ⟨m, hm, e⟩ := List.any_eq_true.1 (List.mem_filter.1 h).2
  exact ⟨m, hm, by simpa using e⟩

@[simp] theorem destV_one (i : BitVec 8) : destV 1 (.v i) = [i.toNat] := by simp [destV, List.range_succ]
@[simp] theorem destP_one (i : BitVec 6) : destP 1 (.p i) = [i.toNat] := by simp [destP, List.range_succ]
@[simp] theorem destU_one (i : BitVec 6) : destU 1 (.s i) = [i.toNat] := by simp [destU, List.range_succ]
@[simp] theorem destV_two (i : BitVec 8) : destV 2 (.v i) = [i.toNat, i.toNat + 1] := by simp [destV, List.range_succ]
@[simp] theorem destU_two (i : BitVec 6) : destU 2 (.s i) = [i.toNat, i.toNat + 1] := by simp [destU, List.range_succ]

/-! ### Destinations -/

/-- A write of a destination touches what the destination names. -/
theorem KeepRegs.wrDst (a : Opnd) (h : KeepRegs k s t V P S fl) {m : Nat × Nat} (hm : m ∈ actives k s) (lat : Nat) (x : Word)
    (hV : ∀ r ∈ destV 1 a, r ∈ V) (hP : ∀ r ∈ destP 1 a, r ∈ P) (hS : ∀ r ∈ destU 1 a, r ∈ S)
    (hf : isFlagsReg a = true → fl = true) : KeepRegs k s (wrDst t lat m a x) V P S fl := by
  cases a with
  | v n => exact h.wrV hm lat x (hV _ (by simp))
  | s n => exact h.wrS ⟨m, hm, rfl⟩ lat x (hS _ (by simp))
  | p n => exact h.wrP hm lat _ (hP _ (by simp))
  | sr r => cases hf rfl; exact h.setFlags hm lat _
  | _ => exact h

theorem KeepRegs.wrDst64 (a : Opnd) (h : KeepRegs k s t V P S fl) {m : Nat × Nat} (hm : m ∈ actives k s) (lat : Nat) (x : DWord)
    (hV : ∀ r ∈ destV 2 a, r ∈ V) (hS : ∀ r ∈ destU 2 a, r ∈ S) : KeepRegs k s (wrDst64 t lat m a x) V P S fl := by
  cases a with
  | v n => exact (h.wrV hm lat _ (hV _ (by simp))).wrV hm lat _ (hV _ (by simp))
  | s n => exact (h.wrS ⟨m, hm, rfl⟩ lat _ (hS _ (by simp))).wrS ⟨m, hm, rfl⟩ lat _ (hS _ (by simp))
  | _ => exact h

/-- The same of a write for a home wave that has an active thread. -/
theorem KeepRegs.wrU (i : BitVec 6) (h : KeepRegs k s t V P S fl) {w : Nat} (hw : w ∈ wavesOf (actives k s)) (lat : Nat) (x : Word)
    (hS : i.toNat ∈ S) : KeepRegs k s (Machine.wrDst t lat (0, w) (.s i) x) V P S fl :=
  h.wrS (mem_wavesOf hw) lat x hS

/-! ### Program counters stay -/

theorem wrV_pc (t : State) (lat : Nat) (m : Nat × Nat) (n : Nat) (x : Word) (g w l : Nat) (hg : g = t.cur.g) :
    ((wrV t lat m n x).thread g w l).pc = (t.thread g w l).pc := by
  subst hg; rw [wrV_thread]; split <;> rfl

theorem wrP_pc (t : State) (lat : Nat) (m : Nat × Nat) (n : Nat) (b : Bool) (g w l : Nat) (hg : g = t.cur.g) :
    ((wrP t lat m n b).thread g w l).pc = (t.thread g w l).pc := by
  subst hg; rw [wrP_thread]; split <;> rfl

theorem wrS_pc (t : State) (lat w' n : Nat) (x : Word) (g w l : Nat) (hg : g = t.cur.g) :
    ((wrS t lat w' n x).thread g w l).pc = (t.thread g w l).pc := by
  subst hg; rw [wrS_thread]

theorem orFlags_pc (t : State) (m : Nat × Nat) (f : FFlags) (g w l : Nat) : ((orFlags t m f).thread g w l).pc = (t.thread g w l).pc := by
  unfold orFlags; rw [State.thread_modThread]; split
  · rename_i c; obtain ⟨rfl, rfl, rfl, -⟩ := c; rfl
  · rfl

theorem setFlags_pc (t : State) (lat : Nat) (m : Nat × Nat) (f : FFlags) (g w l : Nat) :
    ((setFlags t lat m f).thread g w l).pc = (t.thread g w l).pc := by
  unfold setFlags; rw [State.thread_modThread]; split
  · rename_i c; obtain ⟨rfl, rfl, rfl, -⟩ := c; rfl
  · rfl

theorem wrDst_pc (t : State) (lat : Nat) (m : Nat × Nat) (a : Opnd) (x : Word) (g w l : Nat) (hg : g = t.cur.g) :
    ((wrDst t lat m a x).thread g w l).pc = (t.thread g w l).pc := by
  cases a with
  | v n => exact wrV_pc _ _ _ _ _ _ _ _ hg
  | s n => exact wrS_pc _ _ _ _ _ _ _ _ hg
  | p n => exact wrP_pc _ _ _ _ _ _ _ _ hg
  | sr r => exact setFlags_pc _ _ _ _ _ _ _
  | _ => rfl

@[simp] theorem wrDst_cur (t : State) (lat : Nat) (m : Nat × Nat) (a : Opnd) (x : Word) : (wrDst t lat m a x).cur = t.cur := by
  cases a <;> rfl
@[simp] theorem wrDst64_cur (t : State) (lat : Nat) (m : Nat × Nat) (a : Opnd) (x : DWord) : (wrDst64 t lat m a x).cur = t.cur := by
  cases a <;> rfl
@[simp] theorem orFlags_cur (t : State) (m : Nat × Nat) (f : FFlags) : (orFlags t m f).cur = t.cur := rfl
@[simp] theorem wrV_cur (t : State) (lat : Nat) (m : Nat × Nat) (n : Nat) (x : Word) : (wrV t lat m n x).cur = t.cur := rfl
@[simp] theorem wrP_cur (t : State) (lat : Nat) (m : Nat × Nat) (n : Nat) (b : Bool) : (wrP t lat m n b).cur = t.cur := rfl
@[simp] theorem wrS_cur (t : State) (lat w n : Nat) (x : Word) : (wrS t lat w n x).cur = t.cur := rfl

theorem wrDst64_pc (t : State) (lat : Nat) (m : Nat × Nat) (a : Opnd) (x : DWord) (g w l : Nat) (hg : g = t.cur.g) :
    ((wrDst64 t lat m a x).thread g w l).pc = (t.thread g w l).pc := by
  cases a with
  | v n => exact (wrV_pc _ _ _ _ _ _ _ _ (by simpa using hg)).trans (wrV_pc _ _ _ _ _ _ _ _ hg)
  | s n => exact (wrS_pc _ _ _ _ _ _ _ _ (by simpa using hg)).trans (wrS_pc _ _ _ _ _ _ _ _ hg)
  | _ => rfl

/-- A fold that starts from the next instruction, keeps the frame and moves no program counter keeps the whole frame. -/
theorem onlyRegs_fold {β : Type} (f : State → β → State) (l : List β)
    (hk : ∀ t, ∀ b ∈ l, KeepRegs k s t V P S fl → KeepRegs k s (f t b) V P S fl)
    (hp : ∀ t b w i, t.cur = s.cur → ((f t b).thread s.cur.g w i).pc = (t.thread s.cur.g w i).pc) :
    OnlyRegs k s (l.foldl f (advance s)) V P S fl := by
  have h0 := advance_onlyRegs k s
  have hk0 : KeepRegs k s (advance s) V P S fl :=
    h0.keep.mono (by simp) (by simp) (by simp) (by simp)
  refine ⟨foldl_keeps _ f l hk _ hk0, fun i w hm hh => ?_⟩
  have := foldl_keeps (fun t => KeepRegs k s t V P S fl ∧ (t.thread s.cur.g w i).pc = s.cur.pc + 12) f l
    (fun t b hb ht => ⟨hk t b hb ht.1, by rw [hp t b w i ht.1.cur, ht.2]⟩) (advance s) ⟨hk0, h0.pc i w hm hh⟩
  exact this.2

/-! ### Results of 32 and 64 bits -/

theorem foldV (lat n : Nat) (f : Nat × Nat → Word) (l : List (Nat × Nat)) (hl : ∀ m ∈ l, m ∈ actives k s)
    (h : KeepRegs k s t V P S fl) (hn : n ∈ V) :
    ∀ m ∈ l, s.hasThread s.cur.g m →
      vraw ((l.foldl (fun t m => wrV t lat m n (f m)) t).thread s.cur.g m.2 m.1) n = f m := by
  refine foldl_each (fun t => KeepRegs k s t V P S fl)
    (fun m t => s.hasThread s.cur.g m → vraw (t.thread s.cur.g m.2 m.1) n = f m) _ l
    (fun t m hm ht => ht.wrV (hl m hm) lat _ hn) (fun t m _ ht hh => ?_) (fun t m _ c _ ht hp hh => ?_) t h
  · have := (ht.hasThread m).2 hh
    rw [← ht.cur, wrV_thread, if_pos ⟨rfl, rfl, by rw [ht.cur]; exact this⟩, vraw_setVThread, if_pos rfl]
  · have hp := hp hh
    rw [← ht.cur] at hp ⊢
    rw [wrV_thread]
    split
    · rename_i c'
      rw [vraw_setVThread, if_pos rfl]
      have : m = c := Prod.ext c'.2.1 c'.1
      rw [this]
    · exact hp

theorem foldP (lat n : Nat) (f : Nat × Nat → Bool) (l : List (Nat × Nat)) (hl : ∀ m ∈ l, m ∈ actives k s)
    (h : KeepRegs k s t V P S fl) (hn : n ∈ P) (h48 : n < 48) :
    ∀ m ∈ l, s.hasThread s.cur.g m →
      praw ((l.foldl (fun t m => wrP t lat m n (f m)) t).thread s.cur.g m.2 m.1) n = f m := by
  refine foldl_each (fun t => KeepRegs k s t V P S fl)
    (fun m t => s.hasThread s.cur.g m → praw (t.thread s.cur.g m.2 m.1) n = f m) _ l
    (fun t m hm ht => ht.wrP (hl m hm) lat _ hn) (fun t m _ ht hh => ?_) (fun t m _ c _ ht hp hh => ?_) t h
  · have := (ht.hasThread m).2 hh
    rw [← ht.cur, wrP_thread, if_pos ⟨rfl, rfl, by rw [ht.cur]; exact this⟩, praw_setPThread, if_pos ⟨rfl, h48⟩]
  · have hp := hp hh
    rw [← ht.cur] at hp ⊢
    rw [wrP_thread]
    split
    · rename_i c'
      rw [praw_setPThread, if_pos ⟨rfl, h48⟩]
      have : m = c := Prod.ext c'.2.1 c'.1
      rw [this]
    · exact hp

theorem foldFlags (lat : Nat) (f : Nat × Nat → FFlags) (l : List (Nat × Nat)) (hl : ∀ m ∈ l, m ∈ actives k s)
    (h : KeepRegs k s t V P S true) :
    ∀ m ∈ l, s.hasThread s.cur.g m →
      ((l.foldl (fun t m => setFlags t lat m (f m)) t).thread s.cur.g m.2 m.1).fflags = f m := by
  refine foldl_each (fun t => KeepRegs k s t V P S true)
    (fun m t => s.hasThread s.cur.g m → (t.thread s.cur.g m.2 m.1).fflags = f m) _ l
    (fun t m hm ht => ht.setFlags (hl m hm) lat _) (fun t m _ ht hh => ?_) (fun t m _ c _ ht hp hh => ?_) t h
  · have := (ht.hasThread m).2 hh
    unfold setFlags
    rw [State.thread_modThread, ht.cur, if_pos ⟨rfl, rfl, rfl, this⟩]
  · have hp := hp hh
    unfold setFlags
    rw [State.thread_modThread, ht.cur]
    split
    · rename_i c'
      have : m = c := Prod.ext c'.2.2.1 c'.2.1
      rw [this]
    · exact hp

theorem foldU (lat : Nat) (n : Nat) (f : Nat → Word) (l : List Nat) (hl : ∀ w ∈ l, ∃ m ∈ actives k s, m.2 = w)
    (h : KeepRegs k s t V P S fl) (hn : n ∈ S) :
    ∀ w ∈ l, s.hasWave s.cur.g w → mgetD ((l.foldl (fun t w => wrS t lat w n (f w)) t).wave s.cur.g w).sr n 0 = f w := by
  refine foldl_each (fun t => KeepRegs k s t V P S fl)
    (fun w t => s.hasWave s.cur.g w → mgetD (t.wave s.cur.g w).sr n 0 = f w) _ l
    (fun t w hw ht => ht.wrS (hl w hw) lat _ hn) (fun t w _ ht hh => ?_) (fun t w _ c _ ht hp hh => ?_) t h
  · have hw : t.hasWave s.cur.g w := by show w < _; rw [ht.waves]; exact hh
    rw [← ht.cur, wrS_sr, if_pos ⟨rfl, rfl, by rw [ht.cur]; exact hw⟩]
  · have hp := hp hh
    rw [← ht.cur] at hp ⊢
    rw [wrS_sr]
    split
    · rename_i c'; rw [c'.1]
    · exact hp

theorem Holds.act (k : Ctl) (s : State) : ∀ m ∈ actives k s, m ∈ actives k s := fun _ h => h

theorem wrV_vraw (t : State) (lat : Nat) (m m' : Nat × Nat) (n r : Nat) (x : Word) (hh : t.hasThread t.cur.g m) :
    vraw ((wrV t lat m n x).thread t.cur.g m'.2 m'.1) r = if m' = m ∧ r = n then x else vraw (t.thread t.cur.g m'.2 m'.1) r := by
  rw [wrV_thread]
  by_cases c : m' = m
  · subst c; rw [if_pos ⟨rfl, rfl, hh⟩, vraw_setVThread]; simp only [true_and]
  · rw [if_neg (fun h => c (Prod.ext h.2.1 h.1)), if_neg (fun h => c h.1)]

/-- A pair of vector registers. -/
theorem foldV64 (lat n : Nat) (f g : Nat × Nat → Word) (l : List (Nat × Nat)) (hl : ∀ m ∈ l, m ∈ actives k s)
    (h : KeepRegs k s t V P S fl) (hn : n ∈ V) (hn1 : n + 1 ∈ V) :
    ∀ m ∈ l, s.hasThread s.cur.g m →
      vraw ((l.foldl (fun t m => wrV (wrV t lat m n (f m)) lat m (n + 1) (g m)) t).thread s.cur.g m.2 m.1) n = f m ∧
      vraw ((l.foldl (fun t m => wrV (wrV t lat m n (f m)) lat m (n + 1) (g m)) t).thread s.cur.g m.2 m.1) (n + 1) = g m := by
  have hk : ∀ t, ∀ m ∈ l, KeepRegs k s t V P S fl → KeepRegs k s (wrV (wrV t lat m n (f m)) lat m (n + 1) (g m)) V P S fl :=
    fun t m hm ht => (ht.wrV (hl m hm) lat _ hn).wrV (hl m hm) lat _ hn1
  refine foldl_each (fun t => KeepRegs k s t V P S fl)
    (fun m t => s.hasThread s.cur.g m → vraw (t.thread s.cur.g m.2 m.1) n = f m ∧ vraw (t.thread s.cur.g m.2 m.1) (n + 1) = g m) _ l
    hk (fun t m hm ht hh => ?_) (fun t m hm c hc ht hp hh => ?_) t h
  · have h1 := (ht.hasThread m).2 hh
    have ht2 := ht.wrV (hl m hm) lat (f m) hn
    have h2 := (ht2.hasThread m).2 hh
    have key : ∀ r, vraw ((wrV (wrV t lat m n (f m)) lat m (n + 1) (g m)).thread s.cur.g m.2 m.1) r =
        if r = n + 1 then g m else if r = n then f m else vraw (t.thread s.cur.g m.2 m.1) r := by
      intro r
      have e2 := wrV_vraw (wrV t lat m n (f m)) lat m m (n + 1) r (g m) (by rw [ht2.cur]; exact h2)
      have e1 := wrV_vraw t lat m m n r (f m) (by rw [ht.cur]; exact h1)
      rw [ht2.cur] at e2; rw [ht.cur] at e1
      rw [e2, e1]; simp
    constructor <;> rw [key] <;> simp
  · have hp := hp hh
    by_cases e : m = c
    · subst e
      have h1 := (ht.hasThread m).2 hh
      have ht2 := ht.wrV (hl m hm) lat (f m) hn
      have h2 := (ht2.hasThread m).2 hh
      have key : ∀ r, vraw ((wrV (wrV t lat m n (f m)) lat m (n + 1) (g m)).thread s.cur.g m.2 m.1) r =
          if r = n + 1 then g m else if r = n then f m else vraw (t.thread s.cur.g m.2 m.1) r := by
        intro r
        have e2 := wrV_vraw (wrV t lat m n (f m)) lat m m (n + 1) r (g m) (by rw [ht2.cur]; exact h2)
        have e1 := wrV_vraw t lat m m n r (f m) (by rw [ht.cur]; exact h1)
        rw [ht2.cur] at e2; rw [ht.cur] at e1
        rw [e2, e1]; simp
      constructor <;> rw [key] <;> simp
    · have ht2 := ht.wrV (hl c hc) lat (f c) hn
      have key : (wrV (wrV t lat c n (f c)) lat c (n + 1) (g c)).thread s.cur.g m.2 m.1 = t.thread s.cur.g m.2 m.1 := by
        have e2 := wrV_thread (wrV t lat c n (f c)) lat c (n + 1) (g c) m.2 m.1
        have e1 := wrV_thread t lat c n (f c) m.2 m.1
        rw [ht2.cur] at e2; rw [ht.cur] at e1
        rw [e2, if_neg (fun h => e (Prod.ext h.2.1 h.1)), e1, if_neg (fun h => e (Prod.ext h.2.1 h.1))]
      rw [key]; exact hp

/-- A pair of uniform registers. -/
theorem foldU64 (lat n : Nat) (f g : Nat → Word) (l : List Nat) (hl : ∀ w ∈ l, ∃ m ∈ actives k s, m.2 = w)
    (h : KeepRegs k s t V P S fl) (hn : n ∈ S) (hn1 : n + 1 ∈ S) :
    ∀ w ∈ l, s.hasWave s.cur.g w →
      mgetD ((l.foldl (fun t w => wrS (wrS t lat w n (f w)) lat w (n + 1) (g w)) t).wave s.cur.g w).sr n 0 = f w ∧
      mgetD ((l.foldl (fun t w => wrS (wrS t lat w n (f w)) lat w (n + 1) (g w)) t).wave s.cur.g w).sr (n + 1) 0 = g w := by
  have hk : ∀ t, ∀ w ∈ l, KeepRegs k s t V P S fl → KeepRegs k s (wrS (wrS t lat w n (f w)) lat w (n + 1) (g w)) V P S fl :=
    fun t w hw ht => (ht.wrS (hl w hw) lat _ hn).wrS (hl w hw) lat _ hn1
  have key : ∀ t, ∀ w ∈ l, KeepRegs k s t V P S fl → ∀ v r,
      mgetD ((wrS (wrS t lat w n (f w)) lat w (n + 1) (g w)).wave s.cur.g v).sr r 0 =
        if v = w ∧ r = n + 1 ∧ s.hasWave s.cur.g w then g w else if v = w ∧ r = n ∧ s.hasWave s.cur.g w then f w
        else mgetD (t.wave s.cur.g v).sr r 0 := by
    intro t w hw ht v r
    have ht2 := ht.wrS (hl w hw) lat (f w) hn
    have e2 := wrS_sr (wrS t lat w n (f w)) lat w (n + 1) (g w) v r
    have e1 := wrS_sr t lat w n (f w) v r
    have w2 : (wrS t lat w n (f w)).hasWave s.cur.g w ↔ s.hasWave s.cur.g w := by simp only [State.hasWave, ht2.waves]
    have w1 : t.hasWave s.cur.g w ↔ s.hasWave s.cur.g w := by simp only [State.hasWave, ht.waves]
    rw [ht2.cur] at e2; rw [ht.cur] at e1
    rw [e2, e1]; simp only [w1, w2]
  refine foldl_each (fun t => KeepRegs k s t V P S fl)
    (fun w t => s.hasWave s.cur.g w → mgetD (t.wave s.cur.g w).sr n 0 = f w ∧ mgetD (t.wave s.cur.g w).sr (n + 1) 0 = g w) _ l
    hk (fun t w hw ht hh => ?_) (fun t w hw c hc ht hp hh => ?_) t h
  · constructor <;> rw [key t w hw ht] <;> simp [hh]
  · have hp := hp hh
    by_cases e : w = c
    · subst e; constructor <;> rw [key t w hw ht] <;> simp [hh]
    · constructor <;> rw [key t c hc ht, if_neg (fun h => e h.1), if_neg (fun h => e h.1)]
      · exact hp.1
      · exact hp.2

/-- The law of the 64-bit shape. -/
theorem compute64_result (k : Ctl) (lat : Nat) (a : Opnd) (f : State → Nat × Nat → DWord) (s : State) :
    Result64 k s (compute64 k lat a f s) a (f s) := by
  have h0 := (advance_onlyRegs k s).keep
  have hfold : ∀ b : Opnd, OnlyRegs k s ((actives k s).foldl (fun t m => wrDst64 t lat m b (f s m)) (advance s)) (destV 2 b) [] (destU 2 b) false :=
    fun b => onlyRegs_fold _ _ (fun t m hm ht => ht.wrDst64 b hm lat _ (by simp) (by simp))
      (fun t m v i e => wrDst64_pc _ _ _ _ _ _ _ _ (by rw [e]))
  cases a with
  | s n =>
    refine ⟨?_, ?_⟩
    · exact foldU64 2 n.toNat (fun w => (f s (leadOf (actives k s) w)).truncate 32) (fun w => (f s (leadOf (actives k s) w) >>> 32).truncate 32)
        (wavesOf (actives k s)) (fun _ h => mem_wavesOf h)
        (h0.mono (V' := []) (P' := []) (S' := [n.toNat, n.toNat + 1]) (fl' := false) (by simp) (by simp) (by simp) (by simp)) (by simp) (by simp)
    · refine onlyRegs_fold _ _ (fun t w hw ht => ?_) (fun t w v i e => wrDst64_pc _ _ _ _ _ _ _ _ (by rw [e]))
      exact (ht.wrS (mem_wavesOf hw) 2 _ (by simp)).wrS (mem_wavesOf hw) 2 _ (by simp)
  | v n =>
    exact ⟨foldV64 lat n.toNat (fun m => (f s m).truncate 32) (fun m => (f s m >>> 32).truncate 32) (actives k s) (Holds.act k s)
        (h0.mono (V' := [n.toNat, n.toNat + 1]) (P' := []) (S' := []) (fl' := false) (by simp) (by simp) (by simp) (by simp)) (by simp) (by simp),
      hfold _⟩
  | _ => exact ⟨trivial, hfold _⟩

/-- The lane shape. -/
theorem foldLane_result (k : Ctl) (lat lat' : Nat) (a : Opnd) (f : Nat × Nat → Word) (s : State) :
    Result32 k s (if isUniform a then (wavesOf (actives k s)).foldl (fun t w => wrDst t lat' (0, w) a (f (leadOf (actives k s) w))) (advance s)
      else (actives k s).foldl (fun t m => wrDst t lat m a (f m)) (advance s)) a f := by
  have h0 := (advance_onlyRegs k s).keep
  have hfold : ∀ b : Opnd, OnlyRegs k s ((actives k s).foldl (fun t m => wrDst t lat m b (f m)) (advance s)) (destV 1 b) (destP 1 b) (destU 1 b) (isFlagsReg b) :=
    fun b => onlyRegs_fold _ _ (fun t m hm ht => ht.wrDst b hm lat _ (by simp) (by simp) (by simp) id)
      (fun t m v i e => wrDst_pc _ _ _ _ _ _ _ _ (by rw [e]))
  cases a with
  | s n =>
    refine ⟨?_, ?_⟩
    · exact foldU lat' n.toNat (fun w => f (leadOf (actives k s) w)) (wavesOf (actives k s)) (fun _ h => mem_wavesOf h)
        (h0.mono (V' := []) (P' := []) (S' := [n.toNat]) (fl' := false) (by simp) (by simp) (by simp) (by simp)) (by simp)
    · exact onlyRegs_fold _ _ (fun t w hw ht => ht.wrU n hw lat' _ (by simp)) (fun t w v i e => wrS_pc _ _ _ _ _ _ _ _ (by rw [e]))
  | v n =>
    exact ⟨foldV lat n.toNat f (actives k s) (Holds.act k s)
        (h0.mono (V' := [n.toNat]) (P' := []) (S' := []) (fl' := false) (by simp) (by simp) (by simp) (by simp)) (by simp), hfold _⟩
  | p n =>
    exact ⟨fun m hm hh h48 => foldP lat n.toNat (fun m => f m != 0) (actives k s) (Holds.act k s)
        (h0.mono (V' := []) (P' := [n.toNat]) (S' := []) (fl' := false) (by simp) (by simp) (by simp) (by simp)) (by simp) h48 m hm hh, hfold _⟩
  | sr r =>
    exact ⟨foldFlags lat (fun m => (f m).truncate 5) (actives k s) (Holds.act k s)
        (h0.mono (V' := []) (P' := []) (S' := []) (fl' := true) (by simp) (by simp) (by simp) (by simp)), hfold _⟩
  | _ => exact ⟨trivial, hfold _⟩

/-- The law of the 32-bit shape (03 R38, 06 R88). -/
theorem compute_result (k : Ctl) (lat : Nat) (a : Opnd) (f : State → Nat × Nat → Word) (s : State) :
    Result32 k s (compute k lat a f s) a (f s) := foldLane_result k lat 2 a (f s) s

/-! ### Rows written member by member -/

/-- A fold whose step writes only the row of its member leaves in each row what the step puts there. -/
theorem foldRows (b : State → Nat × Nat → State) (Q : Nat × Nat → Thread → Prop)
    (hk : ∀ t, ∀ m ∈ actives k s, KeepRegs k s t V P S fl → KeepRegs k s (b t m) V P S fl)
    (hother : ∀ t, KeepRegs k s t V P S fl → ∀ m c, m ≠ c → (b t c).thread s.cur.g m.2 m.1 = t.thread s.cur.g m.2 m.1)
    (hself : ∀ t, ∀ m ∈ actives k s, KeepRegs k s t V P S fl → s.hasThread s.cur.g m → Q m ((b t m).thread s.cur.g m.2 m.1))
    (h : KeepRegs k s t V P S fl) :
    ∀ m ∈ actives k s, s.hasThread s.cur.g m → Q m (((actives k s).foldl b t).thread s.cur.g m.2 m.1) := by
  refine foldl_each (fun t => KeepRegs k s t V P S fl) (fun m t => s.hasThread s.cur.g m → Q m (t.thread s.cur.g m.2 m.1)) b
    (actives k s) hk (fun t m hm ht hh => hself t m hm ht hh) (fun t m hm c _ ht hp hh => ?_) t h
  by_cases e : m = c
  · subst e; exact hself t m hm ht hh
  · rw [hother t ht m c e]; exact hp hh

/-- Flags accumulate, whatever else the step writes. -/
theorem foldOr (w : State → Nat × Nat → State) (f : Nat × Nat → FFlags)
    (hk : ∀ t, ∀ m ∈ actives k s, KeepRegs k s t V P S true → KeepRegs k s (w t m) V P S true)
    (hw : ∀ t, KeepRegs k s t V P S true → ∀ c m : Nat × Nat, ((w t c).thread s.cur.g m.2 m.1).fflags = (t.thread s.cur.g m.2 m.1).fflags)
    (h : KeepRegs k s t V P S true)
    (h0 : ∀ m : Nat × Nat, (t.thread s.cur.g m.2 m.1).fflags = (s.thread s.cur.g m.2 m.1).fflags) :
    ∀ m ∈ actives k s, s.hasThread s.cur.g m →
      (((actives k s).foldl (fun t m => orFlags (w t m) m (f m)) t).thread s.cur.g m.2 m.1).fflags =
        (s.thread s.cur.g m.2 m.1).fflags ||| f m := by
  have hb : ∀ t, ∀ c ∈ actives k s, KeepRegs k s t V P S true → ∀ m : Nat × Nat, s.hasThread s.cur.g m →
      ((orFlags (w t c) c (f c)).thread s.cur.g m.2 m.1).fflags =
        if m = c then (t.thread s.cur.g m.2 m.1).fflags ||| f m else (t.thread s.cur.g m.2 m.1).fflags := by
    intro t c hc ht m hh
    have hk' := hk t c hc ht
    unfold orFlags
    rw [State.thread_modThread, hk'.cur]
    by_cases e : m = c
    · subst e
      have := (hk'.hasThread m).2 hh
      rw [if_pos ⟨rfl, rfl, rfl, this⟩, if_pos rfl]
      show _ ||| _ = _
      rw [hw t ht]
    · rw [if_neg (fun x => e (Prod.ext x.2.2.1 x.2.1)), if_neg e, hw t ht]
  have hk2 : ∀ t, ∀ c ∈ actives k s, KeepRegs k s t V P S true → KeepRegs k s (orFlags (w t c) c (f c)) V P S true :=
    fun t c hc ht => (hk t c hc ht).orFlags hc _
  refine foldl_each
    (fun t => KeepRegs k s t V P S true ∧ ∀ m : Nat × Nat, s.hasThread s.cur.g m →
      ((t.thread s.cur.g m.2 m.1).fflags = (s.thread s.cur.g m.2 m.1).fflags ∨
       (t.thread s.cur.g m.2 m.1).fflags = (s.thread s.cur.g m.2 m.1).fflags ||| f m))
    (fun m t => s.hasThread s.cur.g m → (t.thread s.cur.g m.2 m.1).fflags = (s.thread s.cur.g m.2 m.1).fflags ||| f m)
    _ (actives k s) (fun t c hc ht => ⟨hk2 t c hc ht.1, fun m hh => ?_⟩) (fun t m hm ht hh => ?_) (fun t m hm c hc ht hp hh => ?_)
    t ⟨h, fun m _ => .inl (h0 m)⟩
  · rw [hb t c hc ht.1 m hh]
    split
    · rcases ht.2 m hh with e | e <;> rw [e]
      · exact .inr rfl
      · right; rw [BitVec.or_assoc, BitVec.or_self]
    · exact ht.2 m hh
  · rw [hb t m hm ht.1 m hh, if_pos rfl]
    rcases ht.2 m hh with e | e <;> rw [e]
    rw [BitVec.or_assoc, BitVec.or_self]
  · rw [hb t c hc ht.1 m hh]
    split
    · rw [hp hh, BitVec.or_assoc, BitVec.or_self]
    · exact hp hh

/-! ### Rows of one write -/

theorem wrDst_other (t : State) (lat : Nat) (a : Opnd) (x : Word) (g : Nat) (hg : g = t.cur.g) {m c : Nat × Nat} (e : m ≠ c) :
    (wrDst t lat c a x).thread g m.2 m.1 = t.thread g m.2 m.1 := by
  subst hg
  cases a with
  | v n => rw [wrDst, wrV_thread, if_neg (fun h => e (Prod.ext h.2.1 h.1))]
  | s n => rw [wrDst, wrS_thread]
  | p n => rw [wrDst, wrP_thread, if_neg (fun h => e (Prod.ext h.2.1 h.1))]
  | sr r => unfold wrDst setFlags; rw [State.thread_modThread, if_neg (fun h => e (Prod.ext h.2.2.1 h.2.1))]
  | _ => rfl

theorem orFlags_other (t : State) (f : FFlags) (g : Nat) {m c : Nat × Nat} (e : m ≠ c) :
    (orFlags t c f).thread g m.2 m.1 = t.thread g m.2 m.1 := by
  unfold orFlags; rw [State.thread_modThread, if_neg (fun h => e (Prod.ext h.2.2.1 h.2.1))]

theorem orFlags_vraw (t : State) (f : FFlags) (g w l r : Nat) (m : Nat × Nat) :
    vraw ((orFlags t m f).thread g w l) r = vraw (t.thread g w l) r := by
  unfold orFlags; rw [State.thread_modThread]; split
  · rename_i c; obtain ⟨rfl, rfl, rfl, -⟩ := c; rfl
  · rfl

theorem wrDst_fflags (t : State) (lat : Nat) (a : Opnd) (x : Word) (g : Nat) (hg : g = t.cur.g) (c : Nat × Nat) (w l : Nat)
    (ha : isFlagsReg a = false) : ((wrDst t lat c a x).thread g w l).fflags = (t.thread g w l).fflags := by
  subst hg
  cases a with
  | v n => rw [wrDst, wrV_thread]; split <;> rfl
  | s n => rw [wrDst, wrS_thread]
  | p n => rw [wrDst, wrP_thread]; split <;> rfl
  | sr r => simp [isFlagsReg] at ha
  | _ => rfl

theorem wrDst64_other (t : State) (lat : Nat) (a : Opnd) (x : DWord) (g : Nat) (hg : g = t.cur.g) {m c : Nat × Nat} (e : m ≠ c) :
    (wrDst64 t lat c a x).thread g m.2 m.1 = t.thread g m.2 m.1 := by
  subst hg
  cases a with
  | v n =>
    have h2 := wrV_thread (wrV t lat c n.toNat (x.truncate 32)) lat c (n.toNat + 1) ((x >>> 32).truncate 32) m.2 m.1
    rw [wrV_cur] at h2
    rw [wrDst64, h2, if_neg (fun h => e (Prod.ext h.2.1 h.1)), wrV_thread, if_neg (fun h => e (Prod.ext h.2.1 h.1))]
  | s n =>
    have h2 := wrS_thread (wrS t lat c.2 n.toNat (x.truncate 32)) lat c.2 (n.toNat + 1) ((x >>> 32).truncate 32) m.2 m.1
    rw [wrS_cur] at h2
    rw [wrDst64, h2, wrS_thread]
  | _ => rfl

theorem wrDst64_fflags (t : State) (lat : Nat) (a : Opnd) (x : DWord) (g : Nat) (hg : g = t.cur.g) (c : Nat × Nat) (w l : Nat) :
    ((wrDst64 t lat c a x).thread g w l).fflags = (t.thread g w l).fflags := by
  subst hg
  cases a with
  | v n =>
    have h2 := wrV_thread (wrV t lat c n.toNat (x.truncate 32)) lat c (n.toNat + 1) ((x >>> 32).truncate 32) w l
    rw [wrV_cur] at h2
    rw [wrDst64, h2, wrV_thread]; split <;> split <;> rfl
  | s n =>
    have h2 := wrS_thread (wrS t lat c.2 n.toNat (x.truncate 32)) lat c.2 (n.toNat + 1) ((x >>> 32).truncate 32) w l
    rw [wrS_cur] at h2
    rw [wrDst64, h2, wrS_thread]
  | _ => rfl

/-- The law of the floating-point shape (05 R79). -/
theorem computeF_result (k : Ctl) (lat : Nat) (a : Opnd) (f : State → Nat × Nat → Nat × FFlags) (s : State) :
    ResultF k s (computeF k lat a f s) a (f s) := by
  have hs : ∀ t, ∀ m ∈ actives k s, KeepRegs k s t (destV 1 a) (destP 1 a) (destU 1 a) true →
      KeepRegs k s (wrDst t lat m a (BitVec.ofNat 32 (f s m).1)) (destV 1 a) (destP 1 a) (destU 1 a) true :=
    fun t m hm ht => ht.wrDst a hm lat _ (by simp) (by simp) (by simp) (by simp)
  have hk : ∀ t, ∀ m ∈ actives k s, KeepRegs k s t (destV 1 a) (destP 1 a) (destU 1 a) true →
      KeepRegs k s (orFlags (wrDst t lat m a (BitVec.ofNat 32 (f s m).1)) m (f s m).2) (destV 1 a) (destP 1 a) (destU 1 a) true :=
    fun t m hm ht => (hs t m hm ht).orFlags hm _
  have h0 : KeepRegs k s (advance s) (destV 1 a) (destP 1 a) (destU 1 a) true :=
    (advance_onlyRegs k s).keep.mono (by simp) (by simp) (by simp) (by simp)
  refine ⟨?_, fun ha => ?_, ?_⟩
  · cases a with
    | v n =>
      refine foldRows _ (fun m th => vraw th n.toNat = BitVec.ofNat 32 (f s m).1) hk (fun t ht m c e => ?_) (fun t m hm ht hh => ?_) h0
      · rw [orFlags_other _ _ _ e, wrDst_other _ _ _ _ _ (by rw [ht.cur]) e]
      · rw [orFlags_vraw, ← ht.cur, wrDst, wrV_vraw _ _ _ _ _ _ _ (by rw [ht.cur]; exact (ht.hasThread m).2 hh), if_pos ⟨rfl, rfl⟩]
    | _ => trivial
  · exact foldOr _ (fun m => (f s m).2) hs (fun t ht c m => wrDst_fflags _ _ _ _ _ (by rw [ht.cur]) _ _ _ ha) h0
      (fun m => (advance_onlyRegs k s).keep.flags rfl _ _)
  · exact onlyRegs_fold _ _ hk (fun t m v i e => by rw [orFlags_pc, wrDst_pc _ _ _ _ _ _ _ _ (by rw [e])])

theorem wrDst64_vraw (t : State) (lat : Nat) (m : Nat × Nat) (n : BitVec 8) (x : DWord) (r : Nat) (hh : t.hasThread t.cur.g m) :
    vraw ((wrDst64 t lat m (.v n) x).thread t.cur.g m.2 m.1) r =
      if r = n.toNat + 1 then (x >>> 32).truncate 32 else if r = n.toNat then x.truncate 32 else vraw (t.thread t.cur.g m.2 m.1) r := by
  have h2 : (wrV t lat m n.toNat (x.truncate 32)).hasThread t.cur.g m := by
    unfold wrV; rw [State.hasThread_modThread]; exact hh
  have e2 := wrV_vraw (wrV t lat m n.toNat (x.truncate 32)) lat m m (n.toNat + 1) r ((x >>> 32).truncate 32) h2
  have e1 := wrV_vraw t lat m m n.toNat r (x.truncate 32) hh
  rw [wrV_cur] at e2
  rw [wrDst64, e2, e1]; simp only [true_and]

/-- The law of the 64-bit floating-point shape. -/
theorem computeF64_result (k : Ctl) (lat : Nat) (a : Opnd) (f : State → Nat × Nat → Nat × FFlags) (s : State) :
    ResultF64 k s (computeF64 k lat a f s) a (f s) := by
  have hs : ∀ t, ∀ m ∈ actives k s, KeepRegs k s t (destV 2 a) [] (destU 2 a) true →
      KeepRegs k s (wrDst64 t lat m a (BitVec.ofNat 64 (f s m).1)) (destV 2 a) [] (destU 2 a) true :=
    fun t m hm ht => ht.wrDst64 a hm lat _ (by simp) (by simp)
  have hk : ∀ t, ∀ m ∈ actives k s, KeepRegs k s t (destV 2 a) [] (destU 2 a) true →
      KeepRegs k s (orFlags (wrDst64 t lat m a (BitVec.ofNat 64 (f s m).1)) m (f s m).2) (destV 2 a) [] (destU 2 a) true :=
    fun t m hm ht => (hs t m hm ht).orFlags hm _
  have h0 : KeepRegs k s (advance s) (destV 2 a) [] (destU 2 a) true :=
    (advance_onlyRegs k s).keep.mono (by simp) (by simp) (by simp) (by simp)
  refine ⟨?_, ?_, ?_⟩
  · cases a with
    | v n =>
      refine foldRows _ (fun m th => vraw th n.toNat = (BitVec.ofNat 64 (f s m).1).truncate 32 ∧
        vraw th (n.toNat + 1) = (BitVec.ofNat 64 (f s m).1 >>> 32).truncate 32) hk (fun t ht m c e => ?_) (fun t m hm ht hh => ?_) h0
      · rw [orFlags_other _ _ _ e, wrDst64_other _ _ _ _ _ (by rw [ht.cur]) e]
      · have h1 : t.hasThread t.cur.g m := by rw [ht.cur]; exact (ht.hasThread m).2 hh
        constructor
        · rw [orFlags_vraw, ← ht.cur, wrDst64_vraw _ _ _ _ _ _ h1]; simp
        · rw [orFlags_vraw, ← ht.cur, wrDst64_vraw _ _ _ _ _ _ h1]; simp
    | _ => trivial
  · exact foldOr _ (fun m => (f s m).2) hs (fun t ht c m => wrDst64_fflags _ _ _ _ _ (by rw [ht.cur]) _ _ _) h0
      (fun m => (advance_onlyRegs k s).keep.flags rfl _ _)
  · exact onlyRegs_fold _ _ hk (fun t m v i e => by rw [orFlags_pc, wrDst64_pc _ _ _ _ _ _ _ _ (by rw [e])])

/-! ### Several registers of one row -/

theorem mem_zip_range {α : Type} {l : List α} {d : α} {x : Nat × α} (h : x ∈ (List.range l.length).zip l) :
    x.1 < l.length ∧ x.2 = l.getD x.1 d := by
  obtain ⟨i, hi, e⟩ := List.getElem_of_mem h
  rw [List.length_zip, List.length_range, Nat.min_self] at hi
  rw [List.getElem_zip] at e
  subst e
  simp [hi, List.getD]

theorem zip_range_mem {α : Type} {l : List α} (d : α) {j : Nat} (hj : j < l.length) : (j, l.getD j d) ∈ (List.range l.length).zip l := by
  have hz : j < ((List.range l.length).zip l).length := by simp [List.length_zip, hj]
  have := List.getElem_mem hz
  rw [List.getElem_zip] at this
  simpa [hj, List.getD] using this

theorem destP_mem {n : Nat} {i : BitVec 6} {j : Nat} (h : j < n) : i.toNat + j ∈ destP n (.p i) := by
  simp only [destP, List.mem_map, List.mem_range]; exact ⟨j, h, rfl⟩
theorem destV_mem {n : Nat} {i : BitVec 8} {j : Nat} (h : j < n) : i.toNat + j ∈ destV n (.v i) := by
  simp only [destV, List.mem_map, List.mem_range]; exact ⟨j, h, rfl⟩

theorem wrPs_other (xs : List (Nat × Bool)) (lat n : Nat) {m c : Nat × Nat} (e : m ≠ c) (g : Nat) :
    ∀ t : State, g = t.cur.g → (xs.foldl (fun t x => wrP t lat c (n + x.1) x.2) t).thread g m.2 m.1 = t.thread g m.2 m.1 := by
  induction xs with
  | nil => intro t _; rfl
  | cons x xs ih =>
    intro t hg
    rw [List.foldl_cons, ih _ (by simpa using hg)]
    subst hg
    rw [wrP_thread, if_neg (fun h => e (Prod.ext h.2.1 h.1))]

theorem wrPs_pc (xs : List (Nat × Bool)) (lat n : Nat) (c : Nat × Nat) (g w l : Nat) :
    ∀ t : State, g = t.cur.g → ((xs.foldl (fun t x => wrP t lat c (n + x.1) x.2) t).thread g w l).pc = (t.thread g w l).pc := by
  induction xs with
  | nil => intro t _; rfl
  | cons x xs ih =>
    intro t hg
    rw [List.foldl_cons, ih _ (by simpa using hg), wrP_pc _ _ _ _ _ _ _ _ hg]

theorem wrVs_other (xs : List (Nat × Nat)) (lat n : Nat) {m c : Nat × Nat} (e : m ≠ c) (g : Nat) :
    ∀ t : State, g = t.cur.g →
      (xs.foldl (fun t x => wrV t lat c (n + x.1) (BitVec.ofNat 32 x.2)) t).thread g m.2 m.1 = t.thread g m.2 m.1 := by
  induction xs with
  | nil => intro t _; rfl
  | cons x xs ih =>
    intro t hg
    rw [List.foldl_cons, ih _ (by simpa using hg)]
    subst hg
    rw [wrV_thread, if_neg (fun h => e (Prod.ext h.2.1 h.1))]

theorem wrVs_pc (xs : List (Nat × Nat)) (lat n : Nat) (c : Nat × Nat) (g w l : Nat) :
    ∀ t : State, g = t.cur.g →
      ((xs.foldl (fun t x => wrV t lat c (n + x.1) (BitVec.ofNat 32 x.2)) t).thread g w l).pc = (t.thread g w l).pc ∧
      ((xs.foldl (fun t x => wrV t lat c (n + x.1) (BitVec.ofNat 32 x.2)) t).thread g w l).fflags = (t.thread g w l).fflags := by
  induction xs with
  | nil => intro t _; exact ⟨rfl, rfl⟩
  | cons x xs ih =>
    intro t hg
    obtain ⟨h1, h2⟩ := ih (wrV t lat c (n + x.1) (BitVec.ofNat 32 x.2)) (by simpa using hg)
    rw [List.foldl_cons]
    refine ⟨h1.trans (wrV_pc _ _ _ _ _ _ _ _ hg), h2.trans ?_⟩
    subst hg
    rw [wrV_thread]; split <;> rfl

/-- The law of the shape that writes predicates. -/
theorem computeP_result (k : Ctl) (lat : Nat) (a : Opnd) (N : Nat) (f : State → Nat × Nat → List Bool) (s : State)
    (hN : ∀ m, (f s m).length ≤ N) : ResultP k s (computeP k lat a f s) a N (f s) := by
  cases a with
  | p n =>
    have hk : ∀ t, ∀ m ∈ actives k s, KeepRegs k s t [] (destP N (.p n)) [] false →
        KeepRegs k s (((List.range (f s m).length).zip (f s m)).foldl (fun t x => wrP t lat m (n.toNat + x.1) x.2) t) [] (destP N (.p n)) [] false := by
      intro t m hm ht
      refine foldl_keeps (fun t => KeepRegs k s t [] (destP N (.p n)) [] false) _ _ (fun t x hx ht => ht.wrP hm lat _ ?_) t ht
      exact destP_mem (Nat.lt_of_lt_of_le (mem_zip_range (d := false) hx).1 (hN m))
    have h0 : KeepRegs k s (advance s) [] (destP N (.p n)) [] false := (advance_onlyRegs k s).keep.mono (by simp) (by simp) (by simp) (by simp)
    refine ⟨?_, ?_⟩
    · refine foldRows _ (fun m th => ∀ j < (f s m).length, n.toNat + j < 48 → praw th (n.toNat + j) = (f s m).getD j false)
        hk (fun t ht m c e => ?_) (fun t m hm ht hh j hj h48 => ?_) h0
      · exact wrPs_other _ lat _ e _ t (by rw [ht.cur])
      · refine foldl_each (fun u => KeepRegs k s u [] (destP N (.p n)) [] false)
          (fun x u => n.toNat + x.1 < 48 → praw (u.thread s.cur.g m.2 m.1) (n.toNat + x.1) = x.2) _ ((List.range (f s m).length).zip (f s m))
          (fun u x hx hu => hu.wrP hm lat _ (destP_mem (Nat.lt_of_lt_of_le (mem_zip_range (d := false) hx).1 (hN m))))
          (fun u x hx hu h48 => ?_) (fun u x hx y hy hu hp h48 => ?_) t ht _ (zip_range_mem false hj) h48
        · rw [← hu.cur, wrP_thread, if_pos ⟨rfl, rfl, by rw [hu.cur]; exact (hu.hasThread m).2 hh⟩, praw_setPThread, if_pos ⟨rfl, h48⟩]
        · have hp := hp h48
          rw [← hu.cur] at hp ⊢
          rw [wrP_thread, if_pos ⟨rfl, rfl, by rw [hu.cur]; exact (hu.hasThread m).2 hh⟩, praw_setPThread]
          split
          · rename_i c
            have e1 : y.1 = x.1 := by omega
            rw [(mem_zip_range (d := false) hx).2, (mem_zip_range (d := false) hy).2, e1]
          · exact hp
    · exact onlyRegs_fold _ _ hk (fun t m v i e => wrPs_pc _ _ _ _ _ _ _ t (by rw [e]))
  | _ => exact ⟨trivial, (advance_onlyRegs k s)⟩

/-- The law of the shape that writes consecutive vector registers. -/
theorem computeSpan_result (k : Ctl) (lat : Nat) (a : Opnd) (N : Nat) (f : State → Nat × Nat → List Nat × FFlags) (s : State)
    (hN : ∀ m, (f s m).1.length ≤ N) (ha : ∃ n, a = .v n) : ResultSpan k s (computeSpan k lat a f s) a N (f s) := by
  obtain ⟨n, rfl⟩ := ha
  have hs : ∀ t, ∀ m ∈ actives k s, KeepRegs k s t (destV N (.v n)) [] [] true →
      KeepRegs k s (((List.range (f s m).1.length).zip (f s m).1).foldl (fun t x => wrV t lat m (n.toNat + x.1) (BitVec.ofNat 32 x.2)) t)
        (destV N (.v n)) [] [] true := by
    intro t m hm ht
    refine foldl_keeps (fun t => KeepRegs k s t (destV N (.v n)) [] [] true) _ _ (fun t x hx ht => ht.wrV hm lat _ ?_) t ht
    exact destV_mem (Nat.lt_of_lt_of_le (mem_zip_range (d := 0) hx).1 (hN m))
  have hk : ∀ t, ∀ m ∈ actives k s, KeepRegs k s t (destV N (.v n)) [] [] true → KeepRegs k s
      (orFlags (((List.range (f s m).1.length).zip (f s m).1).foldl (fun t x => wrV t lat m (n.toNat + x.1) (BitVec.ofNat 32 x.2)) t) m (f s m).2)
        (destV N (.v n)) [] [] true := fun t m hm ht => (hs t m hm ht).orFlags hm _
  have h0 : KeepRegs k s (advance s) (destV N (.v n)) [] [] true := (advance_onlyRegs k s).keep.mono (by simp) (by simp) (by simp) (by simp)
  refine ⟨?_, ?_, ?_⟩
  · refine foldRows _ (fun m th => ∀ j < (f s m).1.length, vraw th (n.toNat + j) = BitVec.ofNat 32 ((f s m).1.getD j 0))
      hk (fun t ht m c e => ?_) (fun t m hm ht hh j hj => ?_) h0
    · rw [orFlags_other _ _ _ e]
      exact wrVs_other _ lat _ e _ t (by rw [ht.cur])
    · rw [orFlags_vraw]
      refine foldl_each (fun u => KeepRegs k s u (destV N (.v n)) [] [] true)
        (fun x u => vraw (u.thread s.cur.g m.2 m.1) (n.toNat + x.1) = BitVec.ofNat 32 x.2) _ ((List.range (f s m).1.length).zip (f s m).1)
        (fun u x hx hu => hu.wrV hm lat _ (destV_mem (Nat.lt_of_lt_of_le (mem_zip_range (d := 0) hx).1 (hN m))))
        (fun u x hx hu => ?_) (fun u x hx y hy hu hp => ?_) t ht _ (zip_range_mem 0 hj)
      · rw [← hu.cur, wrV_thread, if_pos ⟨rfl, rfl, by rw [hu.cur]; exact (hu.hasThread m).2 hh⟩, vraw_setVThread, if_pos rfl]
      · rw [← hu.cur] at hp ⊢
        rw [wrV_thread, if_pos ⟨rfl, rfl, by rw [hu.cur]; exact (hu.hasThread m).2 hh⟩, vraw_setVThread]
        split
        · rename_i c
          have e1 : y.1 = x.1 := by omega
          rw [(mem_zip_range (d := 0) hx).2, (mem_zip_range (d := 0) hy).2, e1]
        · exact hp
  · exact foldOr _ (fun m => (f s m).2) hs (fun t ht c m => (wrVs_pc _ _ _ _ _ _ _ t (by rw [ht.cur])).2) h0 (fun m => (advance_onlyRegs k s).keep.flags rfl _ _)
  · exact onlyRegs_fold _ _ hk (fun t m v i e => by rw [orFlags_pc, (wrVs_pc _ _ _ _ _ _ _ t (by rw [e])).1])

/-! ### Equal results -/

theorem Result32.congr {a : Opnd} {f g : Nat × Nat → Word} (h : Result32 k s t a f) (e : ∀ m, f m = g m) : Result32 k s t a g :=
  funext e ▸ h
theorem Result64.congr {a : Opnd} {f g : Nat × Nat → DWord} (h : Result64 k s t a f) (e : ∀ m, f m = g m) : Result64 k s t a g :=
  funext e ▸ h
theorem ResultP.congr {a : Opnd} {n : Nat} {f g : Nat × Nat → List Bool} (h : ResultP k s t a n f) (e : ∀ m, f m = g m) :
    ResultP k s t a n g := funext e ▸ h
theorem ResultF.congr {a : Opnd} {f g : Nat × Nat → Nat × FFlags} (h : ResultF k s t a f) (e : ∀ m, f m = g m) : ResultF k s t a g :=
  funext e ▸ h

end Sys2Proof.Machine
end

