-- ==== Sys2Proof/Laws/Each.lean ====
section
/-! SUPPORT. Updates of the threads and home waves of one group. -/

namespace Sys2Proof.Machine

variable {s t u : State} {g : Nat}

theorem InGroup.refl (s : State) (g : Nat) : InGroup s s g := ⟨rfl, fun _ _ => rfl⟩

theorem InGroup.trans (a : InGroup s t g) (b : InGroup t u g) : InGroup s u g :=
  ⟨by rw [b.rest, a.rest], fun h e => (b.others h e).trans (a.others h e)⟩

theorem InGroup.cur (a : InGroup s t g) : t.cur = s.cur := by rw [a.rest]
theorem InGroup.clock (a : InGroup s t g) : t.clock = s.clock := by rw [a.rest]
theorem InGroup.ctx (a : InGroup s t g) (c : Nat) : t.ctx c = s.ctx c := by rw [a.rest]; rfl
theorem InGroup.viewByte (a : InGroup s t g) (sp : Space) (p : Nat) : viewByte t sp p = viewByte s sp p := by rw [a.rest]; rfl

theorem inGroup_modGroup (s : State) (g : Nat) (f : Group → Group) : InGroup s (s.modGroup g f) g :=
  ⟨rfl, fun h e => by simp [State.modGroup, mget_mmod, e]⟩
theorem inGroup_modWave (s : State) (g w : Nat) (f : Wave → Wave) : InGroup s (s.modWave g w f) g := inGroup_modGroup ..
theorem inGroup_modThread (s : State) (g w l : Nat) (f : Thread → Thread) : InGroup s (s.modThread g w l f) g := inGroup_modGroup ..

theorem InGroup.foldl {β : Type} (f : State → β → State) (h : ∀ t b, InGroup s t g → InGroup t (f t b) g) (l : List β)
    (t : State) (ht : InGroup s t g) : InGroup s (l.foldl f t) g :=
  foldl_keeps (fun t => InGroup s t g) f l (fun t b _ i => i.trans (h t b i)) t ht

/-! ### Threads -/

theorem EachThread.refl (s : State) (g : Nat) : EachThread s s g fun _ t => t :=
  ⟨InGroup.refl s g, rfl, rfl, fun _ => rfl, fun _ => rfl, fun _ _ => rfl⟩

theorem EachThread.hasThread {f : Nat × Nat → Thread → Thread} (a : EachThread s t g f) (m : Nat × Nat) :
    t.hasThread g m ↔ s.hasThread g m := by simp [State.hasThread, a.waves, a.threads]

theorem EachThread.trans {f h : Nat × Nat → Thread → Thread} (a : EachThread s t g f) (b : EachThread t u g h) :
    EachThread s u g fun m x => h m (f m x) :=
  ⟨a.only.trans b.only, by rw [b.group, a.group], b.waves.trans a.waves, fun w => by rw [b.wave, a.wave],
    fun w => (b.threads w).trans (a.threads w), fun m hm => by rw [b.thread m ((a.hasThread m).2 hm), a.thread m hm]⟩

theorem EachThread.congr {f h : Nat × Nat → Thread → Thread} (a : EachThread s t g f)
    (e : ∀ m, s.hasThread g m → f m (s.thread g m.2 m.1) = h m (s.thread g m.2 m.1)) : EachThread s t g h :=
  { a with thread := fun m hm => (a.thread m hm).trans (e m hm) }

theorem eachThread_modThread (s : State) (g : Nat) (c : Nat × Nat) (f : Thread → Thread) :
    EachThread s (s.modThread g c.2 c.1 f) g fun m x => if m = c then f x else x := by
  refine ⟨inGroup_modThread .., State.group_modThread .., by simp, fun w => State.wave_modThread .., fun w => by simp, fun m hm => ?_⟩
  rw [State.thread_modThread]
  by_cases e : m = c
  · subst e; simp [hm.1, hm.2]
  · rw [if_neg fun h => e (Prod.ext h.2.2.1 h.2.1), if_neg e]

/-- A fold that updates one thread for each element of a list, where a second update of a thread changes nothing more. -/
theorem eachThread_foldl (l : List (Nat × Nat)) (f : Nat × Nat → Thread → Thread) (hf : ∀ m x, f m (f m x) = f m x) (s : State) (g : Nat) :
    EachThread s (l.foldl (fun t m => t.modThread g m.2 m.1 (f m)) s) g fun m x => if m ∈ l then f m x else x := by
  induction l generalizing s with
  | nil => exact (EachThread.refl s g).congr fun m _ => by simp
  | cons c l ih =>
    refine ((eachThread_modThread s g c (f c)).trans (ih _)).congr fun m _ => ?_
    by_cases e : m = c
    · subst e; by_cases h : m ∈ l <;> simp [h, hf]
    · by_cases h : m ∈ l <;> simp [h, e]

/-- The same where the step itself names the group, and its update may read what the updates do not change. -/
theorem eachThread_fold (l : List (Nat × Nat)) (b : State → Nat × Nat → State) (f : Nat × Nat → Thread → Thread)
    (hf : ∀ m x, f m (f m x) = f m x) (s : State) (g : Nat)
    (hb : ∀ t, InGroup s t g → ∀ m, b t m = t.modThread g m.2 m.1 (f m)) :
    EachThread s (l.foldl b s) g fun m x => if m ∈ l then f m x else x := by
  have key : ∀ l : List (Nat × Nat), ∀ t, InGroup s t g → l.foldl b t = l.foldl (fun t m => t.modThread g m.2 m.1 (f m)) t := by
    intro l
    induction l with
    | nil => intro t _; rfl
    | cons c l ih =>
      intro t ht
      rw [List.foldl_cons, List.foldl_cons, hb t ht, ih _ (ht.trans (inGroup_modThread ..))]
  rw [key l s (InGroup.refl s g)]
  exact eachThread_foldl l f hf s g

/-- Every issuing thread goes on at the next instruction, and nothing else changes. -/
theorem advance_each (s : State) :
    EachThread s (advance s) s.cur.g fun m x => if m ∈ s.cur.members then { x with pc := s.cur.pc + 12 } else x :=
  eachThread_fold _ _ (fun _ x => { x with pc := s.cur.pc + 12 }) (fun _ _ => rfl) s s.cur.g fun t ht m => by rw [ht.cur]

/-! ### Home waves -/

theorem EachWave.hasWave {f : Nat → Wave → Wave} (a : EachWave s t g f) (w : Nat) : t.hasWave g w ↔ s.hasWave g w := by
  simp [State.hasWave, a.waves]

theorem EachWave.refl (s : State) (g : Nat) : EachWave s s g fun _ v => v := ⟨InGroup.refl s g, rfl, rfl, fun _ _ => rfl⟩

theorem EachWave.trans {f h : Nat → Wave → Wave} (a : EachWave s t g f) (b : EachWave t u g h) :
    EachWave s u g fun w v => h w (f w v) :=
  ⟨a.only.trans b.only, by rw [b.group, a.group], b.waves.trans a.waves,
    fun w hw => by rw [b.wave w ((a.hasWave w).2 hw), a.wave w hw]⟩

theorem EachWave.congr {f h : Nat → Wave → Wave} (a : EachWave s t g f)
    (e : ∀ w, s.hasWave g w → f w (s.wave g w) = h w (s.wave g w)) : EachWave s t g h :=
  { a with wave := fun w hw => (a.wave w hw).trans (e w hw) }

theorem eachWave_modWave (s : State) (g w : Nat) (f : Wave → Wave) :
    EachWave s (s.modWave g w f) g fun v x => if v = w then f x else x := by
  refine ⟨inGroup_modWave .., State.group_modWave .., by simp, fun v hv => ?_⟩
  rw [State.wave_modWave]
  by_cases e : v = w
  · subst e; rw [if_pos ⟨rfl, rfl, hv⟩, if_pos rfl]
  · rw [if_neg fun h => e h.2.1, if_neg e]

theorem EachThread.toWave {f : Nat × Nat → Thread → Thread} (a : EachThread s t g f) :
    EachWave s t g fun w v => { v with threads := (t.wave g w).threads } :=
  ⟨a.only, a.group, a.waves, fun w _ => a.wave w⟩

/-- A thread update seen from its wave: threads apart, the wave is as it was. -/
theorem eachWave_foldl {α : Type} (l : List α) (k : α → Nat) (f : α → Wave → Wave) (hl : (l.map k).Nodup) (s : State) (g : Nat) :
    EachWave s (l.foldl (fun t a => t.modWave g (k a) (f a)) s) g fun w v => match l.find? fun a => k a == w with | some a => f a v | none => v := by
  induction l generalizing s with
  | nil => exact (EachWave.refl s g).congr fun w _ => rfl
  | cons c l ih =>
    rw [List.map_cons, List.nodup_cons] at hl
    refine ((eachWave_modWave s g (k c) (f c)).trans (ih hl.2 _)).congr fun w _ => ?_
    by_cases e : w = k c
    · subst e
      have hn : l.find? (fun a => k a == k c) = none := by
        rw [List.find?_eq_none]; intro a ha hc
        exact hl.1 (by rw [← (beq_iff_eq.1 hc)]; exact List.mem_map_of_mem ha)
      rw [List.find?_cons]; simp [hn]
    · have : (k c == w) = false := by simpa using fun h => e h.symm
      rw [List.find?_cons, this]; simp [e]

end Sys2Proof.Machine
end

