-- ==== Sys2Proof/Laws/Families.lean ====
section
/-! SUPPORT. Laws of the values that the register families compute, and of the carry chain. -/

namespace Sys2Proof.Machine

variable {k : Ctl} {s t : State}

/-- The law of lane instructions. -/
theorem computeL_result (k : Ctl) (a : Opnd) (f : State → Nat × Nat → Word) (s : State) : Result32 k s (computeL k a f s) a (f s) :=
  foldLane_result k 8 8 a (f s) s

/-- A uniform destination combines over its own home wave, any other over every thread whose guard is true (06 R104). -/
theorem combining_eq (a : Opnd) (act : List (Nat × Nat)) (m : Nat × Nat) :
    combining a act m = match a with | .s _ => act.filter fun x => x.2 == m.2 | _ => act := by cases a <;> rfl

theorem getLsbD_or_one (x : Word) (j i : Nat) (hi : i < 32) :
    (x ||| (1#32 <<< j)).getLsbD i = (x.getLsbD i || decide (i = j)) := by
  rw [BitVec.getLsbD_or, BitVec.getLsbD_shiftLeft, BitVec.getLsbD_one]
  by_cases h : i = j
  · subst h; simp [hi]
  · simp [h, hi]; omega

/-- Bit i of the mask of a list of lanes. -/
theorem getLsbD_maskOf (ls : List Nat) (i : Nat) (hi : i < 32) : (maskOf ls).getLsbD i = ls.any (· == i) := by
  have key : ∀ ls : List Nat, ∀ x : Word, (ls.foldl (fun m l => m ||| (1#32 <<< l)) x).getLsbD i = (x.getLsbD i || ls.any (· == i)) := by
    intro ls
    induction ls with
    | nil => intro x; simp
    | cons l t ih =>
      intro x
      rw [List.foldl_cons, ih, getLsbD_or_one _ _ _ hi, List.any_cons, Bool.or_assoc]
      congr 2
      by_cases h : i = l
      · simp [h]
      · simp [h, Ne.symm h]
  rw [maskOf, key]; simp

theorem getLsbD_wordBits (f : Nat → Bool) (i : Nat) (hi : i < 32) : (wordBits f).getLsbD i = f i := by
  have key : ∀ n, ∀ x : Word, ((List.range n).foldl (fun acc j => if f j then acc ||| (1#32 <<< j) else acc) x).getLsbD i =
      (x.getLsbD i || (decide (i < n) && f i)) := by
    intro n
    induction n with
    | zero => intro x; simp
    | succ n ih =>
      intro x
      rw [List.range_succ, List.foldl_append, List.foldl_cons, List.foldl_nil]
      split
      · rename_i h
        rw [getLsbD_or_one _ _ _ hi, ih, Bool.or_assoc]
        congr 1
        by_cases e : i = n
        · subst e; simp [h]
        · rw [show decide (i < n + 1) = decide (i < n) from decide_eq_decide.mpr (by omega)]; simp [e]
      · rename_i h
        rw [ih]
        congr 1
        by_cases e : i = n
        · subst e; simp [h]
        · by_cases c : i < n
          · simp [c, Nat.lt_succ_of_lt c]
          · simp [c, show ¬ i < n + 1 by omega]
  rw [wordBits, key]; simp [hi]

/-- The law of the carry chain. -/
theorem withCarry_result (k : Ctl) (a d b c : Opnd) (f : Word → Word → Bool → Word × Bool) (s : State) (ha : VDest a) {q : BitVec 6}
    (hd : d = .p q) : ResultCarry k s (withCarry k a d f b c s) a d fun m => f (src s m b) (src s m c) (srcP s m d) := by
  subst hd
  have hS : destU 1 a = [] := by rcases ha with rfl | ⟨n, rfl⟩ <;> rfl
  have hP : destP 1 a = [] := by rcases ha with rfl | ⟨n, rfl⟩ <;> rfl
  have hF : isFlagsReg a = false := by rcases ha with rfl | ⟨n, rfl⟩ <;> rfl
  let g := fun m => f (src s m b) (src s m c) (srcP s m (.p q))
  have hs : ∀ t, ∀ m ∈ actives k s, KeepRegs k s t (destV 1 a) (destP 1 (.p q)) [] false →
      KeepRegs k s (wrDst t 4 m a (g m).1) (destV 1 a) (destP 1 (.p q)) [] false :=
    fun t m hm ht => ht.wrDst a hm 4 _ (fun _ h => h) (by rw [hP]; simp) (by rw [hS]; simp) (by rw [hF]; simp)
  have hk : ∀ t, ∀ m ∈ actives k s, KeepRegs k s t (destV 1 a) (destP 1 (.p q)) [] false →
      KeepRegs k s (wrDst (wrDst t 4 m a (g m).1) 4 m (.p q) (wordOfBool (g m).2)) (destV 1 a) (destP 1 (.p q)) [] false :=
    fun t m hm ht => (hs t m hm ht).wrDst (.p q) hm 4 _ (by simp [destV]) (by simp) (by simp [destU]) (by simp [isFlagsReg])
  have h0 : KeepRegs k s (advance s) (destV 1 a) (destP 1 (.p q)) [] false :=
    (advance_onlyRegs k s).keep.mono (by simp) (by simp) (by simp) (by simp)
  have hother : ∀ t, KeepRegs k s t (destV 1 a) (destP 1 (.p q)) [] false → ∀ m c', m ≠ c' →
      (wrDst (wrDst t 4 c' a (g c').1) 4 c' (.p q) (wordOfBool (g c').2)).thread s.cur.g m.2 m.1 = t.thread s.cur.g m.2 m.1 := by
    intro t ht m c' e
    rw [wrDst_other _ _ _ _ _ (by simp [ht.cur]) e, wrDst_other _ _ _ _ _ (by rw [ht.cur]) e]
  refine ⟨?_, ?_, ?_⟩
  · rcases ha with rfl | ⟨n, rfl⟩
    · trivial
    · refine foldRows _ (fun m th => vraw th n.toNat = BitVec.ofNat 32 (g m).1.toNat) hk hother (fun t m hm ht hh => ?_) h0
      have h1 := hs t m hm ht
      have hh1 := (h1.hasThread m).2 hh
      show vraw ((wrDst (wrDst t 4 m (.v n) (g m).1) 4 m (.p q) (wordOfBool (g m).2)).thread s.cur.g m.2 m.1) n.toNat = _
      rw [← h1.cur]
      show vraw ((wrP (wrDst t 4 m (.v n) (g m).1) 4 m q.toNat (wordOfBool (g m).2 != 0)).thread _ m.2 m.1) n.toNat = _
      rw [wrP_thread]
      have hv : vraw ((wrDst t 4 m (.v n) (g m).1).thread s.cur.g m.2 m.1) n.toNat = (g m).1 := by
        rw [← ht.cur, wrDst, wrV_vraw _ _ _ _ _ _ _ (by rw [ht.cur]; exact (ht.hasThread m).2 hh), if_pos ⟨rfl, rfl⟩]
      rw [← h1.cur] at hv
      split
      · show vraw _ _ = _
        simp only [vraw, setPThread]; simpa [vraw] using hv
      · simpa using hv
  · intro m hm hh j hj h48
    have hj0 : j = 0 := by simpa using hj
    subst hj0
    refine foldRows _ (fun m th => praw th (q.toNat + 0) = [(g m).2].getD 0 false) hk hother (fun t m hm ht hh => ?_) h0 m hm hh
    have h1 := hs t m hm ht
    rw [← h1.cur, wrDst, wrP_thread, if_pos ⟨rfl, rfl, by rw [h1.cur]; exact (h1.hasThread m).2 hh⟩, praw_setPThread, if_pos ⟨rfl, by simpa using h48⟩]
    cases (g m).2 <;> rfl
  · exact onlyRegs_fold _ _ hk (fun t m v i e => by
      rw [wrDst_pc _ _ _ _ _ _ _ _ (by simp [e]), wrDst_pc _ _ _ _ _ _ _ _ (by rw [e])])

end Sys2Proof.Machine
end

