-- ==== Sys2Proof/Laws/Values.lean ====
section
/-! SUPPORT. Each value function of the integer and bit families, said in the spec's terms (06 Tables 6-3 and 6-4). -/

namespace Sys2Proof.Machine

theorem minW_true (x y : Word) : minW true x y = if x.ult y then x else y := by
  show (if (x.toNat : Int) ≤ y.toNat then x else y) = if decide (x.toNat < y.toNat) then x else y
  rw [← ite_not]
  by_cases h : x.toNat < y.toNat
  · simp [h, Nat.le_of_lt h]
  · by_cases e : x.toNat = y.toNat
    · simp [BitVec.eq_of_toNat_eq e]
    · simp [h, show ¬ x.toNat ≤ y.toNat by omega]

theorem minW_false (x y : Word) : minW false x y = if x.slt y then x else y := by
  show (if x.toInt ≤ y.toInt then x else y) = if decide (x.toInt < y.toInt) then x else y
  by_cases h : x.toInt < y.toInt
  · simp [h, Int.le_of_lt h]
  · by_cases e : x.toInt = y.toInt
    · simp [BitVec.eq_of_toInt_eq e]
    · simp [h, show ¬ x.toInt ≤ y.toInt by omega]

theorem maxW_true (x y : Word) : maxW true x y = if x.ult y then y else x := by
  show (if (x.toNat : Int) ≥ y.toNat then x else y) = if decide (x.toNat < y.toNat) then y else x
  by_cases h : x.toNat < y.toNat
  · simp [h, show ¬ y.toNat ≤ x.toNat by omega]
  · simp [h, show y.toNat ≤ x.toNat by omega]

theorem maxW_false (x y : Word) : maxW false x y = if x.slt y then y else x := by
  show (if x.toInt ≥ y.toInt then x else y) = if decide (x.toInt < y.toInt) then y else x
  by_cases h : x.toInt < y.toInt
  · simp [h, show ¬ y.toInt ≤ x.toInt by omega]
  · simp [h, show y.toInt ≤ x.toInt by omega]

theorem iabs_eq (x : Word) : (if x.msb then -x else x) = if x.slt 0 then 0 - x else x := by
  rw [show x.slt 0 = x.msb from BitVec.slt_zero_eq_msb, show 0 - x = -x from BitVec.zero_sub x]

theorem imulhi_true (x y : Word) : BitVec.ofInt 32 (ival true x * ival true y / 2 ^ 32) = BitVec.ofNat 32 (x.toNat * y.toNat / 2 ^ 32) := by
  show BitVec.ofInt 32 ((x.toNat : Int) * y.toNat / 2 ^ 32) = _
  rw [← BitVec.ofInt_natCast]
  congr 1

theorem clampInt_eq (lo hi v : Int) : clampInt lo hi v = if v < lo then lo else if hi < v then hi else v := rfl

theorem addSat_true (x y : Word) :
    addSat true x y = if 2 ^ 32 ≤ x.toNat + y.toNat then 0xFFFFFFFF else x + y := by
  have e : addSat true x y = BitVec.ofInt 32 (clampInt 0 4294967295 ((x.toNat : Int) + y.toNat)) := rfl
  rw [e, clampInt_eq, if_neg (by omega)]
  by_cases h : 2 ^ 32 ≤ x.toNat + y.toNat
  · rw [if_pos h, if_pos (by omega)]; rfl
  · rw [if_neg h, if_neg (by omega), ← Int.natCast_add, BitVec.ofInt_natCast]; simp [BitVec.ofNat_add]

theorem clamp32_eq (v : Int) : BitVec.ofInt 32 (clampInt (intMin 32 true) (intMax 32 true) v) =
    if v < -2 ^ 31 then 0x80000000 else if 2 ^ 31 ≤ v then 0x7FFFFFFF else BitVec.ofInt 32 v := by
  have e : BitVec.ofInt 32 (clampInt (intMin 32 true) (intMax 32 true) v) = BitVec.ofInt 32 (clampInt (-2147483648) 2147483647 v) := rfl
  rw [e, clampInt_eq]
  by_cases h : v < -2 ^ 31
  · rw [if_pos h, if_pos (by omega)]; rfl
  · rw [if_neg h, if_neg (by omega)]
    by_cases h' : 2 ^ 31 ≤ v
    · rw [if_pos h', if_pos (by omega)]; rfl
    · rw [if_neg h', if_neg (by omega)]

theorem addSat_false (x y : Word) : addSat false x y =
    if x.toInt + y.toInt < -2 ^ 31 then 0x80000000 else if 2 ^ 31 ≤ x.toInt + y.toInt then 0x7FFFFFFF else x + y := by
  rw [show addSat false x y = BitVec.ofInt 32 (clampInt (intMin 32 true) (intMax 32 true) (x.toInt + y.toInt)) from rfl, clamp32_eq]
  simp [BitVec.ofInt_add]

theorem sum4 (f : Nat → Int) : ((List.range 4).map f).sum = f 0 + f 1 + f 2 + f 3 := by
  simp [List.range_succ, Int.add_assoc]

/-! ### Bits -/

theorem shiftL_eq (x c : Word) : shiftL x c = x <<< c := by
  unfold shiftL
  split
  · rfl
  · rename_i h
    rw [BitVec.shiftLeft_eq', BitVec.shiftLeft_eq_zero (by omega)]; rfl

theorem shiftR_eq (x c : Word) : shiftR x c = x >>> c := by
  unfold shiftR
  split
  · rfl
  · rename_i h
    rw [BitVec.ushiftRight_eq', BitVec.ushiftRight_eq_zero (by omega)]; rfl

theorem shiftA_eq (x c : Word) : shiftA x c = x.sshiftRight c.toNat := by
  unfold shiftA
  apply BitVec.eq_of_getLsbD_eq
  intro i hi
  rw [BitVec.getLsbD_sshiftRight, BitVec.getLsbD_sshiftRight]
  by_cases h : c.toNat ≤ 31
  · rw [Nat.min_eq_right h]
  · rw [Nat.min_eq_left (by omega)]
    by_cases h0 : i = 0
    · subst h0; simp [BitVec.msb_eq_getLsbD_last, show ¬ c.toNat < 32 by omega]
    · simp [show ¬ 31 + i < 32 by omega, show ¬ c.toNat + i < 32 by omega]

theorem getLsbD_rotL (x : Word) (n i : Nat) (hi : i < 32) (hn : n < 32) :
    (x.rotateLeft n).getLsbD i = x.getLsbD ((i + 32 - n) % 32) := by
  rw [BitVec.getLsbD_rotateLeft, Nat.mod_eq_of_lt hn]
  by_cases h : i < n
  · rw [show (i + 32 - n) % 32 = 32 - n + i by omega]; simp [h]
  · rw [show (i + 32 - n) % 32 = i - n by omega]; simp [h, hi]

theorem getLsbD_rotR (x : Word) (n i : Nat) (hi : i < 32) (hn : n < 32) :
    (x.rotateRight n).getLsbD i = x.getLsbD ((i + n) % 32) := by
  rw [BitVec.getLsbD_rotateRight, Nat.mod_eq_of_lt hn]
  by_cases h : i < 32 - n
  · rw [show (i + n) % 32 = n + i by omega]; simp [h]
  · rw [show (i + n) % 32 = i - (32 - n) by omega]; simp [h, hi]

theorem getLsbD_bfe (sx : Bool) (b c : Word) (i : Nat) (hi : i < 32) :
    (bfe sx b c).getLsbD i =
      (let pos := c.toNat % 256
       let len := c.toNat / 256 % 256
       let j := min i (len - 1) + pos
       decide (0 < len) && (sx || decide (i < len)) && if j < 32 then b.getLsbD j else sx && b.msb) := by
  unfold bfe
  by_cases h : c.toNat / 256 % 256 = 0
  · simp [h]
  · have h0 : 0 < c.toNat / 256 % 256 := by omega
    simp only [h, if_false, h0, decide_true, Bool.true_and]
    rw [getLsbD_wordBits _ _ hi]
    by_cases hl : i < c.toNat / 256 % 256
    · rw [if_pos hl, show min i (c.toNat / 256 % 256 - 1) = i by omega, Nat.add_comm i]; simp [hl]
    · rw [if_neg hl, show min i (c.toNat / 256 % 256 - 1) = c.toNat / 256 % 256 - 1 by omega, Nat.add_comm (_ - 1)]; simp [hl]

theorem getLsbD_bfi (b c d : Word) (i : Nat) (hi : i < 32) :
    (bfi b c d).getLsbD i =
      if c.toNat % 256 ≤ i ∧ i < c.toNat % 256 + c.toNat / 256 % 256 then b.getLsbD (i - c.toNat % 256) else d.getLsbD i := by
  unfold bfi
  rw [getLsbD_wordBits _ _ hi]
  simp

theorem getLsbD_brev (b : Word) (i : Nat) (hi : i < 32) : (brev b).getLsbD i = b.getLsbD (31 - i) := getLsbD_wordBits _ i hi

theorem getLsbD_tern (tt : BitVec 8) (b c d : Word) (i : Nat) (hi : i < 32) : (tern tt b c d).getLsbD i =
    tt.getLsbD ((b.getLsbD i).toNat + 2 * (c.getLsbD i).toNat + 4 * (d.getLsbD i).toNat) := getLsbD_wordBits _ i hi

theorem powSum_eq (f : Nat → Nat) (p : Nat) : ((List.range 4).map fun j => f j * p ^ j).sum =
    p * (p * (p * f 3 + f 2) + f 1) + f 0 := by
  simp only [List.range_succ, List.range_zero, List.nil_append, List.cons_append, List.map_cons, List.map_nil, List.sum_cons, List.sum_nil,
    Nat.pow_succ]
  simp only [Nat.mul_add, Nat.add_zero, Nat.pow_zero, Nat.mul_one, Nat.one_mul]
  have e1 : f 1 * p = p * f 1 := Nat.mul_comm ..
  have e2 : f 2 * (p * p) = p * (p * f 2) := by rw [Nat.mul_comm, Nat.mul_assoc]
  have e3 : f 3 * (p * p * p) = p * (p * (p * f 3)) := by rw [Nat.mul_comm, Nat.mul_assoc, Nat.mul_assoc]
  omega

theorem byteSum_eq (f : Nat → Nat) : ((List.range 4).map fun j => f j * 2 ^ (8 * j)).sum =
    2 ^ 8 * (2 ^ 8 * (2 ^ 8 * f 3 + f 2) + f 1) + f 0 := by
  rw [← powSum_eq f (2 ^ 8)]
  exact congrArg List.sum (List.map_congr_left fun j _ => by rw [Nat.pow_mul])

theorem testBit_byteSum (f : Nat → Nat) (hf : ∀ i, f i < 2 ^ 8) (i : Nat) (hi : i < 32) :
    (((List.range 4).map fun j => f j * 2 ^ (8 * j)).sum).testBit i = (f (i / 8)).testBit (i % 8) := by
  rw [byteSum_eq, Nat.testBit_two_pow_mul_add _ (hf 0)]
  split
  · rw [show i / 8 = 0 by omega, show i % 8 = i by omega]
  · rw [Nat.testBit_two_pow_mul_add _ (hf 1)]
    split
    · rw [show i / 8 = 1 by omega, show i % 8 = i - 8 by omega]
    · rw [Nat.testBit_two_pow_mul_add _ (hf 2)]
      split
      · rw [show i / 8 = 2 by omega, show i % 8 = i - 8 - 8 by omega]
      · rw [show i / 8 = 3 by omega, show i % 8 = i - 8 - 8 - 8 by omega]

theorem permByte_lt (b c : Word) (n : Nat) : permByte b c n < 256 := by
  have h : ∀ x : Nat, x < 256 → (if n / 8 % 2 = 1 then (if x ≥ 128 then 255 else 0) else x) < 256 := by
    intro x hx; split
    · split <;> omega
    · exact hx
  exact h _ (Nat.mod_lt _ (by omega))

theorem testBit_permByte (b c : Word) (n i : Nat) (hi : i < 8) (hn : n < 16) :
    (permByte b c n).testBit i = (c ++ b : BitVec 64).getLsbD (8 * (n % 8) + if n / 8 = 1 then 7 else i) := by
  have hx : ∀ j, (c ++ b : BitVec 64).getLsbD j = (b.toNat + 2 ^ 32 * c.toNat).testBit j := by
    intro j
    rw [BitVec.getLsbD, BitVec.toNat_append, Nat.add_comm b.toNat, Nat.shiftLeft_eq, Nat.mul_comm c.toNat,
      Nat.two_pow_add_eq_or_of_lt b.isLt]
  rw [hx]
  unfold permByte
  have h8 : ∀ j < 8, ((b.toNat + 2 ^ 32 * c.toNat) / 2 ^ (8 * (n % 8)) % 256).testBit j =
      (b.toNat + 2 ^ 32 * c.toNat).testBit (8 * (n % 8) + j) := by
    intro j hj
    rw [show (256 : Nat) = 2 ^ 8 from rfl, Nat.testBit_mod_two_pow, Nat.testBit_div_two_pow]
    simp [hj, Nat.add_comm]
  generalize hy : (b.toNat + 2 ^ 32 * c.toNat) / 2 ^ (8 * (n % 8)) % 256 = y at h8
  have hy8 : y < 256 := by omega
  have h7 : y.testBit 7 = decide (128 ≤ y) := by
    rw [Nat.testBit_eq_decide_div_mod_eq]
    congr 1
    apply propext
    omega
  by_cases h : n / 8 = 1
  · rw [if_pos h, ← h8 7 (by omega), h7]
    simp only [show n / 8 % 2 = 1 by omega, if_true]
    split
    · rename_i hc
      rw [show (255 : Nat) = 2 ^ 8 - 1 from rfl, Nat.testBit_two_pow_sub_one]; simp [hi, hc]
    · rename_i hc; simp; omega
  · rw [if_neg h, ← h8 i hi, if_neg (by omega)]

theorem getLsbD_perm (b c d : Word) (i : Nat) (hi : i < 32) : (perm b c d).getLsbD i =
    (c ++ b : BitVec 64).getLsbD (8 * (d.toNat / 2 ^ (4 * (i / 8)) % 16 % 8) + if d.toNat / 2 ^ (4 * (i / 8)) % 16 / 8 = 1 then 7 else i % 8) := by
  unfold perm
  rw [BitVec.getLsbD_ofNat, testBit_byteSum _ (fun _ => permByte_lt ..) i hi, testBit_permByte _ _ _ _ (by omega) (by omega)]
  simp [hi]

theorem bitLen_le (n : Nat) (x : Nat) (h : x < 2 ^ n) : bitLen x ≤ n ∧ x < 2 ^ bitLen x ∧ (0 < bitLen x → 2 ^ (bitLen x - 1) ≤ x) := by
  unfold bitLen
  split
  · rename_i e; subst e; simp
  · rename_i e
    have e' : x ≠ 0 := e
    refine ⟨?_, ?_, ?_⟩
    · have := (Nat.log2_lt e').2 h; omega
    · exact Nat.lt_log2_self
    · intro _; simpa using Nat.log2_self_le e'

theorem clz_spec (b : Word) : ∃ n, clz b = BitVec.ofNat 32 n ∧ n ≤ 32 ∧ b.toNat < 2 ^ (32 - n) ∧ (n < 32 → 2 ^ (31 - n) ≤ b.toNat) := by
  obtain ⟨h1, h2, h3⟩ := bitLen_le 32 b.toNat b.isLt
  refine ⟨32 - bitLen b.toNat, rfl, by omega, ?_, fun h => ?_⟩
  · rwa [show 32 - (32 - bitLen b.toNat) = bitLen b.toNat by omega]
  · rw [show 31 - (32 - bitLen b.toNat) = bitLen b.toNat - 1 by omega]; exact h3 (by omega)

end Sys2Proof.Machine
end

