-- ==== Sys2Proof/Laws/Control.lean ====
section
/-! SUPPORT. Laws of the transfer of control. -/

namespace Sys2Proof.Machine

/-- A transfer whose targets all lie in the code: each lane's thread goes to its target, beside what else the instruction does. -/
theorem transfer_ok (s : State) (act : List (Nat × Nat)) (tgt : Nat × Nat → Int) (also : State → State)
    (h : ∀ m ∈ act, (tgt m % 12 == 0 && inCode s s.cur.g m.2 (tgt m)) = true) (hc : (also (advance s)).cur = s.cur) :
    ∃ t, transfer s (act.map fun m => (m, tgt m)) also = .next t ∧
      EachThread (also (advance s)) t s.cur.g fun m x => if m ∈ act then { x with pc := (tgt m).toNat } else x := by
  unfold transfer
  have hf : (act.map fun m => (m, tgt m)).filterMap (fun x => landFail s x.1 x.2) = [] := by
    rw [List.filterMap_map, List.filterMap_eq_nil_iff]
    intro m hm
    simp [landFail]
    simpa using h m hm
  simp only [hf, List.isEmpty_nil, Bool.not_true, Bool.false_eq_true, if_false]
  refine ⟨_, rfl, ?_⟩
  rw [List.foldl_map]
  refine eachThread_fold act _ (fun m x => { x with pc := (tgt m).toNat }) (fun _ _ => rfl) _ _ fun t ht m => ?_
  simp only [setPc]; rw [ht.cur, hc]

/-- A transfer with a target outside the code moves no lane: the lanes whose target is outside trap. -/
theorem transfer_bad (s : State) (act : List (Nat × Nat)) (tgt : Nat × Nat → Int) (also : State → State)
    (h : ∃ m ∈ act, (tgt m % 12 == 0 && inCode s s.cur.g m.2 (tgt m)) = false) :
    transfer s (act.map fun m => (m, tgt m)) also =
      .next (trapFails s ((act.filter fun m => !(tgt m % 12 == 0 && inCode s s.cur.g m.2 (tgt m))).map
        fun m => (⟨m, 0x0A, 0, 0⟩ : LaneFail)) []) := by
  unfold transfer
  have hf : (act.map fun m => (m, tgt m)).filterMap (fun x => landFail s x.1 x.2) =
      (act.filter fun m => !(tgt m % 12 == 0 && inCode s s.cur.g m.2 (tgt m))).map fun m => (⟨m, 0x0A, 0, 0⟩ : LaneFail) := by
    clear h
    induction act with
    | nil => rfl
    | cons c l ih =>
      rw [List.map_cons, List.filterMap_cons, List.filter_cons, ih]
      simp only [landFail]
      cases (tgt c % 12 == 0 && inCode s s.cur.g c.2 (tgt c)) <;> simp
  have hne : ((act.filter fun m => !(tgt m % 12 == 0 && inCode s s.cur.g m.2 (tgt m))).map
      fun m => (⟨m, 0x0A, 0, 0⟩ : LaneFail)).isEmpty = false := by
    obtain ⟨m, hm, e⟩ := h
    rw [List.isEmpty_eq_false_iff]
    intro c
    rw [List.map_eq_nil_iff, List.filter_eq_nil_iff] at c
    exact absurd (c m hm) (by simp [e])
  simp only [hf, hne, Bool.not_false, if_true]

/-- A thread update that leaves a thread's registers keeps the frame of a register instruction. -/
theorem KeepRegs.eachPc {k : Ctl} {s t u : State} {V P S : List Nat} {fl : Bool} (h : KeepRegs k s t V P S fl)
    {f : Nat × Nat → Nat} {ms : List (Nat × Nat)} (hm : ∀ m ∈ ms, m ∈ s.cur.members)
    (e : u = ms.foldl (fun t m => t.modThread s.cur.g m.2 m.1 fun x => { x with pc := f m }) t) : KeepRegs k s u V P S fl := by
  subst e
  exact foldl_keeps (fun t => KeepRegs k s t V P S fl) _ _ (fun t m hm' ht =>
    ht.modThread (hm m hm') (fun x => { x with pc := f m }) (fun _ => rfl) (fun _ _ _ => rfl) (fun _ _ _ => rfl) (fun _ _ => rfl)
      (.inr fun _ => rfl)) t h

end Sys2Proof.Machine
end

