-- ==== Sys2Proof/Laws/Memory.lean ====
section
/-! SUPPORT. Memory: what a read gives after a write, and that every memory operation keeps the canonical form. -/

namespace Sys2Proof.Machine

/-! ### Bytes -/

@[simp] theorem memRead_nil (a : Nat) : memRead [] a = unlisted := rfl

theorem memRead_memWrite (m : List Host.Cell) (a b : Nat) (x : Byte) :
    memRead (memWrite m a x) b = if b = a then x else memRead m b := mgetD_msetD m a b x unlisted

@[simp] theorem memWrite_wf {m : List Host.Cell} (h : Memory.wf m = true) (a : Nat) (x : Byte) : Memory.wf (memWrite m a x) = true :=
  mwf_msetD h a x

@[simp] theorem writeL_nil (m : List Host.Cell) (a : Nat) : writeL m a [] = m := rfl

/-- A byte after a write of several bytes: one of them, or what it was. -/
theorem memRead_writeL (m : List Host.Cell) (a b : Nat) (bs : List Byte) :
    memRead (writeL m a bs) b = if a ≤ b ∧ b < a + bs.length then bs.getD (b - a) 0 else memRead m b := by
  induction bs generalizing m a with
  | nil => rw [if_neg (by rw [List.length_nil]; omega)]; rfl
  | cons x bs ih =>
    simp only [writeL, ih, memRead_memWrite, List.length_cons]
    by_cases h : b = a
    · subst h; rw [if_neg (by omega), if_pos rfl, if_pos (by omega)]; simp
    · by_cases h2 : a + 1 ≤ b ∧ b < a + 1 + bs.length
      · have : b - a = (b - (a + 1)) + 1 := by omega
        rw [if_pos h2, if_pos (by omega), this]; rfl
      · rw [if_neg h2, if_neg h, if_neg (by omega)]

theorem memRead_writeL_outside (m : List Host.Cell) {a b : Nat} (bs : List Byte) (h : b < a ∨ a + bs.length ≤ b) :
    memRead (writeL m a bs) b = memRead m b := by
  rw [memRead_writeL, if_neg (by omega)]

theorem writeL_wf {m : List Host.Cell} (h : Memory.wf m = true) (a : Nat) (bs : List Byte) : Memory.wf (writeL m a bs) = true := by
  induction bs generalizing m a with
  | nil => exact h
  | cons x bs ih => exact ih (memWrite_wf h a x) (a + 1)

@[simp] theorem length_readN (m : List Host.Cell) (a n : Nat) : (readN m a n).length = n := by
  induction n generalizing a with
  | zero => rfl
  | succ n ih => simp [readN, ih]

theorem getD_readN (m : List Host.Cell) (a n i : Nat) (h : i < n) : (readN m a n).getD i 0 = memRead m (a + i) := by
  induction n generalizing a i with
  | zero => omega
  | succ n ih =>
    cases i with
    | zero => rfl
    | succ i =>
      have := ih (a + 1) i (by omega)
      rw [Nat.add_right_comm] at this
      simpa [readN, Nat.add_assoc] using this

/-- Reading what was just written gives it. -/
theorem readN_writeL (m : List Host.Cell) (a : Nat) (bs : List Byte) : readN (writeL m a bs) a bs.length = bs := by
  apply List.ext_getElem (length_readN ..)
  intro i h1 h2
  have := getD_readN (writeL m a bs) a bs.length i h2
  rw [memRead_writeL, if_pos (by omega), Nat.add_sub_cancel_left] at this
  simpa [List.getD_eq_getElem?_getD, h1, h2] using this

theorem length_toBytes (n x : Nat) : (toBytes n x).length = n := by
  induction n generalizing x with
  | zero => rfl
  | succ n ih => simp [toBytes, ih]

/-- The bytes of a number hold it, modulo their width. -/
theorem ofBytes_toBytes (n x : Nat) : ofBytes (toBytes n x) = x % 256 ^ n := by
  induction n generalizing x with
  | zero => simp [toBytes, ofBytes, wordOfBytes, Nat.mod_one]
  | succ n ih =>
    have h : ofBytes (toBytes (n + 1) x) = x % 256 + 256 * ofBytes (toBytes n (x / 256)) := by
      simp [toBytes, ofBytes, wordOfBytes]
    rw [h, ih, Nat.pow_succ, Nat.mul_comm (256 ^ n), Nat.mod_mul]

/-! ### The canonical form -/

theorem keysAbove_filter {b : Nat} {m : List Host.Cell} (h : keysAbove b m) (p : Host.Cell → Bool) : keysAbove b (m.filter p) :=
  fun x hx => h x (List.mem_filter.1 hx).1

theorem filter_wf {m : List Host.Cell} (h : Memory.wf m = true) (p : Host.Cell → Bool) : Memory.wf (m.filter p) = true := by
  induction m with
  | nil => exact h
  | cons c t ih =>
    obtain ⟨k, v⟩ := c
    obtain ⟨h1, h2, h3⟩ := (mwf_cons unlisted k v t).1 h
    rw [List.filter_cons]
    split
    · exact (mwf_cons unlisted k v _).2 ⟨h1, keysAbove_filter h2 p, ih h3⟩
    · exact ih h3

theorem foldl_memWrite_wf {β : Type} (l : List β) (f : β → Nat) (v : β → Byte) {m : List Host.Cell} (h : Memory.wf m = true) :
    Memory.wf (l.foldl (fun m c => memWrite m (f c) (v c)) m) = true := by
  induction l generalizing m with
  | nil => exact h
  | cons x l ih => exact ih (memWrite_wf h _ _)

/-- What `State.memOk` says, part by part. -/
theorem State.memOk_iff (s : State) : s.memOk = true ↔
    Memory.wf s.hbm = true ∧ Memory.wf s.hostMem = true ∧ (∀ x ∈ s.groups, Memory.wf x.2.scratch = true) ∧
      (∀ x ∈ s.launches, Memory.wf x.2.proto.scratch = true) ∧ ∀ x ∈ s.remotes, Memory.wf x.2.mem = true := by
  simp [State.memOk, and_assoc]

/-- An update of other fields keeps it. -/
theorem State.memOk_of_eq {s t : State} (h : s.memOk = true) (h1 : t.hbm = s.hbm) (h2 : t.hostMem = s.hostMem)
    (h3 : t.groups = s.groups) (h4 : t.launches = s.launches) (h5 : t.remotes = s.remotes) : t.memOk = true := by
  simpa [State.memOk, h1, h2, h3, h4, h5] using h

theorem mem_mput {α : Type} {m : List (Nat × α)} {i : Nat} {x : α} {p : Nat × α} (h : p ∈ mput m i x) : p = (i, x) ∨ p ∈ m := by
  induction m with
  | nil => simpa [mput] using h
  | cons hd t ih =>
    obtain ⟨k, v⟩ := hd
    unfold mput at h
    split at h
    · rcases List.mem_cons.1 h with h | h
      · exact .inl h
      · exact .inr h
    · split at h
      · rcases List.mem_cons.1 h with h | h
        · exact .inl h
        · exact .inr (List.mem_cons_of_mem _ h)
      · rcases List.mem_cons.1 h with h | h
        · exact .inr (h ▸ List.mem_cons_self)
        · rcases ih h with h | h
          · exact .inl h
          · exact .inr (List.mem_cons_of_mem _ h)

theorem mem_of_mget {α : Type} {m : List (Nat × α)} {i : Nat} {x : α} (h : mget m i = some x) : (i, x) ∈ m := by
  induction m with
  | nil => simp [mget] at h
  | cons hd t ih =>
    obtain ⟨k, v⟩ := hd
    unfold mget at h
    split at h
    · rename_i e; subst e; cases h; exact List.mem_cons_self
    · exact List.mem_cons_of_mem _ (ih h)

theorem mem_mmod {α : Type} {m : List (Nat × α)} {i : Nat} {f : α → α} {p : Nat × α} (h : p ∈ mmod m i f) :
    p ∈ m ∨ ∃ x, (i, x) ∈ m ∧ p = (i, f x) := by
  unfold mmod at h
  split at h
  · rename_i v hv
    rcases mem_mput h with h | h
    · exact .inr ⟨v, mem_of_mget hv, h⟩
    · exact .inl h
  · exact .inl h

theorem mem_aput {α κ : Type} [DecidableEq κ] {m : List (κ × α)} {i : κ} {x : α} {p : κ × α} (h : p ∈ aput m i x) :
    p = (i, x) ∨ p ∈ m := by
  induction m with
  | nil => simpa [aput] using h
  | cons hd t ih =>
    obtain ⟨k, v⟩ := hd
    unfold aput at h
    split at h
    · rcases List.mem_cons.1 h with h | h
      · exact .inl h
      · exact .inr (List.mem_cons_of_mem _ h)
    · rcases List.mem_cons.1 h with h | h
      · exact .inr (h ▸ List.mem_cons_self)
      · rcases ih h with h | h
        · exact .inl h
        · exact .inr (List.mem_cons_of_mem _ h)

theorem mem_of_aget {α κ : Type} [DecidableEq κ] {m : List (κ × α)} {i : κ} {x : α} (h : aget m i = some x) : (i, x) ∈ m := by
  induction m with
  | nil => simp [aget] at h
  | cons hd t ih =>
    obtain ⟨k, v⟩ := hd
    unfold aget at h
    split at h
    · rename_i e; subst e; cases h; exact List.mem_cons_self
    · exact List.mem_cons_of_mem _ (ih h)

/-- Another device's memory as any destination names it. -/
theorem State.remote_wf {s : State} (h : s.memOk = true) (d : Dest) : Memory.wf (s.remote d).mem = true := by
  unfold State.remote
  cases e : aget s.remotes d with
  | none => rfl
  | some r => exact ((s.memOk_iff.1 h).2.2.2.2) (d, r) (mem_of_aget e)

theorem State.scratch_wf {s : State} (h : s.memOk = true) (g : Nat) : Memory.wf (s.group g).scratch = true := by
  unfold State.group mgetD
  cases e : mget s.groups g with
  | none => rfl
  | some x => exact ((s.memOk_iff.1 h).2.2.1) (g, x) (mem_of_mget e)

theorem State.mem_wf {s : State} (h : s.memOk = true) (sp : Space) : Memory.wf (s.mem sp) = true := by
  cases sp with
  | hbm => exact (s.memOk_iff.1 h).1
  | host => exact (s.memOk_iff.1 h).2.1
  | far d => exact State.remote_wf h d

/-- An update of one group that keeps the form of its scratchpad. -/
theorem State.memOk_modGroup {s : State} (h : s.memOk = true) (g : Nat) {f : Group → Group}
    (hf : ∀ x, Memory.wf x.scratch = true → Memory.wf (f x).scratch = true) : (s.modGroup g f).memOk = true := by
  obtain ⟨h1, h2, h3, h4, h5⟩ := s.memOk_iff.1 h
  refine (State.memOk_iff _).2 ⟨h1, h2, ?_, h4, h5⟩
  intro x hx
  rcases mem_mmod hx with hx | ⟨y, hy, rfl⟩
  · exact h3 x hx
  · exact hf y (h3 _ hy)

theorem State.memOk_modWave {s : State} (h : s.memOk = true) (g w : Nat) (f : Wave → Wave) : (s.modWave g w f).memOk = true :=
  State.memOk_modGroup h g fun _ hx => hx

theorem State.memOk_modThread {s : State} (h : s.memOk = true) (g w l : Nat) (f : Thread → Thread) :
    (s.modThread g w l f).memOk = true := State.memOk_modWave h g w _

theorem State.memOk_modRemote {s : State} (h : s.memOk = true) (d : Dest) {f : Remote → Remote}
    (hf : ∀ r, Memory.wf r.mem = true → Memory.wf (f r).mem = true) : (s.modRemote d f).memOk = true := by
  obtain ⟨h1, h2, h3, h4, h5⟩ := s.memOk_iff.1 h
  refine (State.memOk_iff _).2 ⟨h1, h2, h3, h4, ?_⟩
  intro x hx
  rcases mem_aput hx with rfl | hx
  · exact hf _ (State.remote_wf h d)
  · exact h5 x hx

theorem State.memOk_setMem {s : State} (h : s.memOk = true) (sp : Space) {m : List Host.Cell} (hm : Memory.wf m = true) :
    (s.setMem sp m).memOk = true := by
  obtain ⟨h1, h2, h3, h4, h5⟩ := s.memOk_iff.1 h
  cases sp with
  | hbm => exact (State.memOk_iff _).2 ⟨hm, h2, h3, h4, h5⟩
  | host => exact (State.memOk_iff _).2 ⟨h1, hm, h3, h4, h5⟩
  | far d => exact State.memOk_modRemote h d fun _ _ => hm

theorem State.memOk_write {s : State} (h : s.memOk = true) (sp : Space) (a : Nat) (bs : List Byte) :
    (s.write sp a bs).memOk = true := State.memOk_setMem h sp (writeL_wf (State.mem_wf h sp) a bs)

theorem State.memOk_engineWrite {s : State} (h : s.memOk = true) (sp : Space) (a : Nat) (bs : List Byte) :
    (s.engineWrite sp a bs).memOk = true :=
  State.memOk_of_eq (State.memOk_write h sp a bs) rfl rfl rfl rfl rfl

theorem State.memOk_modCtx {s : State} (h : s.memOk = true) (c : Nat) (f : Ctx → Ctx) : (s.modCtx c f).memOk = true :=
  State.memOk_of_eq h rfl rfl rfl rfl rfl

/-- A fold of steps that each keep the form. -/
theorem memOk_foldl {β : Type} (l : List β) (f : State → β → State) (hf : ∀ s x, s.memOk = true → (f s x).memOk = true)
    {s : State} (h : s.memOk = true) : (l.foldl f s).memOk = true := by
  induction l generalizing s with
  | nil => exact h
  | cons x l ih => exact ih (hf s x h)

theorem State.memOk_rawWrite {s : State} (h : s.memOk = true) (ctx va : Nat) (bs : List Byte) : (s.rawWrite ctx va bs).memOk = true := by
  unfold State.rawWrite
  generalize spansOf va bs.length = rs
  induction rs generalizing s bs with
  | nil => exact h
  | cons r rs ih =>
    obtain ⟨a, n⟩ := r
    unfold rawRuns
    apply ih
    split
    · exact State.memOk_engineWrite h ..
    · exact h

theorem memOk_writeLeaf {s : State} (h : s.memOk = true) (a n : Nat) (f : Nat → Nat) : (writeLeaf s a n f).memOk = true :=
  memOk_foldl _ _ (fun _ _ h => State.memOk_write h ..) h

theorem memOk_dropTlb {s : State} (h : s.memOk = true) (ctx va : Nat) (len : Option Nat) : (dropTlb s ctx va len).memOk = true :=
  State.memOk_of_eq h rfl rfl rfl rfl rfl

theorem memOk_bumpS2 {s : State} (h : s.memOk = true) : (bumpS2 s).memOk = true :=
  memOk_foldl [0, 1, 2, 3] (fun (s : State) (d : Nat) => s.modDie d fun d => { d with s2seq := d.s2seq + 1 })
    (fun _ _ h => State.memOk_of_eq h rfl rfl rfl rfl rfl) h

theorem memOk_editLeaf {s : State} (h : s.memOk = true) (ctx va : Nat) (f : Nat → Nat) : (editLeaf s ctx va f).memOk = true := by
  unfold editLeaf
  split
  · exact memOk_dropTlb (memOk_writeLeaf h ..) ..
  · exact h

theorem memOk_dlogWrite {s : State} (h : s.memOk = true) (ctx : Nat) (second : Bool) (addr szc : Nat) :
    (dlogWrite s ctx second addr szc).memOk = true := by
  cases second <;> simp only [dlogWrite, Bool.false_eq_true, if_false, if_true] <;> split <;>
    exact State.memOk_modCtx (State.memOk_rawWrite h ..) ..

theorem memOk_logPage {s : State} (h : s.memOk = true) (ctx va : Nat) : (logPage s ctx va).memOk = true := by
  unfold logPage
  split
  · rename_i t _
    have h1 : (if t.dl then editLeaf (dlogWrite s ctx false va (pteAt s t.leaf).size) ctx va (fun e => setBits e 15 1 0) else s).memOk = true := by
      split
      · exact memOk_editLeaf (memOk_dlogWrite h ..) ..
      · exact h
    dsimp only
    split
    · exact memOk_dropTlb (memOk_bumpS2 (memOk_writeLeaf (memOk_dlogWrite h1 ..) ..)) ..
    · exact h1
  · exact h

theorem State.memOk_sysWrite {s : State} (h : s.memOk = true) (ctx va : Nat) (bs : List Byte) :
    (s.sysWrite ctx va bs).memOk = true := by
  unfold State.sysWrite
  generalize spansOf va bs.length = rs
  induction rs generalizing s bs with
  | nil => exact h
  | cons r rs ih =>
    obtain ⟨a, n⟩ := r
    unfold sysWriteRuns
    apply ih
    split
    · exact State.memOk_engineWrite (memOk_logPage h ..) ..
    · exact memOk_logPage h ..

/-! ### What a write leaves -/

/-- A byte of a space after a write to a space. -/
theorem State.memRead_write (s : State) (sp : Space) (a b : Nat) (bs : List Byte) :
    memRead ((s.write sp a bs).mem sp) b = if a ≤ b ∧ b < a + bs.length then bs.getD (b - a) 0 else memRead (s.mem sp) b := by
  cases sp with
  | hbm => exact memRead_writeL ..
  | host => exact memRead_writeL ..
  | far d =>
    have e : (s.write (.far d) a bs).mem (.far d) = writeL (s.remote d).mem a bs := by
      show ((aget (aput s.remotes d _) d).getD {}).mem = _
      have : ∀ (m : List (Dest × Remote)) (r : Remote), aget (aput m d r) d = some r := by
        intro m r
        induction m with
        | nil => simp [aput, aget]
        | cons hd t ih => obtain ⟨k, v⟩ := hd; simp only [aput]; split <;> simp [aget, *]
      rw [this]; rfl
    rw [e]; exact memRead_writeL ..

theorem State.write_hbm_groups (s : State) (a : Nat) (bs : List Byte) : (s.write .hbm a bs).groups = s.groups := rfl

end Sys2Proof.Machine
end

