-- ==== Sys2Proof/Laws/MemoryOps.lean ====
section
/-! SUPPORT. The operations that write memory keep its canonical form: scratchpads, private lines, page table entries, save areas,
error records, name table entries, other devices, page copies and the entry into a trap handler. -/

namespace Sys2Proof.Machine

theorem memOk_scratchWrite {s : State} (h : s.memOk = true) (g o : Nat) (bs : List Byte) : (scratchWrite s g o bs).memOk = true :=
  State.memOk_modGroup h g fun _ hx => writeL_wf hx o bs

theorem memOk_modCtx {s : State} (h : s.memOk = true) (c : Nat) (f : Ctx → Ctx) : (s.modCtx c f).memOk = true :=
  State.memOk_of_eq h rfl rfl rfl rfl rfl

theorem memOk_modCore {s : State} (h : s.memOk = true) (c : Nat) (f : Core → Core) : (s.modCore c f).memOk = true :=
  State.memOk_of_eq h rfl rfl rfl rfl rfl

theorem memOk_storeBytes {s : State} (h : s.memOk = true) (ctx core : Nat) (t : Trans) (bs : List Byte) :
    (storeBytes s ctx core t bs).memOk = true := by
  unfold storeBytes
  split
  · exact memOk_modCore h ..
  · exact State.memOk_write h ..

theorem memOk_writeBack {s : State} (h : s.memOk = true) (core : Nat) (sel : Nat → Bool) : (writeBack s core sel).memOk = true := by
  unfold writeBack
  dsimp only
  split
  · exact h
  · exact memOk_modCore (memOk_foldl _ _ (fun s x hs => State.memOk_write hs ..) h) ..

theorem memOk_haltCtx {s : State} (h : s.memOk = true) (c : Nat) : (haltCtx s c).memOk = true := memOk_modCtx h ..

theorem memOk_putErr {s : State} (h : s.memOk = true) (ctx : Nat) (r : List Byte) (rep : Option (Nat × Nat)) :
    (putErr s ctx r rep).memOk = true := by
  unfold putErr
  dsimp only
  have h2 : ((s.sysWrite ctx ((s.ctx ctx).errBase.toNat + 64 * ((s.ctx ctx).errHead.toNat % 2 ^ (s.ctx ctx).errSize)) r).modCtx ctx
      fun c => { c with errHead := c.errHead + 1 }).memOk = true := memOk_modCtx (State.memOk_sysWrite h ..) ..
  cases rep with
  | none => exact h2
  | some x => exact State.memOk_sysWrite h2 ..

theorem memOk_pushErr {s : State} (h : s.memOk = true) (ctx : Nat) (hd : List Byte) (g : Nat) (rep : Option (Nat × Nat)) :
    (pushErr s ctx hd g rep).memOk = true := by
  unfold pushErr
  dsimp only
  split
  · exact memOk_modCtx h ..
  · exact memOk_putErr h ..

theorem memOk_ctxErr {s : State} (h : s.memOk = true) (ctx kind b2 b3 w4 d8 d16 g : Nat) :
    (ctxErr s ctx kind b2 b3 w4 d8 d16 g).memOk = true := memOk_pushErr h ..

theorem memOk_report {s : State} (h : s.memOk = true) (g code lane b3 pc d8 seq d24 : Nat) :
    (report s g code lane b3 pc d8 seq d24).memOk = true := memOk_pushErr h ..

theorem memOk_enterWave {s : State} (h : s.memOk = true) (g w : Nat) (t : Trp) : (enterWave s g w t).memOk = true := by
  unfold enterWave
  dsimp only
  split
  · exact memOk_ctxErr (memOk_haltCtx h _) ..
  · split
    · exact memOk_ctxErr (memOk_haltCtx (State.memOk_sysWrite h ..) _) ..
    · exact State.memOk_modWave (State.memOk_sysWrite (State.memOk_sysWrite h ..) ..) ..

theorem memOk_takeTrap {s : State} (h : s.memOk = true) (g : Nat) (t : Trp) : (takeTrap s g t).memOk = true := by
  unfold takeTrap
  refine memOk_foldl _ _ (fun u w hu => ?_) h
  apply memOk_enterWave
  exact State.memOk_modGroup hu g fun x hx => by simpa [dissolve, Group.dropFormed] using hx

theorem memOk_trapNow {s : State} (h : s.memOk = true) (cause sub : Nat) (ls : List (Nat × Nat)) :
    (trapNow s cause sub ls).memOk = true := memOk_takeTrap h ..

theorem memOk_trapFails {s : State} (h : s.memOk = true) (fs : List LaneFail) (ps : List (Nat × Nat)) :
    (trapFails s fs ps).memOk = true := memOk_takeTrap h ..

theorem performAct_wf {m : List Host.Cell} (h : Memory.wf m = true) (pa : Nat) (x : PktAct) : Memory.wf (performAct m pa x).1 = true := by
  cases x with
  | load n => exact h
  | store bs => exact writeL_wf h pa bs
  | atom op sg wide v => unfold performAct; dsimp only; apply writeL_wf h
  | cas wide c v =>
    unfold performAct
    dsimp only
    by_cases e : ofBytes (readN m pa (if wide = true then 8 else 4)) = c.toNat
    · rw [if_pos e]; apply writeL_wf h
    · rw [if_neg e]; exact h
  | name op => exact h
  | third op => exact h

theorem performParts_wf {m : List Host.Cell} (h : Memory.wf m = true) (ps : List (Nat × Nat × PktAct)) :
    Memory.wf (performParts m ps).1 = true := by
  induction ps generalizing m with
  | nil => exact h
  | cons p ps ih => exact ih (performAct_wf h ..)

theorem copyCells_wf {dst : List Host.Cell} (h : Memory.wf dst = true) (src : List Host.Cell) (a b n : Nat) :
    Memory.wf (copyCells src dst a b n) = true := foldl_memWrite_wf _ _ _ (filter_wf h _)

theorem memOk_nteEdit {s : State} (h : s.memOk = true) (ctx num : Nat) (f : Nat → Nat) : (nteEdit s ctx num f).memOk = true := by
  unfold nteEdit
  split
  · obtain ⟨h1, h2, h3, h4, h5⟩ := s.memOk_iff.1 h
    exact (State.memOk_iff _).2 ⟨writeL_wf h1 .., h2, h3, h4, h5⟩
  · exact h

theorem memOk_readImage {s : State} (h : s.memOk = true) (g : Nat) : (readImage s g).memOk = true := by
  unfold readImage
  dsimp only
  have waves : ∀ (u : State), u.memOk = true → ∀ w : Nat,
      (match u.sysRead (s.group g).ctx (saveVa s g + 0x80000 + 0x10000 * w) 0x10000 with
        | some slot => u.modWave g w fun v => readWave (s.group g) v slot
        | none => u).memOk = true := by
    intro u hu w
    split
    · exact State.memOk_modWave hu ..
    · exact hu
  have h1 := memOk_foldl (List.range (s.group g).waves.length) _ (fun u w hu => waves u hu w) h
  have group : ∀ (u : State), u.memOk = true →
      (match u.sysRead (s.group g).ctx (saveVa s g) 0x8000 with
        | some b => u.modGroup g fun x => readGroup x b
        | none => u).memOk = true := by
    intro u hu
    split
    · exact State.memOk_modGroup hu g fun x hx => by simpa [readGroup] using hx
    · exact hu
  split
  · exact State.memOk_modGroup (group _ h1) g fun _ _ => writeL_wf rfl ..
  · exact group _ h1

/-- The memory of the machine after power-on. -/
theorem reset_memOk : State.reset.memOk = true := by decide

end Sys2Proof.Machine
end

