-- ==== Sys2Proof/Laws/PerInstr.lean ====
section
/-! SUPPORT. A law of every instruction, constructor by constructor: the opcode of its form is assigned, with the format in which the
form lays out its fields (Tables 4-1 and 4-2). An instruction of another agent has no form. -/

namespace Sys2Proof

/-- The format in which a body lays out its fields. -/
def Laws.Opcodes.bodyFormat : Body → Format
  | .d .. => .d
  | .i .. => .i
  | .m .. => .m

def Laws.Opcodes.Statement (i : Instr) : Prop :=
  ∀ f, formOf i = some f → formatOf f.maj.toNat f.mn.toNat = some (Laws.Opcodes.bodyFormat f.body)

theorem Laws.Opcodes.iadd (k : Ctl) (a b c : Opnd) : Laws.Opcodes.Statement (.iadd k a b c) := by rintro _ ⟨⟩; rfl
theorem Laws.Opcodes.isub (k : Ctl) (a b c : Opnd) : Laws.Opcodes.Statement (.isub k a b c) := by rintro _ ⟨⟩; rfl
theorem Laws.Opcodes.imul (k : Ctl) (a b c : Opnd) : Laws.Opcodes.Statement (.imul k a b c) := by rintro _ ⟨⟩; rfl
theorem Laws.Opcodes.imulhi (k : Ctl) (a b c : Opnd) (u : Bool) : Laws.Opcodes.Statement (.imulhi k a b c u) := by rintro _ ⟨⟩; rfl
theorem Laws.Opcodes.imad (k : Ctl) (a b c d : Opnd) : Laws.Opcodes.Statement (.imad k a b c d) := by rintro _ ⟨⟩; rfl
theorem Laws.Opcodes.imin (k : Ctl) (a b c : Opnd) (u : Bool) : Laws.Opcodes.Statement (.imin k a b c u) := by rintro _ ⟨⟩; rfl
theorem Laws.Opcodes.imax (k : Ctl) (a b c : Opnd) (u : Bool) : Laws.Opcodes.Statement (.imax k a b c u) := by rintro _ ⟨⟩; rfl
theorem Laws.Opcodes.iabs (k : Ctl) (a b : Opnd) : Laws.Opcodes.Statement (.iabs k a b) := by rintro _ ⟨⟩; rfl
theorem Laws.Opcodes.ineg (k : Ctl) (a b : Opnd) : Laws.Opcodes.Statement (.ineg k a b) := by rintro _ ⟨⟩; rfl
theorem Laws.Opcodes.iaddc (k : Ctl) (a b c d : Opnd) : Laws.Opcodes.Statement (.iaddc k a b c d) := by rintro _ ⟨⟩; rfl
theorem Laws.Opcodes.isubb (k : Ctl) (a b c d : Opnd) : Laws.Opcodes.Statement (.isubb k a b c d) := by rintro _ ⟨⟩; rfl
theorem Laws.Opcodes.iaddsat (k : Ctl) (a b c : Opnd) (u : Bool) : Laws.Opcodes.Statement (.iaddsat k a b c u) := by rintro _ ⟨⟩; rfl
theorem Laws.Opcodes.idot4 (k : Ctl) (a b c d : Opnd) (u sat : Bool) : Laws.Opcodes.Statement (.idot4 k a b c d u sat) := by rintro _ ⟨⟩; rfl
theorem Laws.Opcodes.isad (k : Ctl) (a b c d : Opnd) (u : Bool) : Laws.Opcodes.Statement (.isad k a b c d u) := by rintro _ ⟨⟩; rfl
theorem Laws.Opcodes.iadd64 (k : Ctl) (a b c : Opnd) : Laws.Opcodes.Statement (.iadd64 k a b c) := by rintro _ ⟨⟩; rfl
theorem Laws.Opcodes.imad64 (k : Ctl) (a b c d : Opnd) (u : Bool) : Laws.Opcodes.Statement (.imad64 k a b c d u) := by rintro _ ⟨⟩; rfl
theorem Laws.Opcodes.and (k : Ctl) (a b c : Opnd) : Laws.Opcodes.Statement (.and k a b c) := by rintro _ ⟨⟩; rfl
theorem Laws.Opcodes.or (k : Ctl) (a b c : Opnd) : Laws.Opcodes.Statement (.or k a b c) := by rintro _ ⟨⟩; rfl
theorem Laws.Opcodes.xor (k : Ctl) (a b c : Opnd) : Laws.Opcodes.Statement (.xor k a b c) := by rintro _ ⟨⟩; rfl
theorem Laws.Opcodes.not (k : Ctl) (a b : Opnd) : Laws.Opcodes.Statement (.not k a b) := by rintro _ ⟨⟩; rfl
theorem Laws.Opcodes.andn (k : Ctl) (a b c : Opnd) : Laws.Opcodes.Statement (.andn k a b c) := by rintro _ ⟨⟩; rfl
theorem Laws.Opcodes.shl (k : Ctl) (a b c : Opnd) : Laws.Opcodes.Statement (.shl k a b c) := by rintro _ ⟨⟩; rfl
theorem Laws.Opcodes.shr (k : Ctl) (a b c : Opnd) : Laws.Opcodes.Statement (.shr k a b c) := by rintro _ ⟨⟩; rfl
theorem Laws.Opcodes.sar (k : Ctl) (a b c : Opnd) : Laws.Opcodes.Statement (.sar k a b c) := by rintro _ ⟨⟩; rfl
theorem Laws.Opcodes.rot (k : Ctl) (a b c : Opnd) (right : Bool) : Laws.Opcodes.Statement (.rot k a b c right) := by rintro _ ⟨⟩; rfl
theorem Laws.Opcodes.bfe (k : Ctl) (a b c : Opnd) (sx : Bool) : Laws.Opcodes.Statement (.bfe k a b c sx) := by rintro _ ⟨⟩; rfl
theorem Laws.Opcodes.bfi (k : Ctl) (a b c d : Opnd) : Laws.Opcodes.Statement (.bfi k a b c d) := by rintro _ ⟨⟩; rfl
theorem Laws.Opcodes.popc (k : Ctl) (a b : Opnd) : Laws.Opcodes.Statement (.popc k a b) := by rintro _ ⟨⟩; rfl
theorem Laws.Opcodes.clz (k : Ctl) (a b : Opnd) : Laws.Opcodes.Statement (.clz k a b) := by rintro _ ⟨⟩; rfl
theorem Laws.Opcodes.brev (k : Ctl) (a b : Opnd) : Laws.Opcodes.Statement (.brev k a b) := by rintro _ ⟨⟩; rfl
theorem Laws.Opcodes.tern (k : Ctl) (a b c d : Opnd) (tt : BitVec 8) : Laws.Opcodes.Statement (.tern k a b c d tt) := by rintro _ ⟨⟩; rfl
theorem Laws.Opcodes.perm (k : Ctl) (a b c d : Opnd) : Laws.Opcodes.Statement (.perm k a b c d) := by rintro _ ⟨⟩; rfl
theorem Laws.Opcodes.icmp (k : Ctl) (a b c : Opnd) (cc : ICond) (u : Bool) : Laws.Opcodes.Statement (.icmp k a b c cc u) := by rintro _ ⟨⟩; rfl
theorem Laws.Opcodes.fcmp (k : Ctl) (a b c : Opnd) (cc : FCond) : Laws.Opcodes.Statement (.fcmp k a b c cc) := by rintro _ ⟨⟩; rfl
theorem Laws.Opcodes.sel (k : Ctl) (a b c d : Opnd) : Laws.Opcodes.Statement (.sel k a b c d) := by rintro _ ⟨⟩; rfl
theorem Laws.Opcodes.ptern (k : Ctl) (a b c d : Opnd) (tt : BitVec 8) : Laws.Opcodes.Statement (.ptern k a b c d tt) := by rintro _ ⟨⟩; rfl
theorem Laws.Opcodes.p2v (k : Ctl) (a b : Opnd) (cnt : BitVec 5) : Laws.Opcodes.Statement (.p2v k a b cnt) := by rintro _ ⟨⟩; rfl
theorem Laws.Opcodes.v2p (k : Ctl) (a b : Opnd) (cnt : BitVec 5) : Laws.Opcodes.Statement (.v2p k a b cnt) := by rintro _ ⟨⟩; rfl
theorem Laws.Opcodes.mov (k : Ctl) (a b : Opnd) : Laws.Opcodes.Statement (.mov k a b) := by rintro _ ⟨⟩; rfl
theorem Laws.Opcodes.movx (k : Ctl) (a b : Opnd) : Laws.Opcodes.Statement (.movx k a b) := by rintro _ ⟨⟩; rfl
theorem Laws.Opcodes.fclass (k : Ctl) (a b : Opnd) (w : Bool) : Laws.Opcodes.Statement (.fclass k a b w) := by rintro _ ⟨⟩; rfl
theorem Laws.Opcodes.fadd (k : Ctl) (a b c : Opnd) (rm : Rnd) (sat : Bool) : Laws.Opcodes.Statement (.fadd k a b c rm sat) := by rintro _ ⟨⟩; rfl
theorem Laws.Opcodes.fsub (k : Ctl) (a b c : Opnd) (rm : Rnd) (sat : Bool) : Laws.Opcodes.Statement (.fsub k a b c rm sat) := by rintro _ ⟨⟩; rfl
theorem Laws.Opcodes.fmul (k : Ctl) (a b c : Opnd) (rm : Rnd) (sat : Bool) : Laws.Opcodes.Statement (.fmul k a b c rm sat) := by rintro _ ⟨⟩; rfl
theorem Laws.Opcodes.ffma (k : Ctl) (a b c d : Opnd) (rm : Rnd) (sat : Bool) : Laws.Opcodes.Statement (.ffma k a b c d rm sat) := by rintro _ ⟨⟩; rfl
theorem Laws.Opcodes.fmin (k : Ctl) (a b c : Opnd) : Laws.Opcodes.Statement (.fmin k a b c) := by rintro _ ⟨⟩; rfl
theorem Laws.Opcodes.fmax (k : Ctl) (a b c : Opnd) : Laws.Opcodes.Statement (.fmax k a b c) := by rintro _ ⟨⟩; rfl
theorem Laws.Opcodes.frcp (k : Ctl) (a b : Opnd) (rm : Rnd) (sat : Bool) : Laws.Opcodes.Statement (.frcp k a b rm sat) := by rintro _ ⟨⟩; rfl
theorem Laws.Opcodes.frsq (k : Ctl) (a b : Opnd) : Laws.Opcodes.Statement (.frsq k a b) := by rintro _ ⟨⟩; rfl
theorem Laws.Opcodes.fsqrt (k : Ctl) (a b : Opnd) (rm : Rnd) (sat : Bool) : Laws.Opcodes.Statement (.fsqrt k a b rm sat) := by rintro _ ⟨⟩; rfl
theorem Laws.Opcodes.fdiv (k : Ctl) (a b c : Opnd) (rm : Rnd) (sat : Bool) : Laws.Opcodes.Statement (.fdiv k a b c rm sat) := by rintro _ ⟨⟩; rfl
theorem Laws.Opcodes.fexp2 (k : Ctl) (a b : Opnd) : Laws.Opcodes.Statement (.fexp2 k a b) := by rintro _ ⟨⟩; rfl
theorem Laws.Opcodes.flog2 (k : Ctl) (a b : Opnd) : Laws.Opcodes.Statement (.flog2 k a b) := by rintro _ ⟨⟩; rfl
theorem Laws.Opcodes.fsin (k : Ctl) (a b : Opnd) : Laws.Opcodes.Statement (.fsin k a b) := by rintro _ ⟨⟩; rfl
theorem Laws.Opcodes.fcos (k : Ctl) (a b : Opnd) : Laws.Opcodes.Statement (.fcos k a b) := by rintro _ ⟨⟩; rfl
theorem Laws.Opcodes.ftanh (k : Ctl) (a b : Opnd) : Laws.Opcodes.Statement (.ftanh k a b) := by rintro _ ⟨⟩; rfl
theorem Laws.Opcodes.ffrac (k : Ctl) (a b : Opnd) (rm : Rnd) (sat : Bool) : Laws.Opcodes.Statement (.ffrac k a b rm sat) := by rintro _ ⟨⟩; rfl
theorem Laws.Opcodes.hadd2 (k : Ctl) (a b c : Opnd) (rm : Rnd) (sat : Bool) : Laws.Opcodes.Statement (.hadd2 k a b c rm sat) := by rintro _ ⟨⟩; rfl
theorem Laws.Opcodes.hmul2 (k : Ctl) (a b c : Opnd) (rm : Rnd) (sat : Bool) : Laws.Opcodes.Statement (.hmul2 k a b c rm sat) := by rintro _ ⟨⟩; rfl
theorem Laws.Opcodes.hfma2 (k : Ctl) (a b c d : Opnd) (rm : Rnd) (sat : Bool) : Laws.Opcodes.Statement (.hfma2 k a b c d rm sat) := by rintro _ ⟨⟩; rfl
theorem Laws.Opcodes.hmin2 (k : Ctl) (a b c : Opnd) : Laws.Opcodes.Statement (.hmin2 k a b c) := by rintro _ ⟨⟩; rfl
theorem Laws.Opcodes.hmax2 (k : Ctl) (a b c : Opnd) : Laws.Opcodes.Statement (.hmax2 k a b c) := by rintro _ ⟨⟩; rfl
theorem Laws.Opcodes.hcmp2 (k : Ctl) (a b c : Opnd) (cc : FCond) : Laws.Opcodes.Statement (.hcmp2 k a b c cc) := by rintro _ ⟨⟩; rfl
theorem Laws.Opcodes.badd2 (k : Ctl) (a b c : Opnd) (rm : Rnd) (sat : Bool) : Laws.Opcodes.Statement (.badd2 k a b c rm sat) := by rintro _ ⟨⟩; rfl
theorem Laws.Opcodes.bmul2 (k : Ctl) (a b c : Opnd) (rm : Rnd) (sat : Bool) : Laws.Opcodes.Statement (.bmul2 k a b c rm sat) := by rintro _ ⟨⟩; rfl
theorem Laws.Opcodes.bfma2 (k : Ctl) (a b c d : Opnd) (rm : Rnd) (sat : Bool) : Laws.Opcodes.Statement (.bfma2 k a b c d rm sat) := by rintro _ ⟨⟩; rfl
theorem Laws.Opcodes.bmin2 (k : Ctl) (a b c : Opnd) : Laws.Opcodes.Statement (.bmin2 k a b c) := by rintro _ ⟨⟩; rfl
theorem Laws.Opcodes.bmax2 (k : Ctl) (a b c : Opnd) : Laws.Opcodes.Statement (.bmax2 k a b c) := by rintro _ ⟨⟩; rfl
theorem Laws.Opcodes.bcmp2 (k : Ctl) (a b c : Opnd) (cc : FCond) : Laws.Opcodes.Statement (.bcmp2 k a b c cc) := by rintro _ ⟨⟩; rfl
theorem Laws.Opcodes.dadd (k : Ctl) (a b c : Opnd) (rm : Rnd) (sat : Bool) : Laws.Opcodes.Statement (.dadd k a b c rm sat) := by rintro _ ⟨⟩; rfl
theorem Laws.Opcodes.dmul (k : Ctl) (a b c : Opnd) (rm : Rnd) (sat : Bool) : Laws.Opcodes.Statement (.dmul k a b c rm sat) := by rintro _ ⟨⟩; rfl
theorem Laws.Opcodes.dfma (k : Ctl) (a b c d : Opnd) (rm : Rnd) (sat : Bool) : Laws.Opcodes.Statement (.dfma k a b c d rm sat) := by rintro _ ⟨⟩; rfl
theorem Laws.Opcodes.dmin (k : Ctl) (a b c : Opnd) : Laws.Opcodes.Statement (.dmin k a b c) := by rintro _ ⟨⟩; rfl
theorem Laws.Opcodes.dmax (k : Ctl) (a b c : Opnd) : Laws.Opcodes.Statement (.dmax k a b c) := by rintro _ ⟨⟩; rfl
theorem Laws.Opcodes.dcmp (k : Ctl) (a b c : Opnd) (cc : FCond) : Laws.Opcodes.Statement (.dcmp k a b c cc) := by rintro _ ⟨⟩; rfl
theorem Laws.Opcodes.drcp (k : Ctl) (a b : Opnd) (rm : Rnd) (sat : Bool) : Laws.Opcodes.Statement (.drcp k a b rm sat) := by rintro _ ⟨⟩; rfl
theorem Laws.Opcodes.cvt (k : Ctl) (a b : Opnd) (dst src : Fmt) (rm : Rnd) (sat : Bool) (el : BitVec 3) : Laws.Opcodes.Statement (.cvt k a b dst src rm sat el) := by rintro _ ⟨⟩; rfl
theorem Laws.Opcodes.pack8 (k : Ctl) (a b c : Opnd) (fmt : Fmt) (rm : Rnd) (sat : Bool) : Laws.Opcodes.Statement (.pack8 k a b c fmt rm sat) := by rintro _ ⟨⟩; rfl
theorem Laws.Opcodes.unpack8 (k : Ctl) (a b c : Opnd) (fmt : Fmt) (rm : Rnd) : Laws.Opcodes.Statement (.unpack8 k a b c fmt rm) := by rintro _ ⟨⟩; rfl
theorem Laws.Opcodes.pack4 (k : Ctl) (a b c : Opnd) (fmt : Fmt) (rm : Rnd) (sat : Bool) : Laws.Opcodes.Statement (.pack4 k a b c fmt rm sat) := by rintro _ ⟨⟩; rfl
theorem Laws.Opcodes.unpack4 (k : Ctl) (a b c : Opnd) (fmt : Fmt) (rm : Rnd) : Laws.Opcodes.Statement (.unpack4 k a b c fmt rm) := by rintro _ ⟨⟩; rfl
theorem Laws.Opcodes.scaleq (k : Ctl) (a b : Opnd) (fmt : Fmt) : Laws.Opcodes.Statement (.scaleq k a b fmt) := by rintro _ ⟨⟩; rfl
theorem Laws.Opcodes.shfl (k : Ctl) (a b c : Opnd) : Laws.Opcodes.Statement (.shfl k a b c) := by rintro _ ⟨⟩; rfl
theorem Laws.Opcodes.shflup (k : Ctl) (a b c : Opnd) : Laws.Opcodes.Statement (.shflup k a b c) := by rintro _ ⟨⟩; rfl
theorem Laws.Opcodes.shfldn (k : Ctl) (a b c : Opnd) : Laws.Opcodes.Statement (.shfldn k a b c) := by rintro _ ⟨⟩; rfl
theorem Laws.Opcodes.shflx (k : Ctl) (a b c : Opnd) : Laws.Opcodes.Statement (.shflx k a b c) := by rintro _ ⟨⟩; rfl
theorem Laws.Opcodes.vote (k : Ctl) (a b : Opnd) (mode : VoteMode) : Laws.Opcodes.Statement (.vote k a b mode) := by rintro _ ⟨⟩; rfl
theorem Laws.Opcodes.ballot (k : Ctl) (a b : Opnd) : Laws.Opcodes.Statement (.ballot k a b) := by rintro _ ⟨⟩; rfl
theorem Laws.Opcodes.rfl (k : Ctl) (a b : Opnd) : Laws.Opcodes.Statement (.rfl k a b) := by rintro _ ⟨⟩; rfl
theorem Laws.Opcodes.rlane (k : Ctl) (a b c : Opnd) : Laws.Opcodes.Statement (.rlane k a b c) := by rintro _ ⟨⟩; rfl
theorem Laws.Opcodes.wlane (k : Ctl) (a b c : Opnd) : Laws.Opcodes.Statement (.wlane k a b c) := by rintro _ ⟨⟩; rfl
theorem Laws.Opcodes.bcast (k : Ctl) (a b c : Opnd) : Laws.Opcodes.Statement (.bcast k a b c) := by rintro _ ⟨⟩; rfl
theorem Laws.Opcodes.redux (k : Ctl) (a b : Opnd) (op : RedOp) (u : Bool) : Laws.Opcodes.Statement (.redux k a b op u) := by rintro _ ⟨⟩; rfl
theorem Laws.Opcodes.matchLanes (k : Ctl) (a b : Opnd) (all : Bool) : Laws.Opcodes.Statement (.matchLanes k a b all) := by rintro _ ⟨⟩; rfl
theorem Laws.Opcodes.sld (k : Ctl) (a b : Opnd) (w : Width) (off : BitVec 24) (sc : Scope) : Laws.Opcodes.Statement (.sld k a b w off sc) := by rintro _ ⟨⟩; rfl
theorem Laws.Opcodes.sldarg (k : Ctl) (a : Opnd) (pair : Bool) (off4 : BitVec 10) : Laws.Opcodes.Statement (.sldarg k a pair off4) := by rintro _ ⟨⟩; rfl
theorem Laws.Opcodes.bra (k : Ctl) (off : Word) : Laws.Opcodes.Statement (.bra k off) := by rintro _ ⟨⟩; rfl
theorem Laws.Opcodes.bru (k : Ctl) (off : Word) : Laws.Opcodes.Statement (.bru k off) := by rintro _ ⟨⟩; rfl
theorem Laws.Opcodes.call (k : Ctl) (a : Opnd) (off : Word) : Laws.Opcodes.Statement (.call k a off) := by rintro _ ⟨⟩; rfl
theorem Laws.Opcodes.ret (k : Ctl) (b : Opnd) : Laws.Opcodes.Statement (.ret k b) := by rintro _ ⟨⟩; rfl
theorem Laws.Opcodes.jtab (k : Ctl) (b : Opnd) (tab : Word) : Laws.Opcodes.Statement (.jtab k b tab) := by rintro _ ⟨⟩; rfl
theorem Laws.Opcodes.land (k : Ctl) (a b c d : Opnd) (label : BitVec 16) (m dir : Bool) : Laws.Opcodes.Statement (.land k a b c d label m dir) := by rintro _ ⟨⟩; rfl
theorem Laws.Opcodes.rcvset (k : Ctl) (n : BitVec 5) : Laws.Opcodes.Statement (.rcvset k n) := by rintro _ ⟨⟩; rfl
theorem Laws.Opcodes.rcvwait (k : Ctl) (n : BitVec 5) : Laws.Opcodes.Statement (.rcvwait k n) := by rintro _ ⟨⟩; rfl
theorem Laws.Opcodes.rcvdrop (k : Ctl) (n : BitVec 5) : Laws.Opcodes.Statement (.rcvdrop k n) := by rintro _ ⟨⟩; rfl
theorem Laws.Opcodes.exit (k : Ctl) : Laws.Opcodes.Statement (.exit k) := by rintro _ ⟨⟩; rfl
theorem Laws.Opcodes.yield (k : Ctl) : Laws.Opcodes.Statement (.yield k) := by rintro _ ⟨⟩; rfl
theorem Laws.Opcodes.nop (k : Ctl) : Laws.Opcodes.Statement (.nop k) := by rintro _ ⟨⟩; rfl
theorem Laws.Opcodes.brk (k : Ctl) (code : Word) : Laws.Opcodes.Statement (.brk k code) := by rintro _ ⟨⟩; rfl
theorem Laws.Opcodes.spawn (k : Ctl) (a c : Opnd) (entry : Word) : Laws.Opcodes.Statement (.spawn k a c entry) := by rintro _ ⟨⟩; rfl
theorem Laws.Opcodes.take (k : Ctl) (a b : Opnd) (entry : Word) : Laws.Opcodes.Statement (.take k a b entry) := by rintro _ ⟨⟩; rfl
theorem Laws.Opcodes.park (k : Ctl) : Laws.Opcodes.Statement (.park k) := by rintro _ ⟨⟩; rfl
theorem Laws.Opcodes.wake (k : Ctl) (a b : Opnd) (grp trap : Bool) : Laws.Opcodes.Statement (.wake k a b grp trap) := by rintro _ ⟨⟩; rfl
theorem Laws.Opcodes.signal (k : Ctl) (a b : Opnd) (grp trap : Bool) : Laws.Opcodes.Statement (.signal k a b grp trap) := by rintro _ ⟨⟩; rfl
theorem Laws.Opcodes.deposit (k : Ctl) (a b c : Opnd) (grp trap : Bool) (slot : BitVec 5) : Laws.Opcodes.Statement (.deposit k a b c grp trap slot) := by rintro _ ⟨⟩; rfl
theorem Laws.Opcodes.join (k : Ctl) (a b c : Opnd) (grp trap : Bool) : Laws.Opcodes.Statement (.join k a b c grp trap) := by rintro _ ⟨⟩; rfl
theorem Laws.Opcodes.nameof (k : Ctl) (a b c : Opnd) (grp : Bool) : Laws.Opcodes.Statement (.nameof k a b c grp) := by rintro _ ⟨⟩; rfl
theorem Laws.Opcodes.nprobe (k : Ctl) (a b : Opnd) (grp trap : Bool) : Laws.Opcodes.Statement (.nprobe k a b grp trap) := by rintro _ ⟨⟩; rfl
theorem Laws.Opcodes.emit (k : Ctl) (a : Opnd) (entry : Word) : Laws.Opcodes.Statement (.emit k a entry) := by rintro _ ⟨⟩; rfl
theorem Laws.Opcodes.gdone (k : Ctl) : Laws.Opcodes.Statement (.gdone k) := by rintro _ ⟨⟩; rfl
theorem Laws.Opcodes.cancel (k : Ctl) (a b : Opnd) (lvl : CancelLvl) : Laws.Opcodes.Statement (.cancel k a b lvl) := by rintro _ ⟨⟩; rfl
theorem Laws.Opcodes.barinit (k : Ctl) (b d : Opnd) (bar : BitVec 10) : Laws.Opcodes.Statement (.barinit k b d bar) := by rintro _ ⟨⟩; rfl
theorem Laws.Opcodes.bararr (k : Ctl) (d : Opnd) (bar : BitVec 10) : Laws.Opcodes.Statement (.bararr k d bar) := by rintro _ ⟨⟩; rfl
theorem Laws.Opcodes.barwait (k : Ctl) (d : Opnd) (bar : BitVec 10) : Laws.Opcodes.Statement (.barwait k d bar) := by rintro _ ⟨⟩; rfl
theorem Laws.Opcodes.barsync (k : Ctl) (d : Opnd) (bar : BitVec 10) : Laws.Opcodes.Statement (.barsync k d bar) := by rintro _ ⟨⟩; rfl
theorem Laws.Opcodes.barbyte (k : Ctl) (a b d : Opnd) (bar : BitVec 10) : Laws.Opcodes.Statement (.barbyte k a b d bar) := by rintro _ ⟨⟩; rfl
theorem Laws.Opcodes.bartry (k : Ctl) (a d : Opnd) (bar : BitVec 10) : Laws.Opcodes.Statement (.bartry k a d bar) := by rintro _ ⟨⟩; rfl
theorem Laws.Opcodes.cset (k : Ctl) (a : Opnd) : Laws.Opcodes.Statement (.cset k a) := by rintro _ ⟨⟩; rfl
theorem Laws.Opcodes.csign (k : Ctl) (a : Opnd) : Laws.Opcodes.Statement (.csign k a) := by rintro _ ⟨⟩; rfl
theorem Laws.Opcodes.cwait (k : Ctl) (a : Opnd) : Laws.Opcodes.Statement (.cwait k a) := by rintro _ ⟨⟩; rfl
theorem Laws.Opcodes.hbararr (k : Ctl) (h : BitVec 4) (lvl : HLvl) : Laws.Opcodes.Statement (.hbararr k h lvl) := by rintro _ ⟨⟩; rfl
theorem Laws.Opcodes.hbarwait (k : Ctl) (h : BitVec 4) : Laws.Opcodes.Statement (.hbarwait k h) := by rintro _ ⟨⟩; rfl
theorem Laws.Opcodes.ld (k : Ctl) (a b : Opnd) (w : Width) (sx acq : Bool) (pol : BitVec 2) (off : BitVec 24) (sc : Scope) : Laws.Opcodes.Statement (.ld k a b w sx acq pol off sc) := by rintro _ ⟨⟩; rfl
theorem Laws.Opcodes.st (k : Ctl) (a b : Opnd) (w : Width) (rel : Bool) (pol : BitVec 2) (flag : Bool) (off : BitVec 24) (sc : Scope) : Laws.Opcodes.Statement (.st k a b w rel pol flag off sc) := by rintro _ ⟨⟩; rfl
theorem Laws.Opcodes.lds (k : Ctl) (a b : Opnd) (w : Width) (sx : Bool) (off : BitVec 24) (sc : Scope) : Laws.Opcodes.Statement (.lds k a b w sx off sc) := by rintro _ ⟨⟩; rfl
theorem Laws.Opcodes.sts (k : Ctl) (a b : Opnd) (w : Width) (off : BitVec 24) (sc : Scope) : Laws.Opcodes.Statement (.sts k a b w off sc) := by rintro _ ⟨⟩; rfl
theorem Laws.Opcodes.atom (k : Ctl) (a b : Opnd) (w : Width) (sg : Bool) (op : AtomOp) (nc : Bool) (off : BitVec 24) (sc : Scope) : Laws.Opcodes.Statement (.atom k a b w sg op nc off sc) := by rintro _ ⟨⟩; rfl
theorem Laws.Opcodes.cas (k : Ctl) (a b : Opnd) (w : Width) (nc : Bool) (off : BitVec 24) (sc : Scope) : Laws.Opcodes.Statement (.cas k a b w nc off sc) := by rintro _ ⟨⟩; rfl
theorem Laws.Opcodes.atoms (k : Ctl) (a b : Opnd) (w : Width) (sg : Bool) (op : AtomOp) (off : BitVec 24) (sc : Scope) : Laws.Opcodes.Statement (.atoms k a b w sg op off sc) := by rintro _ ⟨⟩; rfl
theorem Laws.Opcodes.cass (k : Ctl) (a b : Opnd) (w : Width) (off : BitVec 24) (sc : Scope) : Laws.Opcodes.Statement (.cass k a b w off sc) := by rintro _ ⟨⟩; rfl
theorem Laws.Opcodes.ldto (k : Ctl) (a b c d : Opnd) (ack : Bool) (tl : BitVec 4) (win : BitVec 3) : Laws.Opcodes.Statement (.ldto k a b c d ack tl win) := by rintro _ ⟨⟩; rfl
theorem Laws.Opcodes.rxwin (k : Ctl) (a b c d : Opnd) (bb : Bool) (bar : BitVec 10) (win : BitVec 3) : Laws.Opcodes.Statement (.rxwin k a b c d bb bar win) := by rintro _ ⟨⟩; rfl
theorem Laws.Opcodes.rxclose (k : Ctl) (a : Opnd) (win : BitVec 3) : Laws.Opcodes.Statement (.rxclose k a win) := by rintro _ ⟨⟩; rfl
theorem Laws.Opcodes.fence (k : Ctl) (sc : Scope) : Laws.Opcodes.Statement (.fence k sc) := by rintro _ ⟨⟩; rfl
theorem Laws.Opcodes.pref (k : Ctl) (b : Opnd) (l2 : Bool) (off : BitVec 24) (sc : Scope) : Laws.Opcodes.Statement (.pref k b l2 off sc) := by rintro _ ⟨⟩; rfl
theorem Laws.Opcodes.cflush (k : Ctl) (b : Opnd) (inv : Bool) (off : BitVec 24) (sc : Scope) : Laws.Opcodes.Statement (.cflush k b inv off sc) := by rintro _ ⟨⟩; rfl
theorem Laws.Opcodes.cpy (k : Ctl) (a b c d : Opnd) (tle : Bool) (tl : BitVec 4) : Laws.Opcodes.Statement (.cpy k a b c d tle tl) := by rintro _ ⟨⟩; rfl
theorem Laws.Opcodes.cpy2 (k : Ctl) (a b c d : Opnd) (tle : Bool) (tl : BitVec 4) : Laws.Opcodes.Statement (.cpy2 k a b c d tle tl) := by rintro _ ⟨⟩; rfl
theorem Laws.Opcodes.cpyg (k : Ctl) (a b c d : Opnd) (tle : Bool) (tl : BitVec 4) : Laws.Opcodes.Statement (.cpyg k a b c d tle tl) := by rintro _ ⟨⟩; rfl
theorem Laws.Opcodes.cpys (k : Ctl) (a b c d : Opnd) (tle : Bool) (tl : BitVec 4) : Laws.Opcodes.Statement (.cpys k a b c d tle tl) := by rintro _ ⟨⟩; rfl
theorem Laws.Opcodes.cpym (k : Ctl) (a b c : Opnd) (tle : Bool) (tl : BitVec 4) (recv : BitVec 6) : Laws.Opcodes.Statement (.cpym k a b c tle tl recv) := by rintro _ ⟨⟩; rfl
theorem Laws.Opcodes.wpread (k : Ctl) (a b : Opnd) : Laws.Opcodes.Statement (.wpread k a b) := by rintro _ ⟨⟩; rfl
theorem Laws.Opcodes.wpwait (k : Ctl) (b c : Opnd) : Laws.Opcodes.Statement (.wpwait k b c) := by rintro _ ⟨⟩; rfl
theorem Laws.Opcodes.tlread (k : Ctl) (a b : Opnd) (iss : Bool) : Laws.Opcodes.Statement (.tlread k a b iss) := by rintro _ ⟨⟩; rfl
theorem Laws.Opcodes.tlwait (k : Ctl) (b c : Opnd) : Laws.Opcodes.Statement (.tlwait k b c) := by rintro _ ⟨⟩; rfl
theorem Laws.Opcodes.wait (k : Ctl) (ld st cp mx rm nm : BitVec 5) : Laws.Opcodes.Statement (.wait k ld st cp mx rm nm) := by rintro _ ⟨⟩; rfl
theorem Laws.Opcodes.mma8a (k : Ctl) (a b c d : Opnd) : Laws.Opcodes.Statement (.mma8a k a b c d) := by rintro _ ⟨⟩; rfl
theorem Laws.Opcodes.mma8b (k : Ctl) (a b c d : Opnd) : Laws.Opcodes.Statement (.mma8b k a b c d) := by rintro _ ⟨⟩; rfl
theorem Laws.Opcodes.mma8c (k : Ctl) (a b c d : Opnd) : Laws.Opcodes.Statement (.mma8c k a b c d) := by rintro _ ⟨⟩; rfl
theorem Laws.Opcodes.mma4a (k : Ctl) (a b c d : Opnd) : Laws.Opcodes.Statement (.mma4a k a b c d) := by rintro _ ⟨⟩; rfl
theorem Laws.Opcodes.mma4b (k : Ctl) (a b c d : Opnd) : Laws.Opcodes.Statement (.mma4b k a b c d) := by rintro _ ⟨⟩; rfl
theorem Laws.Opcodes.mma4c (k : Ctl) (a b c d : Opnd) : Laws.Opcodes.Statement (.mma4c k a b c d) := by rintro _ ⟨⟩; rfl
theorem Laws.Opcodes.mmaz (k : Ctl) (a : Opnd) (sh : Shape) : Laws.Opcodes.Statement (.mmaz k a sh) := by rintro _ ⟨⟩; rfl
theorem Laws.Opcodes.mma16a (k : Ctl) (a b c d : Opnd) : Laws.Opcodes.Statement (.mma16a k a b c d) := by rintro _ ⟨⟩; rfl
theorem Laws.Opcodes.mma16b (k : Ctl) (a b c d : Opnd) : Laws.Opcodes.Statement (.mma16b k a b c d) := by rintro _ ⟨⟩; rfl
theorem Laws.Opcodes.mma16c (k : Ctl) (a b c d : Opnd) : Laws.Opcodes.Statement (.mma16c k a b c d) := by rintro _ ⟨⟩; rfl
theorem Laws.Opcodes.latchl (k : Ctl) (b : Opnd) (rows64 sc : Bool) : Laws.Opcodes.Statement (.latchl k b rows64 sc) := by rintro _ ⟨⟩; rfl
theorem Laws.Opcodes.latchg (k : Ctl) (b c d : Opnd) (rows64 sc : Bool) : Laws.Opcodes.Statement (.latchg k b c d rows64 sc) := by rintro _ ⟨⟩; rfl
theorem Laws.Opcodes.latchclr (k : Ctl) : Laws.Opcodes.Statement (.latchclr k) := by rintro _ ⟨⟩; rfl
theorem Laws.Opcodes.accst (k : Ctl) (a b : Opnd) (sh : Shape) : Laws.Opcodes.Statement (.accst k a b sh) := by rintro _ ⟨⟩; rfl
theorem Laws.Opcodes.accld (k : Ctl) (a b : Opnd) (sh : Shape) : Laws.Opcodes.Statement (.accld k a b sh) := by rintro _ ⟨⟩; rfl
theorem Laws.Opcodes.inv (k : Ctl) (a b c : Opnd) (fall : Bool) (dom : Dom) (pd budget : BitVec 6) (tol : BitVec 12) : Laws.Opcodes.Statement (.inv k a b c fall dom pd budget tol) := by rintro _ ⟨⟩; rfl
theorem Laws.Opcodes.brset (k : Ctl) (a b c d : Opnd) (fv : Bool) : Laws.Opcodes.Statement (.brset k a b c d fv) := by rintro _ ⟨⟩; rfl
theorem Laws.Opcodes.brget (k : Ctl) (a b : Opnd) (f : BrField) : Laws.Opcodes.Statement (.brget k a b f) := by rintro _ ⟨⟩; rfl
theorem Laws.Opcodes.callm (k : Ctl) (off : Word) : Laws.Opcodes.Statement (.callm k off) := by rintro _ ⟨⟩; rfl
theorem Laws.Opcodes.invRound (g i : Nat) : Laws.Opcodes.Statement (.invRound g i) := by rintro _ ⟨⟩
theorem Laws.Opcodes.npost (k : Ctl) (b : Opnd) : Laws.Opcodes.Statement (.npost k b) := by rintro _ ⟨⟩; rfl
theorem Laws.Opcodes.nwait (k : Ctl) (b c : Opnd) : Laws.Opcodes.Statement (.nwait k b c) := by rintro _ ⟨⟩; rfl
theorem Laws.Opcodes.nread (k : Ctl) (a b c d : Opnd) : Laws.Opcodes.Statement (.nread k a b c d) := by rintro _ ⟨⟩; rfl
theorem Laws.Opcodes.narm (k : Ctl) (a b c d : Opnd) (trap : Bool) : Laws.Opcodes.Statement (.narm k a b c d trap) := by rintro _ ⟨⟩; rfl
theorem Laws.Opcodes.trap (k : Ctl) (code : Word) : Laws.Opcodes.Statement (.trap k code) := by rintro _ ⟨⟩; rfl
theorem Laws.Opcodes.rte (k : Ctl) : Laws.Opcodes.Statement (.rte k) := by rintro _ ⟨⟩; rfl
theorem Laws.Opcodes.srd (k : Ctl) (a : Opnd) (reg : BitVec 10) : Laws.Opcodes.Statement (.srd k a reg) := by rintro _ ⟨⟩; rfl
theorem Laws.Opcodes.swr (k : Ctl) (b : Opnd) (reg : BitVec 10) : Laws.Opcodes.Statement (.swr k b reg) := by rintro _ ⟨⟩; rfl
theorem Laws.Opcodes.tlbinv (k : Ctl) (b c : Opnd) (va : Bool) : Laws.Opcodes.Statement (.tlbinv k b c va) := by rintro _ ⟨⟩; rfl
theorem Laws.Opcodes.ntinv (k : Ctl) (b : Opnd) (one : Bool) : Laws.Opcodes.Statement (.ntinv k b one) := by rintro _ ⟨⟩; rfl
theorem Laws.Opcodes.svc (k : Ctl) (a : Opnd) (code : Word) : Laws.Opcodes.Statement (.svc k a code) := by rintro _ ⟨⟩; rfl
theorem Laws.Opcodes.dbghalt (k : Ctl) : Laws.Opcodes.Statement (.dbghalt k) := by rintro _ ⟨⟩; rfl
theorem Laws.Opcodes.nwake (trap grp : Bool) (rs1 rd : BitVec 5) : Laws.Opcodes.Statement (.nwake trap grp rs1 rd) := by rintro _ ⟨⟩
theorem Laws.Opcodes.nsig (trap grp : Bool) (rs1 rd : BitVec 5) : Laws.Opcodes.Statement (.nsig trap grp rs1 rd) := by rintro _ ⟨⟩
theorem Laws.Opcodes.ndep (trap grp : Bool) (slot rs2 rs1 rd : BitVec 5) : Laws.Opcodes.Statement (.ndep trap grp slot rs2 rs1 rd) := by rintro _ ⟨⟩
theorem Laws.Opcodes.njoin (trap grp : Bool) (rs1 rd : BitVec 5) : Laws.Opcodes.Statement (.njoin trap grp rs1 rd) := by rintro _ ⟨⟩
theorem Laws.Opcodes.namePortWake (fn k : BitVec 8) (grp : Bool) : Laws.Opcodes.Statement (.namePortWake fn k grp) := by rintro _ ⟨⟩
theorem Laws.Opcodes.namePortSignal (fn k : BitVec 8) (grp : Bool) : Laws.Opcodes.Statement (.namePortSignal fn k grp) := by rintro _ ⟨⟩
theorem Laws.Opcodes.namePortDeposit (fn k : BitVec 8) (grp : Bool) (slot : BitVec 5) : Laws.Opcodes.Statement (.namePortDeposit fn k grp slot) := by rintro _ ⟨⟩
theorem Laws.Opcodes.namePortJoin (fn k : BitVec 8) (grp : Bool) : Laws.Opcodes.Statement (.namePortJoin fn k grp) := by rintro _ ⟨⟩
theorem Laws.Opcodes.namePortProbe (fn k : BitVec 8) (grp : Bool) : Laws.Opcodes.Statement (.namePortProbe fn k grp) := by rintro _ ⟨⟩
theorem Laws.Opcodes.namePortCancel (fn k : BitVec 8) : Laws.Opcodes.Statement (.namePortCancel fn k) := by rintro _ ⟨⟩
theorem Laws.Opcodes.namePortBadOp (fn k : BitVec 8) : Laws.Opcodes.Statement (.namePortBadOp fn k) := by rintro _ ⟨⟩
theorem Laws.Opcodes.notifyWakeClear (i : BitVec 12) (v : BitVec 16) : Laws.Opcodes.Statement (.notifyWakeClear i v) := by rintro _ ⟨⟩
theorem Laws.Opcodes.loadContext (rec : DWord) : Laws.Opcodes.Statement (.loadContext rec) := by rintro _ ⟨⟩
theorem Laws.Opcodes.resume (ctx : BitVec 16) : Laws.Opcodes.Statement (.resume ctx) := by rintro _ ⟨⟩
theorem Laws.Opcodes.killCtx (ctx : BitVec 16) : Laws.Opcodes.Statement (.killCtx ctx) := by rintro _ ⟨⟩
theorem Laws.Opcodes.moveCores (cores : List (BitVec 8)) (part : BitVec 6) (margin : Bool) : Laws.Opcodes.Statement (.moveCores cores part margin) := by rintro _ ⟨⟩
theorem Laws.Opcodes.lendList (part : BitVec 6) (list : List (BitVec 6)) : Laws.Opcodes.Statement (.lendList part list) := by rintro _ ⟨⟩
theorem Laws.Opcodes.bindHart (h : BitVec 5) (ctx : BitVec 16) : Laws.Opcodes.Statement (.bindHart h ctx) := by rintro _ ⟨⟩
theorem Laws.Opcodes.grantList (owner : Option (BitVec 22)) (region : BitVec 20) (list : List Grantee) : Laws.Opcodes.Statement (.grantList owner region list) := by rintro _ ⟨⟩
theorem Laws.Opcodes.registration (ctx : BitVec 16) (idx : BitVec 12) (r : Registration) : Laws.Opcodes.Statement (.registration ctx idx r) := by rintro _ ⟨⟩
theorem Laws.Opcodes.residenceAnswer (ctx : BitVec 16) (va : DWord) (supply : Option (BitVec 128 × DWord)) : Laws.Opcodes.Statement (.residenceAnswer ctx va supply) := by rintro _ ⟨⟩
theorem Laws.Opcodes.sealRegion (region : BitVec 19) (code : BitVec 2) (hostWritable : Bool) : Laws.Opcodes.Statement (.sealRegion region code hostWritable) := by rintro _ ⟨⟩
theorem Laws.Opcodes.attest (nonce : BitVec 256) : Laws.Opcodes.Statement (.attest nonce) := by rintro _ ⟨⟩
theorem Laws.Opcodes.readCounters (ctx : BitVec 16) : Laws.Opcodes.Statement (.readCounters ctx) := by rintro _ ⟨⟩
theorem Laws.Opcodes.assignFunction (fn : BitVec 8) (ctx : BitVec 16) : Laws.Opcodes.Statement (.assignFunction fn ctx) := by rintro _ ⟨⟩
theorem Laws.Opcodes.raiseSecurityFloor (min : Word) (sigOk : Bool) : Laws.Opcodes.Statement (.raiseSecurityFloor min sigOk) := by rintro _ ⟨⟩
theorem Laws.Opcodes.mailboxBadCmd (cmd : BitVec 16) : Laws.Opcodes.Statement (.mailboxBadCmd cmd) := by rintro _ ⟨⟩
theorem Laws.Opcodes.coldStart (fail : Option (BitVec 8)) (linksFailed : List (BitVec 5)) : Laws.Opcodes.Statement (.coldStart fail linksFailed) := by rintro _ ⟨⟩
theorem Laws.Opcodes.warmStart (fail : Option (BitVec 8)) (linksFailed : List (BitVec 5)) (retrained : BitVec 12) : Laws.Opcodes.Statement (.warmStart fail linksFailed retrained) := by rintro _ ⟨⟩
theorem Laws.Opcodes.stop : Laws.Opcodes.Statement (.stop) := by rintro _ ⟨⟩
theorem Laws.Opcodes.doorbell (ctx : BitVec 16) (q : BitVec 6) (v : Word) : Laws.Opcodes.Statement (.doorbell ctx q v) := by rintro _ ⟨⟩
theorem Laws.Opcodes.queueEnable (ctx : BitVec 16) (q : BitVec 6) : Laws.Opcodes.Statement (.queueEnable ctx q) := by rintro _ ⟨⟩
theorem Laws.Opcodes.queueDisable (ctx : BitVec 16) (q : BitVec 6) : Laws.Opcodes.Statement (.queueDisable ctx q) := by rintro _ ⟨⟩
theorem Laws.Opcodes.svcval (ctx : BitVec 16) (v : DWord) : Laws.Opcodes.Statement (.svcval ctx v) := by rintro _ ⟨⟩
theorem Laws.Opcodes.svctail (ctx : BitVec 16) (v : Word) : Laws.Opcodes.Statement (.svctail ctx v) := by rintro _ ⟨⟩
theorem Laws.Opcodes.errtail (ctx : BitVec 16) (v : Word) : Laws.Opcodes.Statement (.errtail ctx v) := by rintro _ ⟨⟩
theorem Laws.Opcodes.linkEnable (n : BitVec 5) : Laws.Opcodes.Statement (.linkEnable n) := by rintro _ ⟨⟩
theorem Laws.Opcodes.linkDisable (n : BitVec 5) : Laws.Opcodes.Statement (.linkDisable n) := by rintro _ ⟨⟩
theorem Laws.Opcodes.registerWrite (r : HostReg) (v : DWord) : Laws.Opcodes.Statement (.registerWrite r v) := by rintro _ ⟨⟩
theorem Laws.Opcodes.hostMemoryAccess (addr : DWord) (w : Width) (data : Option (BitVec 128)) : Laws.Opcodes.Statement (.hostMemoryAccess addr w data) := by rintro _ ⟨⟩
theorem Laws.Opcodes.queueHeadExamine (ctx : BitVec 16) (q : BitVec 6) : Laws.Opcodes.Statement (.queueHeadExamine ctx q) := by rintro _ ⟨⟩
theorem Laws.Opcodes.groupPlace (die : BitVec 2) : Laws.Opcodes.Statement (.groupPlace die) := by rintro _ ⟨⟩
theorem Laws.Opcodes.groupReside (core : BitVec 8) : Laws.Opcodes.Statement (.groupReside core) := by rintro _ ⟨⟩
theorem Laws.Opcodes.groupSteal (core : BitVec 8) : Laws.Opcodes.Statement (.groupSteal core) := by rintro _ ⟨⟩
theorem Laws.Opcodes.binTimerExpiry (die : BitVec 2) (slot : BitVec 12) : Laws.Opcodes.Statement (.binTimerExpiry die slot) := by rintro _ ⟨⟩
theorem Laws.Opcodes.binPushDeferred (id : Nat) : Laws.Opcodes.Statement (.binPushDeferred id) := by rintro _ ⟨⟩
theorem Laws.Opcodes.takeAnswer (id : Nat) : Laws.Opcodes.Statement (.takeAnswer id) := by rintro _ ⟨⟩
theorem Laws.Opcodes.nameDelivery (id : Nat) : Laws.Opcodes.Statement (.nameDelivery id) := by rintro _ ⟨⟩
theorem Laws.Opcodes.joinComplete (id : Nat) : Laws.Opcodes.Statement (.joinComplete id) := by rintro _ ⟨⟩
theorem Laws.Opcodes.completionEvent (g : Nat) : Laws.Opcodes.Statement (.completionEvent g) := by rintro _ ⟨⟩
theorem Laws.Opcodes.accessComplete (id : Nat) (lanes : Word) : Laws.Opcodes.Statement (.accessComplete id lanes) := by rintro _ ⟨⟩
theorem Laws.Opcodes.lateLaneRecord (id : Nat) : Laws.Opcodes.Statement (.lateLaneRecord id) := by rintro _ ⟨⟩
theorem Laws.Opcodes.faultResolved (g w e : Nat) : Laws.Opcodes.Statement (.faultResolved g w e) := by rintro _ ⟨⟩
theorem Laws.Opcodes.faultResolutionFail (g w e : Nat) : Laws.Opcodes.Statement (.faultResolutionFail g w e) := by rintro _ ⟨⟩
theorem Laws.Opcodes.hostPageRequest (ctx : BitVec 16) (va : DWord) : Laws.Opcodes.Statement (.hostPageRequest ctx va) := by rintro _ ⟨⟩
theorem Laws.Opcodes.migrationStart (id : Nat) : Laws.Opcodes.Statement (.migrationStart id) := by rintro _ ⟨⟩
theorem Laws.Opcodes.migrationComplete (id : Nat) : Laws.Opcodes.Statement (.migrationComplete id) := by rintro _ ⟨⟩
theorem Laws.Opcodes.residencyExpiry (id : Nat) : Laws.Opcodes.Statement (.residencyExpiry id) := by rintro _ ⟨⟩
theorem Laws.Opcodes.groupMigration (g : Nat) (core : BitVec 8) : Laws.Opcodes.Statement (.groupMigration g core) := by rintro _ ⟨⟩
theorem Laws.Opcodes.groupMigrationComplete (g : Nat) : Laws.Opcodes.Statement (.groupMigrationComplete g) := by rintro _ ⟨⟩
theorem Laws.Opcodes.copyDelivery (g : Nat) (wp : BitVec 3) (n : Nat) : Laws.Opcodes.Statement (.copyDelivery g wp n) := by rintro _ ⟨⟩
theorem Laws.Opcodes.copyComplete (g : Nat) (wp : BitVec 3) : Laws.Opcodes.Statement (.copyComplete g wp) := by rintro _ ⟨⟩
theorem Laws.Opcodes.copyStop (g : Nat) (wp : BitVec 3) : Laws.Opcodes.Statement (.copyStop g wp) := by rintro _ ⟨⟩
theorem Laws.Opcodes.hbarArrivalMessage (id : Nat) : Laws.Opcodes.Statement (.hbarArrivalMessage id) := by rintro _ ⟨⟩
theorem Laws.Opcodes.hbarReleaseMessage (id : Nat) : Laws.Opcodes.Statement (.hbarReleaseMessage id) := by rintro _ ⟨⟩
theorem Laws.Opcodes.mmaComplete (id : Nat) : Laws.Opcodes.Statement (.mmaComplete id) := by rintro _ ⟨⟩
theorem Laws.Opcodes.latchMoveComplete (id : Nat) : Laws.Opcodes.Statement (.latchMoveComplete id) := by rintro _ ⟨⟩
theorem Laws.Opcodes.ownerRead (id : Nat) : Laws.Opcodes.Statement (.ownerRead id) := by rintro _ ⟨⟩
theorem Laws.Opcodes.deliveryArrival (id : Nat) : Laws.Opcodes.Statement (.deliveryArrival id) := by rintro _ ⟨⟩
theorem Laws.Opcodes.deliveryReport (id : Nat) : Laws.Opcodes.Statement (.deliveryReport id) := by rintro _ ⟨⟩
theorem Laws.Opcodes.remoteRequestArrival (id : Nat) : Laws.Opcodes.Statement (.remoteRequestArrival id) := by rintro _ ⟨⟩
theorem Laws.Opcodes.remoteAnswerArrival (id : Nat) : Laws.Opcodes.Statement (.remoteAnswerArrival id) := by rintro _ ⟨⟩
theorem Laws.Opcodes.resendTimeout (id : Nat) (street : BitVec 2) : Laws.Opcodes.Statement (.resendTimeout id street) := by rintro _ ⟨⟩
theorem Laws.Opcodes.requestFail (id : Nat) : Laws.Opcodes.Statement (.requestFail id) := by rintro _ ⟨⟩
theorem Laws.Opcodes.packetAgeDiscard (id : Nat) : Laws.Opcodes.Statement (.packetAgeDiscard id) := by rintro _ ⟨⟩
theorem Laws.Opcodes.linkTrained (n : BitVec 5) (node : BitVec 22) (port : BitVec 7) (limReq limRep : BitVec 16) (salt : Word) : Laws.Opcodes.Statement (.linkTrained n node port limReq limRep salt) := by rintro _ ⟨⟩
theorem Laws.Opcodes.linkTrainingTimeout (n : BitVec 5) : Laws.Opcodes.Statement (.linkTrainingTimeout n) := by rintro _ ⟨⟩
theorem Laws.Opcodes.linkRetrain (n : BitVec 5) : Laws.Opcodes.Statement (.linkRetrain n) := by rintro _ ⟨⟩
theorem Laws.Opcodes.retrainTimeout (n : BitVec 5) : Laws.Opcodes.Statement (.retrainTimeout n) := by rintro _ ⟨⟩
theorem Laws.Opcodes.flitGroupReceive (n : BitVec 5) (tagOk : Bool) (released : List (Nat × Nat)) (ret : Option (Bool × BitVec 16)) : Laws.Opcodes.Statement (.flitGroupReceive n tagOk released ret) := by rintro _ ⟨⟩
theorem Laws.Opcodes.allowanceLapse (id : Nat) : Laws.Opcodes.Statement (.allowanceLapse id) := by rintro _ ⟨⟩
theorem Laws.Opcodes.vfTeardown (fn : BitVec 8) : Laws.Opcodes.Statement (.vfTeardown fn) := by rintro _ ⟨⟩
theorem Laws.Opcodes.generationNotice (d : Dest) (fn : BitVec 8) : Laws.Opcodes.Statement (.generationNotice d fn) := by rintro _ ⟨⟩
theorem Laws.Opcodes.teardownComplete (fn : BitVec 8) : Laws.Opcodes.Statement (.teardownComplete fn) := by rintro _ ⟨⟩
theorem Laws.Opcodes.workRequestAccept (id : Nat) : Laws.Opcodes.Statement (.workRequestAccept id) := by rintro _ ⟨⟩
theorem Laws.Opcodes.networkPacketArrival (ctx : BitVec 16) (p : NetPacket) : Laws.Opcodes.Statement (.networkPacketArrival ctx p) := by rintro _ ⟨⟩
theorem Laws.Opcodes.networkAck (id : Nat) : Laws.Opcodes.Statement (.networkAck id) := by rintro _ ⟨⟩
theorem Laws.Opcodes.networkRetransmit (id : Nat) : Laws.Opcodes.Statement (.networkRetransmit id) := by rintro _ ⟨⟩
theorem Laws.Opcodes.networkRequestFail (id : Nat) (refused : Bool) : Laws.Opcodes.Statement (.networkRequestFail id refused) := by rintro _ ⟨⟩
theorem Laws.Opcodes.contextSchedule (core : BitVec 8) (ctx : BitVec 16) : Laws.Opcodes.Statement (.contextSchedule core ctx) := by rintro _ ⟨⟩
theorem Laws.Opcodes.contextLoadComplete (core : BitVec 8) : Laws.Opcodes.Statement (.contextLoadComplete core) := by rintro _ ⟨⟩
theorem Laws.Opcodes.bankSwap (core : BitVec 8) : Laws.Opcodes.Statement (.bankSwap core) := by rintro _ ⟨⟩
theorem Laws.Opcodes.spillRequest (core : BitVec 8) (ctx : BitVec 16) : Laws.Opcodes.Statement (.spillRequest core ctx) := by rintro _ ⟨⟩
theorem Laws.Opcodes.spillComplete (core : BitVec 8) : Laws.Opcodes.Statement (.spillComplete core) := by rintro _ ⟨⟩
theorem Laws.Opcodes.groupRestoreComplete (g : Nat) : Laws.Opcodes.Statement (.groupRestoreComplete g) := by rintro _ ⟨⟩
theorem Laws.Opcodes.sliceEnd (core : BitVec 8) : Laws.Opcodes.Statement (.sliceEnd core) := by rintro _ ⟨⟩
theorem Laws.Opcodes.graceExpiry (core : BitVec 8) : Laws.Opcodes.Statement (.graceExpiry core) := by rintro _ ⟨⟩
theorem Laws.Opcodes.killTimerExpiry (core : BitVec 8) : Laws.Opcodes.Statement (.killTimerExpiry core) := by rintro _ ⟨⟩
theorem Laws.Opcodes.coreLend (core : BitVec 8) (part : BitVec 6) : Laws.Opcodes.Statement (.coreLend core part) := by rintro _ ⟨⟩
theorem Laws.Opcodes.lendRevoke (core : BitVec 8) : Laws.Opcodes.Statement (.lendRevoke core) := by rintro _ ⟨⟩
theorem Laws.Opcodes.partitionMoveEffect (core : BitVec 8) : Laws.Opcodes.Statement (.partitionMoveEffect core) := by rintro _ ⟨⟩
theorem Laws.Opcodes.debugHaltCommand (g w l : Nat) : Laws.Opcodes.Statement (.debugHaltCommand g w l) := by rintro _ ⟨⟩
theorem Laws.Opcodes.debugResume (g w l : Nat) : Laws.Opcodes.Statement (.debugResume g w l) := by rintro _ ⟨⟩
theorem Laws.Opcodes.debugStep (g w l : Nat) : Laws.Opcodes.Statement (.debugStep g w l) := by rintro _ ⟨⟩
theorem Laws.Opcodes.monitorEvaluation : Laws.Opcodes.Statement (.monitorEvaluation) := by rintro _ ⟨⟩
theorem Laws.Opcodes.droopEvent (die : BitVec 2) : Laws.Opcodes.Statement (.droopEvent die) := by rintro _ ⟨⟩
theorem Laws.Opcodes.thermalTrip (die : BitVec 2) (sensor : BitVec 6) : Laws.Opcodes.Statement (.thermalTrip die sensor) := by rintro _ ⟨⟩
theorem Laws.Opcodes.unassignedEncoding (w : IWord) : Laws.Opcodes.Statement (.unassignedEncoding w) := by rintro _ ⟨⟩
theorem Laws.Opcodes.powerOn : Laws.Opcodes.Statement (.powerOn) := by rintro _ ⟨⟩
theorem Laws.Opcodes.streetFailureReport (cls : BitVec 16) (street : BitVec 2) : Laws.Opcodes.Statement (.streetFailureReport cls street) := by rintro _ ⟨⟩
theorem Laws.Opcodes.debuggerAttach (ctx : BitVec 16) (attach allStop : Bool) : Laws.Opcodes.Statement (.debuggerAttach ctx attach allStop) := by rintro _ ⟨⟩
theorem Laws.Opcodes.hartMemoryAccess (h : BitVec 5) (kind : BitVec 2) (addr : DWord) (w : Width) (data : DWord) : Laws.Opcodes.Statement (.hartMemoryAccess h kind addr w data) := by rintro _ ⟨⟩
theorem Laws.Opcodes.hartInterrupt (h : BitVec 5) : Laws.Opcodes.Statement (.hartInterrupt h) := by rintro _ ⟨⟩
theorem Laws.Opcodes.cxlCacheSnoop (addr : DWord) (invalidate : Bool) : Laws.Opcodes.Statement (.cxlCacheSnoop addr invalidate) := by rintro _ ⟨⟩
theorem Laws.Opcodes.scratchpadSplit (core : BitVec 8) (units : BitVec 3) : Laws.Opcodes.Statement (.scratchpadSplit core units) := by rintro _ ⟨⟩

end Sys2Proof
end

