-- ==== Sys2Proof/Tests/Slice0.lean ====
section
/-! SUPPORT. Tests of the model's author: words of the spec and what they decode to, ill-formed terms, one step on small states, and for
every statement with hypotheses a state and operands that meet them. -/

set_option maxRecDepth 20000
set_option Elab.async false

open Sys2Proof Sys2Proof.Machine

namespace Sys2Proof.Tests

/-! ### Small states -/

/-- A loaded machine in which `n` threads of wave 0 of group 0 issue, with local memory as given. -/
def at_ (n : Nat) (code : List Byte := []) (handler : Bool := false) : State :=
  let s := loadDevice State.reset n handler code
  { s with inbox := [], cur := { members := (List.range n).map fun l => (l, 0), positions := (List.range n).map fun l => (l, 0) } }

/-- Vector register `r` of thread `l` holds `x`. -/
def setV (s : State) (l r : Nat) (x : Word) : State := s.modThread 0 0 l fun t => { t with vr := msetD t.vr r x 0 }
def setS (s : State) (r : Nat) (x : Word) : State := s.modWave 0 0 fun v => { v with sr := msetD v.sr r x 0 }
def setP (s : State) (l r : Nat) : State := s.modThread 0 0 l fun t => { t with pr := t.pr ||| (1#48 <<< r) }
def setT (s : State) (l : Nat) (f : Thread → Thread) : State := s.modThread 0 0 l f
def setW (s : State) (f : Wave → Wave) : State := s.modWave 0 0 f
def setG (s : State) (f : Group → Group) : State := s.modGroup 0 f
def setC (s : State) (f : Ctx → Ctx) : State := s.modCtx 1 f
def put (s : State) (a : Nat) (bs : List Byte) : State := { s with hbm := writeL s.hbm a bs }

/-- No guard; a guard that no thread passes; guard p0. -/
def k0 : Ctl := plainCtl
def kNot : Ctl := { plainCtl with gn := true }
def kP : Ctl := { plainCtl with gp := 0 }

/-- What a step of a loaded machine leaves. -/
def after (i : Instr) (s : State) : State :=
  match exec i s with
  | .next t => t
  | .fault _ => s
  | .refused _ => s

/-! ### Hypotheses of the statements -/

theorem witness_IntegerArithmetic : VDest .null ∧ VDest (.v 255) ∧ (Opnd.p 47 = .p 47) :=
  ⟨.inl rfl, .inr ⟨255, rfl⟩, rfl⟩

theorem witness_CompareSelectMove : ∃ (b : Opnd) (n : BitVec 6), b = .p n := ⟨.p 47, 47, rfl⟩

theorem witness_Conversion : Fmt.s8 ≠ .fp64 ∧ (Fmt.fp64 = .fp64) ∧ ∃ (a : Opnd) (n : BitVec 8), a = .v n :=
  ⟨by decide, rfl, .v 248, 248, rfl⟩

/-- Two writers of row 0 and none of row 1: the highest position is the writer that is kept. -/
theorem witness_LaneInstructions :
    let s := at_ 2
    let writers := fun l w => (actives k0 s).filter fun m => m.2 == w && (src s m (.imm 0)).toNat % 32 == l
    s.hasThread 0 (0, 0) ∧ s.hasThread 0 (1, 0) ∧ writers 1 0 = [] ∧ (1, 0) ∈ writers 0 0 ∧ (∀ x ∈ writers 0 0, x.1 ≤ 1) := by
  decide +kernel

/-- The first and the last target inside the code, the first outside, a return to the last, no thread, and differing guards. -/
theorem witness_Branches :
    let s := setS (at_ 2) 0 1188
    let d := setP s 0 0
    let lands := fun (p : Int) w => p % 12 == 0 && inCode s 0 w p
    (∀ m ∈ actives k0 s, lands 0 m.2) ∧ (∀ m ∈ actives k0 s, lands (12 * 99) m.2) ∧
    (∃ m ∈ actives k0 s, lands (12 * 100) m.2 = false) ∧ (∃ m ∈ actives k0 s, lands (-12) m.2 = false) ∧
    (∀ m ∈ actives k0 s, lands (src64 s m (.s 0)).toNat m.2) ∧ (∃ m ∈ actives k0 s, lands (src64 s m (.imm 1)).toNat m.2 = false) ∧
    actives kNot s = [] ∧ (actives k0 s).length = s.cur.members.length ∧
    actives kP d ≠ [] ∧ (actives kP d).length ≠ s.cur.members.length ∧ VDest (.v 2) := by
  refine ⟨?_, ?_, ?_, ?_, ?_, ?_, ?_, ?_, ?_, ?_, .inr ⟨2, rfl⟩⟩ <;> decide +kernel

/-- A table with one entry at the const base, and its LAND at offset 12. -/
def jtabState : State :=
  put (put (at_ 1) 0x4000 (toBytes 4 (7 * 65536 + 1) ++ toBytes 4 12)) 0x100C (wordBytes (.land k0 .null .null .null .null 7 false false))

def failsLane (r : LaneRes) : Bool := match r with | .fail _ => true | _ => false
def parksLane (r : LaneRes) : Bool := match r with | .park m _ => m == (0, 0) | _ => false
def laneOk (r : LaneRes) (f : LaneOp → Bool) : Bool := match r with | .ok o (some _) => f o | _ => false

/-- The header is read, entry 0 is and lands, index 1 is out of bound, another label does not land; a table in a page that is not mapped,
and one in a page that is not present. -/
theorem witness_JumpTable :
    let s := jtabState
    let base := s.cg.cnst.toNat + (0 : Word).toNat
    let reads := fun addr vals x => laneOk (checkLane s 0 (0, 0) .jtab 4 (tableOp (0, 0) addr vals)) fun o =>
      performsNow o.kind o.cls && tableWord s 0 o == x
    let gone := put s 0x204000 (toBytes 16 0x7002)
    actives k0 s = [(0, 0)] ∧ reads base [] 0x70001 ∧ reads (base + 4 + 4 * (src s (0, 0) (.imm 0)).toNat) [0, 0x70001] 12 ∧
    (src s (0, 0) (.imm 0)).toNat < 0x70001 % 65536 ∧ ¬(src s (0, 0) (.imm 1)).toNat < 0x70001 % 65536 ∧
    Claims.landsOn s (0, 0) 12 7 = true ∧ Claims.landsOn s (0, 0) 24 7 = false ∧
    failsLane (checkLane s 0 (0, 0) .jtab 4 (tableOp (0, 0) (s.cg.cnst.toNat + 0x200000) [])) ∧
    parksLane (checkLane gone 0 (0, 0) .jtab 4 (tableOp (0, 0) 0x6000 [])) := by decide +kernel

theorem witness_PlainControl :
    let s := at_ 2
    let d := setC s fun c => { c with debug := true }
    actives k0 s ≠ [] ∧ s.cur.formed = false ∧ s.hasWave 0 s.cur.w ∧ actives kNot s = [] ∧
    (d.ctx d.cg.ctx).debug = true ∧ (d.ctx d.cg.ctx).allStop = false ∧ (s.ctx s.cg.ctx).debug = false := by decide +kernel

theorem witness_Reconvergence :
    let s := at_ 2
    let h := setT s 1 fun t => { t with st := .held, hold := .rcv 31 }
    let z := setG s fun x => { x with hdr := { x.hdr with depth := 4 } }
    31 < s.cg.hdr.depth ∧ (∀ m ∈ actives k0 s, heldRcv s 0 m.2 31 = false) ∧
    (∀ m ∈ actives k0 s, ∀ c ∈ (s.wave 0 m.2).conv, c.2.kind ≠ 2) ∧
    z.cg.hdr.depth ≤ 4 ∧ actives k0 z ≠ [] ∧ (∃ m ∈ actives k0 h, heldRcv h 0 m.2 31 = true) := by decide +kernel

/-- A bin of the launch's key, and one of a graph's node, each with one record and room for the second. -/
def binState : State :=
  let r : BinRec := { held := false, vals := [1, 2, 3, 4, 5, 6, 7, 8], counter := 0, pusher := 0 }
  let b : BinSlot :=
    { key := { node := false, owner := 1, entry := 48 }, buf := 0x8000, coal := 4, timer := 16, caplog := 2, recs := [r], timerEnd := some 0 }
  let nd : GraphNode :=
    { entry := 48, hdr := loadedHeader, code := 0x1000, cnst := 0, args := [], buf := 0x9000, coal := 4, timer := 16, caplog := 2 }
  let s := setG (at_ 1) fun x => { x with graph := some 3 }
  { s with
    dies := mput s.dies 0 { bins := [(5, b), (6, { b with key := { node := true, owner := 3, entry := 48 } })] }
    graphs := [(3, { ctx := 1, handle := 0, nodes := [nd] })] }

theorem witness_SpawnBins :
    let s := binState
    (∀ m ∈ actives k0 s, inCode s 0 m.2 (48 : Int) = true) ∧ (∀ m ∈ actives k0 s, inCode s 0 m.2 (1188 : Int) = true) ∧
    (∃ m ∈ actives k0 s, inCode s 0 m.2 (1200 : Int) = false) ∧ actives k0 s = [(0, 0)] ∧
    (∃ i x, binFind (s.die 0) { node := false, owner := s.cg.ctx, entry := 48 } = some (i, x) ∧ x.recs.length + 1 < 2 ^ x.caplog ∧ freeCount x + 1 < x.coal) ∧
    served s 0 { node := false, owner := s.cg.ctx, entry := 48 } = false ∧
    (s.pushes.any fun p => p.die == 0) = false ∧ (graphNode s 3 48).isSome ∧ s.cg.graph = some 3 ∧ (graphNode s 3 60).isNone ∧
    (at_ 1).cg.graph = none := by
  refine ⟨?_, ?_, ?_, ?_, ⟨_, _, rfl, ?_, ?_⟩, ?_, ?_, ?_, ?_, ?_, ?_⟩ <;> decide +kernel

/-- A thread held on a bin's answer. -/
def takeState (bin : Bool) : State :=
  let o : TakeOp := { id := 9, g := 0, lanes := [(0, 0)], die := 0, key := { node := false, owner := 1, entry := 48 }, pd := 47, base := 8, entry := 48 }
  let s := if bin then binState else at_ 1
  { setT s 0 (fun t => { t with st := .held, hold := .bin 9 }) with takes := [o] }

theorem witness_BinAnswers_take :
    (∃ o, ((takeState true).takes.find? fun x => x.id == 9) = some o ∧ o.lanes = [(0, 0)] ∧ o.pd < 48 ∧ o.spared = [] ∧
      ∃ i b r rs, binFind ((takeState true).die o.die) o.key = some (i, b) ∧ b.recs = r :: rs ∧ r.vals.length = 8) ∧
    (∃ o, ((takeState false).takes.find? fun x => x.id == 9) = some o ∧ binFind ((takeState false).die o.die) o.key = none) ∧
    (takeState true).hasThread 0 (0, 0) ∧ ((takeState true).thread 0 0 0).st = .held ∧ ((takeState true).thread 0 0 0).hold = .bin 9 ∧
    ((takeState true).wave 0 0).conv = [] := by
  refine ⟨⟨_, rfl, rfl, ?_, rfl, _, _, _, _, rfl, rfl, rfl⟩, ⟨_, rfl, ?_⟩, ?_, ?_, ?_, ?_⟩ <;> decide +kernel

def waitingPush : Push :=
  { id := 4, op := 3, g := 0, die := 0, key := { node := false, owner := 1, entry := 48 },
    item := { held := true, vals := [0, 0, 0, 0, 0, 0, 0, 0], counter := 0, pusher := 0 } }

/-- A push that finds room; a timer that has expired with a free record. -/
theorem witness_BinAnswers :
    let s := { binState with pushes := [waitingPush] }
    (s.pushes.find? fun x => x.id == 4) = some waitingPush ∧
    (s.pushes.any fun q => q.id < 4 && q.die == 0 && q.key == waitingPush.key) = false ∧
    served s 0 waitingPush.key = false ∧ (pushOne s 0 0 waitingPush.key waitingPush.item).isSome ∧
    (∃ b, mget (s.die 0).bins 5 = some b ∧ b.timerEnd = some 0 ∧ 0 ≤ s.clock ∧ keyActive s 0 b.key = true ∧
      b.recs.filter (fun r => !r.held) ≠ [] ∧ 0 < b.coal) := by
  refine ⟨?_, ?_, ?_, ?_, ⟨_, rfl, ?_, ?_, ?_, ?_, ?_⟩⟩ <;> decide +kernel

/-- An entry of the name table: state, rights and generation, with 16 deposit registers and 8 uniform ones. -/
def entryOf (st rights gen : Nat) : Nat := st + rights * 16 + gen * 2 ^ 16 + 16 * 2 ^ 72 + 8 * 2 ^ 83

/-- The loaded machine with the entry of its group 0 in the name TLBs of die 0 and of the hub. -/
def named (s : State) (e : Nat) : State :=
  (s.modDie 0 fun d => { d with names := [(nteKey 1 0, e)] }).modDie 4 fun d => { d with names := [(nteKey 1 0, e)] }

def goes (r : NameRes) : Bool := match r with | .go _ _ _ => true | _ => false
def ends (r : NameRes) : Bool := match r with | .status _ => true | _ => false
def traps (r : NameRes) : Bool := match r with | .trap _ _ => true | _ => false

/-- A reference to thread 1 of group 0 whose rights and generation let it pass; one whose generation is old (a status, or a trap under
.trap); an entry without rights; a slot on the edge of the window; a thread beyond the group. -/
theorem witness_ParkAndSend :
    let s := named (at_ 2) (entryOf 1 63 5)
    let check := fun r trap act => nameCheck s 0 1 r false trap act
    actives k0 s ≠ [] ∧ (actives k0 s).count (0, 0) = 1 ∧ s.hasThread 0 (0, 0) ∧
    goes (check 1 false .wake) ∧ goes (check (1 + 2 ^ 47 + 5 * 2 ^ 48) true .signal) ∧ goes (check 1 false (.deposit 15 7)) ∧
    ends (check (1 + 2 ^ 47 + 4 * 2 ^ 48) false .wake) ∧ traps (check (1 + 2 ^ 47 + 4 * 2 ^ 48) true .wake) ∧
    goes (check 1 false (.deposit 23 7)) ∧ traps (check 1 false (.deposit 24 7)) ∧ ends (check 2 false .wake) ∧
    traps (nameCheck (named (at_ 2) (entryOf 1 0 5)) 0 1 1 false false .wake) := by decide +kernel

def wakeOp (act : NameAct) : NameOp :=
  { id := 3, sender := .hart 0, op := 0, act := act, target := some (.group 1 0 1 false), remote := none, dst := .null, status := none,
    trap := false, pc := 0, word := 0 }

theorem witness_NameDelivery :
    let s := { at_ 2 with nameOps := [wakeOp (.deposit 15 7)] }
    let p := setT s 1 fun t => { t with st := .parked }
    let e := setT s 1 fun t => { t with st := .exited }
    (s.nameOps.find? fun x => x.id == 3) = some (wakeOp (.deposit 15 7)) ∧ nameBehind s (wakeOp (.deposit 15 7)) = false ∧
    groupAt s 1 0 = some 0 ∧ (s.group 0).place = .active ∧ s.hasThread 0 (1 % 32, 1 / 32) ∧ (s.thread 0 0 1).st = .ready ∧
    (∀ h ∈ (s.thread 0 0 1).hazards, h.until_ ≤ s.clock) ∧
    (p.thread 0 0 1).st = .parked ∧ (e.thread 0 0 1).st = .exited := by decide +kernel

def joinNow (r : JoinRes) : Bool := match r with | .now _ _ => true | _ => false
def joinWaits (r : JoinRes) : Bool := match r with | .wait _ _ => true | _ => false
def probes (r : NameRes ⊕ Word) : Bool := match r with | .inr _ => true | .inl _ => false
def absent (r : NameRes ⊕ Found) : Bool := match r with | .inl (.status 3) => true | _ => false
def foundWith (r : NameRes ⊕ Found) (p : Found → Bool) : Bool := match r with | .inr f => p f | .inl _ => false
def joinTraps (r : JoinRes) : Bool := match r with | .trap _ _ => true | _ => false

/-- A join of a live thread waits, of one that has exited ends, of one beyond the group ends, without the right traps; a probe that
gives its word; a join that has its answer. -/
theorem witness_JoinProbeName :
    let s := named (at_ 2) (entryOf 1 63 5)
    let e := setT s 1 fun t => { t with st := .exited }
    let j : JoinOp := { id := 3, sender := .thread 0 0 0, op := 0, target := .group 1 0 1 false, dst := .v 4, sdst := .p 1, rd := 0,
                        result := some (some 7, 0), parked := true, notify := none }
    let w := { setT e 0 (fun t => { t with st := .parkedJoin, joinOp := some 3 }) with joins := [j] }
    joinWaits (joinCheck s 0 1 1 false false) ∧ joinNow (joinCheck e 0 1 1 false false) ∧ joinNow (joinCheck s 0 1 2 false false) ∧
    joinTraps (joinCheck (named (at_ 2) (entryOf 1 0 5)) 0 1 1 false false) ∧
    probes (probeWord s 0 1 1 false false) ∧
    (w.joins.find? fun x => x.id == 3) = some j ∧ joinValue w j = some (some 7, 0) ∧ w.hasThread 0 (0, 0) ∧
    (w.thread 0 0 0).st = .parkedJoin ∧ (w.thread 0 0 0).joinOp = some 3 := by decide +kernel

/-- Launch counter 0 of the context's table, in a state of Table 11-3. -/
def counterState (st : Nat) : State := put (at_ 1) 0x10000 (toBytes 8 (st + 32))

/-- A handle that names no counter, one of another level, one that is complete and one that is cancelled; a name without an entry. -/
theorem witness_DoneAndCancel :
    let s := at_ 1
    let h := 2 ^ 45
    let n := named s (entryOf 1 63 5)
    actives k0 s = [(0, 0)] ∧ s.hasThread 0 (0, 0) ∧ (s.thread 0 0 0).st ≠ .exited ∧ s.cg.published = false ∧ (mget s.groups 0).isSome ∧
    (∀ x ∈ s.groups, x.2.ctx = 1 → x.2.due = false ∨ x.2.published = true) ∧ cState (ctrRead (counterState 1) 1 (hSlot h)) = 1 ∧
    (setG s fun x => { x with published := true }).cg.published = true ∧
    foundWith (nameFound n 0 1 1 .wake false) (fun f => nteState f.entry != 5 && nteDev f.entry == n.device % 2 ^ 22) ∧
    foundWith (nameFound (named s (entryOf 5 63 5)) 0 1 1 .wake false) (fun f => nteState f.entry == 5) ∧
    foundWith (nameFound (named s (entryOf 1 63 5 + 9 * 2 ^ 128)) 0 1 1 .wake false) (fun f => nteDev f.entry != s.device % 2 ^ 22) ∧
    traps (match nameFound (named s (entryOf 1 0 5)) 0 1 1 .wake false with | .inl r => r | .inr _ => .status 0) ∧
    CancelLvl.launch ≠ .grp ∧ handleOk s 1 h = false ∧ handleOk (counterState 2) 1 h = true ∧ hLvl h = cancelCode .launch ∧
    hLvl h ≠ cancelCode .graph ∧ cState (ctrRead (counterState 2) 1 (hSlot h)) = 2 ∧ cState (ctrRead (counterState 3) 1 (hSlot h)) = 3 ∧
    cState (ctrRead (counterState 4) 1 (hSlot h)) = 4 ∧ absent (nameFound s 0 1 (src64 s (0, 0) (.imm 0)) .wake false) := by decide +kernel

def hartState (mode : HMode) (bound : Option Nat) : State :=
  let s := named (at_ 2) (entryOf 1 63 5)
  { s with phase := 2, harts := [(0, { pc := 0x1000, mode := mode, bound := bound, x := [(1, 1)] })], cur := { hart := 0 } }

theorem witness_HartNames :
    let s := hartState .u (some 1)
    let w := { s with harts := [(0, { (s.hart 0) with stall := some 3 })],
                      joins := [{ id := 3, sender := .hart 0, op := 0, target := .group 1 0 1 false, dst := .null, sdst := .null, rd := 5,
                                  result := none, parked := true, notify := none }] }
    hartSpace (hartState .m (some 1)) 0 = none ∧ hartSpace (hartState .u none) 0 = none ∧ hartSpace s 0 = some 1 ∧
    goes (nameCheck s 4 1 (rdX s 0 1) false false .wake) ∧ traps (nameCheck s 4 1 (rdX s 0 1) false false (.deposit 24 0)) ∧
    ends (nameCheck s 4 1 2 false false .wake) ∧ joinWaits (joinCheck s 4 1 (rdX s 0 1) false false) ∧
    (w.hart 0).stall = some 3 ∧ (w.joins.any fun x => x.id == 3) = true ∧ hartRuns s 0 = true ∧
    (hbmSize - 8) + Width.b64.bytes ≤ hbmSize ∧ sealCode s (hbmSize - 8) ≠ 1 ∧ sealCode s (hbmSize - 1) ≠ 1 ∧ (hbmSize - 8) % 32 + Width.b64.bytes ≤ 32 ∧ ctrPhys { s with ctxs := [] } .hbm (hbmSize - 8) = none ∧
    doorAt s .hbm (hbmSize - 8) = none ∧
    sealCode { s with sealMap := [(0, 1)] } 0 = 1 := by decide +kernel

def portState : State :=
  let s := named (at_ 2) (entryOf 1 63 5)
  { s with vfs := [(1, { ctx := some 1 })], ports := [] }

theorem witness_NamePorts :
    let s := portState
    let b := modPort s 1 2 fun p => { p with busy := true }
    let j := modPort s 1 2 fun p => { p with busy := true, joining := true }
    s.phase ≠ 3 ∧ (s.port 1 2).busy = false ∧ portSpace s 0 = none ∧ portSpace s 1 = some 1 ∧
    goes (nameCheck s 4 1 1 false false .wake) ∧ ends (nameCheck s 4 1 2 false false .wake) ∧ traps (nameCheck s 4 1 1 false false (.deposit 24 0)) ∧
    (23#5).toNat ≤ 23 ∧ 23 < (24#5).toNat ∧ (b.port 1 2).busy = true ∧ (b.port 1 2).joining = false ∧ (j.port 1 2).joining = true ∧
    joinWaits (joinCheck s 4 1 1 false false) ∧ ({ s with phase := 3 } : State).phase = 3 := by decide +kernel

def joinFar (r : JoinRes) : Bool := match r with | .far _ _ => true | _ => false
def joinLate (r : JoinRes) : Bool := match r with | .late _ _ => true | _ => false
def foundTraps (r : NameRes ⊕ Found) : Bool := match r with | .inl (.trap _ _) => true | _ => false

/-- Joins and probes of a port: a target that has exited, one whose store has not performed yet, one of another device, one without the
right, one that is not bound; and a notify register that a WAKE has reached in this clock. -/
theorem witness_NamePorts_joins :
    let s := portState
    let e := setT s 1 fun t => { t with st := .exited }
    let st : Access := { id := 9, g := 0, w := 0, kind := .store, width := 4, ctr := 1, scope := ⟨5, 0xB⟩, flag := false, acq := false, uni := false,
                         mask := 2, pc := 0, word := 0, clock := 0, issued := 0, lanes := [{ lane := 1, addr := 0, dst := [], vals := [0] }] }
    let mute := named (at_ 2) (entryOf 1 0 5)
    let far := { s with device := 1 }
    let woken := notifyApply s 4095 .wake
    joinNow (joinCheck e 4 1 1 false false) ∧ joinLate (joinCheck { e with accesses := [st] } 4 1 1 false false) ∧
    joinFar (joinCheck far 4 1 1 false false) ∧ joinTraps (joinCheck mute 4 1 1 false false) ∧
    foundTraps (nameFound mute 4 1 1 .probe false) ∧ foundWith (nameFound s 4 1 1 .probe false) (fun _ => true) ∧
    absent (nameFound s 4 1 (2 * 2 ^ 10) .probe false) ∧ probes (probeWord s 4 1 1 false false) ∧
    probeFar s 4 1 1 false = none ∧ probeFar far 4 1 1 false = some 0 ∧ farLost far 0 far.ns = true ∧
    farLost { far with streets := [(0, [(0, 0)])], links := [(0, { en := true, state := 2 })] } 0 far.ns = false ∧ (mgetD woken.notifies 4095 {}).fresh = some (woken.clock, 0, 1) ∧
    (∀ x, (mgetD s.notifies 4095 {}).fresh = some x → x.1 ≠ s.clock) := by decide +kernel

theorem witness_BarrierSetup :
    let s := at_ 2
    let act := actives k0 s
    let mine := s.cur.members.filter fun m => m.2 == 0
    let free := modBar s 0 15 fun x => { x with state := 0 }
    let armed := modBar s 0 15 fun x => { x with state := 1, exp := 2 }
    let counting := modBar s 0 15 fun x => { x with state := 2, exp := 2, chan := 1 }
    let broken := modBar s 0 15 fun x => { x with state := 4 }
    let later := modBar s 0 15 fun x => { x with state := 1, order := (s.clock + 1, 600) }
    let stuck := setT broken 1 fun t => { t with st := .held, hold := .bar 15 false }
    let other := modBar armed 0 3 fun x => { x with state := 2, chan := 2 }
    wavesOf act = [0] ∧ (mget s.groups 0).isSome ∧ mine ≠ [] ∧ (leadOf act 0).2 = 0 ∧ 15 < s.cg.hdr.barriers ∧ s.cg.hdr.barriers ≤ 16 ∧
    (free.bar 0 15).state ≠ 2 ∧ inOrder free 0 15 (placeOf 0 0) = true ∧ inOrder later 0 15 (placeOf 0 0) = false ∧
    (counting.bar 0 15).state = 2 ∧ (broken.bar 0 15).state = 4 ∧ heldOn broken.cg (holdsBar 15) = [] ∧ heldOn stuck.cg (holdsBar 15) ≠ [] ∧
    chanBar other.cg 1 = some 3 ∧ chanBar armed.cg 0 = none ∧ chanBar counting.cg 0 = some 15 ∧ inOrder armed 0 15 (placeOf 1 0) = true ∧
    (armed.bar 0 15).bexp + (2 ^ 32 - 1) < 2 ^ 32 ∧ (src s (0, 0) (.lit 1024)).toNat ≤ 1024 ∧ 1024 < (src s (0, 0) (.lit 1025)).toNat := by
  decide +kernel

theorem witness_BarrierArrivals :
    let s := at_ 2
    let act := actives k0 s
    let slot := fun (t : State) (m : Nat × Nat) => (t.thread 0 m.2 m.1).slots.find? fun z => z.bar == 15
    let armed := modBar s 0 15 fun x => { x with state := 1, exp := 2 }
    let inIt := setT (setT armed 0 fun t => { t with slots := [⟨15, false⟩] }) 1 fun t => { t with slots := [⟨15, true⟩] }
    let four := [⟨0, false⟩, ⟨1, false⟩, ⟨2, false⟩, ⟨3, false⟩]
    let full := setT (setT armed 0 fun t => { t with slots := four }) 1 fun t => { t with slots := four }
    act ≠ [] ∧ act.Nodup ∧ (∀ m ∈ act, m.2 = 0) ∧ (mget s.groups 0).isSome ∧ 15 < s.cg.hdr.barriers ∧ s.cg.hdr.barriers ≤ 16 ∧
    (armed.bar 0 15).state ≠ 0 ∧ (armed.bar 0 15).state ≠ 4 ∧ (s.bar 0 15).state = 0 ∧
    (∀ m ∈ act, slot armed m = none ∧ (armed.thread 0 m.2 m.1).slots.length < 4) ∧ inOrder armed 0 15 (placeOf 3 0) = true ∧
    (armed.bar 0 15).arr + act.length ≤ (armed.bar 0 15).exp ∧ slot inIt (0, 0) = some ⟨15, false⟩ ∧ slot inIt (1, 0) = some ⟨15, true⟩ ∧
    (∀ m ∈ act, slot full m = none ∧ 4 ≤ (full.thread 0 m.2 m.1).slots.length) ∧ (Opnd.p 47 = .p 47) := by decide +kernel

theorem witness_Convergence :
    let s := at_ 2
    let act := actives k0 s
    let conv := fun (x : Conv) => setW s fun v => { v with conv := [(15, x)] }
    let part := conv { set := 7, sgn := 0, kind := 0 }
    let last := conv { set := 7, sgn := 4, kind := 0 }
    let mask := maskOf (act.map (·.1))
    act ≠ [] ∧ (∀ m ∈ act, m.2 = 0) ∧ s.hasWave 0 0 ∧ (s.conv 0 0 (condex (.res (.c 15)))).sgn = 0 ∧ (last.conv 0 0 15).sgn ≠ 0 ∧
    (∀ m ∈ act, (part.conv 0 0 15).set.getLsbD m.1 = true) ∧ (part.conv 0 0 15).set ≠ 0 ∧ (part.conv 0 0 15).kind ≠ 2 ∧
    (part.conv 0 0 15).sgn ||| mask ≠ (part.conv 0 0 15).set ∧ (last.conv 0 0 15).sgn ||| mask = (last.conv 0 0 15).set ∧
    (∀ m ∈ act, (s.conv 0 0 15).set.getLsbD m.1 = false) ∧ (s.conv 0 0 15).set = 0 := by decide +kernel

theorem witness_HierarchicalBarriers :
    let s := at_ 2
    let named := modHbar s 0 15 fun x => { x with level := some .die }
    let m : HbarMsg := { id := 0, launch := 0, h := 15, lvl := .team, place := 0, groups := [0], level := some .package, release := false }
    let t := { s with hbarMsgs := [m] }
    let r := { s with hbarMsgs := [{ m with release := true }] }
    (hbarOf s 0 15).level = none ∧ (hbarOf named 0 15).level = some .die ∧ HLvl.die ≠ .team ∧ actives k0 s ≠ [] ∧ m.id < s.nextId ∧
    t.hbarMsgs.find? (fun x => x.id == 0 && !x.release) = some m ∧ staleMsg t m = false ∧ (∀ q ∈ t.hsquares, q.level = none ∨ q.level = some .package) ∧
    r.hbarMsgs.find? (fun x => x.id == 0 && x.release) = some { m with release := true } ∧ (mget r.groups 0).isSome := by decide +kernel

/-! Memory, copies and waits. -/

def okLocal (r : LaneRes) : Bool := match r with | .ok p (some tr) => p.kind == 0 && p.cls != 0 && tr.cls != 0 | _ => false
def okPrivate (r : LaneRes) : Bool := match r with | .ok p (some tr) => p.kind == 0 && p.cls == 0 && tr.owner != 255 | _ => false

/-- The last 16 bytes below the counter table, the first byte of the first page that is not mapped, a misaligned address, a page that
is not present, and one whose bytes are in place for CAS. -/
theorem witness_LocalAccess :
    let s := at_ 1
    let absent := put s 0x204000 (toBytes 16 0x7002)
    let ask := fun (va : DWord) dst vals => ({ lane := 0, addr := va, dst := dst, vals := vals } : LaneOp)
    let res := fun (t : State) kind va => checkLane t 0 (0, 0) kind 16 (ask va [1, 2, 3, 4] [])
    let va : DWord := src64 s (0, 0) (.imm 0) + (0xFFF0 : BitVec 24).signExtend 64
    Claims.alone k0 s (0, 0) ∧ doorAt s .hbm va.toNat = none ∧ ctrPhys s .hbm va.toNat = none ∧
    okLocal (res s (.load true) va) ∧ okLocal (res s .store va) ∧ okLocal (res s .cas va) ∧ okLocal (res s .sload va) ∧
    okLocal (checkLane s 0 (0, 0) (.atom .add false) 8 (ask va [1, 2] [3, 4])) ∧
    failsLane (res s (.load true) 0x200000) ∧ failsLane (res s .store 0xFFF1) ∧ failsLane (res s .cas 0x200000) ∧
    failsLane (checkLane s 0 (0, 0) (.atom .add false) 8 (ask 0xFFF1 [1, 2] [3, 4])) ∧
    parksLane (res absent (.load true) va) ∧ (freeEntry (absent.wave 0 0)).isSome := by
  simp only [Claims.alone]
  decide +kernel

theorem witness_Scratchpad :
    let s := at_ 1
    let o := fun (off : BitVec 24) => (src s (0, 0) (.imm 0) + off.signExtend 32).toNat
    Claims.alone k0 s (0, 0) ∧ o 65528 % 8 = 0 ∧ o 65528 + 8 ≤ s.cg.hdr.scratch ∧ scratchPoisoned s.cg (o 65528) 8 = none ∧
    o 65529 % 8 ≠ 0 ∧ o 65536 % 8 = 0 ∧ s.cg.hdr.scratch < o 65536 + 8 := by
  simp only [Claims.alone]
  decide +kernel

def doneAccess : Access :=
  { id := 9, g := 0, w := 0, kind := .load true, width := 8, ctr := 0, scope := ⟨0, 15⟩, flag := false, acq := false, uni := false,
    mask := 0x80000000, pc := 0, word := 7, clock := 0, issued := 0,
    lanes := [{ lane := 31, addr := 0x6000, dst := [254, 255], vals := [], got := some [1, 2] }] }

theorem witness_AccessCompletion :
    let s := { at_ 32 with accesses := [doneAccess] }
    let o : LaneOp := { lane := 31, addr := 0x6000, dst := [254, 255], vals := [], kind := 1, cls := 2 }
    let t := { at_ 32 with clock := 1024, accesses := [{ doneAccess with lanes := [o] }] }
    (s.accesses.find? fun y => y.id == doneAccess.id) = some doneAccess ∧ s.hasThread 0 (31, 0) ∧ (s.thread 0 0 31).st ≠ .exited ∧
    [254, 255].Nodup ∧ (∀ r ∈ [254, 255], r < 256) ∧ [254, 255].length = [1, 2].length ∧
    (t.accesses.find? fun y => y.id == 9) = some { doneAccess with lanes := [o] } ∧ o.stage = .pending ∧ o.entry = none ∧ o.crosses = true ∧
    doneAccess.clock + 1024 ≤ t.clock ∧ (freeEntry (t.wave 0 0)).isSome ∧ t.hasWave 0 0 ∧ (t.group 0).place = .active := by decide +kernel

/-- CFLUSH meets a page of class private whose owner is the core. -/
theorem witness_ArgumentsAndFences :
    let s := put (at_ 1) 0x204000 (toBytes 16 0x700B)
    let b : Opnd := .v 3
    let poisoned := setW s fun v => { v with streams := [(.node 5, { poison := some 1 })] }
    (∀ x ∈ actives k0 s, ((s.wave 0 x.2).streams.any fun y => y.2.poison.isSome) = false) ∧ actives k0 s = [(0, 0)] ∧
    ((poisoned.wave 0 0).streams.any fun y => y.2.poison.isSome) = true ∧ ((s.core s.cg.core).dirty.map (·.1)).Nodup ∧
    s.hasThread 0 (0, 0) ∧
    okPrivate (checkLane s 0 (0, 0) (.flush true) 1
      { lane := 0, addr := src64 s (0, 0) b + (0x6000 : BitVec 24).signExtend 64, dst := [], vals := [] }) := by
  decide +kernel

def ldtoGoes (r : LdtoRes) : Bool := match r with | .go f => nteState f.entry != 5 | _ => false
def ldtoFails (r : LdtoRes) : Bool := match r with | .fail _ _ _ => true | _ => false

theorem witness_ReceiveWindows :
    let s := named (at_ 1) (entryOf 1 63 5)
    let x := fun (n : Nat) => ({ ref := 0, src := 0x6000, n := n, off := 0 } : LdtoArg)
    wavesOf (actives k0 s) = [0] ∧ (mget s.groups 0).isSome ∧ winFail s.cg 7 15 0 65536 1 (some 15) = none ∧
    winFail s.cg 7 15 65536 64 1 none = some (0x14, 0) ∧ winFail s.cg 7 15 0 63 1 none = some (0x1B, 3) ∧
    winFail s.cg 7 15 0 64 1 (some 16) = some (0x0C, 1) ∧ (s.cur.members.filter fun x => x.2 == 0) ≠ [] ∧
    actives k0 s = [(0, 0)] ∧ s.hasThread 0 (0, 0) ∧
    ldtoGoes (ldtoCheck s 0 true 15 (x 1)) ∧ ldtoGoes (ldtoCheck s 0 false 0 (x 4096)) ∧ ldtoFails (ldtoCheck s 0 false 0 (x 0)) ∧
    ldtoFails (ldtoCheck s 0 false 0 (x 4097)) := by decide +kernel

def copyOf (mem : DWord) (n : Nat) : Copy :=
  { kind := .cpy, segs := [(mem, 0, n)], first := 0, stop := n, tl := none, bar := none, ops := [1], recv := [], wave := 0, lane := 0, pc := 0 }

/-- Lengths 1, 458,752 and 458,753, a range that ends at the scratchpad's end and one a byte beyond; four words of a CPY2 and a CPYM. -/
theorem witness_CopyIssue :
    let s := at_ 1
    let big := setG s fun x => { x with hdr := { x.hdr with scratch := 458752 } }
    let w2 := setS (setS s 60 4096) 61 16
    let z2 := setS (setS s 60 4097) 61 0
    let m := setS (setS s 60 0) 61 458752
    let zm := setS (setS s 60 0) 61 458753
    let word := fun (t : State) (j : Nat) => rdS t 0 (60 + j)
    actives k0 s = [(0, 0)] ∧ s.hasThread 0 (0, 0) ∧ (s.chan 0 7).queue = [] ∧ tlBound s.cg 15 = false ∧
    65535 + (src s (0, 0) (.lit 1)).toNat ≤ s.cg.hdr.scratch ∧ s.cg.hdr.scratch < 65536 + (src s (0, 0) (.lit 1)).toNat ∧
    0 + (src big (0, 0) (.lit 458752)).toNat ≤ big.cg.hdr.scratch ∧ 458752 < (src s (0, 0) (.lit 458753)).toNat ∧
    (src s (0, 0) (.imm 0)).toNat = 0 ∧ 0 + (src s (0, 0) (.lit 4096)).toNat ≤ s.cg.hdr.scratch ∧ 4096 < (src s (0, 0) (.lit 4097)).toNat ∧
    (word w2 0).toNat ≤ 4096 ∧ 0 + (word w2 0).toNat * (word w2 1).toNat ≤ s.cg.hdr.scratch ∧ 4096 < (word z2 0).toNat ∧
    (word z2 1).toNat = 0 ∧ (word m 1).toNat ≤ 458752 ∧ 458752 < (word zm 1).toNat ∧
    (word m 3 ++ word m 2 : BitVec 64) = 0 ∧
    receivers 0 1 = [0] ∧ lacksDeposit (named (at_ 1) (entryOf 1 63 5)) 0 = false := by decide +kernel

/-- Two threads whose copies lie behind each other and behind the copy that the channel has, up to the scratchpad's end. -/
theorem witness_CopyIssue_many :
    let s := setV (setV (at_ 2) 0 20 64) 1 20 65472
    let busy := setG s fun x => { x with wps := [(7, { queue := [copyOf 0x6000 64], qend := 64 })] }
    let at_ := fun (x : Nat × Nat) => (src s x (.v 20)).toNat
    let len := (src s (0, 0) (.imm 64)).toNat
    let rows := setS (setS s 60 8) 61 8
    actives k0 s = [(0, 0), (1, 0)] ∧ (mget s.groups 0).isSome ∧ (s.chan 0 7).queue = [] ∧ (busy.chan 0 7).queue ≠ [] ∧
    (busy.chan 0 7).qend ≤ at_ (0, 0) ∧ at_ (0, 0) + len ≤ at_ (1, 0) ∧ at_ (1, 0) + len ≤ s.cg.hdr.scratch ∧ len = 64 ∧
    at_ (0, 0) + len * (actives k0 s).length ≤ s.cg.hdr.scratch ∧ (rdS rows 0 60).toNat * (rdS rows 0 61).toNat = len := by decide +kernel

def copyGoes (r : RunRes) : Bool := match r with | .bytes tr k => tr.cls != 0 && k == 128 | _ => false
def copyOne (r : RunRes) : Bool := match r with | .bytes tr k => tr.cls != 0 && k == 1 | _ => false
def copyStops (r : RunRes) : Bool := match r with | .stop _ _ _ => true | _ => false

theorem witness_CopyEngine :
    let s := at_ 1
    let q := fun c => setG s fun x => { x with wps := [(7, { queue := [c] })] }
    let c := copyOf 0x6000 256
    let one := copyOf 0x6000 1
    let none' := { copyOf 0x6000 0 with segs := [] }
    let bad := copyOf 0x200000 64
    ((q c).chan 0 7).queue = [c] ∧ (mget s.groups 0).isSome ∧ (s.group 0).place = .active ∧ copyGoes (copyRun (q c) 0 7 c) ∧
    128 < c.left ∧ copyOne (copyRun (q one) 0 7 one) ∧ one.left = 1 ∧ none'.left = 0 ∧ copyStops (copyRun (q bad) 0 7 bad) := by decide +kernel

theorem witness_Waits :
    let s := at_ 2
    let c := setG s fun x => { x with wps := [(7, { cause := some (0x12, 1, 0x6000) })] }
    (s.chan 0 7).cause = none ∧ (c.chan 0 7).cause = some (0x12, 1, 0x6000) ∧ actives k0 c ≠ [] := by decide +kernel

/-! Traps, system and matrix instructions, the invert pair, network. -/

theorem witness_TrapEntry :
    let s := at_ 2
    let no := setC s fun c => { c with hentry := 0 }
    let h := at_ 2 [] true
    actives k0 s ≠ [] ∧ (∀ m ∈ actives k0 s, m.2 = 0) ∧ s.hasWave 0 0 ∧ (mget s.ctxs s.cg.ctx).isSome ∧ (s.wave 0 0).handler = false ∧
    (s.ctx s.cg.ctx).hentry ≠ 0 ∧ actives kNot s = [] ∧ (h.wave 0 0).handler = true ∧ (no.ctx no.cg.ctx).hentry = 0 ∧
    (no.ctx no.cg.ctx).state = .runnable ∧ (h.ctx h.cg.ctx).state = .runnable ∧
    ({ cause := 255, sub := 255, lanes := [], pc := 0, word := 0 } : Trp).cause < 256 := by decide +kernel

/-- A frame that returns to the last instruction of the code, and the zeros of its handler save. -/
def rteState : State := put (at_ 2 [] true) 0xA0000 (toBytes 8 (2 ^ 17) ++ toBytes 8 (0x1000 + 1188))

theorem witness_ReturnFromTrap :
    let s := rteState
    let f := toBytes 8 (2 ^ 17) ++ toBytes 8 (0x1000 + 1188)
    let va := ofBytes (f.drop 8)
    actives k0 s ≠ [] ∧ (∀ m ∈ actives k0 s, m.2 = 0) ∧ s.hasWave 0 0 ∧ (s.wave 0 0).handler = true ∧ (s.wave 0 0).frLog = none ∧
    s.sysRead s.cg.ctx (slotVa s 0 0) 16 = some f ∧ (s.sysRead s.cg.ctx (slotVa s 0 0 + 0x200) 128).isSome ∧
    s.cg.code.toNat + s.cg.hdr.entry ≤ va ∧ va < s.cg.code.toNat + s.cg.hdr.entry + s.cg.hdr.codesize ∧ (va - s.cg.code.toNat) % 12 = 0 ∧
    ((at_ 2).wave 0 0).handler = false := by decide +kernel

theorem witness_SystemInstructions :
    let s := at_ 2
    let c := s.cg.ctx
    let mine := s.cur.members.filter fun m => m.2 == 0
    let op : NameOp := { wakeOp .wake with sender := .thread 0 0 0 }
    let full := setC s fun c => { c with svcHead := 1 }
    actives k0 s ≠ [] ∧ (∀ m ∈ actives k0 s, m.2 = 0) ∧ s.hasWave 0 0 ∧ (mget s.ctxs c).isSome ∧ (s.wave 0 0).handler = false ∧
    (9#10).toNat ∈ [0, 3, 4, 5, 9] ∧ (8#10).toNat ∉ [0, 3, 4, 5, 9] ∧ ((at_ 2 [] true).wave 0 0).handler = true ∧
    accessesIn s c 0 none = [] ∧ namesOf { s with nameOps := [op] } c none ≠ [] ∧ (∀ m ∈ mine, s.hasThread 0 m) ∧
    (s.ctx c).svcBase ≠ 0 ∧ ((setC s fun c => { c with svcBase := 0 }).ctx c).svcBase = 0 ∧
    (∀ m ∈ mine, svcReady (advance s) 0 0 m.1 = true) ∧ (∃ m ∈ mine, svcReady (advance full) 0 0 m.1 = false) ∧
    ((setC s fun c => { c with debug := true }).ctx c).debug = true ∧ (s.ctx c).debug = false ∧ (s.ctx c).state = .runnable := by
  decide +kernel

/-- A full wave whose convergence register 15 is bound to all lanes, with an INT8 format word in v9. -/
def mmaState (fw : Word) : State :=
  let s := setW (at_ 32) fun v => { v with conv := [(15, { set := 0xFFFFFFFF, sgn := 0, kind := 0 })] }
  (List.range 32).foldl (fun s l => setV s l 9 fw) s

def gsOf (s : State) : List (Nat × Nat) := ((List.range 32).map fun l => (l, 0)).filter (guardOn k0 s)

theorem witness_MatrixSigning :
    let s := mmaState 0xA00
    let bad := mmaState 0xB00
    let some_ := { s with cur := { s.cur with members := [(0, 0), (31, 0)] } }
    let y : MArgs := ⟨⟨64, 64, 64, 8⟩, k0, 128, 4, 15, 9⟩
    s.cur.members ≠ [] ∧ s.hasWave 0 0 ∧ (∀ m ∈ s.cur.members, m.2 = 0 ∧ m.1 < 32) ∧ (s.wave 0 0).threads.length = 32 ∧
    (s.conv 0 0 15).set = 0xFFFFFFFF ∧ (s.conv 0 0 15).kind ≠ 1 ∧ (s.conv 0 0 14).set ≠ 0xFFFFFFFF ∧ ((at_ 31).wave 0 0).threads.length < 32 ∧
    ((setW s fun v => { v with conv := [(15, { set := 0xFFFFFFFF, sgn := 0, kind := 1 })] }).conv 0 0 15).kind = 1 ∧
    (s.conv 0 0 15).sgn ||| activeMask s 0 = 0xFFFFFFFF ∧ (some_.conv 0 0 15).sgn ||| activeMask some_ 0 ≠ 0xFFFFFFFF ∧
    mmaFail s y (gsOf s) = [] ∧ mmaFail bad y (gsOf bad) ≠ [] ∧ gsOf s ≠ [] ∧
    ((List.range 32).map fun l => (l, 0)).filter (guardOn kNot s) = [] := by decide +kernel

theorem witness_MatrixElements :
    let f : MForm := ⟨32, 32, 64, 8⟩
    Fmt.ofCode (fwA 0xA00) = some .int8 ∧ Fmt.ofCode (fwB 0xA00) = some .int8 ∧ fwAcc 0xA00 = 10 ∧ intFmt .int8 = some (8, true) ∧
    fwAcc 0x922 ≠ 10 ∧ 0x7F800000 < (0x7F800001 : Word).toNat % 2 ^ 31 ∧
    (Fmt.ofCode (fwA 0x922)).isSome ∧ ((products f .e4m3 .e4m3 (127 * 2 ^ (63 * 8)) 0).any fun p => p.isNan) = true := by decide +kernel

theorem witness_MatrixMoves :
    let s := at_ 2
    let act := actives k0 s
    let size := 4 * shapeM .c * shapeN .c
    act ≠ [] ∧ (∀ m ∈ act, m.2 = 0 ∧ m.1 < 32) ∧ (mget s.groups 0).isSome ∧ (∀ m ∈ act, (src s m (.lit 49152)).toNat = 49152) ∧
    49152 % 16 = 0 ∧ 49152 + size ≤ s.cg.hdr.scratch ∧ scratchPoisoned s.cg 49152 size = none ∧ 49153 % 16 ≠ 0 ∧
    (∀ m ∈ act, (src s m (.lit 49153)).toNat = 49153) ∧ (∀ m ∈ act, (src s m (.lit 49168)).toNat = 49168) ∧ 49168 % 16 = 0 ∧
    s.cg.hdr.scratch < 49168 + size := by decide +kernel

/-- The last offset at which 64 rows and their scales fit, and the next one; for one thread rows at the scratchpad's end. -/
theorem witness_OperandLatch :
    let s := at_ 2
    let one := { at_ 1 with cur := { members := [(0, 0)], positions := [(0, 0)] } }
    let o := (src s (leadOf (actives k0 s) 0) (.lit 61184)).toNat
    actives k0 s ≠ [] ∧ (∀ m ∈ actives k0 s, m.2 = 0 ∧ m.1 < 32) ∧ s.hasWave 0 0 ∧ o % 64 = 0 ∧ o + 68 * 64 ≤ s.cg.hdr.scratch ∧
    scratchPoisoned s.cg o (68 * 64) = none ∧ (src s (0, 0) (.lit 61185)).toNat % 64 ≠ 0 ∧
    s.cg.hdr.scratch < (src s (0, 0) (.lit 61248)).toNat + 68 * 64 ∧ actives k0 one = [(0, 0)] ∧
    (src one (0, 0) (.lit 65472)).toNat % 64 = 0 ∧ (src one (0, 0) (.lit 65532)).toNat % 4 = 0 ∧
    (src one (0, 0) (.lit 65472) + 64 * rdV one (0, 0) 254).toNat + 64 ≤ one.cg.hdr.scratch ∧
    (src one (0, 0) (.lit 65472) + 64 * rdV one (0, 0) 255).toNat + 64 ≤ one.cg.hdr.scratch ∧
    (src one (0, 0) (.lit 65532) + 4 * rdV one (0, 0) 254).toNat + 4 ≤ one.cg.hdr.scratch ∧ scratchPoisoned one.cg 65472 64 = none ∧
    scratchPoisoned one.cg 65532 4 = none ∧ (src one (0, 0) (.lit 65533)).toNat % 4 ≠ 0 := by decide +kernel

theorem witness_MatrixCompletion :
    let o : MatrixOp := { id := 4, g := 0, w := 0, writes := [(0, 255, 7), (31, 255, 9)], touched := [], move := false }
    let p : MatrixOp := { id := 3, g := 0, w := 0, writes := [(0, 254, 7)], touched := [], move := true }
    let s := { at_ 32 with matrix := [p, o] }
    (s.matrix.find? fun x => x.id == o.id && x.move == o.move) = some o ∧
    (∀ p ∈ s.matrix, p.id < o.id → p.g ≠ o.g ∨ p.w ≠ o.w ∨ ∀ x ∈ p.writes, ∀ y ∈ o.writes, x.1 ≠ y.1 ∨ x.2.1 ≠ y.2.1) ∧
    (o.writes.map fun x => (x.1, x.2.1)).Nodup ∧ s.hasWave o.g o.w ∧ s.hasThread 0 (31, 0) := by decide +kernel

/-- An INV at the start of the code with its CALLM, and the routine f(x) = x behind it. -/
def invState : State := at_ 1 (toBytes 12 0 ++ routineBytes false)

theorem witness_Brackets :
    let s := invState
    let tgt := branchTo 12 1
    actives k0 s ≠ [] ∧ (∀ m ∈ actives k0 s, m.2 = 0) ∧ (s.thread 0 0 0).hazards = [] ∧ tgt % 12 = 0 ∧ inCode s 0 0 tgt = true ∧
    decodeAt s 0 0 tgt.toNat = some (.land k0 (.v 2) (.v 1) (.imm 1) (.v 4) 0 true false) ∧ linkOk s 0 0 (.v 4) = true ∧
    s.hasThread 0 (0, 0) ∧ inCode s 0 0 (branchTo 12 1000) = false ∧ linkOk s 0 0 (.v 5) = false := by decide +kernel

def isBad (r : RoutineRes) : Bool := match r with | .bad _ => true | .ok _ _ _ _ => false

def invRun : InvRun :=
  { id := 3, w := 0, fid := none, pc := 0, word := 0, body := 36, len := 1, inReg := 1, outReg := 2, vd := 7, brk := 7, pd := 47,
    budget := 32, tol := 0, fall := false, dom := .u32, issue := [(0, 0)], active := [(0, 0)], lanes := [(0, 0, 5)] }

def brState (b : Bracket) : State :=
  setT (setG invState fun x => { x with invs := [invRun] }) 0 fun t => { t with br := [(7, b)] }

theorem witness_InvertPair :
    let s := invState
    let a := brState { lo := 5, hi := 9, flo := 5, fhi := 9, st := 0x6000 }
    let x := brState { lo := 9, hi := 5 }
    let busy := setW a fun v => { v with accPending := [(1, 9)] }
    actives kNot s = [] ∧ actives k0 s = [(0, 0)] ∧ decodeAt s 0 0 (0 + 12) = some (.callm k0 1) ∧
    routine s 0 0 (branchTo 12 1) false = .ok 36 1 1 2 ∧ isBad (routine s 0 0 (branchTo 12 1) true) ∧ (mget s.groups 0).isSome ∧
    (readBr s (0, 0) 7).st.getLsbD 15 = false ∧ bodyWaits a 0 invRun = false ∧ bodyWaits busy 0 invRun = true ∧ invRun.next ≤ a.clock ∧ a.clock < ({ invRun with next := 9 } : InvRun).next ∧
    ((a.group 0).invs.find? fun x => x.id == 3) = some invRun ∧ a.hasThread 0 (0, 0) ∧
    (a.thread 0 0 0).st = .ready ∧ (a.thread 0 0 0).pc = invRun.pc ∧
    nextPoint .u32 false 0 32 (a.bracket 0 (0, 0) 7) 5 = .finish 5 true 1 0 ∧
    nextPoint .u32 false 0 32 (x.bracket 0 (0, 0) 7) 5 = .trap := by decide +kernel

/-- Each clause of the search at its edge: nothing evaluated, one end, crossed values, the targets beside the ends, a gap of 1 and of 2,
and a spent budget. -/
theorem witness_SearchStep :
    let b : Bracket := { lo := 4, hi := 6, flo := 10, fhi := 30, st := 0x6000 }
    let f := fImage .u32 false
    let gap := fun (b : Bracket) => (image .u32 b.hi).toNat - (image .u32 b.lo).toNat
    (image .u32 b.lo).toNat ≤ (image .u32 b.hi).toNat ∧ (image .u32 3).toNat < (image .u32 4).toNat ∧
    (0x4000#32).getLsbD 13 = false ∧ (0x2000#32).getLsbD 13 = true ∧ (0x2000#32).getLsbD 14 = false ∧
    b.st.getLsbD 13 = true ∧ b.st.getLsbD 14 = true ∧ isNanOf .u32 b.flo = false ∧ f b.flo ≤ f b.fhi ∧ f 29 < f b.fhi ∧
    f 9 < f b.flo ∧ f 10 = f b.flo ∧ f b.fhi < f 31 ∧ f b.flo < f 11 ∧ f 30 ≤ f b.fhi ∧ gap b ≤ max 2 1 ∧ max 0 1 < gap b ∧
    gap { b with hi := 5 } ≤ max 0 1 ∧ 1 ≤ (0x6001#32).toNat % 64 ∧ b.st.toNat % 64 < 1 := by decide +kernel

/-- A work request of an operation with a local address in the scratchpad. -/
def wrOf (op len laddr : Nat) : List Byte :=
  toBytes 4 (op + 256) ++ toBytes 4 len ++ toBytes 8 laddr ++ toBytes 48 0

def wrState (op len laddr : Nat) : State := setG (at_ 1) fun x => { x with scratch := writeL [] 65472 (wrOf op len laddr) }

theorem witness_NetworkInstructions :
    let s := wrState 1 64 65472
    let rd := wrState 2 64 65472
    let bad := wrState 1 0 0
    let o := (src s (0, 0) (.lit 65472)).toNat
    let wr := fun (s : State) => readN s.cg.scratch o 64
    let n := named s (entryOf 1 63 5)
    let copy := readCopy (wr rd) 0 0 none
    let full := setC n fun c => { c with arms := List.replicate 4096 { g := 0, lane := 0, pc := 0, cc := 0, n := 1, target := .group 1 0 0 false, ref := 0 } }
    let have_ := fun (s : State) => mgetD (s.ctx s.cg.ctx).cc 63 0
    actives k0 s = [(0, 0)] ∧ s.hasThread 0 (0, 0) ∧ scratchCheck s.cg o 64 true = none ∧ scratchCheck s.cg (o + 64) 64 true = some (0x14, 0) ∧
    wrCheck (wr s) s.cg.hdr.scratch = none ∧ wrCheck (wr bad) bad.cg.hdr.scratch = some (0x1B, 2) ∧ wrOp (wr s) ≠ 2 ∧ wrOp (wr rd) = 2 ∧
    wrCheck copy rd.cg.hdr.scratch = none ∧ (wrCheck (readCopy (wr rd) 1 0 none) rd.cg.hdr.scratch).isSome ∧
    probes (match nameFound n (n.cg.core / 48) n.cg.ctx (src64 n (0, 0) (.imm 0)) .wake true with | .inl e => .inl e | .inr _ => .inr 0) ∧
    (mget n.ctxs n.cg.ctx).isSome ∧ (n.thread 0 0 0).st ≠ .exited ∧ have_ n < (src64 n (0, 0) (.imm 1)).toNat ∧
    (n.ctx n.cg.ctx).arms.length < 4096 ∧ 4096 ≤ (full.ctx full.cg.ctx).arms.length ∧ (src64 n (0, 0) (.imm 0)).toNat ≤ have_ n := by
  decide +kernel

/-! The network engine, the host's side, scheduling. -/

def reqOf (op : Nat) (acc : Option Nat) : NetReq :=
  { id := 3, ctx := 1, g := 0, w := 0, lane := 0, op := 9, pc := 0, wr := wrOf op 64 65472, accepted := acc, placed := [] }

def runsAt (r : NetRuns) (p : Trans → Bool) : Bool := match r with | .ok [(t, _)] => p t | _ => false
def runsOk (r : NetRuns) : Bool := match r with | .ok l => l.length == 1 | _ => false

theorem witness_NetworkEngine :
    let s := at_ 1
    let has := fun (r : NetReq) => { s with netReqs := [r] }
    let found := fun (s : State) (r : NetReq) => (s.netReqs.find? fun q => q.id == 3) = some r
    let rd : NetReq := { reqOf 2 (some 0) with placed := [(0, 64)] }
    let full := { s with netReqs := reqOf 1 none :: List.replicate 4096 { reqOf 1 (some 0) with id := 4 } }
    let late : State := { has (reqOf 1 (some 0)) with ns := 20000000 }
    found (has (reqOf 1 none)) (reqOf 1 none) ∧ (mget s.ctxs 1).isSome ∧
    4096 ≤ (full.netReqs.filter fun q => q.ctx == 1 && q.accepted.isSome).length ∧
    wrOp rd.wr = 2 ∧ rd.placed = [(0, wrLen rd.wr)] ∧ wrOp (reqOf 3 none).wr = 3 ∧ wrLsp (reqOf 3 none).wr = true ∧
    scratchPoisoned (s.group 0) (wrLaddr (reqOf 3 none).wr) (wrLen (reqOf 3 none).wr) = none ∧
    (reqOf 1 (some 0)).packets.isEmpty = true ∧ 0 + 50000 * 2 ^ 0 ≤ late.ns ∧ 0 + 20000000 ≤ late.ns ∧ wrOp (reqOf 1 none).wr ≠ 4 := by
  decide +kernel

/-- A region and a ring of the context, up to the last byte of both. -/
theorem witness_NetworkEngine_arrival :
    let reg := setC (at_ 1) fun c => { c with regs := [(5, .region 7 0x6000 4096 true true (some 63)), (6, .ring 7 0x7000 0 62 0 0)] }
    regOf reg 1 (7 * 4096 + 5) = some (0x6000, 4096, true, true, some 63) ∧ (4095 : DWord).toNat + 1 ≤ (4096 : DWord).toNat ∧
    runsOk (netRuns reg 1 .w (spansOf (0x6000 + 4095) 1)) ∧ regOf reg 1 (8 * 4096 + 5) = none ∧
    mget (reg.ctx 1).regs (6#12).toNat = some (.ring 7 0x7000 0 62 0 0) ∧ (0 - 0 : BitVec 32).toNat < 2 ^ (0#4).toNat ∧
    runsOk (netRuns reg 1 .w (spansOf (0x7000 + 4096 * ((0#32).toNat % 2 ^ (0#4).toNat)) (64 + 4032))) ∧
    2 ^ (0#4).toNat ≤ (1 - 0 : BitVec 32).toNat := by decide +kernel

/-- A packet that has been resent seven times and may be once more, and one that may not. -/
theorem witness_NetworkEngine_resend :
    let r := fun (n : Nat) => ({ reqOf 1 (some 0) with packets := [(2, n, 1)], lacks := (2, false) } : NetReq)
    (r 7).packets = [(2, 7, 1)] ∧ (r 7).lacks = (2, false) ∧ 7 < 8 ∧ 1 + 50000 * 2 ^ 7 ≤ 20000000 ∧ (r 8).packets.any (fun p => 8 ≤ p.2.1) = true := by decide +kernel

/-- The last byte of the region lies in one block outside the counter table. -/
theorem witness_NetworkEngine_write :
    runsAt (netRuns (at_ 1) 1 .w (spansOf (0x6000 + 4095) 1)) (fun t => t.space == .hbm && t.pa == 0x6FFF) ∧
    0x6FFF % 32 + 1 ≤ 32 ∧ ctrPhys (at_ 1) .hbm 0x6FFF = none ∧ doorAt (at_ 1) .hbm 0x6FFF = none := by decide +kernel

/-- A record that loading takes: number 2 and the fields that may not be zero. -/
def recordBytes : List Byte :=
  toBytes 320 (2 + 0x90000 * 2 ^ 576 + 2 ^ 608 + 4 * 2 ^ 704 + 4 * 2 ^ 2048 + 24 * 2 ^ 2304) ++ List.replicate 3776 0

theorem recordBytes_queues (q : Nat) (hq : q < 64) : (recordBytes.drop (0x800 + 32 * q)).take 32 = List.replicate 32 0 := by
  have l : (toBytes 320 (2 + 0x90000 * 2 ^ 576 + 2 ^ 608 + 4 * 2 ^ 704 + 4 * 2 ^ 2048 + 24 * 2 ^ 2304)).length = 320 := length_toBytes _ _
  rw [recordBytes, List.drop_append, List.drop_of_length_le (by omega), l, List.nil_append, List.drop_replicate, List.take_replicate]
  congr 1
  omega

theorem recordBytes_ok : recordOk recordBytes = true := by
  have h : (List.range 64).all (fun q => queueOk ((recordBytes.drop (0x800 + 32 * q)).take 32)) = true :=
    List.all_eq_true.2 fun q hq => by rw [recordBytes_queues q (List.mem_range.1 hq)]; decide
  simp only [recordOk, h, Bool.and_true]
  decide +kernel

theorem witness_Mailbox :
    let s := at_ 1
    let h := setC s fun c => { c with state := .halted }
    let held := setC h fun c => { c with errHeld := [([1], none)] }
    let mv : PageMove := { id := 3, ctx := 1, va := 0x5000, toHost := false }
    let p := { s with moves := [mv] }
    s.phase = 2 ∧ State.reset.phase ≠ 2 ∧ (4096 : DWord).toNat % 4096 = 0 ∧ mget s.ctxs 2 = none ∧
    fieldOf recordBytes 0 2 = 2 ∧ recordOk (List.replicate 4096 0) = false ∧ (4097 : DWord).toNat % 4096 ≠ 0 ∧
    (mget h.ctxs 1).isSome ∧ (h.ctx 1).state = .halted ∧ (h.ctx 1).errHeld = [] ∧ (h.ctx 1).tripped = false ∧ (held.ctx 1).errHeld ≠ [] ∧
    ((h.ctx 1).errHead - (h.ctx 1).errTail).toNat < 2 ^ (h.ctx 1).errSize ∧ allCool s = true ∧
    List.length (s.sealMap.filter fun x => x.2 == 2 && x.1 != 0) < 49152 ∧
    (List.replicate 49152 (1, 2)).length ≤ ((List.replicate 49152 ((1 : Nat), (2 : Nat))).filter fun x => x.2 == 2 && x.1 != 0).length ∧
    mget s.ctxs 3 = none ∧ (s.ctx 1).state ≠ .halted ∧ ctxLoaded s 1 = true ∧ ctxLoaded s 3 = false ∧ (191#8).toNat < 192 ∧ 192 ≤ (192#8).toNat ∧
    (∀ j ∈ s.joins, j.sender ≠ .hart 31) ∧ (3071#20).toNat < 3072 ∧ (24575#20).toNat < 24576 ∧ (12#4).toNat ≤ 12 ∧
    (p.moves.find? fun m => m.ctx == 1 && m.va == 0x5FFF - 0x5FFF % 4096 && !m.toHost && m.ended.isNone && !m.started && m.entry.isNone) = some mv ∧
    s.moves = [] ∧ (393215#19).toNat < 393216 ∧ 393216 ≤ (393216#19).toNat ∧ (255#8) ≠ 0 ∧ (mgetD s.vfs 255 {}).tearing = none ∧
    (mgetD s.vfs 255 {}).ctx = none ∧ (s.ctx 1).fn = none ∧ s.fusedMin < (1#32).toNat ∧ (0#32).toNat ≤ s.fusedMin ∧
    s.mbBusy = false ∧ ({ s with mbBusy := true, mbCmd := 14 } : State).mbCmd ≠ 1 ∧ 14 < (15#16).toNat ∧ List.length ([] : List Grantee) ≤ 16 := by decide +kernel

theorem witness_StartAndStop :
    let s := State.reset
    s.phase ≠ 1 ∧ s.phase ≠ 2 ∧ s.phase = 0 ∧ s.coldDone = false ∧ ({ s with coldDone := true } : State).coldDone = true ∧
    ({ s with phase := 3 } : State).phase = 3 ∧ failStep true (0x30#8).toNat = some 4 ∧ (at_ 1).phase = 2 ∧
    ((at_ 1).ctxs.map (·.1)).Pairwise (· < ·) ∧ (∀ f ∈ s.firmware, f.valid = true) ∧ (∀ f ∈ s.firmware, s.fusedMin ≤ f.version) ∧
    ¬(∀ f ∈ (setFirmware 0 3 false 9 s).firmware, f.valid = true) ∧ ¬(∀ f ∈ ({ s with fusedMin := 1 } : State).firmware, 1 ≤ f.version) := by decide +kernel

theorem witness_HostRegisters :
    let s := at_ 1
    let q := fun x => setC s fun c => { c with queues := [(63, x)] }
    let ready : Queue := { base := 64, logsz := 12, en := true, state := 2, wridx := 1 }
    let waits := setT (setC s fun c => { c with svcWait := [(0, 0, 4, 3)], svcIdx := 3 }) 0 fun t => { t with st := .held, hold := .svc 3 }
    let shut := { s with sealMap := [(2, 1)] }
    let open_ := setC s fun c => { c with fn := some 255 }
    paged s 1 = false ∧ paged open_ 1 = true ∧ poisoned s .hbm (hbmSize - 16) 16 = none ∧
    (poisoned { s with poison := [((hbmSize - 16) / 128, 1)] } .hbm (hbmSize - 16) 16).isSome ∧ doorAt s .hbm (hbmSize - 16) = none ∧
    (mget s.ctxs 1).isSome ∧ (s.queue 1 63).state = 0 ∧ (s.queue 1 63).en = false ∧ ((q ready).queue 1 63).state = 2 ∧
    (65536 - ready.rdidx).toNat ≤ 2 ^ (ready.logsz + 4) ∧ 2 ^ (ready.logsz + 4) < (65537 - ready.rdidx).toNat ∧
    (s.queue 1 63).base.toNat % 64 = 0 ∧ (65#64).toNat % 64 ≠ 0 ∧ ready.logsz ≤ 12 ∧ ((s.queue 1 63).wridx - (s.queue 1 63).rdidx).toNat ≤ 16 ∧
    (waits.ctx 1).svcWait = [(0, 0, 4, 3)] ∧ (waits.ctx 1).svcIdx.toNat = 3 ∧ waits.hasThread 0 (0, 0) ∧ (waits.thread 0 0 0).st = .held ∧
    (waits.thread 0 0 0).hold = .svc 3 ∧ (waits.thread 0 0 0).hf = false ∧ s.phase ≠ 3 ∧ ({ s with phase := 3 } : State).phase = 3 ∧
    (hbmSize - 16) + Width.b128.bytes ≤ hbmSize ∧ sealCode s (hbmSize - 16) ≠ 1 ∧ sealCode s (hbmSize - 1) ≠ 2 ∧
    (hbmSize - 16) % 32 + Width.b128.bytes ≤ 32 ∧ ctrPhys { s with ctxs := [] } .hbm (hbmSize - 16) = none ∧ (s.queue 1 63).bell = none ∧
    ((q { ready with bell := some (9, none) }).queue 1 63).bell = some (9, none) ∧ ((q ready).queue 1 63).en = true ∧ sealCode shut (2 * 2 ^ 21) = 1 ∧ hbmSize < (hbmSize - 15) + Width.b128.bytes := by
  decide +kernel

/-- The loaded machine with a name table that maps the entries of groups 0 to 511, core 0 in partition 0. -/
def ntState (n : Nat) : State :=
  let s := put (put (put (at_ n) 0x300000 (toBytes 8 0x301001)) 0x301000 (toBytes 8 0x302001)) 0x302000 (toBytes 8 0x303003)
  { s with parts := [(0, { cores := [0, 1], margin := [2], lend := [3] })] }

def queueState (t : Nat) : State :=
  setC (put (ntState 1) 0x6000 (toBytes 1 t)) fun c => { c with queues := [(0, { base := 0x6000, wridx := 1, en := true, state := 2 })] }

def isBadLaunch {α : Type} (r : Accept α) : Bool := match r with | .rej _ => true | _ => false

/-- One group of the launch waits on die 0, and the context has a free area. -/
def waitState : State :=
  let s := setC (ntState 1) fun c => { c with saveCnt := 2 }
  { s with groups := [], launches := [(7, { ctx := 1, handle := 0, parent := 0, next := 0, ngrp := 1, proto := { loadedGroup 33 false with gbase := 1 }, state := 0,
                                             dies := [0], dealt := [(0, 0)] })] }

/-- A group in the local queue of a core. -/
def localState (core : Nat) : State :=
  let s := setC (ntState 1) fun c => { c with saveCnt := 2 }
  { s with groups := [(4, { loadedGroup 33 false with num := 1, place := .queued, core := core, waves := [] })],
           cores := mput s.cores core { active := some 1, localq := [4] } }

theorem witness_Scheduling :
    let s := queueState 0
    let p := toBytes 64 0
    let x := waitState
    let y := localState 0
    let z := { localState 1 with cores := [(0, { active := some 1 }), (1, { active := some 1, localq := [4] })] }
    let ended := setG (at_ 1) fun x => { x with due := true }
    (mget s.ctxs 1).isSome ∧ (s.ctx 1).state ≠ .killing ∧ (s.queue 1 0).state = 2 ∧ schedRead s 1 (s.queue 1 0).headVa 64 = .ok p ∧
    pktBad p = false ∧ depMet s 1 (pktField p 8 8) (pktField p 0x10 8) = some true ∧ (bit (pktField p 1 1) 0 = true → (s.queue 1 0).pending = []) ∧
    pktField p 0 1 ≠ 1 ∧ pktBad (toBytes 64 4) = true ∧ schedRead (queueState 4) 1 0x6000 64 = .ok (toBytes 64 4) ∧
    depMet s 1 (2 ^ 45) 0 = none ∧ depMet (counterState 1) 1 (2 ^ 45) 1 = some false ∧ pktField (toBytes 64 1) 0 1 = 1 ∧
    isBadLaunch (acceptLaunch s 1 0 0) ∧
    (mget x.launches 7).isSome ∧ ranked x 0 = [.launch 7 0] ∧ numberFor x (waitingGroup x 0 (.launch 7 0)) = (some 1, .free) ∧
    (freeArea x 1).isSome ∧ placeCore x 0 1 (fun k => decide ((x.core k).localq.length < 4)) = some 0 ∧
    (y.core 0).localq = [4] ∧ numberFor y (y.group 4) = (some 1, .free) ∧ freeArea y 1 = some 0 ∧ bankOf y 0 1 = some .active ∧
    fitsNow y 0 1 (y.group 4).hdr (wavesFor (y.group 4).gsize) = true ∧ coreTakes y 0 1 = true ∧
    (∀ q ∈ y.groups, q.2.place = .dead → q.2.num ≠ 1) ∧
    (z.core 0).localq = [] ∧ (mget z.groups 4).isSome ∧ victimOf z 0 0 true = some (1, 4) ∧
    (ended.group 0).due = true ∧ (ended.group 0).published = false ∧ ended.accesses = [] ∧
    ((setG ended fun x => { x with published := true }).group 0).published = true := by decide +kernel


/-! Pages, the fabric, the control processor, debugging, numbers, the step. -/

/-- The word of LD v4 ← [v2], and a state in which lane 0 stands parked on it in log entry 7; the page can now be used. -/
def ldInstr : Instr := .ld k0 (.v 4) (.v 2) .b32 false false 0 0 ⟨5, 0xB⟩
def ldWord : IWord := (encode ldInstr).getD 0

def parkedLane : LaneOp := { lane := 0, addr := 0x6000, dst := [4], vals := [], stage := .parked 7 }
def parkedAcc : Access :=
  { id := 3, g := 0, w := 0, kind := .load false, width := 4, ctr := 0, scope := ⟨5, 0xB⟩, flag := false, acq := false, uni := false, mask := 1,
    pc := 24, word := ldWord, clock := 0, issued := 1, lanes := [parkedLane] }
def parkedEntry : LogEntry := { word := ldWord, pc := 24, mask := 1, late := false, op := 3, addrs := [(0, 0x6000)], vals := [], issued := 1 }

def parkedState : State :=
  let s := setT (setW (at_ 1) fun v => { v with log := [(7, parkedEntry)] }) 0 fun t => { t with st := .faultParked, pc := 24 }
  { s with accesses := [parkedAcc] }

def moveOf : PageMove := { id := 3, ctx := 1, va := 0x5000, toHost := true, asked := 0 }

theorem witness_PagesAndMigration :
    let s := { at_ 1 with clock := 1, moves := [moveOf] }
    let b := { at_ 1 with moves := [{ moveOf with toHost := false, started := true, entry := some 7 }] }
    let e := { at_ 1 with ns := 50000, moves := [{ moveOf with started := true, ended := some 0 }] }
    let p := parkedState
    let u := serveEntry p 0 7 parkedEntry
    let r := { p with moves := [{ moveOf with va := 0x6000, refused := true }] }
    let g := { at_ 1 with parts := [(0, { cores := [0, 1] })], cores := [(0, { active := some 1 }), (1, { active := some 1 })] }
    let v := setG g fun x => { x with place := .migrating, moveTo := some 1 }
    let busy := { v with accesses := [{ parkedAcc with lanes := [{ parkedLane with stage := .pending }] }] }
    u.migrating = [] ∧ parkedEntry.ops = [] ∧ (∀ x ∈ p.accesses, x.id = 3 → x = parkedAcc) ∧
    openAccesses v 0 = false ∧ openAccesses busy 0 = true ∧
    (s.moves.find? fun x => x.id == 3) = some moveOf ∧ walkEnd s (s.ctx 1) 0x5000 = some 0x204000 ∧ 0x204000 % 16 = 0 ∧
    lockFree s moveOf = true ∧ (pteAt s 0x204000).v = true ∧ (pteAt s 0x204000).leaf = true ∧ (pteAt s 0x204000).kind = 0 ∧
    (b.moves.find? fun x => x.id == 3).isSome ∧ walkEnd b (b.ctx 1) 0x5000 = some 0x204000 ∧
    (e.moves.find? fun x => x.id == 3).isSome ∧ 0 + 50000 ≤ e.ns ∧
    mget (p.wave 0 0).log 7 = some parkedEntry ∧ (u.group 0).place = .active ∧
    (u.accesses.find? fun x => x.id == 3) = some parkedAcc ∧ okLocal (checkLane u 0 (0, 0) (.load false) 4 parkedLane) ∧
    p.hasThread 0 (0, 0) ∧ mget (u.wave 0 0).log 7 = some parkedEntry ∧ (u.thread 0 0 0).st = .faultParked ∧
    (∀ x ∈ u.accesses, x ≠ parkedAcc → x.g ≠ 0 ∨ x.w ≠ 0) ∧
    refusedLanes r 0 0 7 parkedEntry = [(0, 0x6000)] ∧ (r.accesses.find? fun x => x.id == 3) = some parkedAcc ∧
    (∀ x ∈ parkedAcc.lanes, x ≠ parkedLane → x.lane ≠ 0) ∧ (r.wave 0 0).handler = false ∧ (r.ctx (r.group 0).ctx).hentry ≠ 0 ∧
    (g.group 0).place = .active ∧ (1#8).toNat ≠ (g.group 0).core ∧ (partCores g (g.ctx 1).part).contains 1 = true ∧
    bankOf g 1 1 = some .active ∧ coreOpen g 1 1 = true ∧ fitsNow g 1 1 (g.group 0).hdr 1 = true ∧ boundToDie g (g.group 0) = false ∧
    (v.group 0).moveTo = some 1 ∧ v.nameOps = [] ∧ fitsNow v 1 1 (v.group 0).hdr 1 = true := by decide +kernel

theorem ldWord_decodes : decode ldWord = .ok (.ld k0 (.v 4) (.v 2) .b32 false false 0 0 ⟨5, 0xB⟩) := rfl

def ldtoOf (stage : LdtoStage) : LdtoOp :=
  { id := 3, g := 0, w := 0, lane := 0, op := 9, pc := 0, n := 8, off := 56, src := 0x6000, ctx := 1, ref := 0, target := .group 1 0 0 false, tl := 15,
    win := 7, ack := some (15, 1), stage := stage }

def ownerData (r : OwnerRes) : Bool := match r with | .data bs => bs.length == 8 | _ => false
def ownerRefuses (r : OwnerRes) : Bool := match r with | .refuse _ _ => true | _ => false

/-- A window of 64 bytes that the last 8 bytes fill; a shorter one, one that another context may use, and one that is closed. -/
theorem witness_ThirdPartyReads :
    let has := fun (s : State) st => { s with ldtos := [ldtoOf st] }
    let win := fun x => setG (has (at_ 1) (.delivery [1, 2, 3, 4, 5, 6, 7, 8])) fun y => { y with wins := [(7, x)] }
    let lets := fun (s : State) => 1 = (s.group 0).ctx ∨ (s.win 0 7).acc.getLsbD 31 = true ∨
      ((s.win 0 7).acc.getLsbD 30 = true ∧ (s.win 0 7).acc.toNat % 65536 = 1)
    let open_ := win { opened := true, len := 64 }
    let alien := { setG open_ (fun x => { x with ctx := 2 }) with ldtos := [{ ldtoOf (.delivery []) with target := .group 2 0 0 false }] }
    ((has (at_ 1) .owner).ldtos.find? fun x => x.id == 3) = some (ldtoOf .owner) ∧
    ownerData (ownerRuns (has (at_ 1) .owner) 1 0 (spansOf 0x6000 8)) ∧ ownerRefuses (ownerRuns (has (at_ 1) .owner) 1 0 (spansOf 0x200000 8)) ∧
    (ldtoOf (.delivery [])).far = none ∧ recipient open_ (ldtoOf (.delivery [])) = some 0 ∧ recipient { open_ with groups := [] } (ldtoOf (.delivery [])) = none ∧
    (mget open_.groups 0).isSome ∧ (open_.group 0).place = .active ∧ (open_.win 0 7).bar = none ∧ (open_.win 0 7).opened = true ∧
    lets open_ ∧ 56 + 8 ≤ (open_.win 0 7).len ∧ ((win { opened := true, len := 0 }).win 0 7).len < 56 + 8 ∧ ((win {}).win 0 7).opened = false ∧
    ¬lets alien ∧ (alien.win 0 7).opened = true ∧ recipient alien { ldtoOf (.delivery []) with target := .group 2 0 0 false } = some 0 ∧
    tooLate (at_ 1) (ldtoOf (.delivery [])) = false ∧ tooLate { at_ 1 with ns := 4000000 } (ldtoOf (.delivery [])) = true ∧
    (chooseStreet { at_ 1 with streets := [(9, [(0, 0)])], links := [(0, { en := true, state := 2 })] } (.peer 9)).isSome ∧
    (ldtoOf (.report 0)).ack = some (15, ((at_ 1).tl 0 15).value + 1) ∧ ((at_ 1).tl 0 15).done = [] := by decide +kernel

/-- A delivery of two packets, of which the last has still to arrive. -/
theorem witness_ThirdPartyReads_packets :
    let two : List Byte := List.replicate 129 7
    let s := { setG (at_ 1) fun y => { y with wins := [(7, { opened := true, len := 448 })] } with ldtos := [ldtoOf (.placing two [1])] }
    (s.ldtos.find? fun x => x.id == 3) = some (ldtoOf (.placing two [1])) ∧ 128 < two.length ∧ packetsOf two = [0, 1] ∧
    packetsOf (List.replicate 128 7) = [0] ∧ recipient s (ldtoOf (.placing two [1])) = some 0 ∧ (mget s.groups 0).isSome ∧
    (s.group 0).place = .active ∧ (s.win 0 7).bar = none ∧ placingTo s 0 7 = true ∧ placingTo s 0 6 = false ∧
    (match execDeliveryArrival 3 s with
      | .next t => memRead (t.group 0).scratch 184 == 7 && memRead (t.group 0).scratch 183 == 0 && (t.tl 0 0).value == 1
      | _ => false) = true := by decide +kernel

def pktOf (act : PktAct) (ans : Option PktAns) : Packet :=
  { id := 3, g := 0, w := 0, acc := 9, dest := .node 5, line := 0x40, parts := [(0, 0x2000, act)], write := true, flag := none, seq := 1, after := none,
    restart := true, street := 0, firstStreet := 0, first := 0, sent := 0, lost := false, va := 0x6000, pc := 0, fn := 1, gen := 2, answer := ans }

def fabricState (p : Packet) : State :=
  { at_ 1 with
    packets := [p], device := 7, nextId := 4
    allowances := [{ id := 1, dest := .node 5, fn := 1, gen := 2, g := 0, w := 0, reply := false, used := 0 },
                   { id := 2, dest := .node 5, fn := 1, gen := 2, g := 0, w := 0, reply := true, used := 0 }]
    remotes := [(.node 5, { grants := [(0, [⟨7, 1, 2, true, true⟩])] })]
    streets := [(5, [(0, 0), (31, 0)])]
    links := [(31, { en := true, state := 2, limReq := 1 })] }

theorem witness_Fabric :
    let p := pktOf (.store [1, 2]) none
    let s := fabricState p
    let q := pktOf (.load 4) (some (.data [(0, [1, 2, 3, 4])]))
    let r := s.remote (.node 5)
    let x := rstream r 0 0
    let old := { s with ns := 4000000 }
    let link := fun st => ({ en := true, state := st, since := 0 } : Link)
    let f := { setC s (fun c => { c with fn := some 255 }) with vfs := [(255, { ctx := some 1 })] }
    let tearing := { f with vfs := [(255, { ctx := some 1, tearing := some 0 })] }
    (s.packets.find? fun y => y.id == 3) = some p ∧ s.ns ≤ p.sent + 500000 ∧ heldGen r 1 ≤ p.gen ∧ allowed s p false = true ∧
    streetBehind s p = false ∧ countsLater s p = false ∧ chooseStreet ({ s with links := [] } : State) p.dest = none ∧
    streetBehind ({ s with packets := [p, { p with id := 2, ord := 0 }] } : State) { p with ord := 1 } = true ∧ p.reached = false ∧
    (x.performed.find? fun y => y.1 == p.seq.toNat) = none ∧ x.held = [] ∧ granted r.grants s.device 1 2 0x2000 true = true ∧
    granted [] s.device 1 2 0x2000 true = false ∧ p.sent + 500000 < old.ns ∧ p.id < s.nextId ∧ packetName q = none ∧ allowed s q true = true ∧
    s.ns < p.first + 4000000 ∧ resendStreet s p = some 1 ∧ hasSlot s p.dest 1 = true ∧ usable s p.dest p.street = false ∧ p.first + 4000000 ≤ old.ns ∧
    q.doneAt ≠ some s.clock ∧ s.ns ≤ q.replied + 500000 ∧ q.replied + 500000 < old.ns ∧ packetThird { q with parts := [(0, 0, .third 3)] } = some 3 ∧
    thirdRetrain s (link 3) = false ∧ thirdRetrain s { link 3 with retrains := [0, 0, 0] } = true ∧
    (s.accesses.all fun a => a.id != p.acc) = true ∧
    (link 1).since + 100000000 ≤ ({ s with ns := 100000000 } : State).ns ∧ (link 3).since + 10000000 ≤ ({ s with ns := 10000000 } : State).ns ∧
    (s.link 31).state = 2 ∧ (s.link 0).state = 0 ∧ (mgetD f.vfs 255 {}).ctx = some 1 ∧ (mgetD f.vfs 255 {}).tearing = none ∧
    (f.ctx 1).state = .runnable ∧ (mget f.ctxs 1).isSome ∧ (mgetD tearing.vfs 255 {}).tearing = some 0 ∧
    0 + 1000000 ≤ ({ tearing with ns := 1000000 } : State).ns ∧ tearing.ns < 0 + 1000000 := by decide +kernel

theorem witness_ControlProcessor :
    let s := { at_ 1 with parts := [(0, { cores := [0], margin := [191], lend := [63] })], cores := [(0, { active := some 1 })] }
    let core := fun (y : Core) => { s with cores := [(0, y)] }
    let two := { s with ctxs := mput s.ctxs 2 { loadedCtx with part := 0 } }
    let load := setG (core { active := some 1 }) fun x => { x with place := .loading }
    let spill := setG (core { spilling := some 1 }) fun x => { x with place := .spilling }
    let end_ : State := { core { active := some 1, shadow := some 2, slices := [(1, 0)] } with ns := 0 }
    let lad : State := { core { active := some 1, ladder := 1, ladderOf := 1 } with ns := 100001 }
    let kill : State := { core { spilling := some 1, ladder := 2, ladderOf := 1 } with ns := 2000001 }
    (two.core 0).waits = [] ∧ (mget two.ctxs 2).isSome ∧ (partCores two (two.ctx 2).part).contains 0 = true ∧ holdsCore (two.core 0) 2 = false ∧
    filling two 0 = false ∧ (two.core 0).switchEnd ≤ two.clock ∧ (two.core 0).spilling = none ∧
    holdsCore ((core { active := some 1, shadow := some 3 }).core 0) 2 = false ∧ filling (core { loading := some 3 }) 0 = true ∧
    openAccesses load 0 = false ∧ areaStall load 0 .r = none ∧ (∀ g ∈ groupsAt spill 0 1 isSpilling, areaStall spill g .w = none) ∧
    opsInto spill 0 1 = false ∧ (lad.core 0).ladderOf = 1 ∧ (kill.core 0).ladderOf = 1 ∧ ((core { shadow := some 2, waits := [(0, .spill 2)] }).core 0).waits = [(0, .spill 2)] ∧
    filling (core { shadow := some 2, waits := [(0, .spill 2)] }) 0 = false ∧
    (core { loading := some 2 }).groups ≠ [] ∧ groupsAt (core { loading := some 2 }) 0 2 isLoading = [] ∧ groupsAt spill 0 1 isSpilling = [0] ∧
    (load.group 0).place = .loading ∧ load.nameOps = [] ∧
    groupsAt s 0 1 isHere ≠ [] ∧ mget (end_.core 0).slices 1 = some 0 ∧ 0 ≤ end_.ns ∧ othersWait (end_.core 0) 1 = true ∧
    (lad.core 0).ladderAt + 1000 * (if (lad.ctx 1).grace = 0 then 100 else (lad.ctx 1).grace) < lad.ns ∧ groupsAt lad 0 1 isHere ≠ [] ∧
    (mget kill.ctxs 1).isSome ∧ (kill.core 0).ladderAt + 1000 * (if (kill.ctx 1).killt = 0 then 2000 else (kill.ctx 1).killt) < kill.ns ∧
    onCoreGroups s 0 ≠ [] := by decide +kernel

/-- A core that may be lent, one whose owner wants it back, and a core that moves. -/
theorem witness_ControlProcessor_lend :
    let wait := setC { waitState with parts := [(63, { cores := [143] }), (0, { margin := [0], lend := [63] })], cores := [] } fun c => { c with part := 63 }
    let lent : State := { wait with parts := [(63, { margin := [0], lend := [0] })], cores := [(0, { lentTo := some 0 })] }
    let move : State := { at_ 1 with groups := [], cores := [], partMoves := [(191, 63, true, 5)] }
    ownerOf wait 0 = some 0 ∧ (mgetD wait.parts 0 {}).margin.contains 0 = true ∧ (mgetD wait.parts 0 {}).lend.contains 63 = true ∧
    (wait.core 0).lentTo = none ∧ onCoreGroups wait 0 = [] ∧ (wait.core 0).localq = [] ∧ partWaits wait 63 0 = true ∧ wait.partMoves = [] ∧
    ownerOf lent 0 = some 63 ∧ (lent.core 0).lentTo = some 0 ∧ ownerNeeds lent 63 0 = true ∧
    ownerNeeds { lent with cores := [(0, { lentTo := some 0, active := some 1 })] } 63 0 = true ∧
    filling { lent with cores := [(0, { lentTo := some 0, active := some 1 })] } 0 = false ∧
    (move.partMoves.find? fun z => z.1 == 191) = some (191, 63, true, 5) ∧ coreIdle move 191 = true ∧ coreIdle { move with cores := [(191, { spilling := some 1 })] } 191 = false ∧ (move.core 191).lentTo = none := by decide +kernel

theorem witness_DebugAndMonitors :
    let s := setC (at_ 1) fun c => { c with debug := true }
    let all := setC s fun c => { c with allStop := true }
    let h := setT s 0 fun t => { t with st := .halted }
    let die := fun (d : Die) => { at_ 1 with dies := [(3, d)] }
    let hot := die { temps := [(63, 95)] }
    let slow := die { pmin := 5, procs := [(0, 4)] }
    let mild := die { temps := [(63, 91)] }
    let dies := fun (s : State) => (List.range 4).map s.die
    let temp := fun (d : Die) (i : Nat) => mgetD d.temps i 0
    let proc := fun (d : Die) (i : Nat) => mgetD d.procs i 0
    let isHot := fun (s : State) => ∃ d ∈ dies s, (∃ i < 64, d.twarn ≤ temp d i) ∨ (d.pmin ≠ 0 ∧ ∃ i < 16, proc d i < d.pmin)
    let cool := fun (s : State) => ∀ d ∈ dies s, (∀ i < 64, temp d i + 5 ≤ d.twarn) ∧ (d.pmin = 0 ∨ ∀ i < 16, d.pmin ≤ proc d i)
    (mget s.ctxs 1).isSome ∧ ((at_ 1).ctx ((at_ 1).group 0).ctx).debug = false ∧ (s.ctx (s.group 0).ctx).debug = true ∧ s.hasThread 0 (0, 0) ∧
    (s.ctx 1).allStop = false ∧ (s.thread 0 0 0).st = .ready ∧ (all.ctx 1).allStop = true ∧ (h.thread 0 0 0).st = .halted ∧
    isHot hot ∧ isHot slow ∧ ¬isHot mild ∧ ¬cool mild ∧ cool (at_ 1) ∧ ¬isHot (at_ 1) ∧ ({ at_ 1 with clk := 26 } : State).clk < 27 ∧
    (at_ 1).evalAt ≤ (at_ 1).ns ∧ (at_ 1).noUp ≤ (at_ 1).ns ∧ ({ at_ 1 with evalAt := 1 } : State).ns < 1 ∧
    temp ((die { temps := [(63, 110)] }).die 3) 63 = 110 ∧ max (hot.die 3).ttrip ((hot.die 3).twarn + 5) ≤ 110 ∧
    109 < max (hot.die 3).ttrip ((hot.die 3).twarn + 5) := by decide +kernel

theorem witness_Formats : 3 < 4 ∧ (0xFF000000 : Nat) / 2 ^ (8 * 3) % 256 ≠ 0x80 ∧ (0x80000000 : Nat) / 2 ^ (8 * 3) % 256 = 0x80 ∧
    (0xFE : BitVec 8) ≠ 0xFF := by decide

theorem witness_CanonicalAddress :
    let s := at_ 1
    let va : DWord := src64 (setV (setV s 0 2 0) 0 3 0x8000) (0, 0) (.v 2) + (0 : BitVec 24).signExtend 64
    va.toNat % 16 = 0 ∧ va.getLsbD 47 ≠ va.getLsbD 63 ∧ Claims.alone k0 s (0, 0) := by
  simp only [Claims.alone]
  decide +kernel

theorem witness_RoundTrip : ldInstr.wellFormed = true ∧ encode ldInstr = some ldWord ∧
    (Instr.nwake true false 31 31).wellFormed = true ∧ (encodeHart (.nwake true false 31 31)).isSome := by decide +kernel

def fetchOk (r : Fetch) : Bool := match r with | .ok => true | _ => false
def fetchFails (r : Fetch) : Bool := match r with | .fail _ _ _ => true | _ => false
def decodes (r : Except DecErr Instr) : Bool := match r with | .ok _ => true | .error _ => false
def stepsOn (s : State) : Bool := match step s with | .next _ => true | _ => false

/-- The loaded machine with a word of code, about to issue. -/
def issueState (w : IWord) : State := { at_ 1 (toBytes 12 w.toNat) with inbox := [.issue 0 0] }
def chosen (s : State) : State := (choose { s with inbox := [] } 0 0).getD s

theorem witness_StepRunsInstruction :
    let s := issueState ldWord
    let bad := issueState 0
    let far := setG s fun x => { x with code := 0x200000 }
    let h := loadHart State.reset (toBytes 4 0x8003028B)
    let base := { loadHart State.reset (toBytes 4 0x00000013) with inbox := [], cur := { hart := 0 } }
    let gone := setG (put s 0x204000 (toBytes 16 0x7002)) fun x => { x with code := 0x6000 }
    let asked := { gone with moves := [{ moveOf with va := 0x6000, toHost := false, refused := true }] }
    (choose { s with inbox := [] } 0 0).isSome ∧ fetchOk (fetchCheck (chosen s)) ∧ decodes (decodeCur (fetchTouch (chosen s))) ∧
    decodes (decodeCur (fetchTouch (chosen bad))) = false ∧ fetchOk (fetchCheck (chosen bad)) ∧ fetchFails (fetchCheck (chosen far)) ∧
    (choose { gone with inbox := [] } 0 0).isSome ∧ fetchCheck (chosen gone) = .park 0x6000 ∧ refusedPage (chosen gone) 1 0x6000 = false ∧
    fetchCheck (chosen asked) = .park 0x6000 ∧ refusedPage (chosen asked) 1 0x6000 = true ∧
    hartRuns { h with inbox := [] } 0 = true ∧ hartFetch { h with inbox := [], cur := { hart := 0 } } 0 = .word 0x8003028B ∧
    hartFetch base 0 = .word 0x00000013 ∧ decodeHart 0x00000013 = none ∧ decodeHart 0x3031208B = none ∧ (0x3031208B#32).toNat % 128 = 0x0B ∧
    decodeHart 0x8003028B = some (.nwake true false 6 5) ∧ isEvent .monitorEvaluation = true := by decide +kernel

/-- One step of a hart on these bytes: the pc, and a register. -/
def hartStep (n w : Nat) (x : List (Nat × DWord)) (rd : Nat) : Option (DWord × DWord) :=
  let s := loadHart State.reset (toBytes n w)
  match step { s with harts := [(0, { (s.hart 0) with x := x })] } with
  | .next t => some ((t.hart 0).pc, rdX t 0 rd)
  | _ => none

/-- Words of the routine of 18_prog_deposit.md, by the RISC-V manual's encodings (log 22): li a5,42, c.li a0,10, sext.w a6,a4,
srli a5,a4,32 and ret. -/
theorem test_hart_base : hartStep 4 0x02A00793 [] 15 = some (0x1004, 42) ∧ hartStep 2 0x4529 [] 10 = some (0x1002, 10) ∧
    hartStep 4 0x0007081B [(14, 0xFFFFFFFF)] 16 = some (0x1004, 0xFFFFFFFFFFFFFFFF) ∧
    hartStep 4 0x02075793 [(14, 0x200000001)] 15 = some (0x1004, 2) ∧ hartStep 4 0x00008067 [(1, 0x4000)] 1 = some (0x4000, 0x4000) := by
  decide +kernel

/-- A hart in a mode, with registers, executes one word of the base. -/
def hartRun (mode : HMode) (w : Nat) (y : Hart) : Option Hart :=
  match hartBase { State.reset with phase := 2, harts := [(0, { y with mode := mode, pc := 0x1000 })] } 0 (BitVec.ofNat 32 w) with
  | .next t => some (t.hart 0)
  | _ => none

/-- ECALL in U and SRET back, by the RISC-V manual (log 21). -/
theorem test_hart_trap :
    (hartRun .u 0x00000073 { csr := [(0x105, 0x8000)] }).map (fun y => (y.pc, y.mode, y.xepc, y.xcause)) = some (0x8000, .hs, 0x1000, 8) ∧
    (hartRun .hs 0x10200073 { csr := [(0x141, 0x4000), (0x300, 0x120), (0x600, 0x80)] }).map (fun y => (y.pc, y.mode)) =
      some (0x4000, .vs) ∧
    (hartRun .u 0x14002373 {}).map (fun y => y.xcause) = some 2 := by decide +kernel

/-- fadd.s of 1.5 and −2.5, and fcvt.w.s of −2.5 in the mode RMM, by IEEE 754 (log 22). -/
theorem test_hart_float :
    let y : Hart := { f := [(1, 0xFFFFFFFF3FC00000), (2, 0xFFFFFFFFC0200000)] }
    (hartRun .u 0x00208353 y).map (fun z => mgetD z.f 6 0) = some 0xFFFFFFFFBF800000 ∧
    (hartRun .u 0xC0014353 y).map (fun z => (mgetD z.x 6 0, z.fcsr)) = some (0xFFFFFFFFFFFFFFFD, 1) := by decide +kernel

/-- Table 16-1: EN of link 1 is bit 0 at 0x20040 of BAR0; it reads back, with the link in Training. -/
theorem test_host_link_enable :
    let s := { State.reset with phase := 2 }
    (match hostWrite 0 0 0x20040 1 s with
      | .next t => (t.link 1).state == 1 && (t.link 0).state == 0 && bar0Read 0x20040 t == some 1
      | _ => false) = true := by decide +kernel

theorem witness_StepKeepsMemory : (issueState ldWord).memOk = true ∧ stepsOn (issueState ldWord) = true := by decide +kernel

/-! ### Words of every form, assembled by hand rules from Tables 3-1, 3-2, 3-5 and 4-1 and the modifier places of the chapters: guard not
p45, gap 9, yield, reuse of b and d, regroup. -/

def kT : Ctl := { gn := true, gp := 45, stall := 9, yld := true, reuseB := true, reuseC := false, reuseD := true, rgp := true }

def reads (l : List (Nat × Instr)) : Bool := l.all fun x => decodeTableWord 96 x.1 == some x.2

theorem test_words_00 : reads [
    (0x00368059903EF80000002760, .iadd kT (.v 5) (.imm 200) (.v 251)),
    (0x007680800C42780000002760, .isub kT (.v 8) (.v 6) (.s 9)),
    (0x00B680B1F6C1F80000002760, .imul kT (.v 11) (.v 251) (.sr .active)),
    (0x00F680521332380000006760, .imulhi kT (.v 5) (.s 9) (.imm 200) true),
    (0x013680860E01810800002760, .imad kT (.v 8) (.sr .active) (.v 6) (.v 33)),
    (0x017680C1F6C1F80000006760, .imin kT (.v 12) (.v 251) (.sr .active) true),
    (0x01B680621332380000006760, .imax kT (.v 6) (.s 9) (.imm 200) true),
    (0x01F680960FC0380000002760, .iabs kT (.v 9) (.sr .active)),
    (0x023680B213C0380000002760, .ineg kT (.v 11) (.s 9)),
    (0x02768041F6C1D17000002760, .iaddc kT (.v 4) (.v 251) (.sr .active) (.p 46)),
    (0x02B68089903ED17000002760, .isubb kT (.v 8) (.imm 200) (.v 251) (.p 46)),
    (0x02F680C21332380000006760, .iaddsat kT (.v 12) (.s 9) (.imm 200) true),
    (0x033680660E0189100000E760, .idot4 kT (.v 6) (.sr .active) (.v 6) (.s 34) true true),
    (0x037680A1F6C1C91000006760, .isad kT (.v 10) (.v 251) (.sr .active) (.s 34) true),
    (0x03B68FE2641E380000002760, .iadd64 kT (.v 254) (.s 50) (.v 120)),
    (0x03F68FE00C4243C000006760, .imad64 kT (.v 254) (.v 6) (.s 9) (.v 120) true),
    (0x003680421380200000006760, .iadd kT (.v 4) (.s 9) (.lit 0x80000001))] = true := by decide +kernel

theorem test_words_01 : reads [
    (0x043680C60E01B80000002760, .and kT (.v 12) (.sr .active) (.v 6)),
    (0x04768069903EF80000002760, .or kT (.v 6) (.imm 200) (.v 251)),
    (0x04B680900C42780000002760, .xor kT (.v 9) (.v 6) (.s 9)),
    (0x04F680C1F7C0380000002760, .not kT (.v 12) (.v 251)),
    (0x053680500C42780000002760, .andn kT (.v 5) (.v 6) (.s 9)),
    (0x05768081F6C1F80000002760, .shl kT (.v 8) (.v 251) (.sr .active)),
    (0x05B680B21332380000002760, .shr kT (.v 11) (.s 9) (.imm 200)),
    (0x05F680560E01B80000002760, .sar kT (.v 5) (.sr .active) (.v 6)),
    (0x06368089903EF80000006760, .rot kT (.v 8) (.imm 200) (.v 251) true),
    (0x067680B00C42780000006760, .bfe kT (.v 11) (.v 6) (.s 9) true),
    (0x06B68051F6C1C91000002760, .bfi kT (.v 5) (.v 251) (.sr .active) (.s 34)),
    (0x06F6809991C0380000002760, .popc kT (.v 9) (.imm 200)),
    (0x073680B60FC0380000002760, .clz kT (.v 11) (.sr .active)),
    (0x0776804213C0380000002760, .brev kT (.v 4) (.s 9)),
    (0x07B68061F6C1C91000296760, .tern kT (.v 6) (.v 251) (.sr .active) (.s 34) 165),
    (0x07F680A9903EC91000002760, .perm kT (.v 10) (.imm 200) (.v 251) (.s 34))] = true := by decide +kernel

theorem test_words_02 : reads [
    (0x0836A2E21332380000036760, .icmp kT (.p 46) (.s 9) (.imm 200) .ge true),
    (0x0876A2E60E01B8000001E760, .fcmp kT (.p 46) (.sr .active) (.v 6) .num),
    (0x08B680B9903ED0A000002760, .sel kT (.v 11) (.imm 200) (.v 251) (.p 20)),
    (0x08F6A2E42C85D0C000296760, .ptern kT (.p 46) (.p 22) (.p 23) (.p 24) 165),
    (0x093680A411C038000002E760, .p2v kT (.v 10) (.p 8) 11),
    (0x0976A08991C038000002E760, .v2p kT (.p 8) (.imm 200) 11),
    (0x09B680560FC0380000002760, .mov kT (.v 5) (.sr .active)),
    (0x09F68FE265C0380000002760, .movx kT (.v 254) (.s 50)),
    (0x0A3680909DC0380000006760, .fclass kT (.v 9) (.v 78) true)] = true := by decide +kernel

theorem test_words_03 : reads [
    (0x0C3680B00C4278000001E760, .fadd kT (.v 11) (.v 6) (.s 9) .rd true),
    (0x0C768051F6C1F8000001E760, .fsub kT (.v 5) (.v 251) (.sr .active) .rd true),
    (0x0CB68082133238000001E760, .fmul kT (.v 8) (.s 9) (.imm 200) .rd true),
    (0x0CF680B60E0181080001E760, .ffma kT (.v 11) (.sr .active) (.v 6) (.v 33) .rd true),
    (0x0D368061F6C1F80000002760, .fmin kT (.v 6) (.v 251) (.sr .active)),
    (0x0D7680921332380000002760, .fmax kT (.v 9) (.s 9) (.imm 200)),
    (0x0DB680C60FC038000001E760, .frcp kT (.v 12) (.sr .active) .rd true),
    (0x0DF6805213C0380000002760, .frsq kT (.v 5) (.s 9)),
    (0x0E368071F7C038000001E760, .fsqrt kT (.v 7) (.v 251) .rd true),
    (0x0E7680900C4278000001E760, .fdiv kT (.v 9) (.v 6) (.s 9) .rd true),
    (0x0EB680C1F7C0380000002760, .fexp2 kT (.v 12) (.v 251)),
    (0x0EF680500DC0380000002760, .flog2 kT (.v 5) (.v 6)),
    (0x0F36807991C0380000002760, .fsin kT (.v 7) (.imm 200)),
    (0x0F7680960FC0380000002760, .fcos kT (.v 9) (.sr .active)),
    (0x0FB680B213C0380000002760, .ftanh kT (.v 11) (.s 9)),
    (0x0FF68041F7C038000001E760, .ffrac kT (.v 4) (.v 251) .rd true)] = true := by decide +kernel

theorem test_words_04 : reads [
    (0x103680600C4278000001E760, .hadd2 kT (.v 6) (.v 6) (.s 9) .rd true),
    (0x10768091F6C1F8000001E760, .hmul2 kT (.v 9) (.v 251) (.sr .active) .rd true),
    (0x10B680C2133209100001E760, .hfma2 kT (.v 12) (.s 9) (.imm 200) (.s 34) .rd true),
    (0x10F680700C42780000002760, .hmin2 kT (.v 7) (.v 6) (.s 9)),
    (0x113680A1F6C1F80000002760, .hmax2 kT (.v 10) (.v 251) (.sr .active)),
    (0x1176A2E2133238000001E760, .hcmp2 kT (.p 46) (.s 9) (.imm 200) .num),
    (0x11B680760E01B8000001E760, .badd2 kT (.v 7) (.sr .active) (.v 6) .rd true),
    (0x11F680A9903EF8000001E760, .bmul2 kT (.v 10) (.imm 200) (.v 251) .rd true),
    (0x123680400C4241080001E760, .bfma2 kT (.v 4) (.v 6) (.s 9) (.v 33) .rd true),
    (0x127680860E01B80000002760, .bmin2 kT (.v 8) (.sr .active) (.v 6)),
    (0x12B680B9903EF80000002760, .bmax2 kT (.v 11) (.imm 200) (.v 251)),
    (0x12F6A2E00C4278000001E760, .bcmp2 kT (.p 46) (.v 6) (.s 9) .num)] = true := by decide +kernel

theorem test_words_05 : reads [
    (0x14368FE2641E38000001E760, .dadd kT (.v 254) (.s 50) (.v 120) .rd true),
    (0x14768FE0F04CB8000001E760, .dmul kT (.v 254) (.v 120) (.s 50) .rd true),
    (0x14B68FE2641E09900001E760, .dfma kT (.v 254) (.s 50) (.v 120) (.s 50) .rd true),
    (0x14F68FE2641E380000002760, .dmin kT (.v 254) (.s 50) (.v 120)),
    (0x15368FE0F04CB80000002760, .dmax kT (.v 254) (.v 120) (.s 50)),
    (0x1576A2E2641E38000001E760, .dcmp kT (.p 46) (.s 50) (.v 120) .num),
    (0x15B68FE0F1C038000001E760, .drcp kT (.v 254) (.v 120) .rd true)] = true := by decide +kernel

theorem test_words_06 : reads [
    (0x18368FE09BC0380003DE6760, .cvt kT (.v 254) (.v 77) .fp32 .fp16 .rd true 1),
    (0x1876804049323800001CA760, .pack8 kT (.v 4) (.v 36) (.imm 200) .e4m3 .rd true),
    (0x18B682460E01B800000CA760, .unpack8 kT (.v 36) (.sr .active) (.v 6) .e4m3 .rd),
    (0x18F680A0503EF800001DA760, .pack4 kT (.v 10) (.v 40) (.v 251) .e2m1 .rd true),
    (0x193682800C427800000DA760, .unpack4 kT (.v 40) (.v 6) (.s 9) .e2m1 .rd),
    (0x19768FE1F7C038000000A760, .scaleq kT (.v 254) (.v 251) .e4m3)] = true := by decide +kernel

theorem test_words_07 : reads [
    (0x1C3680900C42780000002760, .shfl kT (.v 9) (.v 6) (.s 9)),
    (0x1C7680C1F6C1F80000002760, .shflup kT (.v 12) (.v 251) (.sr .active)),
    (0x1CB680621332380000002760, .shfldn kT (.v 6) (.s 9) (.imm 200)),
    (0x1CF680960E01B80000002760, .shflx kT (.v 9) (.sr .active) (.v 6)),
    (0x1D36A0742FC038000000A760, .vote kT (.p 7) (.p 23) .uni),
    (0x1D76915433C0380000002760, .ballot kT (.s 21) (.p 25)),
    (0x1DB6915213C0380000002760, .rfl kT (.s 21) (.s 9)),
    (0x1DF68091F6C1F80000002760, .rlane kT (.v 9) (.v 251) (.sr .active)),
    (0x1E368FF21332380000002760, .wlane kT (.v 255) (.s 9) (.imm 200)),
    (0x1E7680660E48780000002760, .bcast kT (.v 6) (.sr .active) (.s 33)),
    (0x1EB6915991C0380000036760, .redux kT (.s 21) (.imm 200) .xor true),
    (0x1EF691660FC0380000006760, .matchLanes kT (.s 22) (.sr .active) true)] = true := by decide +kernel

theorem test_words_08 : reads [
    (0x203693C27D003FFFFC002760, .sld kT (.s 60) (.s 62) .b128 0xFFFFF0 ⟨0, 0⟩),
    (0x2076906E0100400003FF2760, .sldarg kT (.s 6) true 1023)] = true := by decide +kernel

theorem test_words_10 : reads [
    (0x4036F00E01C03FFFFFE16760, .bra kT 4294967173),
    (0x4076F00E01C03FFFFFE16760, .bru kT 4294967173),
    (0x40B68FEE01C03FFFFFE16760, .call kT (.v 254) 4294967173),
    (0x40F6F001FDC0000000002760, .ret kT (.v 254)),
    (0x4136F0003FC0000040012760, .jtab kT (.v 31) 0x10004),
    (0x41768020030C0020EAF36760, .land kT (.v 2) (.v 1) (.imm 48) (.v 4) 0xABCD true true),
    (0x41B6F00E01C0380000016760, .rcvset kT 5),
    (0x41F6F00E01C0380000016760, .rcvwait kT 5),
    (0x4236F00E01C0380000016760, .rcvdrop kT 5),
    (0x4276F00E01C0000000002760, .exit kT),
    (0x42B6F00E01C0000000002760, .yield kT),
    (0x42F6F00E01C0000000002760, .nop kT),
    (0x4336F00E01C037AB6FBBE760, .brk kT 0xDEADBEEF)] = true := by decide +kernel

theorem test_words_11 : reads [
    (0x443680CE01004000000C2760, .spawn kT (.v 12) (.imm 1) 0x30),
    (0x4476A2E019C00000000F2760, .take kT (.p 46) (.v 12) 0x3C),
    (0x44B6F00E01C0000000002760, .park kT),
    (0x44F6806275C038000000E760, .wake kT (.v 6) (.s 58) true true),
    (0x4536808275C038000000E760, .signal kT (.v 8) (.s 58) true true),
    (0x457680A27418F8000017E760, .deposit kT (.v 10) (.s 58) (.v 99) true true 23),
    (0x45B680427401B8000000E760, .join kT (.v 4) (.s 58) (.v 6) true true),
    (0x45F68FE0C618F80000006760, .nameof kT (.v 254) (.v 99) (.v 99) true),
    (0x46368FF275C038000000E760, .nprobe kT (.v 255) (.s 58) true true),
    (0x467680CE01C0000000122760, .emit kT (.v 12) 0x48),
    (0x46B6F00E01C0000000002760, .gdone kT),
    (0x46F680C275C0380000012760, .cancel kT (.v 12) (.s 58) .job)] = true := by decide +kernel

theorem test_words_12 : reads [
    (0x4836F00243C0086000696760, .barinit kT (.s 33) (.s 12) 421),
    (0x4876F00E01C0203800696760, .bararr kT (.imm 7) 421),
    (0x48B6F00E01C0086000696760, .barwait kT (.s 12) 421),
    (0x48F6F00E01C0203800696760, .barsync kT (.imm 7) 421),
    (0x4936D25243C0086000696760, .barbyte kT (.res (.wp 5)) (.s 33) (.s 12) 421),
    (0x4976A2EE01C0086000696760, .bartry kT (.p 46) (.s 12) 421),
    (0x49B6D1DE01C0380000002760, .cset kT (.res (.c 13))),
    (0x49F6D1DE01C0380000002760, .csign kT (.res (.c 13))),
    (0x4A36D1DE01C0380000002760, .cwait kT (.res (.c 13))),
    (0x4A76F00E01C0380000096760, .hbararr kT 5 .package),
    (0x4AB6F00E01C0380000016760, .hbarwait kT 5)] = true := by decide +kernel

theorem test_words_14 : reads [
    (0x50368041FC629FFFFFB4A760, .ld kT (.v 4) (.v 254) .b16 true true 2 0x7FFFFE ⟨6, 9⟩),
    (0x507690827D02E000043A6760, .st kT (.s 8) (.s 62) .b128 true 3 true 0x800010 ⟨7, 4⟩),
    (0x50B6805E00200048D168A760, .lds kT (.v 5) .null .b8 true 0x12345 ⟨5, 1⟩),
    (0x50F6CFF206C00048D028A760, .sts kT (.imm 255) (.s 3) .b64 0x12340 ⟨5, 1⟩),
    (0x5136808018EA80000425A760, .atom kT (.v 8) (.v 12) .b64 true .max true 0x10 ⟨4, 11⟩),
    (0x5176808218808000081FA760, .cas kT (.v 8) (.s 12) .b32 true 0x20 ⟨3, 15⟩),
    (0x51B6F000189000000C28A760, .atoms kT .null (.v 12) .b32 false .dec 0x30 ⟨5, 1⟩),
    (0x51F6808218C000001028A760, .cass kT (.v 8) (.s 12) .b64 0x40 ⟨5, 1⟩),
    (0x523693A274436018002AE760, .ldto kT (.s 58) (.s 58) (.s 13) (.imm 3) true 5 5),
    (0x5276D3E2424860380AD2E760, .rxwin kT (.res (.tl 14)) (.s 33) (.s 33) (.imm 7) true 421 5),
    (0x52B6808E01C038000A002760, .rxclose kT (.v 8) 5),
    (0x52F6F00E00000000003A2760, .fence kT ⟨7, 4⟩),
    (0x5336F0027C00400020002760, .pref kT (.s 62) true 0x80 ⟨0, 0⟩),
    (0x5376F00014020000206DA760, .cflush kT (.v 10) true 0x81 ⟨5, 11⟩)] = true := by decide +kernel

theorem test_words_15 : reads [
    (0x5436D2521A4E88680002E760, .cpy kT (.res (.wp 5)) (.s 13) (.s 58) (.s 13) true 5),
    (0x5476D2521A4E89E00002E760, .cpy2 kT (.res (.wp 5)) (.s 13) (.s 58) (.s 60) true 5),
    (0x54B6D252423F89080002E760, .cpyg kT (.res (.wp 5)) (.s 33) (.v 254) (.s 33) true 5),
    (0x54F6D2521A4E88680002E760, .cpys kT (.res (.wp 5)) (.s 13) (.s 58) (.s 13) true 5),
    (0x5536D252784EB800012AE760, .cpym kT (.res (.wp 5)) (.s 60) (.s 58) true 5 37),
    (0x55768FFA4BC0380000002760, .wpread kT (.v 255) (.res (.wp 5))),
    (0x55B6F00A4A43780000002760, .wpwait kT (.res (.wp 5)) (.s 13)),
    (0x55F68FEA7DC0380000006760, .tlread kT (.v 254) (.res (.tl 14)) true),
    (0x5636F00A7C4CB80000002760, .tlwait kT (.res (.tl 14)) (.s 50)),
    (0x5676F00E01C00FC104106760, .wait kT 1 2 4 8 16 31)] = true := by decide +kernel

theorem test_words_18 : reads [
    (0x60368C00614747F800002760, .mma8a kT (.v 192) (.v 48) (.res (.c 13)) (.v 255)),
    (0x60768400614747F800002760, .mma8b kT (.v 64) (.v 48) (.res (.c 13)) (.v 255)),
    (0x60B68401814747F800002760, .mma8c kT (.v 64) (.v 192) (.res (.c 13)) (.v 255)),
    (0x60F68C00614747F800002760, .mma4a kT (.v 192) (.v 48) (.res (.c 13)) (.v 255)),
    (0x61368400614747F800002760, .mma4b kT (.v 64) (.v 48) (.res (.c 13)) (.v 255)),
    (0x61768401814747F800002760, .mma4c kT (.v 64) (.v 192) (.res (.c 13)) (.v 255)),
    (0x61B6880E01C038000000A760, .mmaz kT (.v 128) .c)] = true := by decide +kernel

theorem test_words_19 : reads [
    (0x64368C00614747F800002760, .mma16a kT (.v 192) (.v 48) (.res (.c 13)) (.v 255)),
    (0x64768400614747F800002760, .mma16b kT (.v 64) (.v 48) (.res (.c 13)) (.v 255)),
    (0x64B68401814747F800002760, .mma16c kT (.v 64) (.v 192) (.res (.c 13)) (.v 255))] = true := by decide +kernel

theorem test_words_1a : reads [
    (0x6836F0080FC038000000E760, .latchl kT (.imm 7) true true),
    (0x6876F001FD01C8600000E760, .latchg kT (.v 254) (.imm 7) (.s 12) true true),
    (0x68B6F00E01C0000000002760, .latchclr kT),
    (0x68F6880219C038000000A760, .accst kT (.v 128) (.s 12) .c),
    (0x6936880219C038000000A760, .accld kT (.v 128) (.s 12) .c)] = true := by decide +kernel

theorem test_words_1c : reads [
    (0x703680900F4181ADFFFFE760, .inv kT (.v 9) (.v 7) (.res (.b 6)) true .f32 45 63 4095),
    (0x7076D060C618C09000006760, .brset kT (.res (.b 6)) (.v 99) (.v 99) (.v 18) true),
    (0x70B68FFA0DC0380000012760, .brget kT (.v 255) (.res (.b 6)) .st),
    (0x70F6F00E01C03FFFFFE16760, .callm kT 4294967173)] = true := by decide +kernel

theorem test_words_1e : reads [
    (0x7836F00229C0380000002760, .npost kT (.s 20)),
    (0x7876F00AFA4CB80000002760, .nwait kT (.res (.cc 61)) (.s 50)),
    (0x78B690D2421E201800002760, .nread kT (.s 13) (.s 33) (.v 120) (.imm 3)),
    (0x78F6804AFA1E09D00000A760, .narm kT (.v 4) (.res (.cc 61)) (.v 120) (.s 58) true)] = true := by decide +kernel

theorem test_words_3f : reads [
    (0xFC36F00E01C0200000006760, .trap kT 0x80000001),
    (0xFC76F00E01C0000000002760, .rte kT),
    (0xFCB693EE01C0380000026760, .srd kT (.s 62) 9),
    (0xFCF6F00251C0380000012760, .swr kT (.s 40) 4),
    (0xFD36F0027D01780000006760, .tlbinv kT (.s 62) (.imm 5) true),
    (0xFD76F00275C0380000006760, .ntinv kT (.s 58) true),
    (0xFDB693EE01C0048D159E2760, .svc kT (.s 62) 0x12345678),
    (0xFDF6F00E01C0000000002760, .dbghalt kT)] = true := by decide +kernel


/-! ### Hart words (Table 8-9), refused words (Table 3-3, R65) and ill-formed terms -/

theorem test_words_hart : decodeHart 0xc00f858b = some (.nwake true true 31 11) ∧ decodeHart 0xc01f858b = none ∧ decodeHart 0xc20f858b = none ∧
    decodeHart 0x400f958b = some (.nsig false true 31 11) ∧ decodeHart 0xeeafa58b = some (.ndep true true 23 10 31 11) ∧ decodeHart 0xf0afa58b = none ∧
    decodeHart 0x8007b08b = some (.njoin true false 15 1) ∧ decodeHart 0x8007c08b = none := by decide +kernel

def refusedAs (w : IWord) (e : DecErr) : Bool := match decode w with | .error x => x == e | .ok _ => false

/-- A NOP word with MAJ 0x09, with MIN D of 0x10, with bit 4 set, with X set, with GP 48; a LD of width 5; an IADD into a constant; a SEL with
an OPC of class 6 and modifiers in the literal; HBARARR level 3; an odd pair of IADD64. -/
theorem test_refusals :
    refusedAs 0x24DFF00E01C0000000000000 .illegalOp ∧ refusedAs 0x435FF00E01C0000000000000 .illegalOp ∧
    refusedAs 0x42DFF00E01C0000000000010 .illegalOp ∧ refusedAs 0x42DFF00E01C0000000004000 .illegalOp ∧
    refusedAs 0x42D8700E01C0000000000000 .illegalOp = false ∧ refusedAs 0x42D8000E01C0000000000000 .illegalOperand ∧
    refusedAs 0x501F806005400000002D8000 .illegalOp ∧ refusedAs 0x001FC04214C0380000000800 .illegalOperand ∧
    refusedAs 0x4A5FF00E01C03800000C0000 .illegalOp ∧ refusedAs 0x039F805004018380000000000 .illegalOperand = false ∧
    refusedAs 0x039F80500401838000000000 .illegalOperand := by decide +kernel

/-- Each check of well-formedness refuses a term that breaks it alone: a guard of p48; a conversion between formats that has none and a width
of an atomic; two literals, and a literal beside a modifier; an accumulator that holds its own scale registers; a constant destination; an
odd pair; a slot of 24. -/
theorem test_illformed :
    (Instr.iadd k0 (.v 4) (.v 5) (.lit 7)).wellFormed = true ∧
    (Instr.iadd { k0 with gp := 48 } (.v 4) (.v 5) (.lit 7)).wellFormed = false ∧
    (Instr.atom k0 (.v 4) (.v 6) .b32 false .add false 0 ⟨5, 11⟩).wellFormed = true ∧
    (Instr.atom k0 (.v 4) (.v 6) .b8 false .add false 0 ⟨5, 11⟩).wellFormed = false ∧
    (Instr.atom k0 (.v 4) (.v 6) .b32 true .add false 0 ⟨5, 11⟩).wellFormed = false ∧
    (Instr.iadd k0 (.v 4) (.lit 8) (.lit 7)).wellFormed = false ∧ (Instr.imin k0 (.v 4) (.v 5) (.lit 7) true).wellFormed = false ∧
    (Instr.mma8a k0 (.v 64) (.v 32) (.res (.c 2)) (.v 20)).wellFormed = true ∧
    (Instr.mma8a k0 (.v 64) (.v 32) (.res (.c 2)) (.v 70)).wellFormed = false ∧
    (Instr.iadd k0 (.imm 4) (.v 5) (.v 6)).wellFormed = false ∧ (Instr.iadd64 k0 (.v 4) (.v 5) (.v 6)).wellFormed = false ∧
    (Instr.iadd k0 .pT (.v 5) (.v 6)).wellFormed = false ∧ (Instr.cset k0 (.res (.wp 3))).wellFormed = false ∧
    (Instr.spawn k0 (.v 12) (.imm 1) 0x31).wellFormed = false ∧ (Instr.inv k0 (.v 9) (.v 7) (.res (.b 6)) true .u32 48 1 0).wellFormed = false ∧
    (Instr.inv k0 (.v 9) (.v 7) (.res (.b 6)) true .u32 45 0 0).wellFormed = false ∧
    (Instr.ndep false false 23 1 2 3).wellFormed = true ∧ (Instr.ndep false false 24 1 2 3).wellFormed = false := by decide +kernel

/-! ### One step -/

/-- The loaded machine of one thread that holds `x` in v1, `y` in v2 and `z` in v3, after an instruction. -/
def did (i : Instr) (x y z : Word) : State := after i (setV (setV (setV (at_ 1) 0 1 x) 0 2 y) 0 3 z)
def outV (i : Instr) (x y z : Word) (r : Nat) : Word := vraw ((did i x y z).thread 0 0 0) r
def outP (i : Instr) (x y z : Word) (r : Nat) : Bool := praw ((did i x y z).thread 0 0 0) r

/-- A whole step of a placed word, IADD v4, sr.lane, 5: fetched, decoded, executed by 32 threads. -/
theorem test_step :
    (match step (State.reset.withFetchWord 96 0x001F80460101780000000000) with
      | .next t => vraw (t.thread 0 0 31) 4 == 36 && (t.thread 0 0 31).pc == 12
      | _ => false) = true := by decide +kernel

theorem test_iadd_wraps : outV (.iadd k0 (.v 4) (.v 1) (.v 2)) 0xFFFFFFFF 2 0 4 = 1 := by decide +kernel
theorem test_isub_self : outV (.isub k0 (.v 1) (.v 1) (.v 2)) 1 2 0 1 = 0xFFFFFFFF := by decide +kernel
theorem test_imulhi_signs : outV (.imulhi k0 (.v 4) (.v 1) (.v 2) false) 0xFFFFFFFF 0xFFFFFFFF 0 4 = 0 ∧
    outV (.imulhi k0 (.v 4) (.v 1) (.v 2) true) 0xFFFFFFFF 0xFFFFFFFF 0 4 = 0xFFFFFFFE := by decide +kernel
theorem test_iaddc_carry : outV (.iaddc k0 (.v 4) (.v 1) (.v 2) (.p 6)) 0xFFFFFFFF 1 0 4 = 0 ∧
    outP (.iaddc k0 (.v 4) (.v 1) (.v 2) (.p 6)) 0xFFFFFFFF 1 0 6 = true := by decide +kernel
theorem test_isubb_borrow : outV (.isubb k0 (.v 4) (.v 1) (.v 2) (.p 6)) 3 5 0 4 = 0xFFFFFFFE ∧
    outP (.isubb k0 (.v 4) (.v 1) (.v 2) (.p 6)) 3 5 0 6 = true := by decide +kernel
theorem test_iaddsat_bounds : outV (.iaddsat k0 (.v 4) (.v 1) (.v 2) false) 0x7FFFFFFF 1 0 4 = 0x7FFFFFFF ∧
    outV (.iaddsat k0 (.v 4) (.v 1) (.v 2) true) 0xFFFFFFFF 1 0 4 = 0xFFFFFFFF := by decide +kernel
theorem test_idot4_signs : outV (.idot4 k0 (.v 4) (.v 1) (.v 2) (.v 3) false false) 0x800000FF 0x80000002 5 4 = 16387 ∧
    outV (.idot4 k0 (.v 4) (.v 1) (.v 2) (.v 3) true false) 0x800000FF 0x80000002 5 4 = 16899 := by decide +kernel
theorem test_sar_far : outV (.sar k0 (.v 4) (.v 1) (.v 2)) 0x80000000 32 0 4 = 0xFFFFFFFF ∧
    outV (.shl k0 (.v 4) (.v 1) (.v 2)) 1 32 0 4 = 0 := by decide +kernel
theorem test_rot : outV (.rot k0 (.v 4) (.v 1) (.v 2) false) 0x80000001 33 0 4 = 3 ∧
    outV (.rot k0 (.v 4) (.v 1) (.v 2) true) 0x80000001 33 0 4 = 0xC0000000 := by decide +kernel
theorem test_bfe_bfi : outV (.bfe k0 (.v 4) (.v 1) (.v 2) true) 0x80 0x404 0 4 = 0xFFFFFFF8 ∧
    outV (.bfi k0 (.v 4) (.v 1) (.v 2) (.v 3)) 0xFF 0x404 0 4 = 0xF0 := by decide +kernel
theorem test_tern_majority : outV (.tern k0 (.v 4) (.v 1) (.v 2) (.v 3) 0xE8) 0xFF00 0xF0F0 0xCCCC 4 = 0xFCC0 ∧
    outV (.tern k0 (.v 4) (.v 1) (.v 2) (.v 3) 0xAA) 0xFF00 0xF0F0 0xCCCC 4 = 0xFF00 := by decide +kernel
theorem test_perm_sign : outV (.perm k0 (.v 4) (.v 1) (.v 2) (.v 3)) 0x33221180 0x77665544 0x7308 4 = 0x773380FF := by decide +kernel
theorem test_icmp : outP (.icmp k0 (.p 1) (.v 1) (.v 2) .lt false) 0xFFFFFFFF 0 0 1 = true ∧
    outP (.icmp k0 (.p 1) (.v 1) (.v 2) .lt true) 0xFFFFFFFF 0 0 1 = false := by decide +kernel
theorem test_fcmp_nan : outP (.fcmp k0 (.p 1) (.v 1) (.v 2) .ne) 0x7FC00000 0 0 1 = true ∧
    outP (.fcmp k0 (.p 1) (.v 1) (.v 2) .eq) 0x80000000 0 0 1 = true := by decide +kernel
theorem test_ffma_fused : outV (.ffma k0 (.v 4) (.v 1) (.v 2) (.v 3) .rn false) 0x3F800001 0x3F800001 0xBF800002 4 = 0x28800000 := by
  decide +kernel
theorem test_fadd_rounds : outV (.fadd k0 (.v 4) (.v 1) (.v 2) .rn false) 0x4B800000 0x3F800000 0 4 = 0x4B800000 ∧
    outV (.fadd k0 (.v 4) (.v 1) (.v 2) .ru false) 0x4B800000 0x3F800000 0 4 = 0x4B800001 ∧
    outV (.fadd k0 (.v 4) (.v 1) (.v 2) .rn false) 0x7F800000 0xFF800000 0 4 = 0x7FC00000 := by decide +kernel
theorem test_fdiv : outV (.fdiv k0 (.v 4) (.v 1) (.v 2) .rn false) 0x3F800000 0x40400000 0 4 = 0x3EAAAAAB ∧
    outV (.fdiv k0 (.v 4) (.v 1) (.v 2) .rn false) 0xBF800000 0 0 4 = 0xFF800000 := by decide +kernel
theorem test_hadd2 : outV (.hadd2 k0 (.v 4) (.v 1) (.v 2) .rn false) 0x3C004000 0xBC004000 0 4 = 0x00004400 := by decide +kernel
theorem test_cvt_ties : outV (.cvt k0 (.v 4) (.v 1) .int32 .fp32 .rn false 0) 0x40200000 0 0 4 = 2 ∧
    outV (.cvt k0 (.v 4) (.v 1) .fp16 .fp32 .rn false 0) 0x3F800000 0 0 4 = 0x3C00 := by decide +kernel
theorem test_rfl_broadcasts : mgetD ((did (.rfl k0 (.s 16) (.v 1)) 77 0 0).wave 0 0).sr 16 0 = 77 := by decide +kernel

/-- BRA goes 12 × offset from its own address; a guard that no thread passes lets it fall through; EXIT ends the threads. -/
theorem test_control :
    ((after (.bra k0 3) (at_ 1)).thread 0 0 0).pc = 36 ∧ ((after (.bra kNot 3) (at_ 1)).thread 0 0 0).pc = 12 ∧
    ((after (.exit k0) (at_ 1)).thread 0 0 0).st = .exited := by decide +kernel

/-- TRAP leaves the cause, its subcode and the address of the instruction in the frame and starts the handler at HANDLER_ENTRY. -/
theorem test_trap :
    let t := after (.trap k0 0x77) (at_ 1)
    (t.wave 0 0).handler = true ∧ (t.thread 0 0 0).pc = 0x120 ∧ (t.thread 0 0 0).savedPc = 0 ∧ readN t.hbm 0xA0000 1 = [0x20] ∧
    readN t.hbm 0xA0008 2 = [0x00, 0x10] := by decide +kernel

/-- A store writes its bytes, little end first, and only them; a misaligned one traps with cause 0x10 and writes none. -/
def storeState : State := setV (setV (at_ 1) 0 1 0xBBAA) 0 6 0x6000
theorem test_store : readN (after (.st k0 (.v 1) (.v 6) .b16 false 0 false 2 ⟨5, 11⟩) storeState).hbm 0x6000 5 = [0, 0, 0xAA, 0xBB, 0] := by
  decide +kernel
theorem test_misaligned : readN (after (.st k0 (.v 1) (.v 6) .b16 false 0 false 1 ⟨5, 11⟩) storeState).hbm 0xA0000 1 = [0x10] := by decide +kernel

/-- R379: the clock setting over five evaluations with temperatures 96, 97, 94, 89, 89 on a die whose warning is 95: 26, 25, 25, 26, 27. -/
def evalAt (s : State) (t : Nat) : State :=
  let s1 := { s with ns := s.ns + 1000000, dies := [(0, { (s.die 0) with temps := [(0, t)] })] }
  after .monitorEvaluation s1
theorem test_clock_example :
    let a := evalAt (at_ 1) 96
    let b := evalAt a 97
    let c := evalAt b 94
    let d := evalAt c 89
    let e := evalAt d 89
    (a.clk, b.clk, c.clk, d.clk, e.clk) = (26, 25, 25, 26, 27) := by decide +kernel

/-- The device words that the spec prints in its tables and programs, as the source lines beside them say. -/
theorem test_spec_words : reads [
    (0x001F804214C0380000000800, .iadd { k0 with stall := 2 } (.v 4) (.s 10) (.sr .lane)),
    (0x001F91622980000000800400, .iadd { k0 with stall := 1 } (.s 22) (.s 20) (.lit 0x00000200)),
    (0x4001700E01C03FFFFFFF4000, .bra { k0 with gp := 2 } 0xfffffffd),
    (0x081FA0100842380000028C00, .icmp { k0 with stall := 3 } (.p 1) (.v 4) (.s 8) .lt true),
    (0x601F8400414480A000000000, .mma8a k0 (.v 64) (.v 32) (.res (.c 2)) (.v 20)),
    (0x701F80601140000150000000, .inv k0 (.v 6) (.v 8) (.res (.b 0)) false .u32 1 20 0),
    (0x44DF80A011C0380000000000, .wake k0 (.v 10) (.v 8) false false),
    (0x489FF00E01C0380000014000, .barwait k0 .null 5),
    (0x4901D21221C0380000014000, .barbyte { k0 with gp := 3 } (.res (.wp 1)) (.s 16) .null 5),
    (0x441F80CE01004000000C0000, .spawn k0 (.v 12) (.imm 1) 0x00000030),
    (0x445FA05019C00000000C0000, .take k0 (.p 5) (.v 12) 0x00000030),
    (0x469FF00E01C0000000000000, .gdone k0),
    (0x46DF80200DC0380000004000, .cancel k0 (.v 2) (.v 6) .launch),
    (0x501F806004800000002D8000, .ld k0 (.v 6) (.v 2) .b32 false false 0 0x000000 ⟨5, 11⟩),
    (0x505F807204800000003A4000, .st k0 (.v 7) (.s 2) .b32 false 0 true 0x000000 ⟨7, 4⟩),
    (0x565FF00E01C00FFFFFF80000, .wait k0 0 31 31 31 31 31),
    (0xFC1FF00E01C00000001DC000, .trap k0 0x00000077),
    (0xFC5FF00E01C0000000000000, .rte k0),
    (0x781FF00229C0380000000000, .npost k0 (.s 20)),
    (0x785FF00A8B00780000000000, .nwait k0 (.res (.cc 5)) (.imm 1)),
    (0x4401014E0100400000330000, .spawn { k0 with gp := 2 } (.v 20) (.imm 1) 0x000000cc),
    (0x419FF00E01C0380000000000, .rcvset k0 0),
    (0x4020F00E01C0000000044000, .bra { k0 with gn := true, gp := 1 } 0x00000011),
    (0x445FA06019C0000000330000, .take k0 (.p 6) (.v 12) 0x000000cc),
    (0x1D80910005C0380000000000, .rfl { k0 with gp := 1 } (.s 16) (.v 2)),
    (0x5040806008400000002D8000, .st { k0 with gp := 1 } (.v 6) (.v 4) .b16 false 0 false 0x000000 ⟨5, 11⟩),
    (0x41DFF00E01C0380000000000, .rcvwait k0 0),
    (0x4041700E01C03FFFFFFC0000, .bru { k0 with gp := 2 } 0xfffffff0),
    (0x505F808005000000002D8000, .st k0 (.v 8) (.v 2) .b128 false 0 false 0x000000 ⟨5, 11⟩),
    (0x504080720C800000003A4000, .st { k0 with gp := 1 } (.v 7) (.s 6) .b32 false 0 true 0x000000 ⟨7, 4⟩),
    (0x52DFF00E00000000003A0000, .fence k0 ⟨7, 4⟩),
    (0x4040F00E01C03FFFFFFF4000, .bru { k0 with gp := 1 } 0xfffffffd),
    (0x525FD3480042200000000000, .rxwin k0 (.res (.tl 4)) (.imm 0) (.s 8) (.imm 0) false 0 0),
    (0x521F90620842200000014000, .ldto k0 (.s 6) (.s 4) (.s 8) (.imm 0) true 2 0),
    (0x701F80601B40000250000000, .inv k0 (.v 6) (.v 13) (.res (.b 0)) false .u32 2 20 0),
    (0x70DFF00E01C0000000014000, .callm k0 0x00000005)] = true := by decide +kernel

end Sys2Proof.Tests
end

/-! PROOFS. O54: conversion from MK8 is exact, because a value whose significant bits and exponent fit an IEEE format survives rounding,
encoding and decoding (`roundFin_of_fits`, `decodeF_fieldsCode`), and every MK8 value fits the full-width formats
(`decodeMk8_of_payload`). -/

namespace Sys2Proof.Machine

/-! ### Exact conversion into the IEEE formats -/

/-- What ties the numbers of a format's description together when it has the fields of IEEE 754 (05 R67, Table 5-1): a hidden bit,
a bias of half the exponent range, every finite value below the all-ones exponent. -/
structure FFmt.Ieee (f : FFmt) : Prop where
  p_eq : f.p = f.frac + 1
  bits_gt : f.frac + 1 < f.bits
  emin_eq : f.emin = 1 - f.bias
  maxM_eq : f.maxM = 2 ^ f.p - 1
  maxE_eq : f.maxE = f.bias - f.frac
  expMax_eq : (expMax f : Int) = 2 * f.bias + 1

theorem fp16_ieee : fp16.Ieee := by constructor <;> decide
theorem bf16_ieee : bf16.Ieee := by constructor <;> decide
theorem fp32_ieee : fp32.Ieee := by constructor <;> decide
theorem fp64_ieee : fp64.Ieee := by constructor <;> decide

/-- The code with the given sign, exponent and fraction fields (Table 5-1). -/
def fieldsCode (f : FFmt) (neg : Bool) (ex fr : Nat) : Nat :=
  (if neg then 2 ^ (f.bits - 1) else 0) + (ex <<< f.frac) + fr

theorem two_pow_expBits (f : FFmt) : 2 ^ (f.bits - 1 - f.frac) = expMax f + 1 := by
  have := Nat.two_pow_pos (f.bits - 1 - f.frac)
  unfold expMax
  omega

theorem fieldsCode_eq_mul_add {f : FFmt} (h : f.Ieee) (neg : Bool) (ex fr : Nat) :
    fieldsCode f neg ex fr = 2 ^ f.frac * (2 ^ (f.bits - 1 - f.frac) * neg.toNat + ex) + fr := by
  have hbits : f.bits - 1 = f.frac + (f.bits - 1 - f.frac) := by have := h.bits_gt; omega
  rw [fieldsCode, hbits, Nat.add_sub_cancel_left, Nat.shiftLeft_eq, Nat.pow_add]
  cases neg
  · rw [if_neg Bool.false_ne_true, Bool.toNat_false, Nat.mul_zero, Nat.zero_add, Nat.zero_add, Nat.mul_comm]
  · rw [if_pos rfl, Bool.toNat_true, Nat.mul_one, Nat.mul_add, Nat.mul_comm ex]

theorem fieldsCode_lt {f : FFmt} (h : f.Ieee) (neg : Bool) {ex fr : Nat} (hex : ex < expMax f) (hfr : fr < 2 ^ f.frac) :
    fieldsCode f neg ex fr < 2 ^ f.bits := by
  have hbits : f.bits = f.frac + (f.bits - 1 - f.frac + 1) := by have := h.bits_gt; omega
  have hw := two_pow_expBits f
  have hfields : 2 ^ (f.bits - 1 - f.frac) * neg.toNat + ex + 1 ≤ 2 ^ (f.bits - 1 - f.frac + 1) := by
    rw [Nat.pow_succ]
    cases neg
    · rw [Bool.toNat_false, Nat.mul_zero]; omega
    · rw [Bool.toNat_true, Nat.mul_one]; omega
  calc fieldsCode f neg ex fr
      < 2 ^ f.frac * (2 ^ (f.bits - 1 - f.frac) * neg.toNat + ex + 1) := by
        rw [fieldsCode_eq_mul_add h, Nat.mul_succ]
        omega
    _ ≤ 2 ^ f.frac * 2 ^ (f.bits - 1 - f.frac + 1) := Nat.mul_le_mul_left _ hfields
    _ = 2 ^ f.bits := by rw [← Nat.pow_add, ← hbits]

/-- A code whose exponent field is neither 0 nor all ones is the normal value of its fields. -/
theorem decodeF_fieldsCode {f : FFmt} (h : f.Ieee) {fm : Fmt} (hfm : fm ≠ .e4m3) (neg : Bool) {ex fr : Nat}
    (hex : 0 < ex) (hex' : ex < expMax f) (hfr : fr < 2 ^ f.frac) :
    decodeF fm f (fieldsCode f neg ex fr % 2 ^ f.bits) = .fin neg (fr + 2 ^ f.frac) ((ex : Int) - f.bias - f.frac) false := by
  have hbits : f.bits - 1 = f.frac + (f.bits - 1 - f.frac) := by have := h.bits_gt; omega
  have hw := two_pow_expBits f
  have htop : fieldsCode f neg ex fr >>> f.frac = 2 ^ (f.bits - 1 - f.frac) * neg.toNat + ex := by
    rw [fieldsCode_eq_mul_add h, Nat.shiftRight_eq_div_pow, Nat.mul_add_div (Nat.two_pow_pos _), Nat.div_eq_of_lt hfr, Nat.add_zero]
  have hsign : fieldsCode f neg ex fr >>> (f.bits - 1) = neg.toNat := by
    rw [hbits, Nat.shiftRight_add, htop, Nat.shiftRight_eq_div_pow, Nat.mul_add_div (Nat.two_pow_pos _),
      Nat.div_eq_of_lt (by omega), Nat.add_zero]
  have hexp : fieldsCode f neg ex fr >>> f.frac % 2 ^ (f.bits - 1 - f.frac) = ex := by
    rw [htop, Nat.mul_add_mod, Nat.mod_eq_of_lt (by omega)]
  have hfrac : fieldsCode f neg ex fr % 2 ^ f.frac = fr := by
    rw [fieldsCode_eq_mul_add h, Nat.mul_add_mod, Nat.mod_eq_of_lt hfr]
  rw [Nat.mod_eq_of_lt (fieldsCode_lt h neg hex' hfr)]
  simp only [decodeF, hsign, hexp, hfrac]
  rw [if_neg (by simp [Nat.ne_of_lt hex']), if_neg (by simp [hfm]), if_neg (Nat.ne_of_gt hex)]
  cases neg <;> rfl

theorem decodeF_zero {f : FFmt} (h : f.Ieee) (fm : Fmt) :
    decodeF fm f (0 % 2 ^ f.bits) = .fin false 0 (f.emin - f.frac) false := by
  have hmax : ¬ 0 = expMax f := by have := h.expMax_eq; omega
  simp [decodeF, hmax]

theorem bitLen_eq_of_bounds {m n : Nat} (hlo : 2 ^ n ≤ m) (hhi : m < 2 ^ (n + 1)) : bitLen m = n + 1 := by
  have hm : m ≠ 0 := by have := Nat.two_pow_pos n; omega
  rw [bitLen, if_neg hm, (Nat.log2_eq_iff hm).2 ⟨hlo, hhi⟩]

theorem bitLen_bounds {m : Nat} (hm : m ≠ 0) : 0 < bitLen m ∧ 2 ^ (bitLen m - 1) ≤ m ∧ m < 2 ^ bitLen m := by
  have hpos : 0 < bitLen m := by simp [bitLen, hm]
  obtain ⟨-, hlt, hle⟩ := bitLen_le m m Nat.lt_two_pow_self
  exact ⟨hpos, hle hpos, hlt⟩

theorem shiftLeft_ne_zero {m : Nat} (hm : m ≠ 0) (k : Nat) : m <<< k ≠ 0 := by
  rw [Nat.shiftLeft_eq]
  exact Nat.mul_ne_zero hm (Nat.ne_of_gt (Nat.two_pow_pos k))

theorem bitLen_shiftLeft {m : Nat} (hm : m ≠ 0) (k : Nat) : bitLen (m <<< k) = bitLen m + k := by
  obtain ⟨hpos, hlo, hhi⟩ := bitLen_bounds hm
  obtain ⟨n, hn⟩ : ∃ n, bitLen m = n + 1 := ⟨bitLen m - 1, by omega⟩
  rw [hn] at hlo hhi ⊢
  rw [show n + 1 + k = n + k + 1 by omega, Nat.shiftLeft_eq]
  apply bitLen_eq_of_bounds
  · rw [Nat.pow_add]; exact Nat.mul_le_mul_right _ hlo
  · rw [show n + k + 1 = n + 1 + k by omega, Nat.pow_add]; exact Nat.mul_lt_mul_of_pos_right hhi (Nat.two_pow_pos k)

/-- A significand moved up to p bits: its leading bit is at place p − 1. -/
theorem bitLen_shiftLeft_fills {m d p : Nat} (hm : m ≠ 0) (hd : p = bitLen m + d) :
    bitLen (m <<< d) = p ∧ 2 ^ (p - 1) ≤ m <<< d ∧ m <<< d < 2 ^ p := by
  have hlen : bitLen (m <<< d) = p := by rw [bitLen_shiftLeft hm, hd]
  obtain ⟨-, hlo, hhi⟩ := bitLen_bounds (shiftLeft_ne_zero hm d)
  rw [hlen] at hlo hhi
  exact ⟨hlen, hlo, hhi⟩

/-- A normal magnitude with all of the format's significant bits is its biased exponent beside its fraction. -/
theorem encodeFin_eq_fieldsCode {f : FFmt} (h : f.Ieee) (neg : Bool) {m : Nat} {q : Int} (hm : bitLen m = f.p)
    (hq : f.emin ≤ q + f.p - 1) :
    encodeFin f neg m q = fieldsCode f neg (q + f.p - 1 + f.bias).toNat (m - 2 ^ f.frac) := by
  have hm0 : m ≠ 0 := by
    rintro rfl
    have hzero : bitLen 0 = 0 := rfl
    have := h.p_eq
    omega
  simp only [encodeFin, hm, fieldsCode]
  rw [if_neg hm0, if_neg (by omega), if_pos (Nat.le_refl _), Nat.sub_self, Nat.shiftRight_zero]

theorem roundAt_of_le {q e : Int} (h : q ≤ e) (rm : Rnd) (neg : Bool) (m : Nat) (st : Bool) :
    roundAt rm neg m e st q = (m <<< (e - q).toNat, st) := if_pos h

/-- A value whose significant bits and exponent fit the format is kept: it only moves to the format's lowest place, with no flag. -/
theorem roundFin_of_fits {f : FFmt} (h : f.Ieee) (rm : Rnd) (sat neg : Bool) {m : Nat} {e : Int} (hm : m ≠ 0) (hp : bitLen m ≤ f.p)
    (hlo : f.emin ≤ e + bitLen m - 1) (hhi : e + bitLen m - 1 ≤ f.bias) :
    roundFin f rm sat neg m e false = (encodeFin f neg (m <<< (f.p - bitLen m)) (e + bitLen m - f.p), 0) := by
  obtain ⟨d, hd⟩ : ∃ d, f.p = bitLen m + d := ⟨f.p - bitLen m, by omega⟩
  have hfit : m <<< d ≤ f.maxM := by
    obtain ⟨-, -, hlt⟩ := bitLen_shiftLeft_fills hm hd
    rw [h.maxM_eq]
    omega
  have hq : e + bitLen m - 1 - f.p + 1 = e - d := by omega
  have hmax : max (e - d) (f.emin - f.p + 1) = e - d := by omega
  have hround : roundAt rm neg m e false (e - d) = (m <<< d, false) := by
    rw [roundAt_of_le (by omega), show (e - (e - d)).toNat = d by omega]
  have hmin : min (e - d) f.maxE = e - d := by have := h.maxE_eq; have := h.p_eq; omega
  have hle : scaled false (m <<< d) (e - d) (e - d) ≤ scaled false f.maxM f.maxE (e - d) := by
    simp only [scaled, Bool.false_eq_true, if_false, Int.sub_self, Int.toNat_zero, Nat.shiftLeft_zero, Int.ofNat_le]
    rw [Nat.shiftLeft_eq f.maxM]
    exact Nat.le_trans hfit (Nat.le_mul_of_pos_right _ (Nat.two_pow_pos _))
  have hnz : ¬(decide (m = 0) && !false) = true := by rw [decide_eq_false hm]; decide
  simp only [roundFin, hq, hmax, hround, hmin]
  rw [if_neg hnz, if_neg (Int.not_lt.2 hle), show f.p - bitLen m = d by omega, show e + bitLen m - f.p = e - d by omega, Bool.and_false]
  rfl

/-- Moving a significand left under a lower exponent keeps the value. -/
theorem cmpVal_shiftLeft (neg st st' : Bool) (m k : Nat) (e : Int) :
    cmpVal (.fin neg (m <<< k) (e - k) st) (.fin neg m e st') = 0 := by
  have hs : scaled neg (m <<< k) (e - k) (e - k) = scaled neg m e (e - k) := by
    rw [scaled, scaled, Int.sub_self, show (e - (e - k)).toNat = k by omega]
    rfl
  simp only [cmpVal, Int.min_eq_left (show e - (k : Int) ≤ e by omega), hs, Int.sub_self]
  rfl

/-- Rounding a value that fits and decoding the code gives the value back. -/
theorem cmpVal_decodeF_roundFin {f : FFmt} (h : f.Ieee) {fm : Fmt} (hfm : fm ≠ .e4m3) (rm : Rnd) (sat neg : Bool) {m : Nat} {e : Int}
    (hm : m ≠ 0) (hp : bitLen m ≤ f.p) (hlo : f.emin ≤ e + bitLen m - 1) (hhi : e + bitLen m - 1 ≤ f.bias) :
    ∃ m' e', decodeF fm f ((roundFin f rm sat neg m e false).1 % 2 ^ f.bits) = .fin neg m' e' false ∧
      cmpVal (.fin neg m' e' false) (.fin neg m e false) = 0 := by
  obtain ⟨d, hd⟩ : ∃ d, f.p = bitLen m + d := ⟨f.p - bitLen m, by omega⟩
  obtain ⟨hlen, hge, hlt⟩ := bitLen_shiftLeft_fills hm hd
  have hp1 := h.p_eq
  have hemin := h.emin_eq
  have hmax := h.expMax_eq
  rw [hp1, Nat.add_sub_cancel] at hge
  rw [hp1, Nat.pow_succ] at hlt
  refine ⟨m <<< d, e - d, ?_, cmpVal_shiftLeft ..⟩
  rw [roundFin_of_fits h rm sat neg hm hp hlo hhi, show f.p - bitLen m = d by omega, show e + bitLen m - f.p = e - d by omega,
    encodeFin_eq_fieldsCode h neg hlen (by omega), decodeF_fieldsCode h hfm neg (by omega) (by omega) (by omega)]
  congr 1 <;> omega

/-! ### The values of MK8 -/

/-- The exponent P + x or −(N + x) of a region whose x is below w (Table 5-4). -/
theorem mk8Exponent_bounds {s x w p n : Nat} (hx : x < w) (hp : p + w ≤ 15) (hn : n + w ≤ 15) :
    -14 ≤ (if s = 0 then ((p + x : Nat) : Int) else -((n + x : Nat) : Int)) ∧
      (if s = 0 then ((p + x : Nat) : Int) else -((n + x : Nat) : Int)) ≤ 14 := by
  split <;> omega

/-- 05 R72 and Table 5-4: a code with a payload is a significand of f + 1 bits, f at most 5, at an exponent from −14 to 14. -/
theorem decodeMk8_of_payload {b : Nat} (hb : b % 128 ≠ 0) :
    ∃ neg m f, ∃ e : Int, decodeMk8 b = .fin neg m (e - (f : Nat)) false ∧
      2 ^ f ≤ m ∧ m < 2 ^ (f + 1) ∧ f ≤ 5 ∧ -14 ≤ e ∧ e ≤ 14 := by
  have hn : Nat.log2 (b % 128) < 7 := (Nat.log2_lt hb).2 (Nat.mod_lt _ (by decide))
  simp only [decodeMk8, hb, if_false]
  refine ⟨_, _, _, _, rfl, Nat.le_add_right .., ?_, ?_, ?_⟩
  · rw [Nat.pow_succ, Nat.mul_two]
    exact Nat.add_lt_add_left (Nat.mod_lt _ (Nat.two_pow_pos _)) _
  · omega
  · generalize Nat.log2 (b % 128) = n at hn ⊢
    generalize (b % 128 - 2 ^ n) / 2 ^ (n - min (6 - n + 1) n) = exf
    have hx : exf % 2 ^ (min (6 - n + 1) n - 1) < 2 ^ (min (6 - n + 1) n - 1) := Nat.mod_lt _ (Nat.two_pow_pos _)
    generalize exf % 2 ^ (min (6 - n + 1) n - 1) = x at hx ⊢
    by_cases h0 : n = 0
    · rw [if_pos h0]
      decide
    · rw [if_neg h0]
      have hregion : n = 1 ∨ n = 2 ∨ n = 3 ∨ n = 4 ∨ n = 5 ∨ n = 6 := by omega
      obtain rfl | rfl | rfl | rfl | rfl | rfl := hregion
      all_goals exact mk8Exponent_bounds hx (by decide) (by decide)

/-- 05 R73: a format with MK8's six significant bits and its exponents takes every MK8 value exactly, with no flag. -/
theorem roundF_decodeMk8 {f : FFmt} (h : f.Ieee) (hp : 6 ≤ f.p) (hbias : 15 ≤ f.bias) {fm : Fmt} (hfm : fm ≠ .e4m3) (rm : Rnd) (sat : Bool)
    {b : Nat} (hb : b < 256) (hnar : b ≠ 0x80) :
    (roundF fm f rm sat (decodeMk8 b)).2 = 0 ∧
      ∃ neg m e, decodeF fm f ((roundF fm f rm sat (decodeMk8 b)).1 % 2 ^ f.bits) = .fin neg m e false ∧
        cmpVal (.fin neg m e false) (decodeMk8 b) = 0 := by
  by_cases hpay : b % 128 = 0
  · obtain rfl : b = 0 := by omega
    refine ⟨rfl, false, 0, _, decodeF_zero h fm, ?_⟩
    simp [decodeMk8, Val.zero, cmpVal, scaled]
  · obtain ⟨neg, m, fr, e, hdec, hlo, hhi, hfr, helo, hehi⟩ := decodeMk8_of_payload hpay
    have hlen : bitLen m = fr + 1 := bitLen_eq_of_bounds hlo hhi
    have hm : m ≠ 0 := by have := Nat.two_pow_pos fr; omega
    have hemin := h.emin_eq
    have hfits : bitLen m ≤ f.p ∧ f.emin ≤ e - fr + bitLen m - 1 ∧ e - fr + bitLen m - 1 ≤ f.bias := by omega
    obtain ⟨hle, hmin, hmax⟩ := hfits
    rw [hdec]
    exact ⟨congrArg Prod.snd (roundFin_of_fits h rm sat neg hm hle hmin hmax), neg,
      cmpVal_decodeF_roundFin h hfm rm sat neg hm hle hmin hmax⟩

/-! ### MK8 through the conversion instruction -/

theorem mem_fullWidth {f : Fmt} : f ∈ [Fmt.fp16, .bf16, .fp32, .fp64] ↔ f = .fp16 ∨ f = .bf16 ∨ f = .fp32 ∨ f = .fp64 := by simp

section
variable {f : Fmt} (hf : f ∈ [Fmt.fp16, .bf16, .fp32, .fp64])
include hf

/-- Table 5-1: the full-width formats hold MK8's significant bits and exponents. -/
theorem ffmt_of_fullWidth : ∃ ff, ffmt f = some ff ∧ ff.Ieee ∧ 6 ≤ ff.p ∧ 15 ≤ ff.bias := by
  obtain rfl | rfl | rfl | rfl := mem_fullWidth.1 hf
  · exact ⟨_, rfl, fp16_ieee, by decide, by decide⟩
  · exact ⟨_, rfl, bf16_ieee, by decide, by decide⟩
  · exact ⟨_, rfl, fp32_ieee, by decide, by decide⟩
  · exact ⟨_, rfl, fp64_ieee, by decide, by decide⟩

theorem decodeFmt_of_fullWidth {ff : FFmt} (hff : ffmt f = some ff) (c : Nat) : decodeFmt f c = decodeF f ff (c % 2 ^ ff.bits) := by
  obtain rfl | rfl | rfl | rfl := mem_fullWidth.1 hf <;> cases hff <;> rfl

/-- A full-width result is the rounded value of the source element, in its whole register or pair. -/
theorem cvt_mk8_of_fullWidth {ff : FFmt} (hff : ffmt f = some ff) (rm : Rnd) (sat : Bool) (el x : Nat) :
    cvt f .mk8 rm sat el x = roundF f ff rm sat (decodeMk8 (x / 2 ^ (8 * el) % 256)) := by
  obtain rfl | rfl | rfl | rfl := mem_fullWidth.1 hf <;> cases hff <;> rfl

theorem cvt_mk8_exact (rm : Rnd) (sat : Bool) (el x : Nat) (hnar : x / 2 ^ (8 * el) % 256 ≠ 0x80) :
    (cvt f .mk8 rm sat el x).2 = 0 ∧ (decodeFmt f (cvt f .mk8 rm sat el x).1).isNan = false ∧
      (decodeFmt f (cvt f .mk8 rm sat el x).1).isInf = false ∧
      cmpVal (decodeFmt f (cvt f .mk8 rm sat el x).1) (decodeMk8 (x / 2 ^ (8 * el) % 256)) = 0 := by
  obtain ⟨ff, hff, hieee, hp, hbias⟩ := ffmt_of_fullWidth hf
  have hfm : f ≠ .e4m3 := by rintro rfl; simp at hf
  obtain ⟨hfl, neg, m, e, hdec, hcmp⟩ := roundF_decodeMk8 hieee hp hbias hfm rm sat (Nat.mod_lt _ (by decide)) hnar
  rw [decodeFmt_of_fullWidth hf hff, cvt_mk8_of_fullWidth hf hff, hdec]
  exact ⟨hfl, rfl, rfl, hcmp⟩

/-- Table 5-8: NaR gives the canonical NaN, with no flag. -/
theorem cvt_mk8_of_nar (rm : Rnd) (sat : Bool) (el x : Nat) (hnar : x / 2 ^ (8 * el) % 256 = 0x80) :
    cvt f .mk8 rm sat el x = (canonNan f, 0) := by
  obtain ⟨ff, hff, -⟩ := ffmt_of_fullWidth hf
  rw [cvt_mk8_of_fullWidth hf hff, hnar]
  rfl

end

/-! ### The values of S8 -/

/-- 05 R75: (1 + m ÷ 8) × 2^(e − 15) in units of 2^−18 is (8 + m) × 2^e. -/
theorem decodeS8_of_ne {b : BitVec 8} (hb : b ≠ 0xFF) :
    decodeS8 b.toNat = .fin false (8 + (b &&& 7).toNat) ((b >>> 3).toNat - 18) false := by
  have hm : b.toNat % 8 = (b &&& 7).toNat := by
    rw [BitVec.toNat_and]
    exact (Nat.and_two_pow_sub_one_eq_mod b.toNat 3).symm
  have he : b.toNat / 8 % 32 = (b >>> 3).toNat := by
    rw [BitVec.toNat_ushiftRight, Nat.shiftRight_eq_div_pow]
    omega
  have hne : ¬ b.toNat % 256 = 255 := by bv_omega
  rw [decodeS8, if_neg hne, hm, he]

theorem scaled_of_eq_add (m : Nat) {e u : Int} {k : Nat} (he : e = u + k) : scaled false m e u = m * 2 ^ k := by
  rw [scaled, show (e - u).toNat = k by omega, Nat.shiftLeft_eq, if_neg Bool.false_ne_true, Int.natCast_mul, Int.natCast_pow]
  rfl

/-- Settles O54: a format that holds MK8's significant bits and exponents keeps each value, whatever the mode; the S8 codes by their
fields. -/
theorem formats : Obligations.Formats := by
  unfold Obligations.Formats
  refine ⟨fun rm sat el x _ => ⟨fun hnar f hf => cvt_mk8_exact hf rm sat el x hnar, fun hnar => ?_⟩, by decide, rfl,
    fun b => ⟨?_, fun hb => ?_⟩⟩
  · have canon {f : Fmt} (hf : f ∈ [Fmt.fp16, .bf16, .fp32, .fp64]) := cvt_mk8_of_nar hf rm sat el x hnar
    exact ⟨canon (by decide), canon (by decide), canon (by decide), canon (by decide)⟩
  · rintro rfl
    rfl
  · refine ⟨_, _, decodeS8_of_ne hb, by omega, ?_⟩
    rw [scaled_of_eq_add (k := (b >>> 3).toNat) _ (by omega)]
    push_cast
    rfl

end Sys2Proof.Machine

/-! PROOFS. O2: each form of group 0x01 computes one word per lane, so `compute_result` gives its frame, and what is left is the
word: a whole-word identity (`exists_result32`) or its bits (`exists_bitResult`), each said by the value laws of Table 6-4. -/

namespace Sys2Proof.Machine

section
variable {k : Ctl} {s : State} {a : Opnd} {i : Instr} {lat : Nat} {f : State → Nat × Nat → Word}

/-- An instruction of the 32-bit shape completes with the word that its lanes compute. -/
theorem exists_result32 {g : Nat × Nat → Word} (hexec : exec i s = .next (compute k lat a f s)) (hval : ∀ m, f s m = g m) :
    ∃ t, exec i s = .next t ∧ Result32 k s t a g :=
  ⟨_, hexec, (compute_result k lat a f s).congr hval⟩

/-- The same where the word is given bit by bit. -/
theorem exists_bitResult {g : Nat × Nat → Nat → Bool} (hexec : exec i s = .next (compute k lat a f s))
    (hbits : ∀ m, ∀ j < 32, (f s m).getLsbD j = g m j) : ∃ t, exec i s = .next t ∧ BitResult k s t a g :=
  ⟨_, hexec, f s, hbits, compute_result k lat a f s⟩

end

/-! ### Fields and rotations by their bits (06 Table 6-4) -/

theorem getLsbD_rotateLeft_mod (x c : Word) {i : Nat} (hi : i < 32) :
    (x.rotateLeft (c.toNat % 32)).getLsbD i = x.getLsbD ((i + 32 - c.toNat % 32) % 32) :=
  getLsbD_rotL x _ i hi (Nat.mod_lt _ (by decide))

theorem getLsbD_rotateRight_mod (x c : Word) {i : Nat} (hi : i < 32) :
    (x.rotateRight (c.toNat % 32)).getLsbD i = x.getLsbD ((i + c.toNat) % 32) := by
  rw [getLsbD_rotR x _ i hi (Nat.mod_lt _ (by decide)), Nat.add_mod_mod]

/-- Without .s32 the bits above the field are 0, and so are the field's bits at positions of 32 or more. -/
theorem getLsbD_bfe_unsigned (b c : Word) {i : Nat} (hi : i < 32) : (bfe false b c).getLsbD i =
    (decide (i < c.toNat / 256 % 256) && b.getLsbD (c.toNat % 256 + i)) := by
  rw [getLsbD_bfe false b c i hi]
  generalize c.toNat % 256 = pos
  generalize c.toNat / 256 % 256 = len
  by_cases hl : i < len
  · have hfield : min i (len - 1) + pos = pos + i := by omega
    by_cases h32 : pos + i < 32
    · simp [hl, hfield, h32, Nat.zero_lt_of_lt hl]
    · simp [hl, hfield, h32, BitVec.getLsbD_of_ge b _ (Nat.le_of_not_lt h32)]
  · simp [hl]

/-- Under .s32 the bits above the field repeat its top bit. -/
theorem getLsbD_bfe_signed (b c : Word) {i : Nat} (hi : i < 32) : (bfe true b c).getLsbD i =
    (let j := min i (c.toNat / 256 % 256 - 1) + c.toNat % 256
     decide (0 < c.toNat / 256 % 256) && if j < 32 then b.getLsbD j else b.msb) := by
  simp only [getLsbD_bfe true b c i hi, Bool.true_or, Bool.and_true, Bool.true_and]

/-- Settles O2: every form has the 32-bit shape, and the value law that each line cites gives its word. -/
theorem logicAndBits : Obligations.LogicAndBits := by
  unfold Obligations.LogicAndBits
  intro k a b c d s x y z _ _
  obtain ⟨n, hclz⟩ := Classical.skolem.1 fun m => clz_spec (x m)
  obtain ⟨t, hexec, hcount⟩ := exists_result32 (i := .clz k a b) rfl fun m => (hclz m).1
  exact ⟨exists_result32 rfl fun _ => rfl,
    exists_result32 rfl fun _ => rfl,
    exists_result32 rfl fun _ => rfl,
    exists_result32 rfl fun _ => rfl,
    exists_result32 rfl fun _ => rfl,
    exists_result32 rfl fun m => shiftL_eq (x m) (y m),
    exists_result32 rfl fun m => shiftR_eq (x m) (y m),
    exists_result32 rfl fun m => shiftA_eq (x m) (y m),
    exists_bitResult rfl fun m _ => getLsbD_rotateLeft_mod (x m) (y m),
    exists_bitResult rfl fun m _ => getLsbD_rotateRight_mod (x m) (y m),
    exists_bitResult rfl fun m _ => getLsbD_bfe_unsigned (x m) (y m),
    exists_bitResult rfl fun m _ => getLsbD_bfe_signed (x m) (y m),
    exists_bitResult rfl fun m => getLsbD_bfi (x m) (y m) (z m),
    exists_result32 rfl fun _ => rfl,
    ⟨t, hexec, n, fun m => (hclz m).2, hcount⟩,
    exists_bitResult rfl fun m => getLsbD_brev (x m),
    fun tt => exists_bitResult rfl fun m => getLsbD_tern tt (x m) (y m) (z m),
    exists_bitResult rfl fun m => getLsbD_perm (x m) (y m) (z m)⟩

end Sys2Proof.Machine

/-! PROOFS. O8: a transfer of control whose targets all land is the step to the next instruction, then one program counter per lane
(`transfer_goes`); CALL is that after a 64-bit register instruction, whose frame and result the program counters leave alone. -/

namespace Sys2Proof.Machine

section
variable {k : Ctl} {s t u : State} {V P S : List Nat} {fl : Bool} {act : List (Nat × Nat)} {tgt : Nat × Nat → Int} {also : State → State}

/-! ### Transfers that land (08 R154) -/

/-- A transfer beside no other effect: the lanes that transfer stand at their targets, every other issuing thread goes on. -/
theorem transfer_goes (hland : ∀ m ∈ act, (tgt m % 12 == 0 && inCode s s.cur.g m.2 (tgt m)) = true) :
    ∃ t, transfer s (act.map fun m => (m, tgt m)) id = .next t ∧ EachThread s t s.cur.g (Claims.goes s act fun m => (tgt m).toNat) := by
  obtain ⟨t, htransfer, heach⟩ := transfer_ok s act tgt id hland (advance_each s).only.cur
  refine ⟨t, htransfer, ((advance_each s).trans heach).congr fun m _ => ?_⟩
  unfold Claims.goes
  by_cases hact : m ∈ act <;> by_cases hmem : m ∈ s.cur.members <;> simp [hact, hmem]

theorem transfer_of_lands (hland : ∀ m ∈ act, (tgt m % 12 == 0 && inCode s s.cur.g m.2 (tgt m)) = true) :
    transfer s (act.map fun m => (m, tgt m)) also = .next (act.foldl (fun t m => setPc t m (tgt m).toNat) (also (advance s))) := by
  have hfails : (act.map fun m => (m, tgt m)).filterMap (fun x => landFail s x.1 x.2) = [] := by
    rw [List.filterMap_map, List.filterMap_eq_nil_iff]
    intro m hm
    exact if_pos (hland m hm)
  simp only [transfer, hfails, List.isEmpty_nil, Bool.not_true, Bool.false_eq_true, if_false, List.foldl_map]

theorem KeepRegs.setPc (h : KeepRegs k s t V P S fl) {m : Nat × Nat} (hm : m ∈ s.cur.members) (pc : Nat) :
    KeepRegs k s (Machine.setPc t m pc) V P S fl := by
  unfold Machine.setPc
  rw [h.cur]
  exact h.modThread hm (fun x => { x with pc := pc }) (fun _ => rfl) (fun _ _ _ => rfl) (fun _ _ _ => rfl) (fun _ _ => rfl)
    (.inr fun _ => rfl)

/-- A transfer moves program counters of issuing threads only, whatever else the instruction has changed. -/
theorem KeepRegs.transfer (h : KeepRegs k s (also (advance s)) V P S fl) (hact : ∀ m ∈ act, m ∈ s.cur.members)
    (hland : ∀ m ∈ act, (tgt m % 12 == 0 && inCode s s.cur.g m.2 (tgt m)) = true)
    (ht : Machine.transfer s (act.map fun m => (m, tgt m)) also = .next t) : KeepRegs k s t V P S fl := by
  rw [transfer_of_lands hland] at ht
  obtain rfl := Host.Outcome.next.inj ht
  exact foldl_keeps (fun t => KeepRegs k s t V P S fl) _ _ (fun _ m hm ht => ht.setPc (hact m hm) _) _ h

/-- A 64-bit result in vector registers stands where threads change outside their vector registers. -/
theorem Holds64.eachThread {a : Opnd} {x : Nat × Nat → DWord} {f : Nat × Nat → Thread → Thread} (ha : VDest a)
    (h : Holds64 k s u a x) (e : EachThread u t s.cur.g f) (hf : ∀ m y, (f m y).vr = y.vr)
    (hu : ∀ m, s.hasThread s.cur.g m → u.hasThread s.cur.g m) : Holds64 k s t a x := by
  rcases ha with rfl | ⟨n, rfl⟩
  · trivial
  · intro m hm hth
    have hraw (r : Nat) : vraw (t.thread s.cur.g m.2 m.1) r = vraw (u.thread s.cur.g m.2 m.1) r := by
      simp only [vraw, e.thread m (hu m hth), hf]
    simpa only [hraw] using h m hm hth

end

/-! ### CALL (08 R155) -/

/-- The link address that CALL leaves in its pair. -/
def callLink (s : State) : DWord := BitVec.ofNat 64 (s.cur.pc + 12)

theorem exec_call_eq (k : Ctl) {a : Opnd} (ha : VDest a) (off : Word) (s : State) :
    exec (.call k a off) s =
      transfer s ((actives k s).map fun m => (m, branchTo s.cur.pc off)) fun _ => compute64 k 1 a (fun _ _ => callLink s) s := by
  rcases ha with rfl | ⟨n, rfl⟩ <;> rfl

/-- CALL writes its link pair and moves the threads whose guard is true; nothing else changes. -/
theorem exec_call_of_lands {k : Ctl} {a : Opnd} {off : Word} {s : State} (ha : VDest a)
    (hland : ∀ m ∈ actives k s, (branchTo s.cur.pc off % 12 == 0 && inCode s s.cur.g m.2 (branchTo s.cur.pc off)) = true) :
    ∃ t, exec (.call k a off) s = .next t ∧ KeepRegs k s t (destV 2 a) [] [] false ∧ Holds64 k s t a (fun _ => callLink s) ∧
      ∀ m ∈ s.cur.members, s.hasThread s.cur.g m →
        (t.thread s.cur.g m.2 m.1).pc = if m ∈ actives k s then (branchTo s.cur.pc off).toNat else s.cur.pc + 12 := by
  have hlink := compute64_result k 1 a (fun _ _ => callLink s) s
  have hU : destU 2 a = [] := by rcases ha with rfl | ⟨n, rfl⟩ <;> rfl
  have hkeep := hlink.frame.keep
  rw [hU] at hkeep
  have hth (m : Nat × Nat) (hm : s.hasThread s.cur.g m) := (hkeep.hasThread m).2 hm
  obtain ⟨t, ht, heach⟩ := transfer_ok s (actives k s) (fun _ => branchTo s.cur.pc off)
    (fun _ => compute64 k 1 a (fun _ _ => callLink s) s) hland hkeep.cur
  refine ⟨t, (exec_call_eq k ha off s).trans ht, KeepRegs.transfer hkeep (fun _ => mem_actives) hland ht,
    hlink.value.eachThread ha heach (fun m y => by split <;> rfl) hth, fun m hm hmth => ?_⟩
  rw [heach.thread m (hth m hmth)]
  split
  · rfl
  · exact hlink.frame.pc m.1 m.2 hm hmth

/-! ### BRU (08 R154) -/

/-- BRU whose guard does not differ transfers as BRA does. -/
theorem exec_bru_of_uniform {k : Ctl} {s : State} (h : actives k s = [] ∨ (actives k s).length = s.cur.members.length) (off : Word) :
    exec (.bru k off) s = exec (.bra k off) s := by
  show execBru k off s = execBra k off s
  unfold execBru execBra
  refine if_neg fun hdiff => ?_
  rcases h with h | h <;> simp [h] at hdiff

theorem exec_bru_of_differing {k : Ctl} {s : State} (hne : actives k s ≠ []) (hlen : (actives k s).length ≠ s.cur.members.length)
    (off : Word) : exec (.bru k off) s = .next (trapNow s 0x07 0 s.cur.members) := by
  show execBru k off s = _
  unfold execBru
  exact if_pos (by simp [hne, hlen])

/-- Settles O8: every branch is a transfer, which moves its lanes where all targets land and traps where one does not. -/
theorem branches : Obligations.Branches := by
  unfold Obligations.Branches
  intro k a b off s
  refine ⟨fun hland => ⟨transfer_goes hland, fun huni => ?_, fun ha => exec_call_of_lands ha hland⟩,
    fun hland => transfer_goes hland, fun hmiss => ?_, fun hmiss => transfer_bad s _ _ id hmiss,
    fun hne hlen => exec_bru_of_differing hne hlen off⟩
  · rw [exec_bru_of_uniform huni]
    exact transfer_goes hland
  · have hbra : exec (.bra k off) s = _ := transfer_bad s (actives k s) (fun _ => branchTo s.cur.pc off) id hmiss
    exact ⟨hbra, fun hlen => (exec_bru_of_uniform (.inr hlen) off).trans hbra,
      fun ha => (exec_call_eq k ha off s).trans (transfer_bad s _ _ _ hmiss)⟩

end Sys2Proof.Machine

/-! PROOFS. O10: NOP, LAND, YIELD and BRK are the step to the next instruction with one more update of threads or of the wave's record.
EXIT runs much more: it clears masks, sets and barriers, may trap held threads, and may end its group. What makes its law hold is
`KeepsExits`: no operation of it takes a thread away or brings an exited thread back. -/

namespace Sys2Proof.Machine

/-! ### Operations that leave every group as it was -/

section
variable {s : State}

theorem foldl_groups {β : Type} {f : State → β → State} (hf : ∀ t b, (f t b).groups = t.groups) (l : List β) :
    (l.foldl f s).groups = s.groups :=
  foldl_keeps (fun t => t.groups = s.groups) f l (fun t b _ ht => (hf t b).trans ht) s rfl

@[simp] theorem State.write_groups (sp : Space) (a : Nat) (bs : List Byte) : (s.write sp a bs).groups = s.groups := by
  cases sp <;> rfl

@[simp] theorem State.engineWrite_groups (sp : Space) (a : Nat) (bs : List Byte) : (s.engineWrite sp a bs).groups = s.groups :=
  State.write_groups sp a bs

@[simp] theorem State.rawWrite_groups (ctx va : Nat) (bs : List Byte) : (s.rawWrite ctx va bs).groups = s.groups := by
  unfold State.rawWrite
  generalize spansOf va bs.length = rs
  induction rs generalizing s bs with
  | nil => rfl
  | cons r rs ih =>
    refine (ih _).trans ?_
    split
    · exact State.engineWrite_groups ..
    · rfl

@[simp] theorem writeLeaf_groups (a n : Nat) (f : Nat → Nat) : (writeLeaf s a n f).groups = s.groups :=
  foldl_groups (fun _ _ => State.write_groups ..) _

@[simp] theorem dropTlb_groups (ctx va : Nat) (len : Option Nat) : (dropTlb s ctx va len).groups = s.groups := rfl

@[simp] theorem bumpS2_groups : (bumpS2 s).groups = s.groups :=
  foldl_groups (by intro t d; rfl) _

@[simp] theorem editLeaf_groups (ctx va : Nat) (f : Nat → Nat) : (editLeaf s ctx va f).groups = s.groups := by
  unfold editLeaf
  split
  · exact writeLeaf_groups ..
  · rfl

@[simp] theorem dlogWrite_groups (ctx : Nat) (second : Bool) (addr szc : Nat) : (dlogWrite s ctx second addr szc).groups = s.groups := by
  cases second <;> simp only [dlogWrite, Bool.false_eq_true, if_false, if_true] <;> split <;>
    exact (State.modCtx_groups ..).trans (State.rawWrite_groups ..)

@[simp] theorem logPage_groups (ctx va : Nat) : (logPage s ctx va).groups = s.groups := by
  unfold logPage
  split
  · dsimp only
    split <;> split <;> simp
  · rfl

@[simp] theorem State.sysWrite_groups (ctx va : Nat) (bs : List Byte) : (s.sysWrite ctx va bs).groups = s.groups := by
  unfold State.sysWrite
  generalize spansOf va bs.length = rs
  induction rs generalizing s bs with
  | nil => rfl
  | cons r rs ih =>
    refine (ih _).trans ?_
    split
    · rw [State.engineWrite_groups, logPage_groups]
    · exact logPage_groups ..

@[simp] theorem haltCtx_groups (ctx : Nat) : (haltCtx s ctx).groups = s.groups := rfl

@[simp] theorem putErr_groups (ctx : Nat) (r : List Byte) (rep : Option (Nat × Nat)) : (putErr s ctx r rep).groups = s.groups := by
  cases rep with
  | none => exact State.sysWrite_groups ..
  | some x => exact (State.sysWrite_groups ..).trans (State.sysWrite_groups ..)

@[simp] theorem ctxErr_groups (ctx kind b2 b3 w4 d8 d16 gref : Nat) : (ctxErr s ctx kind b2 b3 w4 d8 d16 gref).groups = s.groups := by
  unfold ctxErr pushErr
  dsimp only
  split
  · rfl
  · exact putErr_groups ..

@[simp] theorem nteEdit_groups (ctx num : Nat) (f : Nat → Nat) : (nteEdit s ctx num f).groups = s.groups := by
  unfold nteEdit
  split <;> rfl

@[simp] theorem ctrEdit_groups (ctx slot : Nat) (f : Nat → Nat) : (ctrEdit s ctx slot f).groups = s.groups := State.sysWrite_groups ..

@[simp] theorem closeLaunch_groups (ctx h : Nat) : (closeLaunch s ctx h).groups = s.groups := rfl

@[simp] theorem levelCheck_groups (n ctx h : Nat) : (levelCheck n s ctx h).groups = s.groups := by
  induction n generalizing s h with
  | zero => rfl
  | succ n ih =>
    unfold levelCheck
    dsimp only
    split
    · split
      · rw [ih]
        split <;> simp
      · simp
    · rfl

@[simp] theorem levelEdit_groups (ctx h : Nat) (f : Nat → Nat) : (levelEdit s ctx h f).groups = s.groups := by
  unfold levelEdit
  split
  · rw [levelCheck_groups, ctrEdit_groups]
  · rfl

@[simp] theorem outAdd_groups (ctx h : Nat) (d : Int) : (outAdd s ctx h d).groups = s.groups := levelEdit_groups ..

@[simp] theorem valAdd_groups (ctx h : Nat) : (valAdd s ctx h).groups = s.groups := levelEdit_groups ..

@[simp] theorem resolveJoins_groups (ctx num : Nat) (grp : Bool) (t : Nat) (v : Word) :
    (resolveJoins s ctx num grp t v).groups = s.groups := rfl

@[simp] theorem keepJoin_groups (g t : Nat) (v : Word) : (keepJoin s g t v).groups = s.groups := State.sysWrite_groups ..

@[simp] theorem cancelDone_groups (ctx h : Nat) : (cancelDone s ctx h).groups = s.groups := by
  unfold cancelDone
  dsimp only
  split
  · split <;> simp
  · rfl

end

/-! ### Exited threads stay exited -/

/-- No thread goes away, and one that has exited stays exited. -/
structure KeepsExits (s t : State) : Prop where
  hasThread : ∀ g m, s.hasThread g m → t.hasThread g m
  exited : ∀ g m, s.hasThread g m → (s.thread g m.2 m.1).st = .exited → (t.thread g m.2 m.1).st = .exited

/-- A thread update that brings no exited thread back. -/
def ExitSafe (h : Thread → Thread) : Prop := ∀ t, t.st = .exited → (h t).st = .exited

/-- Each home wave of a group maps its threads by an update that brings no exited thread back. -/
def Group.MapsExits (x y : Group) : Prop :=
  y.waves.length = x.waves.length ∧
    ∀ w < x.waves.length, ∃ h, ExitSafe h ∧ (y.waves.getD w {}).threads = (x.waves.getD w {}).threads.map h

theorem exitSafe_id : ExitSafe id := fun _ h => h

theorem Group.MapsExits.of_waves {x y : Group} (h : y.waves = x.waves) : x.MapsExits y :=
  ⟨by rw [h], fun w _ => ⟨id, exitSafe_id, by rw [h, List.map_id]⟩⟩

section
variable {s t u : State}

theorem KeepsExits.refl (s : State) : KeepsExits s s := ⟨fun _ _ h => h, fun _ _ _ h => h⟩

theorem KeepsExits.trans (a : KeepsExits s t) (b : KeepsExits t u) : KeepsExits s u :=
  ⟨fun g m h => b.hasThread g m (a.hasThread g m h),
    fun g m h hst => b.exited g m (a.hasThread g m h) (a.exited g m h hst)⟩

theorem getD_map_of_lt {α β : Type} (f : α → β) {l : List α} {i : Nat} (hi : i < l.length) (d : α) (d' : β) :
    (l.map f).getD i d' = f (l.getD i d) := by
  simp only [List.getD_eq_getElem?_getD, List.getElem?_map, List.getElem?_eq_getElem hi, Option.map_some, Option.getD_some]

theorem KeepsExits.of_mapsExits (h : ∀ g, (s.group g).MapsExits (t.group g)) : KeepsExits s t := by
  have hwave (g w : Nat) (hw : s.hasWave g w) : ∃ f, ExitSafe f ∧ (t.wave g w).threads = (s.wave g w).threads.map f := (h g).2 w hw
  refine ⟨fun g m ⟨hw, hl⟩ => ⟨(h g).1.symm ▸ hw, ?_⟩, fun g m ⟨hw, hl⟩ hst => ?_⟩ <;> obtain ⟨f, hf, hmap⟩ := hwave g m.2 hw
  · rwa [hmap, List.length_map]
  · rw [State.thread, hmap, getD_map_of_lt f hl {}]
    exact hf _ hst

theorem KeepsExits.of_groups (h : t.groups = s.groups) : KeepsExits s t :=
  .of_mapsExits fun g => .of_waves (by rw [State.group, h, ← State.group])

theorem KeepsExits.foldl {β : Type} {f : State → β → State} {l : List β} (hf : ∀ t, ∀ b ∈ l, KeepsExits t (f t b)) :
    KeepsExits s (l.foldl f s) :=
  foldl_keeps (KeepsExits s) f l (fun t b hb ht => ht.trans (hf t b hb)) s (.refl s)

/-! ### Updates of groups, waves and threads -/

theorem keepsExits_modGroup (g : Nat) {f : Group → Group} (hf : ∀ x : Group, x.MapsExits (f x)) : KeepsExits s (s.modGroup g f) := by
  refine .of_mapsExits fun h => ?_
  cases hg : mget s.groups g with
  | none =>
    rw [State.group_modGroup_none s g h f hg]
    exact .of_waves rfl
  | some x =>
    rw [State.group_modGroup s g h f (by rw [hg]; rfl)]
    split
    · subst h
      exact hf _
    · exact .of_waves rfl

theorem keepsExits_modGroup_of_waves (g : Nat) {f : Group → Group} (hf : ∀ x, (f x).waves = x.waves) : KeepsExits s (s.modGroup g f) :=
  keepsExits_modGroup g fun x => .of_waves (hf x)

theorem keepsExits_modWave (g w : Nat) {f : Wave → Wave} {h : Thread → Thread} (hs : ExitSafe h)
    (hf : ∀ v, (f v).threads = v.threads.map h) : KeepsExits s (s.modWave g w f) := by
  refine keepsExits_modGroup g fun x => ⟨length_lmod .., fun v hv => ?_⟩
  dsimp only
  rw [getD_lmod]
  split
  · next hc => exact ⟨h, hs, by rw [hf, hc.1]⟩
  · exact ⟨id, exitSafe_id, (List.map_id _).symm⟩

theorem keepsExits_modWave_of_threads (g w : Nat) {f : Wave → Wave} (hf : ∀ v, (f v).threads = v.threads) :
    KeepsExits s (s.modWave g w f) :=
  keepsExits_modWave g w exitSafe_id fun v => by rw [hf, List.map_id]

theorem keepsExits_modThread (g w l : Nat) {f : Thread → Thread} (hf : ExitSafe f) : KeepsExits s (s.modThread g w l f) := by
  refine ⟨fun h m hm => (State.hasThread_modThread ..).2 hm, fun h m hm hst => ?_⟩
  rw [State.thread_modThread]
  split
  · next hc =>
    obtain ⟨rfl, rfl, rfl, -⟩ := hc
    exact hf _ hst
  · exact hst

/-! ### Traps (14 R312 to R315) -/

theorem exitSafe_enterThread (hentry : Nat) : ExitSafe (enterThread hentry) := fun t h => by simp [enterThread, h]

theorem keepsExits_enterWave (g w : Nat) (t : Trp) : KeepsExits s (enterWave s g w t) := by
  unfold enterWave
  dsimp only
  split
  · exact .of_groups ((ctxErr_groups ..).trans (haltCtx_groups _))
  · split
    · exact .of_groups ((ctxErr_groups ..).trans ((haltCtx_groups _).trans (State.sysWrite_groups ..)))
    · refine KeepsExits.trans ?_ (keepsExits_modWave g w (exitSafe_enterThread _) fun _ => rfl)
      exact .of_groups ((State.sysWrite_groups ..).trans (State.sysWrite_groups ..))

theorem keepsExits_takeTrap (g : Nat) (t : Trp) : KeepsExits s (takeTrap s g t) :=
  .foldl fun _ w _ => (keepsExits_modGroup_of_waves g (f := fun x => dissolve x w) fun _ => rfl).trans (keepsExits_enterWave g w t)

theorem exitSafe_markTrap (cause sub : Nat) (p : Hold → Bool) : ExitSafe (markTrap cause sub p) := fun _ h => h

theorem keepsExits_markHeld (g cause sub : Nat) (inWave : Nat → Bool) (p : Hold → Bool) :
    KeepsExits s (markHeld s g cause sub inWave p) := by
  refine keepsExits_modGroup g fun x => ⟨by simp, fun w hw => ?_⟩
  simp only [List.getD_eq_getElem?_getD, List.getElem?_map, List.getElem?_zipIdx, List.getElem?_eq_getElem hw, Option.map_some,
    Option.getD_some]
  split
  · exact ⟨_, exitSafe_markTrap cause sub p, rfl⟩
  · exact ⟨id, exitSafe_id, (List.map_id _).symm⟩

theorem keepsExits_unhold (g : Nat) (ls : List (Nat × Nat)) : KeepsExits s (unhold s g ls) :=
  .foldl fun _ m _ => keepsExits_modThread g m.2 m.1 fun t h => by simp [h]

theorem keepsExits_takeHeldTraps (g : Nat) : KeepsExits s (takeHeldTraps s g) := by
  refine .foldl fun t w _ => ?_
  dsimp only
  split
  · refine KeepsExits.trans ?_ (keepsExits_takeTrap g _)
    exact (keepsExits_unhold g _).trans (.of_groups rfl)
  · exact .refl _

theorem keepsExits_trapHeld (g cause sub : Nat) (inWave : Nat → Bool) (p : Hold → Bool) :
    KeepsExits s (trapHeld s g cause sub inWave p) :=
  (keepsExits_markHeld g cause sub inWave p).trans (keepsExits_takeHeldTraps g)

/-! ### What an exiting thread leaves (08 R162) -/

theorem keepsExits_modConv (g w c : Nat) (f : Conv → Conv) : KeepsExits s (modConv s g w c f) :=
  keepsExits_modWave_of_threads g w fun _ => rfl

theorem exitSafe_freeWaiter (p : Hold → Bool) : ExitSafe (freeWaiter p) := fun t h => by
  simp only [freeWaiter, h, reduceCtorEq, false_and, if_false]
  split
  · rfl
  · exact h

theorem keepsExits_freeWaiters (g w : Nat) (p : Hold → Bool) : KeepsExits s (freeWaiters s g w p) :=
  keepsExits_modWave g w (exitSafe_freeWaiter p) fun _ => rfl

theorem keepsExits_leaveConv (g : Nat) (m : Nat × Nat) (c : Nat) : KeepsExits s (leaveConv s g m c) := by
  unfold leaveConv
  dsimp only
  split
  · exact .refl s
  · split
    · exact (keepsExits_modConv ..).trans (keepsExits_trapHeld ..)
    · split
      · exact (keepsExits_modConv ..).trans (keepsExits_freeWaiters ..)
      · exact keepsExits_modConv ..

theorem keepsExits_leaveAllConv (g : Nat) (m : Nat × Nat) : KeepsExits s (leaveAllConv s g m) :=
  .foldl fun _ c _ => keepsExits_leaveConv g m c

theorem keepsExits_leaveAllRcv (g : Nat) (m : Nat × Nat) : KeepsExits s (leaveAllRcv s g m) :=
  .foldl fun _ _ _ => keepsExits_modWave_of_threads g m.2 fun _ => rfl

theorem keepsExits_coverThread (g : Nat) (m : Nat × Nat) : KeepsExits s (coverThread s g m) := by
  unfold coverThread
  dsimp only
  split
  · exact .refl s
  · exact keepsExits_modGroup_of_waves g fun _ => rfl

theorem keepsExits_eventDue (g : Nat) : KeepsExits s (eventDue s g) := by
  unfold eventDue
  dsimp only
  split
  · exact keepsExits_modGroup_of_waves g fun _ => rfl
  · exact .refl s

/-! ### The death of a group (08 R135, 11 R217) -/

theorem keepsExits_setPlace (g : Nat) (p : Place) : KeepsExits s (setPlace s g p) := by
  have hplace : KeepsExits s (s.modGroup g fun x => { x with place := p }) := keepsExits_modGroup_of_waves g fun _ => rfl
  unfold setPlace
  dsimp only
  split
  · exact hplace
  · exact hplace
  · exact hplace.trans (.of_groups (nteEdit_groups ..))

theorem keepsExits_die (g : Nat) : KeepsExits s (die s g) := by
  unfold die
  dsimp only
  refine KeepsExits.trans ?_ (.of_groups (foldl_groups (fun _ _ => cancelDone_groups ..) _))
  refine KeepsExits.trans ?_ (keepsExits_modGroup_of_waves g fun _ => rfl)
  refine (keepsExits_setPlace g .dead).trans (.of_groups ?_)
  exact (foldl_groups (fun _ _ => outAdd_groups ..) _).trans (nteEdit_groups ..)

theorem keepsExits_checkDead (g : Nat) : KeepsExits s (checkDead s g) := by
  unfold checkDead
  dsimp only
  split
  · exact keepsExits_die g
  · exact .refl s

/-! ### EXIT (08 R162) -/

/-- The update of the thread that exits. -/
def endThread (join : Word) (t : Thread) : Thread := { t with st := .exited, hold := .none, join := join, joinOp := none, hf := false }

/-- A thread that has not exited ends, and all that follows keeps exits. -/
theorem exitThread_cases (s : State) (g : Nat) (m : Nat × Nat) (join : Word) :
    ((s.thread g m.2 m.1).st = .exited ∧ exitThread s g m join = s) ∨
      KeepsExits (s.modThread g m.2 m.1 (endThread join)) (exitThread s g m join) := by
  unfold exitThread
  dsimp only
  split
  · next h => exact .inl ⟨h, rfl⟩
  · refine .inr (KeepsExits.trans ?_ (keepsExits_eventDue g))
    refine KeepsExits.trans ?_ (.of_groups ((resolveJoins_groups ..).trans (keepJoin_groups ..)))
    refine KeepsExits.trans (KeepsExits.trans ?_ (keepsExits_leaveAllRcv g m)) (keepsExits_leaveAllConv g m)
    have hbars : KeepsExits (s.modThread g m.2 m.1 (endThread join)) _ := keepsExits_modGroup_of_waves g
      (f := fun x => { x with bars := x.bars.map fun b => (b.1, exitBar (s.thread g m.2 m.1) b.1 b.2) }) fun _ => rfl
    split
    · exact hbars
    · exact hbars.trans (keepsExits_coverThread g m)

theorem keepsExits_exitNow (s : State) (g : Nat) (m : Nat × Nat) (join : Word) : KeepsExits s (exitNow s g m join) := by
  refine KeepsExits.trans ?_ (keepsExits_checkDead g)
  rcases exitThread_cases s g m join with ⟨-, hsame⟩ | hkeeps
  · rw [hsame]
    exact .refl s
  · exact (keepsExits_modThread g m.2 m.1 fun _ _ => rfl).trans hkeeps

theorem exitNow_exited {g : Nat} {m : Nat × Nat} (hm : s.hasThread g m) (join : Word) :
    ((exitNow s g m join).thread g m.2 m.1).st = .exited := by
  rcases exitThread_cases s g m join with ⟨hst, -⟩ | hkeeps
  · exact (keepsExits_exitNow s g m join).exited g m hm hst
  · refine (hkeeps.trans (keepsExits_checkDead g)).exited g m ((State.hasThread_modThread ..).2 hm) ?_
    rw [State.thread_modThread, if_pos ⟨rfl, rfl, rfl, hm⟩]
    rfl

/-- After EXIT every thread whose guard is true has exited. -/
theorem exec_exit_exited (k : Ctl) (s : State) :
    ∃ t, exec (.exit k) s = .next t ∧ ∀ m ∈ actives k s, s.hasThread s.cur.g m → (t.thread s.cur.g m.2 m.1).st = .exited := by
  refine ⟨_, rfl, fun m hm hth => ?_⟩
  have hadv : (advance s).hasThread s.cur.g m := ((advance_each s).hasThread m).2 hth
  refine foldl_each (KeepsExits (advance s)) (fun m t => (advance s).hasThread s.cur.g m → (t.thread s.cur.g m.2 m.1).st = .exited) _
    (actives k s) (fun t c _ ht => ?_) (fun t c _ ht hc => ?_) (fun t c _ d _ ht hst hc => ?_) (advance s) (.refl _) m hm hadv
  · exact ht.trans (keepsExits_exitNow ..)
  · exact exitNow_exited (ht.hasThread _ _ hc) _
  · exact (keepsExits_exitNow ..).exited _ _ (ht.hasThread _ _ hc) (hst hc)

/-! ### NOP, LAND, BRK (08 R153, R157, R160) -/

/-- No thread transfers: every issuing thread goes on at the next instruction. -/
theorem advance_goes (s : State) : EachThread s (advance s) s.cur.g (Claims.goes s [] fun _ => 0) :=
  (advance_each s).congr fun m _ => by by_cases hm : m ∈ s.cur.members <;> simp [Claims.goes, hm]

theorem exec_brk_of_idle {k : Ctl} (h : actives k s = []) (code : Word) : exec (.brk k code) s = .next (advance s) := by
  show execBrk k code s = _
  unfold execBrk
  exact if_pos (by simp [h])

theorem exec_brk_of_actives {k : Ctl} (h : actives k s ≠ []) (code : Word) : exec (.brk k code) s =
    if (s.ctx s.cg.ctx).debug then
      let t := (actives k s).foldl (fun t m => t.modThread s.cur.g m.2 m.1 fun x => { x with st := .halted, pc := s.cur.pc }) (advance s)
      .next (if (s.ctx s.cg.ctx).allStop then haltGroup t s.cur.g else t)
    else .next (takeTrap s s.cur.g
      { cause := 0x21, lanes := actives k s, rsm := true, pc := s.cur.pc, word := s.cur.word, frm := s.cur.formed }) := by
  show execBrk k code s = _
  unfold execBrk
  exact if_neg (by simp [h])

/-- Under a debugger that does not stop the whole group, the lanes of BRK halt at it. -/
theorem exec_brk_halts {k : Ctl} (h : actives k s ≠ []) (hdebug : (s.ctx s.cg.ctx).debug = true)
    (hstop : (s.ctx s.cg.ctx).allStop = false) (code : Word) :
    ∃ t, exec (.brk k code) s = .next t ∧ EachThread s t s.cur.g fun m x =>
      if m ∈ actives k s then { x with st := .halted, pc := s.cur.pc } else Claims.goes s [] (fun _ => 0) m x := by
  rw [exec_brk_of_actives h, if_pos hdebug, hstop]
  refine ⟨_, rfl, ((advance_goes s).trans (eachThread_foldl (actives k s) (fun _ x => { x with st := .halted, pc := s.cur.pc })
    (fun _ _ => rfl) _ _)).congr fun m _ => ?_⟩
  split <;> rfl

/-! ### YIELD (08 R161) -/

/-- The waves of the quadrant that a YIELD lets go first. -/
def yieldAhead (s : State) : List (Nat × Nat) :=
  (((cands s s.cg.core (s.wave s.cur.g s.cur.w).quad).filter (Cand.isReady s)).map Cand.key).filter
    (· != (s.cur.g, if s.cur.formed then 64 + s.cur.fid else s.cur.w))

theorem exec_yield_of_idle {k : Ctl} (h : actives k s = []) : exec (.yield k) s = .next (advance s) := by
  show execYield k s = _
  unfold execYield
  exact if_pos (by simp [h])

theorem exec_yield_of_actives {k : Ctl} (h : actives k s ≠ []) : exec (.yield k) s =
    .next (modSel (advance s) s.cur.g s.cur.w (if s.cur.formed then some s.cur.fid else none) fun r =>
      { r with defer := .yield (yieldAhead s) (s.clock + 16) }) := by
  have hact : ¬(actives k s).isEmpty = true := by simp [h]
  show execYield k s = _
  unfold execYield
  exact if_neg hact

theorem State.wave_modGroup_of_waves (s : State) (g : Nat) {f : Group → Group} (hf : ∀ x, (f x).waves = x.waves) (h w : Nat) :
    (s.modGroup g f).wave h w = s.wave h w := by
  unfold State.wave
  cases hg : mget s.groups g with
  | none => rw [State.group_modGroup_none s g h f hg]
  | some x =>
    rw [State.group_modGroup s g h f (by rw [hg]; rfl)]
    split
    · next e => rw [hf, e]
    · rfl

theorem inGroup_modSel (s : State) (g w : Nat) (fid : Option Nat) (f : IssueRec → IssueRec) : InGroup s (modSel s g w fid f) g := by
  cases fid with
  | none => exact inGroup_modWave ..
  | some i => exact inGroup_modGroup ..

/-- A wave's record of selection holds nothing of its threads. -/
theorem thread_modSel (s : State) (g w : Nat) (fid : Option Nat) (f : IssueRec → IssueRec) (h v l : Nat) :
    (modSel s g w fid f).thread h v l = s.thread h v l := by
  unfold State.thread
  cases fid with
  | none =>
    rw [modSel, State.wave_modWave]
    split
    · next hc => rw [hc.1, hc.2.1]
    · rfl
  | some i =>
    have hwave : (modSel s g w (some i) f).wave h v = s.wave h v := 
      State.wave_modGroup_of_waves s g (by intro x; rfl) h v
    rw [hwave]

/-- YIELD goes on, and where a home wave yields it lets the others go first, for 16 clocks at most. -/
theorem exec_yield_defers (k : Ctl) (s : State) :
    ∃ t, exec (.yield k) s = .next t ∧ InGroup s t s.cur.g ∧
      (∀ m, s.hasThread s.cur.g m → t.thread s.cur.g m.2 m.1 = Claims.goes s [] (fun _ => 0) m (s.thread s.cur.g m.2 m.1)) ∧
      (actives k s ≠ [] → s.cur.formed = false → s.hasWave s.cur.g s.cur.w →
        ∃ q, (t.wave s.cur.g s.cur.w).sel.defer = .yield q (s.clock + 16) ∧ (s.cur.g, s.cur.w) ∉ q) := by
  have hadv := advance_goes s
  by_cases hidle : actives k s = []
  · exact ⟨_, exec_yield_of_idle hidle, hadv.only, hadv.thread, fun hact => absurd hidle hact⟩
  · refine ⟨_, exec_yield_of_actives hidle, hadv.only.trans (inGroup_modSel ..), fun m hm => ?_, fun _ hhome hwave => ?_⟩
    · rw [thread_modSel, hadv.thread m hm]
    · refine ⟨yieldAhead s, ?_, by simp [yieldAhead, hhome]⟩
      have hw : s.cur.w < ((advance s).group s.cur.g).waves.length := hadv.waves.symm ▸ hwave
      rw [hhome, if_neg Bool.false_ne_true, modSel, State.wave_modWave, if_pos ⟨rfl, rfl, hw⟩]

end

/-- Settles O10: NOP and LAND are the step to the next instruction, YIELD records whom it lets go first, every operation that EXIT
runs keeps exits, and BRK halts or traps by its context's debugger. -/
theorem plainControl : Obligations.PlainControl := by
  unfold Obligations.PlainControl
  intro k a b c d label m0 dir code s
  refine ⟨⟨_, rfl, advance_goes s⟩, ⟨_, rfl, advance_goes s⟩, exec_yield_defers k s, exec_exit_exited k s,
    fun hidle => ⟨_, exec_brk_of_idle hidle code, advance_goes s⟩,
    fun hact hdebug hstop => exec_brk_halts hact hdebug hstop code, fun hact hdebug => ?_⟩
  rw [exec_brk_of_actives hact, hdebug]
  rfl

end Sys2Proof.Machine

/-! PROOFS. O55: both the walk and the checks read an address by its bits. The walk's five fields lie below bit 48; a bit above 47 that
differs from bit 47 fails the second check of Table 12-2, the instruction traps, and since a trap records no access (`TrapFrame`),
nothing is left to send. -/

namespace Sys2Proof.Machine

/-! ### What a trap leaves (14 R312 to R315) -/

section
variable {s t u : State}

/-- Memory, cached translations, contexts and groups may change, and nothing else does. -/
structure TrapFrame (s t : State) : Prop where
  rest : t = { s with hbm := t.hbm, hostMem := t.hostMem, remotes := t.remotes, cores := t.cores, dies := t.dies, ctxs := t.ctxs,
                      migrating := t.migrating, groups := t.groups }

theorem TrapFrame.refl (s : State) : TrapFrame s s := ⟨rfl⟩

theorem TrapFrame.trans (a : TrapFrame s t) (b : TrapFrame t u) : TrapFrame s u := ⟨by rw [b.rest, a.rest]⟩

theorem TrapFrame.accesses (a : TrapFrame s t) : t.accesses = s.accesses := by rw [a.rest]

theorem TrapFrame.foldl {β : Type} {f : State → β → State} (hf : ∀ t b, TrapFrame t (f t b)) (l : List β) :
    TrapFrame s (l.foldl f s) :=
  foldl_keeps (TrapFrame s) f l (fun t b _ ht => ht.trans (hf t b)) s (.refl s)

theorem trapFrame_modCtx (ctx : Nat) (f : Ctx → Ctx) : TrapFrame s (s.modCtx ctx f) := ⟨rfl⟩

theorem trapFrame_modGroup (g : Nat) (f : Group → Group) : TrapFrame s (s.modGroup g f) := ⟨rfl⟩

theorem trapFrame_write (sp : Space) (a : Nat) (bs : List Byte) : TrapFrame s (s.write sp a bs) := by
  cases sp <;> exact ⟨rfl⟩

theorem trapFrame_engineWrite (sp : Space) (a : Nat) (bs : List Byte) : TrapFrame s (s.engineWrite sp a bs) :=
  (trapFrame_write sp a bs).trans ⟨rfl⟩

theorem trapFrame_rawWrite (ctx va : Nat) (bs : List Byte) : TrapFrame s (s.rawWrite ctx va bs) := by
  unfold State.rawWrite
  generalize spansOf va bs.length = rs
  induction rs generalizing s bs with
  | nil => exact .refl s
  | cons r rs ih =>
    refine TrapFrame.trans ?_ (ih _)
    split
    · exact trapFrame_engineWrite ..
    · exact .refl s

theorem trapFrame_writeLeaf (a n : Nat) (f : Nat → Nat) : TrapFrame s (writeLeaf s a n f) :=
  .foldl (fun _ _ => trapFrame_write ..) _

theorem trapFrame_dropTlb (ctx va : Nat) (len : Option Nat) : TrapFrame s (dropTlb s ctx va len) := ⟨rfl⟩

theorem trapFrame_bumpS2 : TrapFrame s (bumpS2 s) := ⟨rfl⟩

theorem trapFrame_editLeaf (ctx va : Nat) (f : Nat → Nat) : TrapFrame s (editLeaf s ctx va f) := by
  unfold editLeaf
  split
  · exact (trapFrame_writeLeaf ..).trans (trapFrame_dropTlb ..)
  · exact .refl s

theorem trapFrame_dlogWrite (ctx : Nat) (second : Bool) (addr szc : Nat) : TrapFrame s (dlogWrite s ctx second addr szc) := by
  have hput (va : Nat) (bs : List Byte) (f : Ctx → Ctx) : TrapFrame s ((s.rawWrite ctx va bs).modCtx ctx f) :=
    (trapFrame_rawWrite ..).trans (trapFrame_modCtx ..)
  unfold dlogWrite
  exact iteInduction (fun _ => hput ..) fun _ => hput ..

theorem trapFrame_logPage (ctx va : Nat) : TrapFrame s (logPage s ctx va) := by
  unfold logPage
  split
  · next t _ =>
    have hfirst : TrapFrame s
        (if t.dl then editLeaf (dlogWrite s ctx false va (pteAt s t.leaf).size) ctx va (fun e => setBits e 15 1 0) else s) := by
      split
      · exact (trapFrame_dlogWrite ..).trans (trapFrame_editLeaf ..)
      · exact .refl s
    dsimp only
    split
    · exact hfirst.trans ((trapFrame_dlogWrite ..).trans ((trapFrame_writeLeaf ..).trans
        (trapFrame_bumpS2.trans (trapFrame_dropTlb ..))))
    · exact hfirst
  · exact .refl s

theorem trapFrame_sysWrite (ctx va : Nat) (bs : List Byte) : TrapFrame s (s.sysWrite ctx va bs) := by
  unfold State.sysWrite
  generalize spansOf va bs.length = rs
  induction rs generalizing s bs with
  | nil => exact .refl s
  | cons r rs ih =>
    refine TrapFrame.trans ?_ (ih _)
    split
    · exact (trapFrame_logPage ..).trans (trapFrame_engineWrite ..)
    · exact trapFrame_logPage ..

theorem trapFrame_putErr (ctx : Nat) (r : List Byte) (rep : Option (Nat × Nat)) : TrapFrame s (putErr s ctx r rep) := by
  have hrecord (va : Nat) (f : Ctx → Ctx) : TrapFrame s ((s.sysWrite ctx va r).modCtx ctx f) :=
    (trapFrame_sysWrite ..).trans (trapFrame_modCtx ..)
  cases rep with
  | none => exact hrecord ..
  | some x => exact (hrecord ..).trans (trapFrame_sysWrite ..)

theorem trapFrame_ctxErr (ctx kind b2 b3 w4 d8 d16 gref : Nat) : TrapFrame s (ctxErr s ctx kind b2 b3 w4 d8 d16 gref) := by
  unfold ctxErr pushErr
  dsimp only
  split
  · exact trapFrame_modCtx ..
  · exact trapFrame_putErr ..

theorem trapFrame_haltCtx (ctx : Nat) : TrapFrame s (haltCtx s ctx) := trapFrame_modCtx ..

theorem trapFrame_enterWave (g w : Nat) (t : Trp) : TrapFrame s (enterWave s g w t) := by
  unfold enterWave
  dsimp only
  split
  · exact (trapFrame_haltCtx _).trans (trapFrame_ctxErr ..)
  · split
    · exact (trapFrame_sysWrite ..).trans ((trapFrame_haltCtx _).trans (trapFrame_ctxErr ..))
    · exact (trapFrame_sysWrite ..).trans ((trapFrame_sysWrite ..).trans (trapFrame_modGroup ..))

theorem trapFrame_takeTrap (g : Nat) (t : Trp) : TrapFrame s (takeTrap s g t) :=
  .foldl (fun _ _ => (trapFrame_modGroup ..).trans (trapFrame_enterWave ..)) _

theorem trapFrame_trapFails (fs : List LaneFail) (parks : List (Nat × Nat)) : TrapFrame s (trapFails s fs parks) :=
  trapFrame_takeTrap ..

/-! ### An access whose only lane fails its checks (12 R227) -/

/-- Where no access has been recorded since `s`, nothing is sent. -/
theorem sendNew_of_accesses (h : t.accesses = s.accesses) (hid : ∀ x ∈ s.accesses, x.id < s.nextId) : sendNew s t = t := by
  have hnew : newAccesses s t = [] := by
    rw [newAccesses, h, List.filter_eq_nil_iff]
    intro x hx
    simpa using hid x hx
  rw [sendNew, hnew]
  rfl

theorem issueAccess_of_fail {inf : AccInfo} (huni : inf.uni = false) (m : Nat × Nat) (o : LaneOp)
    {check1 : Nat × Nat → LaneOp → LaneRes} {f : LaneFail} (hfail : check1 m o = .fail f) :
    issueAccess s inf [(m, o)] check1 = .next (trapFails s [f] []) := by
  simp [issueAccess, huni, hfail, resFails, resParks]

/-- The failed check of the one thread that issues is its trap, and the whole effect of the instruction. -/
theorem onMemory_of_fail {k : Ctl} {m : Nat × Nat} (halone : Claims.alone k s m) {inf : AccInfo} (huni : inf.uni = false)
    {op : State → Nat × Nat → LaneOp} {f : LaneFail} (hfail : checkLane s s.cur.g m inf.kind inf.width (op s m) = .fail f) :
    onMemory k inf op s = .next (trapFails s [f] []) := by
  obtain ⟨hact, -, -, -, hids⟩ := halone
  rw [onMemory, hact, List.map_singleton, issueAccess_of_fail huni m _ hfail]
  exact congrArg _ (sendNew_of_accesses (trapFrame_trapFails ..).accesses fun x hx => (hids x hx).1)

end

/-! ### The canonical form of an address (12 R224, Table 12-2) -/

theorem getLsbD_eq_testBit_top (va : DWord) {i : Nat} (hi : 47 ≤ i) : va.getLsbD i = (va.toNat / 2 ^ 47).testBit (i - 47) := by
  rw [Nat.testBit_div_two_pow, Nat.sub_add_cancel hi, BitVec.getLsbD]

theorem getLsbD_of_canonical {va : DWord} (h : canonical va.toNat = true) {i : Nat} (hlo : 48 ≤ i) (hhi : i < 64) :
    va.getLsbD i = va.getLsbD 47 := by
  rw [getLsbD_eq_testBit_top va (Nat.le_of_succ_le hlo), getLsbD_eq_testBit_top va (Nat.le_refl 47)]
  simp only [canonical, Bool.or_eq_true, beq_iff_eq] at h
  rcases h with hzero | hones
  · rw [hzero, Nat.zero_testBit, Nat.zero_testBit]
  · have hi : i - 47 < 17 := by omega
    rw [hones, Nat.testBit_two_pow_sub_one, Nat.testBit_two_pow_sub_one, decide_eq_true hi]
    rfl

theorem canonical_of_ne {va : DWord} (h : ∃ i, 48 ≤ i ∧ i < 64 ∧ va.getLsbD i ≠ va.getLsbD 47) : canonical va.toNat = false := by
  obtain ⟨i, hlo, hhi, hne⟩ := h
  exact Bool.eq_false_iff.2 fun hcan => hne (getLsbD_of_canonical hcan hlo hhi)

theorem check_of_not_canonical (s : State) (ctx core : Nat) {va width : Nat} (acc : Acc) (halign : va % width = 0)
    (hcan : canonical va = false) : check s ctx core va width acc = .fail 0x11 1 := by
  simp [check, halign, hcan]

theorem checkLane_of_not_canonical (s : State) (g : Nat) (m : Nat × Nat) (kind : AccKind) {width : Nat} {o : LaneOp}
    (halign : o.addr.toNat % width = 0) (hcan : canonical o.addr.toNat = false) :
    checkLane s g m kind width o = .fail ⟨m, 0x11, 1, o.addr⟩ := by
  simp [checkLane, check_of_not_canonical s _ _ _ halign hcan]

/-! ### The bits that the walk translates (12 R224, R225) -/

/-- Nine bits of an address from bit `k` on lie in its low 48 bits. -/
theorem tableIndex_mod (va : Nat) {k : Nat} (hk : k + 9 ≤ 48) : va % 2 ^ 48 / 2 ^ k % 512 = va / 2 ^ k % 512 := by
  obtain ⟨n, hn⟩ := Nat.exists_eq_add_of_le hk
  rw [show 2 ^ 48 = 2 ^ k * (512 * 2 ^ n) by rw [hn, Nat.pow_add, Nat.pow_add, Nat.mul_assoc], Nat.mod_mul_right_div_self,
    Nat.mod_mul_right_mod]

theorem pageOffset_mod (va size : Nat) : va % 2 ^ 48 % pageBytes size = va % pageBytes size := by
  refine Nat.mod_mod_of_dvd va ?_
  unfold pageBytes
  split <;> decide

theorem walkGo_mod (s : State) (tr : Nat → Except WalkErr Nat) (sub va n : Nat) {level : Nat} (hlevel : 1 ≤ level) (page : Nat) :
    walkGo s tr sub (va % 2 ^ 48) n level page = walkGo s tr sub va n level page := by
  induction n generalizing level page with
  | zero => rfl
  | succ n ih => simp only [walkGo, tableIndex_mod va (show 12 + 9 * (4 - level) + 9 ≤ 48 by omega), ih (Nat.le_add_left 1 level)]

theorem walkBy_mod (s : State) (c : Ctx) (w2 : Nat → Except WalkErr Stage2) (va : Nat) :
    walkBy s c w2 (va % 2 ^ 48) = walkBy s c w2 va := by
  simp only [walkBy, walkGo_mod s _ 2 va 4 (Nat.le_refl 1), pageOffset_mod]

/-! ### The memory forms of one thread (12 R250 to R253) -/

theorem onMemory_of_not_canonical {k : Ctl} {s : State} {m : Nat × Nat} (halone : Claims.alone k s m) {b : Opnd} {off : BitVec 24}
    (hcan : canonical (vaOf s m b off).toNat = false) {inf : AccInfo} (huni : inf.uni = false)
    (halign : (vaOf s m b off).toNat % inf.width = 0) (dst : List Nat) (vals : State → Nat × Nat → List Word) :
    onMemory k inf (fun s m => memOp s m b off dst (vals s m)) s = .next (trapFails s [⟨m, 0x11, 1, vaOf s m b off⟩] []) :=
  onMemory_of_fail halone huni (checkLane_of_not_canonical s _ m _ halign hcan)

/-- Settles O55: the walk reads no bit above 47, and each memory form of one thread is `onMemory`, whose lane the second check fails. -/
theorem canonicalAddress : Obligations.CanonicalAddress := by
  unfold Obligations.CanonicalAddress
  refine ⟨fun s c va => (walkBy_mod s c (walk2 s c) va).symm,
    fun s ctx core width va acc hne halign => check_of_not_canonical s ctx core acc halign (canonical_of_ne hne), ?_⟩
  intro k a b w sx acq rel flag sg nc pol op off sc m s va halone halign hne i hi
  have traps {inf : AccInfo} (huni : inf.uni = false) (hwidth : inf.width = w.bytes) :=
    onMemory_of_not_canonical halone (canonical_of_ne hne) huni (hwidth ▸ halign)
  simp only [List.mem_cons, List.not_mem_nil, or_false] at hi
  rcases hi with rfl | rfl | rfl | rfl
  · exact traps rfl rfl (vregsOf a w.regs) fun _ _ => []
  · exact traps rfl rfl [] fun s m => wordsAt s m a w
  · exact traps rfl rfl (vregsOf a w.regs) fun s m => atomVals s m a b w 2
  · exact traps rfl rfl (vregsOf a w.regs) fun s m => casVals s m a w

end Sys2Proof.Machine

/-! PROOFS. O32: a trap of one home wave is one `enterWave` after its formed waves have dissolved. A system write does not look at groups,
so it commutes with the dissolving (`State.sysWrite_modGroup`), and the entry is the two writes to the slot followed by updates of the
group alone. A halt changes no group, and no system write changes a context's state (`State.sysWrite_keeps`). The frame is a list of
fields (`frameFields`), read back by their places. -/

namespace Sys2Proof.Machine

/-! ### The two stages of a page's record (12 R246, R247) -/

/-- The record of the first stage's page, whose leaf loses DL. -/
def logFirst (s : State) (ctx va : Nat) (t : Trans) : State :=
  if t.dl then editLeaf (dlogWrite s ctx false va (pteAt s t.leaf).size) ctx va (fun e => setBits e 15 1 0) else s

/-- The record of the second stage's page, whose leaf loses DL. -/
def logSecond (s : State) (ctx : Nat) (t : Trans) : State :=
  if t.dl2 then
    let u := dlogWrite s ctx true t.gpa (pteAt s t.leaf2).size
    dropTlb (bumpS2 (writeLeaf u t.leaf2 (leafCount (pteAt u t.leaf2).size) fun e => setBits e 15 1 0)) ctx 0 none
  else s

theorem logPage_of_ok {s : State} {ctx va : Nat} {t : Trans} (h : walk s (s.ctx ctx) va = .ok t) :
    logPage s ctx va = logSecond (logFirst s ctx va t) ctx t := by
  rw [logPage, h]
  rfl

theorem logPage_of_error {s : State} {ctx va : Nat} {e : WalkErr} (h : walk s (s.ctx ctx) va = .error e) : logPage s ctx va = s := by
  rw [logPage, h]

/-! ### System writes do not look at groups -/

section
variable {s : State} {g : Nat} {f : Group → Group}

theorem foldl_modGroup {β : Type} {op : State → β → State} (hop : ∀ t b, op (t.modGroup g f) b = (op t b).modGroup g f)
    (l : List β) : l.foldl op (s.modGroup g f) = (l.foldl op s).modGroup g f := by
  induction l generalizing s with
  | nil => rfl
  | cons b l ih => rw [List.foldl_cons, hop, ih, List.foldl_cons]

theorem State.write_modGroup (sp : Space) (a : Nat) (bs : List Byte) :
    (s.modGroup g f).write sp a bs = (s.write sp a bs).modGroup g f := by
  cases sp <;> rfl

theorem State.engineWrite_modGroup (sp : Space) (a : Nat) (bs : List Byte) :
    (s.modGroup g f).engineWrite sp a bs = (s.engineWrite sp a bs).modGroup g f := by
  cases sp <;> rfl

theorem State.ctx_modGroup (c : Nat) : (s.modGroup g f).ctx c = s.ctx c := rfl

theorem walk_modGroup (c : Ctx) (va : Nat) : walk (s.modGroup g f) c va = walk s c va := rfl

theorem sysTrans_modGroup (ctx va : Nat) : sysTrans (s.modGroup g f) ctx va = sysTrans s ctx va := rfl

theorem State.sysRead_modGroup (ctx va n : Nat) : (s.modGroup g f).sysRead ctx va n = s.sysRead ctx va n := by
  unfold State.sysRead
  induction spansOf va n with
  | nil => rfl
  | cons r rs ih =>
    simp only [sysReadRuns, ih]
    rfl

theorem State.rawWrite_modGroup (ctx va : Nat) (bs : List Byte) :
    (s.modGroup g f).rawWrite ctx va bs = (s.rawWrite ctx va bs).modGroup g f := by
  unfold State.rawWrite
  generalize spansOf va bs.length = rs
  induction rs generalizing s bs with
  | nil => rfl
  | cons r rs ih =>
    simp only [rawRuns, sysTrans_modGroup]
    rw [← ih]
    split
    · rw [State.engineWrite_modGroup]
    · rfl

theorem pteAt_modGroup (a : Nat) : pteAt (s.modGroup g f) a = pteAt s a := rfl

theorem writeLeaf_modGroup (a n : Nat) (h : Nat → Nat) : writeLeaf (s.modGroup g f) a n h = (writeLeaf s a n h).modGroup g f :=
  foldl_modGroup (fun _ _ => State.write_modGroup ..) _

theorem dropTlb_modGroup (ctx va : Nat) (len : Option Nat) : dropTlb (s.modGroup g f) ctx va len = (dropTlb s ctx va len).modGroup g f :=
  rfl

theorem bumpS2_modGroup : bumpS2 (s.modGroup g f) = (bumpS2 s).modGroup g f := foldl_modGroup (fun _ _ => rfl) _

theorem editLeaf_modGroup (ctx va : Nat) (h : Nat → Nat) : editLeaf (s.modGroup g f) ctx va h = (editLeaf s ctx va h).modGroup g f := by
  simp only [editLeaf, State.ctx_modGroup, walk_modGroup]
  split
  · simp only [pteAt_modGroup, writeLeaf_modGroup, dropTlb_modGroup]
  · rfl

theorem dlogWrite_modGroup (ctx : Nat) (second : Bool) (addr szc : Nat) :
    dlogWrite (s.modGroup g f) ctx second addr szc = (dlogWrite s ctx second addr szc).modGroup g f := by
  have hput (va : Nat) (bs : List Byte) (h : Ctx → Ctx) :
      ((s.modGroup g f).rawWrite ctx va bs).modCtx ctx h = ((s.rawWrite ctx va bs).modCtx ctx h).modGroup g f := by
    rw [State.rawWrite_modGroup]
    rfl
  unfold dlogWrite
  simp only [State.ctx_modGroup, State.sysRead_modGroup, State.modGroup_clock, hput]
  exact (apply_ite (State.modGroup · g f) ..).symm

theorem logFirst_modGroup (ctx va : Nat) (t : Trans) : logFirst (s.modGroup g f) ctx va t = (logFirst s ctx va t).modGroup g f := by
  unfold logFirst
  split
  · rw [pteAt_modGroup, dlogWrite_modGroup, editLeaf_modGroup]
  · rfl

theorem logSecond_modGroup (ctx : Nat) (t : Trans) : logSecond (s.modGroup g f) ctx t = (logSecond s ctx t).modGroup g f := by
  unfold logSecond
  split
  · simp only [pteAt_modGroup, dlogWrite_modGroup, writeLeaf_modGroup, bumpS2_modGroup, dropTlb_modGroup]
  · rfl

theorem logPage_modGroup (ctx va : Nat) : logPage (s.modGroup g f) ctx va = (logPage s ctx va).modGroup g f := by
  cases hwalk : walk s (s.ctx ctx) va with
  | error e => rw [logPage_of_error hwalk, logPage_of_error (s := s.modGroup g f) hwalk]
  | ok t => rw [logPage_of_ok hwalk, logPage_of_ok (s := s.modGroup g f) hwalk, logFirst_modGroup, logSecond_modGroup]

/-- A system write reads memory, caches and contexts, so it commutes with any change to a group. -/
theorem State.sysWrite_modGroup (ctx va : Nat) (bs : List Byte) :
    (s.modGroup g f).sysWrite ctx va bs = (s.sysWrite ctx va bs).modGroup g f := by
  unfold State.sysWrite
  generalize spansOf va bs.length = rs
  induction rs generalizing s bs with
  | nil => rfl
  | cons r rs ih =>
    simp only [sysWriteRuns, logPage_modGroup, sysTrans_modGroup]
    rw [← ih]
    split
    · rw [State.engineWrite_modGroup]
    · rfl

end

/-! ### System writes keep the states of contexts -/

/-- What writes of memory, changes of caches and of migrating pages, and updates of a context that leave its state keep, a system write
keeps. -/
theorem State.sysWrite_keeps {P : State → Prop} (hwrite : ∀ t sp a bs, P t → P (State.write t sp a bs))
    (hcache : ∀ t cores dies migrating, P t → P { t with cores := cores, dies := dies, migrating := migrating })
    (hlog : ∀ t ctx f, (∀ c : Ctx, (f c).state = c.state) → P t → P (t.modCtx ctx f))
    {s : State} (hs : P s) (ctx va : Nat) (bs : List Byte) : P (s.sysWrite ctx va bs) := by
  have hengine {t : State} (ht : P t) (sp : Space) (a : Nat) (bs : List Byte) : P (t.engineWrite sp a bs) :=
    hcache (t.write sp a bs) _ _ _ (hwrite t sp a bs ht)
  have hraw {t : State} (ht : P t) (va : Nat) (bs : List Byte) : P (t.rawWrite ctx va bs) := by
    unfold State.rawWrite
    generalize spansOf va bs.length = rs
    induction rs generalizing t bs with
    | nil => exact ht
    | cons r rs ih =>
      refine ih ?_ _
      split
      · exact hengine ht ..
      · exact ht
  have hleaf {t : State} (ht : P t) (a n : Nat) (f : Nat → Nat) : P (writeLeaf t a n f) :=
    foldl_keeps P _ _ (fun _ _ _ hu => hwrite _ _ _ _ hu) _ ht
  have hdrop {t : State} (ht : P t) (va : Nat) (len : Option Nat) : P (dropTlb t ctx va len) := hcache _ _ _ _ ht
  have hbump {t : State} (ht : P t) : P (bumpS2 t) := hcache t t.cores (bumpS2 t).dies t.migrating ht
  have hedit {t : State} (ht : P t) (va : Nat) (f : Nat → Nat) : P (editLeaf t ctx va f) := by
    unfold editLeaf
    split
    · exact hdrop (hleaf ht ..) ..
    · exact ht
  have hdlog {t : State} (ht : P t) (second : Bool) (addr szc : Nat) : P (dlogWrite t ctx second addr szc) := by
    have hput (va : Nat) (bs : List Byte) (d : Dlog) : P ((t.rawWrite ctx va bs).modCtx ctx fun c =>
        if second then { c with dlog2 := d } else { c with dlog1 := d }) :=
      hlog _ _ _ (fun c => by cases second <;> rfl) (hraw ht ..)
    unfold dlogWrite
    exact iteInduction (fun _ => hput ..) fun _ => hput ..
  have hpage {t : State} (ht : P t) (va : Nat) : P (logPage t ctx va) := by
    cases hwalk : walk t (t.ctx ctx) va with
    | error e => rwa [logPage_of_error hwalk]
    | ok x =>
      rw [logPage_of_ok hwalk]
      have hfirst : P (logFirst t ctx va x) := iteInduction (fun _ => hedit (hdlog ht ..) ..) fun _ => ht
      exact iteInduction (fun _ => hdrop (hbump (hleaf (hdlog hfirst ..) ..)) ..) fun _ => hfirst
  unfold State.sysWrite
  generalize spansOf va bs.length = rs
  induction rs generalizing s bs with
  | nil => exact hs
  | cons r rs ih =>
    refine ih ?_ _
    split
    · exact hengine (hpage hs _) ..
    · exact hpage hs _

/-! ### The halt of a context (14 R307, R315) -/

section
variable {s : State} {c : Nat}

/-- A context is loaded and in a state. -/
structure CtxIn (s : State) (c : Nat) (q : CtxState) : Prop where
  present : (mget s.ctxs c).isSome
  state : (s.ctx c).state = q

theorem CtxIn.modCtx {q : CtxState} (h : CtxIn s c q) (d : Nat) {f : Ctx → Ctx} (hf : ∀ x, x.state = q → (f x).state = q) :
    CtxIn (s.modCtx d f) c q := by
  refine ⟨(State.modCtx_present ..).trans h.present, ?_⟩
  cases hd : mget s.ctxs d with
  | none => rw [State.ctx_modCtx_none s d c f hd, h.state]
  | some x =>
    rw [State.ctx_modCtx s d c f (by rw [hd]; rfl)]
    split
    · next e => exact hf _ (e ▸ h.state)
    · exact h.state

theorem CtxIn.sysWrite {q : CtxState} (h : CtxIn s c q) (ctx va : Nat) (bs : List Byte) : CtxIn (s.sysWrite ctx va bs) c q :=
  State.sysWrite_keeps (P := fun t => CtxIn t c q) (fun t sp a bs ht => by cases sp <;> exact ⟨ht.present, ht.state⟩)
    (fun _ _ _ _ ht => ⟨ht.present, ht.state⟩) (fun _ d _ hf ht => ht.modCtx d fun x hx => (hf x).trans hx) h ctx va bs

theorem CtxIn.haltCtx (h : CtxIn s c .runnable) : CtxIn (haltCtx s c) c .halted := by
  refine ⟨(State.modCtx_present ..).trans h.present, ?_⟩
  rw [Machine.haltCtx, State.ctx_modCtx s c c _ h.present, if_pos rfl]
  exact if_pos h.state

/-- An error record leaves a halted context halted, whether the ring has room for it or not. -/
theorem CtxIn.ctxErr (h : CtxIn s c .halted) (ctx kind b2 b3 w4 d8 d16 gref : Nat) :
    CtxIn (ctxErr s ctx kind b2 b3 w4 d8 d16 gref) c .halted := by
  unfold Machine.ctxErr pushErr
  dsimp only
  split
  · exact h.modCtx ctx fun x hx => by simp [hx]
  · exact (h.sysWrite ..).modCtx ctx fun _ hx => hx

end

/-! ### The entry of one home wave (14 R314) -/

/-- The frame and the handler save are in the slot of a home wave. -/
def writeSlot (s : State) (g w : Nat) (t : Trp) : State :=
  (s.sysWrite (s.group g).ctx (slotVa s g w) (frameBytes s g w t)).sysWrite (s.group g).ctx (slotVa s g w + 0x200)
    (handlerSave (s.wave g w))

theorem writeSlot_groups (s : State) (g w : Nat) (t : Trp) : (writeSlot s g w t).groups = s.groups :=
  (State.sysWrite_groups ..).trans (State.sysWrite_groups ..)

/-- A home wave in its handler: the slot's address in s0 and s1, its Ready and Held threads at the entry. -/
def handlerWave (slot hentry w : Nat) (t : Trp) (v : Wave) : Wave :=
  putS 0 (BitVec.ofNat 32 slot) (putS 1 (BitVec.ofNat 32 (slot / 2 ^ 32))
    { v with threads := v.threads.map (enterThread hentry), handler := true, sel := { v.sel with pair := none },
             frMask := maskOf (waveLanes t.lanes w) ||| maskOf (waveLanes t.others w), frLog := t.log })

section
variable (slot hentry w : Nat) (t : Trp) (v : Wave)

theorem handlerWave_sr (r : Nat) : mgetD (handlerWave slot hentry w t v).sr r 0 =
    if r = 0 then BitVec.ofNat 32 slot else if r = 1 then BitVec.ofNat 32 (slot / 2 ^ 32) else mgetD v.sr r 0 := by
  simp only [handlerWave, putS, mgetD_msetD]

theorem handlerWave_thread {l : Nat} (hl : l < v.threads.length) :
    (handlerWave slot hentry w t v).threads.getD l {} = enterThread hentry (v.threads.getD l {}) :=
  getD_map_of_lt _ hl ..

end

section
variable {s : State} {g w : Nat} {t : Trp}

theorem enterWave_enters (hout : (s.wave g w).handler = false) (hbound : (s.ctx (s.group g).ctx).hentry ≠ 0) :
    enterWave s g w t = (writeSlot s g w t).modWave g w (handlerWave (slotVa s g w) (s.ctx (s.group g).ctx).hentry w t) := by
  unfold enterWave
  dsimp only
  rw [if_neg (by simp [hout]), if_neg hbound]
  rfl

theorem enterWave_halts (hin : (s.wave g w).handler = true ∨ (s.ctx (s.group g).ctx).hentry = 0)
    (hrun : CtxIn s (s.group g).ctx .runnable) :
    CtxIn (enterWave s g w t) (s.group g).ctx .halted ∧ (enterWave s g w t).groups = s.groups := by
  unfold enterWave
  dsimp only
  split
  · exact ⟨hrun.haltCtx.ctxErr .., (ctxErr_groups ..).trans (haltCtx_groups _)⟩
  · next hout =>
    rw [if_pos (hin.resolve_left hout)]
    exact ⟨(hrun.sysWrite ..).haltCtx.ctxErr .., (ctxErr_groups ..).trans ((haltCtx_groups _).trans (State.sysWrite_groups ..))⟩

/-! ### A trap of one home wave: its formed waves dissolve, then it enters (08 R139) -/

theorem State.group_of_groups {u : State} (h : u.groups = s.groups) (g : Nat) : u.group g = s.group g := by
  rw [State.group, h, ← State.group]

theorem State.wave_of_groups {u : State} (h : u.groups = s.groups) (g w : Nat) : u.wave g w = s.wave g w := by
  rw [State.wave, State.group_of_groups h, ← State.wave]

theorem wave_dissolve (s : State) (g w v : Nat) : (s.modGroup g fun x => dissolve x w).wave g v = s.wave g v :=
  State.wave_modGroup_of_waves s g (f := fun x => dissolve x w) (fun _ => rfl) g v

theorem takeTrap_of_one_wave (hlanes : wavesOf t.lanes = [w]) :
    takeTrap s g t = enterWave (s.modGroup g fun x => dissolve x w) g w t := by
  rw [takeTrap, hlanes, List.foldl_cons, List.foldl_nil]

section
variable (hw : s.hasWave g w)
include hw

theorem group_dissolve : (s.modGroup g fun x => dissolve x w).group g = dissolve (s.group g) w := by
  rw [State.group_modGroup _ _ _ _ (State.present_of_wave hw), if_pos rfl]

theorem ctx_group_dissolve : ((s.modGroup g fun x => dissolve x w).group g).ctx = (s.group g).ctx := by
  rw [group_dissolve hw]
  rfl

theorem slotVa_dissolve : slotVa (s.modGroup g fun x => dissolve x w) g w = slotVa s g w := by
  unfold slotVa saveVa
  rw [group_dissolve hw]
  rfl

theorem frameBytes_dissolve : frameBytes (s.modGroup g fun x => dissolve x w) g w t = frameBytes s g w t := by
  unfold frameBytes codeBase
  rw [group_dissolve hw, wave_dissolve]
  rfl

theorem writeSlot_dissolve :
    writeSlot (s.modGroup g fun x => dissolve x w) g w t = (writeSlot s g w t).modGroup g fun x => dissolve x w := by
  unfold writeSlot
  rw [ctx_group_dissolve hw, slotVa_dissolve hw, frameBytes_dissolve hw, wave_dissolve, State.sysWrite_modGroup,
    State.sysWrite_modGroup]

variable (hlanes : wavesOf t.lanes = [w])
include hlanes

/-- Inside the handler, or without one, the trap halts the context and leaves the home wave as it was (14 R315). -/
theorem takeTrap_halts (hin : (s.wave g w).handler = true ∨ (s.ctx (s.group g).ctx).hentry = 0)
    (hrun : CtxIn s (s.group g).ctx .runnable) :
    CtxIn (takeTrap s g t) (s.group g).ctx .halted ∧ (takeTrap s g t).wave g w = s.wave g w := by
  have hctx := ctx_group_dissolve hw
  obtain ⟨hhalted, hgroups⟩ := enterWave_halts (s := s.modGroup g fun x => dissolve x w) (g := g) (w := w) (t := t)
    (by rwa [wave_dissolve, hctx, State.ctx_modGroup]) (hctx.symm ▸ ⟨hrun.present, hrun.state⟩)
  rw [takeTrap_of_one_wave hlanes]
  exact ⟨hctx ▸ hhalted, (State.wave_of_groups hgroups g w).trans (wave_dissolve ..)⟩

variable (hout : (s.wave g w).handler = false) (hbound : (s.ctx (s.group g).ctx).hentry ≠ 0)
include hout hbound

/-- The slot is written, then the group alone is updated. -/
theorem takeTrap_enters : takeTrap s g t = ((writeSlot s g w t).modGroup g fun x => dissolve x w).modWave g w
    (handlerWave (slotVa s g w) (s.ctx (s.group g).ctx).hentry w t) := by
  have hctx := ctx_group_dissolve hw
  rw [takeTrap_of_one_wave hlanes, enterWave_enters (by rwa [wave_dissolve]) (by rwa [hctx, State.ctx_modGroup]), hctx,
    slotVa_dissolve hw, writeSlot_dissolve hw, State.ctx_modGroup]

theorem inGroup_takeTrap_enters : InGroup (writeSlot s g w t) (takeTrap s g t) g := by
  rw [takeTrap_enters hw hlanes hout hbound]
  exact (inGroup_modGroup ..).trans (inGroup_modWave ..)

theorem wave_takeTrap_enters (v : Nat) : (takeTrap s g t).wave g v =
    if v = w then handlerWave (slotVa s g w) (s.ctx (s.group g).ctx).hentry w t (s.wave g w) else s.wave g v := by
  have hgroups := writeSlot_groups s g w t
  have hsame (v : Nat) : ((writeSlot s g w t).modGroup g fun x => dissolve x w).wave g v = s.wave g v := by
    rw [wave_dissolve, State.wave_of_groups hgroups]
  have hwave : ((writeSlot s g w t).modGroup g fun x => dissolve x w).hasWave g w := by
    rw [State.hasWave, group_dissolve (by rwa [State.hasWave, State.group_of_groups hgroups]), State.group_of_groups hgroups]
    exact hw
  rw [takeTrap_enters hw hlanes hout hbound, State.wave_modWave, hsame, hsame]
  simp only [true_and, and_iff_left hwave]

end
end

theorem InGroup.hbm {s t : State} {g : Nat} (a : InGroup s t g) : t.hbm = s.hbm := by rw [a.rest]
theorem InGroup.hostMem {s t : State} {g : Nat} (a : InGroup s t g) : t.hostMem = s.hostMem := by rw [a.rest]
theorem InGroup.cores {s t : State} {g : Nat} (a : InGroup s t g) : t.cores = s.cores := by rw [a.rest]

/-! ### TRAP (14 R328) -/

theorem waveLanes_of_forall {ls : List (Nat × Nat)} {w : Nat} (h : ∀ m ∈ ls, m.2 = w) : waveLanes ls w = ls.map (·.1) := by
  rw [waveLanes, List.filter_eq_self.2 fun m hm => beq_iff_eq.2 (h m hm)]

theorem wavesOf_of_forall {ls : List (Nat × Nat)} {w : Nat} (hne : ls ≠ []) (hw : w < 32) (h : ∀ m ∈ ls, m.2 = w) :
    wavesOf ls = [w] := by
  have hany (v : Nat) : (ls.any fun m => m.2 == v) = (v == w) := by
    obtain ⟨m, hm⟩ := List.exists_mem_of_ne_nil ls hne
    rw [Bool.eq_iff_iff, List.any_eq_true, beq_iff_eq]
    exact ⟨fun ⟨x, hx, hxv⟩ => (beq_iff_eq.1 hxv).symm.trans (h x hx), fun hv => ⟨m, hm, beq_iff_eq.2 ((h m hm).trans hv.symm)⟩⟩
  rw [wavesOf, funext hany, List.filter_beq, List.nodup_range.count, if_pos (List.mem_range.2 hw),
    List.replicate_one]

section
variable {k : Ctl} {s : State}

theorem exec_trap_of_idle (h : actives k s = []) (code : Word) : exec (.trap k code) s = .next (advance s) := by
  show execTrap k code s = _
  unfold execTrap
  exact if_pos (by simp [h])

theorem exec_trap_of_actives (h : actives k s ≠ []) (code : Word) : exec (.trap k code) s = .next (takeTrap s s.cur.g
    { cause := 0x20, lanes := actives k s, rsm := true, pc := s.cur.pc, word := s.cur.word, frm := s.cur.formed }) := by
  show execTrap k code s = _
  unfold execTrap
  exact if_neg (by simp [h])

end

/-! ### The layout of the frame (14 Tables 14-7, 14-8) -/

/-- The bytes of fields of some widths, one after the other. -/
def fieldsBytes (l : List (Nat × Nat)) : List Byte := l.flatMap fun x => toBytes x.1 x.2

theorem length_fieldsBytes (l : List (Nat × Nat)) : (fieldsBytes l).length = (l.map (·.1)).sum := by
  simp [fieldsBytes, List.length_flatMap, length_toBytes]

/-- A field reads back at the sum of the widths before it. -/
theorem ofBytes_fieldsBytes {l : List (Nat × Nat)} {i n x : Nat} (hi : l[i]? = some (n, x)) (rest : List Byte) :
    ofBytes (((fieldsBytes l ++ rest).drop ((l.take i).map (·.1)).sum).take n) = x % 256 ^ n := by
  obtain ⟨hlt, hget⟩ := List.getElem?_eq_some_iff.1 hi
  have hsplit : fieldsBytes l = fieldsBytes (l.take i) ++ (toBytes n x ++ fieldsBytes (l.drop (i + 1))) := by
    have hl : l = l.take i ++ (n, x) :: l.drop (i + 1) := by
      rw [← hget, List.getElem_cons_drop hlt, List.take_append_drop]
    exact (congrArg fieldsBytes hl).trans ((List.flatMap_append).trans (congrArg _ List.flatMap_cons))
  rw [hsplit, List.append_assoc, ← length_fieldsBytes, List.drop_left, List.append_assoc, List.take_left' (length_toBytes n x),
    ofBytes_toBytes]

/-- The fields of the frame before the lane addresses. -/
def frameHead (s : State) (g w : Nat) (t : Trp) : List (Nat × Nat) :=
  [(8, frameWord t w), (8, codeBase s g w + t.pc), (12, t.word.toNat), (4, 0), (4, (maskOf (waveLanes t.lanes w)).toNat),
    (4, (maskOf (waveLanes t.others w)).toNat), (8, (lowAddr t w).toNat), (8, t.log.getD 0xFF), (8, t.count)]

/-- The fields of the frame, each its width and its value. -/
def frameFields (s : State) (g w : Nat) (t : Trp) : List (Nat × Nat) :=
  frameHead s g w t ++ (List.range 32).map fun l => (8, (trapAddr t w l).toNat)

/-- The widths of the frame's fields. -/
def frameWidths : List Nat := [8, 8, 12, 4, 4, 4, 8, 8, 8] ++ List.replicate 32 8

section
variable (s : State) (g w : Nat) (t : Trp)

theorem frameBytes_eq : frameBytes s g w t = fieldsBytes (frameFields s g w t) ++ List.replicate 192 0#8 := by
  simp [frameBytes, frameFields, frameHead, fieldsBytes, List.flatMap_map]

theorem map_fst_frameFields : (frameFields s g w t).map (·.1) = frameWidths := by
  simp [frameFields, frameHead, frameWidths, Function.comp_def, List.map_const']

theorem length_frameBytes : (frameBytes s g w t).length = 512 := by
  rw [frameBytes_eq, List.length_append, length_fieldsBytes, map_fst_frameFields, List.length_replicate]
  decide

theorem ofBytes_frameBytes {i n x off : Nat} (hi : (frameFields s g w t)[i]? = some (n, x)) (hoff : (frameWidths.take i).sum = off) :
    ofBytes (((frameBytes s g w t).drop off).take n) = x % 256 ^ n := by
  rw [← hoff, ← map_fst_frameFields s g w t, ← List.map_take, frameBytes_eq, ofBytes_fieldsBytes hi]

theorem ofBytes_frameBytes_addr {l : Nat} (hl : l < 32) :
    ofBytes (((frameBytes s g w t).drop (64 + 8 * l)).take 8) = (trapAddr t w l).toNat := by
  have hi : (frameFields s g w t)[9 + l]? = some (8, (trapAddr t w l).toNat) := by
    rw [frameFields, List.getElem?_append_right (Nat.le_add_right 9 l),
      show 9 + l - (frameHead s g w t).length = l from Nat.add_sub_cancel_left 9 l]
    simp [hl]
  have hoff : (frameWidths.take (9 + l)).sum = 64 + 8 * l := by
    rw [frameWidths, List.take_append, List.take_of_length_le (Nat.le_add_right 9 l), List.take_replicate, List.sum_append_nat,
      List.sum_replicate_nat, show 9 + l - [8, 8, 12, 4, 4, 4, 8, 8, 8].length = l from Nat.add_sub_cancel_left 9 l,
      Nat.min_eq_left (Nat.le_of_lt hl), Nat.mul_comm]
    rfl
  exact (ofBytes_frameBytes s g w t hi hoff).trans (Nat.mod_eq_of_lt (trapAddr t w l).isLt)

/-- A 32-bit field. -/
theorem ofNat_frameBytes_word {i off : Nat} {x : Word} (hi : (frameFields s g w t)[i]? = some (4, x.toNat))
    (hoff : (frameWidths.take i).sum = off) : BitVec.ofNat 32 (ofBytes (((frameBytes s g w t).drop off).take 4)) = x := by
  rw [ofBytes_frameBytes s g w t hi hoff, show 256 ^ 4 = 2 ^ 32 by decide, Nat.mod_eq_of_lt x.isLt, BitVec.ofNat_toNat, BitVec.setWidth_eq]

/-- A bit of the frame word, which the first field holds. -/
theorem getLsbD_frameBytes {k : Nat} {b : Bool} (hk : k < 64) (h : frameWord t w / 2 ^ k % 2 = b.toNat) :
    (BitVec.ofNat 64 (ofBytes (((frameBytes s g w t).drop 0).take 8))).getLsbD k = b := by
  rw [ofBytes_frameBytes s g w t (i := 0) (off := 0) rfl rfl, show 256 ^ 8 = 2 ^ 64 by decide, BitVec.getLsbD_ofNat,
    Nat.testBit_mod_two_pow, Nat.testBit_eq_decide_div_mod_eq, h]
  cases b <;> simp [hk]

theorem frameBytes_cause : ofBytes (((frameBytes s g w t).drop 0).take 1) = frameWord t w % 256 := ofBytes_toBytes 1 _

theorem frameBytes_sub : ofBytes (((frameBytes s g w t).drop 1).take 1) = frameWord t w / 256 % 256 := ofBytes_toBytes 1 _

end

section
variable {t : Trp} (w : Nat) (hcause : t.cause < 256) (hsub : t.sub < 256)
include hcause hsub

/-- Cause, subcode and flags lie in places of the frame word that do not overlap. -/
theorem frameWord_fields : frameWord t w % 256 = t.cause ∧ frameWord t w / 256 % 256 = t.sub ∧
    frameWord t w / 2 ^ 17 % 2 = t.rsm.toNat ∧ frameWord t w / 2 ^ 18 % 2 = t.inv.toNat ∧ frameWord t w / 2 ^ 19 % 2 = t.frm.toNat ∧
    frameWord t w / 2 ^ 20 % 2 = t.log.isSome.toNat := by
  have hothers := Bool.toNat_lt (!(waveLanes t.others w).isEmpty)
  have hrsm := Bool.toNat_lt t.rsm
  have hinv := Bool.toNat_lt t.inv
  have hfrm := Bool.toNat_lt t.frm
  have hlog := Bool.toNat_lt t.log.isSome
  unfold frameWord
  refine ⟨?_, ?_, ?_, ?_, ?_, ?_⟩ <;> omega

end

/-- Settles O32: a trap whose lanes lie in one home wave is one `enterWave`, which writes the slot and moves the wave's threads to the
handler, or halts the context; the frame's fields read back at the sums of the widths before them. -/
theorem trapEntry : Obligations.TrapEntry := by
  unfold Obligations.TrapEntry
  refine ⟨?_, fun s g w t hcause hsub => ?_⟩
  · intro k code w s act g x c slot tr
    refine ⟨fun hidle => ⟨_, exec_trap_of_idle hidle code, advance_goes s⟩, fun hact => exec_trap_of_actives hact code, ?_⟩
    intro hact hw32 hall hw hctx
    have hlanes : wavesOf tr.lanes = [w] := wavesOf_of_forall hact hw32 hall
    refine ⟨fun hout hbound => ⟨_, exec_trap_of_actives hact code, ?_⟩, fun hin hrun => ⟨_, exec_trap_of_actives hact code, ?_⟩⟩
    · have hwave := wave_takeTrap_enters hw hlanes hout hbound
      have hself : (takeTrap s g tr).wave g w = handlerWave slot c.hentry w tr (s.wave g w) := (hwave w).trans (if_pos rfl)
      have honly := inGroup_takeTrap_enters hw hlanes hout hbound
      refine ⟨?_, ?_, ?_, ?_, fun r h0 h1 => ?_, fun l hl => ?_, fun v hv _ => (hwave v).trans (if_neg hv), fun h hh => ?_,
        honly.hbm, honly.hostMem, honly.cores⟩
      · rw [hself]
        rfl
      · rw [hself, ← waveLanes_of_forall hall]
        exact BitVec.or_zero
      · rw [hself, handlerWave_sr, if_pos rfl]
      · rw [hself, handlerWave_sr, if_neg (by decide), if_pos rfl]
      · rw [hself, handlerWave_sr, if_neg h0, if_neg h1]
      · show (takeTrap s g tr).thread g w l = enterThread c.hentry (s.thread g w l)
        rw [State.thread, hself, handlerWave_thread slot c.hentry w tr _ hl.2, ← State.thread]
      · rw [honly.others h hh, writeSlot_groups]
    · obtain ⟨hhalted, hsame⟩ := takeTrap_halts hw hlanes hin ⟨hctx, hrun⟩
      exact ⟨hhalted.state, fun l _ => by rw [State.thread, hsame, ← State.thread]⟩
  · obtain ⟨hcauseAt, hsubAt, hrsm, hinv, hfrm, hlog⟩ := frameWord_fields w hcause hsub
    have hbit := fun {k b} => getLsbD_frameBytes s g w t (k := k) (b := b)
    exact ⟨length_frameBytes s g w t, (frameBytes_cause s g w t).trans hcauseAt, (frameBytes_sub s g w t).trans hsubAt,
      hbit (by decide) hrsm, hbit (by decide) hinv, hbit (by decide) hfrm, hbit (by decide) hlog,
      ofBytes_frameBytes s g w t (i := 1) rfl rfl,
      (ofBytes_frameBytes s g w t (i := 2) rfl rfl).trans (Nat.mod_eq_of_lt t.word.isLt),
      ofNat_frameBytes_word s g w t (i := 4) rfl rfl, ofNat_frameBytes_word s g w t (i := 5) rfl rfl,
      fun l hl => ofBytes_frameBytes_addr s g w t hl⟩

end Sys2Proof.Machine
